-- ==== Sys2Proof/Word.lean ====
section
/-! DEFINITION. The 16-bit word of the Plant Image Memory, the names of berths and groups, and a bank of eight like things. -/

namespace Sys2Proof

/-- A word is 16 bits (00, Conventions). -/
abbrev Word := BitVec 16

/-- Berths are numbered B0 to B7 (00, Conventions). -/
inductive BerthId where
  | b0 | b1 | b2 | b3 | b4 | b5 | b6 | b7
  deriving DecidableEq, Repr

/-- The berth's number. -/
def BerthId.toNat : BerthId → Nat
  | .b0 => 0 | .b1 => 1 | .b2 => 2 | .b3 => 3 | .b4 => 4 | .b5 => 5 | .b6 => 6 | .b7 => 7

/-- The berth of a number, where there is one. -/
def BerthId.ofNat? : Nat → Option BerthId
  | 0 => some .b0 | 1 => some .b1 | 2 => some .b2 | 3 => some .b3
  | 4 => some .b4 | 5 => some .b5 | 6 => some .b6 | 7 => some .b7
  | _ + 8 => none

/-- All berths, in ascending order. -/
def BerthId.all : List BerthId := [.b0, .b1, .b2, .b3, .b4, .b5, .b6, .b7]

/-- The four group entries (R113). -/
inductive GroupId where
  | g0 | g1 | g2 | g3
  deriving DecidableEq, Repr

/-- The group entry's number. -/
def GroupId.toNat : GroupId → Nat
  | .g0 => 0 | .g1 => 1 | .g2 => 2 | .g3 => 3

/-- The group entry of a number, where there is one. -/
def GroupId.ofNat? : Nat → Option GroupId
  | 0 => some .g0 | 1 => some .g1 | 2 => some .g2 | 3 => some .g3
  | _ + 4 => none

/-- All group entries, in entry order. -/
def GroupId.all : List GroupId := [.g0, .g1, .g2, .g3]

/-- One thing per berth. -/
structure Eight (α : Type) where
  e0 : α
  e1 : α
  e2 : α
  e3 : α
  e4 : α
  e5 : α
  e6 : α
  e7 : α
  deriving DecidableEq, Repr

/-- The same thing for every berth. -/
def Eight.fill {α : Type} (x : α) : Eight α := ⟨x, x, x, x, x, x, x, x⟩

/-- The thing of one berth. -/
def Eight.get {α : Type} (e : Eight α) : BerthId → α
  | .b0 => e.e0 | .b1 => e.e1 | .b2 => e.e2 | .b3 => e.e3
  | .b4 => e.e4 | .b5 => e.e5 | .b6 => e.e6 | .b7 => e.e7

/-- Replace the thing of one berth. -/
def Eight.set {α : Type} (e : Eight α) : BerthId → α → Eight α
  | .b0, x => { e with e0 := x } | .b1, x => { e with e1 := x }
  | .b2, x => { e with e2 := x } | .b3, x => { e with e3 := x }
  | .b4, x => { e with e4 := x } | .b5, x => { e with e5 := x }
  | .b6, x => { e with e6 := x } | .b7, x => { e with e7 := x }

/-- Apply one function to the thing of every berth. -/
def Eight.map {α β : Type} (f : α → β) (e : Eight α) : Eight β :=
  ⟨f e.e0, f e.e1, f e.e2, f e.e3, f e.e4, f e.e5, f e.e6, f e.e7⟩

/-- One thing per group entry. -/
structure Four (α : Type) where
  e0 : α
  e1 : α
  e2 : α
  e3 : α
  deriving DecidableEq, Repr

/-- The same thing for every group entry. -/
def Four.fill {α : Type} (x : α) : Four α := ⟨x, x, x, x⟩

/-- The thing of one group entry. -/
def Four.get {α : Type} (e : Four α) : GroupId → α
  | .g0 => e.e0 | .g1 => e.e1 | .g2 => e.e2 | .g3 => e.e3

/-- Replace the thing of one group entry. -/
def Four.set {α : Type} (e : Four α) : GroupId → α → Four α
  | .g0, x => { e with e0 := x } | .g1, x => { e with e1 := x }
  | .g2, x => { e with e2 := x } | .g3, x => { e with e3 := x }

end Sys2Proof
end

