-- ==== Sys2Proof/Config.lean ====
section
/-! DEFINITION. What one installation fixes: the tables that the configuration image fills and that stay fixed from
entry to RUNNING until the next reset (R160, R165). They are part of State because a reset discards them and the
Image Loader builds them anew. The model leaves no value to an opaque constant: what the manual leaves open is an
operand of a command or the order of the commands (log 2, 6, 9, 10). -/

namespace Sys2Proof

/-- The two modes of a berth (R8). -/
inductive Mode where
  | auto | manual
  deriving DecidableEq, Repr

/-- Transfer kind: CLOSED or OPEN transition (R2). -/
inductive TransferKind where
  | closedTransition | openTransition
  deriving DecidableEq, Repr

/-- The static part of a Berth Record (R2, R3). The berth number is the place in the bank. -/
structure BerthStatic where
  defaultMode : Mode
  transferKind : TransferKind
  autoRelease : Bool
  baseCredits : Nat
  uvIndex : Nat
  ovIndex : Nat
  deadBusIndex : Nat
  syncMaxFreq : Nat
  syncMaxAngle : Nat
  syncMaxVolt : Nat
  syncPersistence : Nat
  uvOvPersistence : Nat
  staleLimit : Nat
  quietRequired : Nat
  engageLimit : Nat
  breakerConfirm : Nat
  settle : Nat
  syncLimit : Nat
  deadBusLimit : Nat
  overlapLimit : Nat
  holdLimit : Nat
  deriving DecidableEq, Repr

/-- No static part: the place of a berth numbered N or above, and of every berth before the image is installed. -/
def BerthStatic.blank : BerthStatic :=
  { defaultMode := .auto, transferKind := .closedTransition, autoRelease := false, baseCredits := 0,
    uvIndex := 0, ovIndex := 0, deadBusIndex := 0, syncMaxFreq := 0, syncMaxAngle := 0, syncMaxVolt := 0,
    syncPersistence := 0, uvOvPersistence := 0, staleLimit := 0, quietRequired := 0,
    engageLimit := 0, breakerConfirm := 0, settle := 0, syncLimit := 0, deadBusLimit := 0,
    overlapLimit := 0, holdLimit := 0 }

/-- An entry of the Level Table (R93). -/
structure LevelEntry where
  valid : Bool
  credits : Nat
  limit : Word
  activity : Nat
  upResidency : Nat
  downIdle : Nat
  deriving DecidableEq, Repr

/-- An entry that is not valid. -/
def LevelEntry.blank : LevelEntry :=
  { valid := false, credits := 0, limit := 0, activity := 0, upResidency := 0, downIdle := 0 }

/-- The kinds of window of the Window Table (R134). -/
inductive WindowKind where
  | command | request | field | group | log
  deriving DecidableEq, Repr

/-- A window: its kind, its base address and its index (R134). The index 15 of a FIELD window is the feeder. -/
structure Window where
  kind : WindowKind
  index : Nat
  base : Nat
  deriving DecidableEq, Repr

/-- An entry of the Group Table: member set and blocked set, bit k for Bk (R113). -/
structure GroupEntry where
  members : BitVec 8
  blocked : BitVec 8
  deriving DecidableEq, Repr

/-- Everything the image installs (R160). -/
structure Tables where
  baseFPeriod : Nat
  ns : Nat
  scanPeriod : Nat
  n : Nat
  statics : Eight BerthStatic
  thresholds : List (Option Nat)
  levels : List LevelEntry
  ccfg : Nat
  reserve : Nat
  highLoad : Nat
  lowLoad : Nat
  windows : List (Option Window)
  groups : Four GroupEntry
  logCapacity : Nat
  deriving DecidableEq, Repr

/-- No image installed: from reset until a load passes every check (R165), and in BLOCKED (R164). -/
def Tables.blank : Tables :=
  { baseFPeriod := 0, ns := 0, scanPeriod := 0, n := 0, statics := Eight.fill BerthStatic.blank,
    thresholds := [], levels := [], ccfg := 0, reserve := 0, highLoad := 0, lowLoad := 0,
    windows := [], groups := Four.fill { members := 0, blocked := 0 }, logCapacity := 0 }

/-- The image is 258 words long (12.5). -/
def imageLength : Nat := 258

/-- The staging list holds at most 8 records (R154). -/
def stagingCapacity : Nat := 8

/-- The host streak's bound in the grant order (R144). -/
def streakLimit : Nat := 4

/-- The feeder block's fixed stale limit, in passes (R59). -/
def feederStaleLimit : Nat := 3

/-- The address of the start-up word (R163). -/
def startupAddress : Word := 0xFFFF

end Sys2Proof
end

