-- ==== Sys2Proof/Syntax.lean ====
section
/-! DEFINITION. The commands: one constructor per row of spec/opcode_table.json, with the row's operands. -/

namespace Sys2Proof

/-- The fields of a REQ or GROUP_REQ word beside its code (12.3): toggle (bit 15), the ignored bits 14 to 12, operand
(bits 7 to 0). -/
structure ReqBits where
  toggle : Bool
  spare : BitVec 3
  operand : BitVec 8
  deriving DecidableEq, Repr

/-- The two breaker words of a COMMAND window that the Manual Guard can hold (R117). -/
inductive BreakerWord where
  | shoreBkr | shipconBkr
  deriving DecidableEq, Repr

/-- The steps of the part, each whole and indivisible (95_what_each_step_holds.md). An operand `station` is the word
that the plant I/O station has written at the FIELD word being read since the part last accessed it, or none (log 2). -/
inductive Instr where
  /-- RESET_ASSERT (R162). `landed`: a write of the part in progress at the port reached memory (R141). -/
  | resetAssert (landed : Bool)
  /-- RESET_RELEASE (R162). -/
  | resetRelease
  /-- IMAGE_WORD_READ (R160): the flash gives one word of the image. -/
  | imageWordRead (word : Word)
  /-- STARTUP_REQ_READ (R165). A REQ word is no FIELD word, so the operand has no effect (log 2). -/
  | startupReqRead (station : Option Word)
  /-- REQ_CONNECT (R28). -/
  | reqConnect (b : BerthId) (q : ReqBits)
  /-- REQ_TRANSFER (R34). -/
  | reqTransfer (b : BerthId) (q : ReqBits)
  /-- REQ_RETURN (R40). -/
  | reqReturn (b : BerthId) (q : ReqBits)
  /-- REQ_DISCONNECT (R44). -/
  | reqDisconnect (b : BerthId) (q : ReqBits)
  /-- REQ_SET_LEVEL (R95). -/
  | reqSetLevel (b : BerthId) (q : ReqBits)
  /-- REQ_SET_MODE (R111). -/
  | reqSetMode (b : BerthId) (q : ReqBits)
  /-- REQ_RELEASE (R112). -/
  | reqRelease (b : BerthId) (q : ReqBits)
  /-- REQ_ABORT (R47). -/
  | reqAbort (b : BerthId) (q : ReqBits)
  /-- REQ_NONE (R107). -/
  | reqNone (b : BerthId) (q : ReqBits)
  /-- REQ_INVALID_CODE (R107). -/
  | reqInvalidCode (b : BerthId) (code : BitVec 4) (q : ReqBits)
  /-- GROUP_CONNECT (R114). -/
  | groupConnect (g : GroupId) (q : ReqBits)
  /-- GROUP_TRANSFER (R114). -/
  | groupTransfer (g : GroupId) (q : ReqBits)
  /-- GROUP_RETURN (R114). -/
  | groupReturn (g : GroupId) (q : ReqBits)
  /-- GROUP_DISCONNECT (R114). -/
  | groupDisconnect (g : GroupId) (q : ReqBits)
  /-- GROUP_SET_LEVEL (R114). -/
  | groupSetLevel (g : GroupId) (q : ReqBits)
  /-- GROUP_ABORT (R114). -/
  | groupAbort (g : GroupId) (q : ReqBits)
  /-- GROUP_INVALID (R114). -/
  | groupInvalid (g : GroupId) (code : BitVec 4) (q : ReqBits)
  /-- SHORE_BKR_CLOSE (R119). -/
  | shoreBkrClose (b : BerthId)
  /-- SHIPCON_BKR_CLOSE (R122). -/
  | shipconBkrClose (b : BerthId)
  /-- BKR_WRITE_OPEN (R118). -/
  | bkrWriteOpen (b : BerthId) (w : BreakerWord)
  /-- BKR_WRITE_NONE (R118). -/
  | bkrWriteNone (b : BerthId) (w : BreakerWord)
  /-- BKR_WRITE_INVALID_VALUE (R118). -/
  | bkrWriteInvalidValue (b : BerthId) (w : BreakerWord) (value : Word)
  /-- GEN_RELEASE_WRITE (R118). -/
  | genReleaseWrite (b : BerthId) (value : Word)
  /-- CONSUMER_WRITE (R157). -/
  | consumerWrite (value : Word)
  /-- HOST_WRITE (R136). -/
  | hostWrite (address value : Word)
  /-- PORT_GRANT (R144). `read`: the address of a host read that has arrived since the last command, if one has (log 8).
  `readFirst`: the Image Loader presents its read before a rewrite of the start-up word (log 9). -/
  | portGrant (read : Option Word) (station : Option Word) (readFirst : Bool)
  /-- OWN_WRITE_CARRIED (R141). -/
  | ownWriteCarried
  /-- HOST_WRITE_CARRIED (R142). -/
  | hostWriteCarried
  /-- BASE_F_TICK (R147): a tick falls. The channels' counts are decremented each in its own event (log 7). -/
  | baseFTick
  /-- BASE_S_TICK (R147). -/
  | baseSTick
  /-- SCAN_TICK (R52). -/
  | scanTick
  /-- STEP_EXPIRY (R150): the tick reaches the berth's Step count, and expires it where that comes to 0 (log 7). -/
  | stepExpiry (b : BerthId)
  /-- SETTLE_EXPIRY (R33, R150): the tick reaches the berth's Settle count (log 7). -/
  | settleExpiry (b : BerthId)
  /-- HOLD_EXPIRY (R126): the tick reaches the counts of the berth's held writes (log 7). -/
  | holdExpiry (b : BerthId)
  /-- SCAN_READ_COMPLETE (R54). -/
  | scanReadComplete (station : Option Word)
  /-- LOG_WRITE_COMPLETE (R156). -/
  | logWriteComplete
  /-- MAINT_ASSERT (R151). -/
  | maintAssert
  /-- MAINT_RELEASE (R152). -/
  | maintRelease
  deriving DecidableEq, Repr

end Sys2Proof
end

