-- ==== Sys2Proof/WellFormed.lean ====
section
/-! DEFINITION. Which commands are the row they name: the codes and values that a row's name promises. -/

namespace Sys2Proof

/-- A code field of 9 to 15 is no request code (R169). -/
def isUnknownCode (code : BitVec 4) : Bool := decide (9 ≤ code.toNat)

/-- The codes a group fans out: CONNECT, TRANSFER, RETURN, DISCONNECT, SET_LEVEL, ABORT (R114, 12.1). -/
def isGroupCode (code : BitVec 4) : Bool :=
  decide (1 ≤ code.toNat ∧ code.toNat ≤ 5) || code == 8

/-- The values that are NONE, OPEN or CLOSE, compared whole (R169). -/
def isBreakerCommand (value : Word) : Bool := decide (value.toNat ≤ 2)

/-- A command is well formed when its operands are those of the row it is named after. -/
def Instr.wf : Instr → Bool
  | .resetAssert _ => true
  | .resetRelease => true
  | .imageWordRead _ => true
  | .startupReqRead _ => true
  | .reqConnect _ _ => true
  | .reqTransfer _ _ => true
  | .reqReturn _ _ => true
  | .reqDisconnect _ _ => true
  | .reqSetLevel _ _ => true
  | .reqSetMode _ _ => true
  | .reqRelease _ _ => true
  | .reqAbort _ _ => true
  | .reqNone _ _ => true
  | .reqInvalidCode _ code _ => isUnknownCode code
  | .groupConnect _ _ => true
  | .groupTransfer _ _ => true
  | .groupReturn _ _ => true
  | .groupDisconnect _ _ => true
  | .groupSetLevel _ _ => true
  | .groupAbort _ _ => true
  | .groupInvalid _ code _ => !isGroupCode code
  | .shoreBkrClose _ => true
  | .shipconBkrClose _ => true
  | .bkrWriteOpen _ _ => true
  | .bkrWriteNone _ _ => true
  | .bkrWriteInvalidValue _ _ value => !isBreakerCommand value
  | .genReleaseWrite _ _ => true
  | .consumerWrite _ => true
  | .hostWrite _ _ => true
  | .portGrant _ _ _ => true
  | .ownWriteCarried => true
  | .hostWriteCarried => true
  | .baseFTick => true
  | .baseSTick => true
  | .scanTick => true
  | .stepExpiry _ => true
  | .settleExpiry _ => true
  | .holdExpiry _ => true
  | .scanReadComplete _ => true
  | .logWriteComplete => true
  | .maintAssert => true
  | .maintRelease => true

end Sys2Proof
end

