-- ==== Sys2Proof/Decode.lean ====
section
/-! DEFINITION. The commands that a word spells by the opcode table's bits. No row of spec/opcode_table.json gives bits
(the part has no instruction words), so no word spells a command. The words of the part's own formats (REQ, RSP,
records, the image) are decoded in Machine/Operands.lean and Machine/Image.lean. -/

namespace Sys2Proof

/-- No row of the table gives bits: no word spells a command. -/
def decodeTableWord (_nbits _w : Nat) : Option Instr := none

end Sys2Proof
end

