-- ==== Sys2Proof/Machine/State.lean ====
section
/-! DEFINITION. The state of the AF2408 and of the Plant Image Memory behind it, as plain data; the reasons a step can
stop; the state right after reset. -/

namespace Sys2Proof.Machine

/-! ## Named values (12.1) -/

/-- The phases of the part: RESET asserted, and the three part states LOADING, RUNNING, BLOCKED (R162 to R165). -/
inductive Phase where
  | resetHeld | loading | running | blocked
  deriving DecidableEq, Repr

/-- Error codes of the start-up word (R161). -/
inductive ErrorCode where
  | none | badMarker | badLength | badCheck | badWindow | badBerth | badLevel | badThreshold | badGroup | badTimer
  deriving DecidableEq, Repr

/-- The fifteen states of a berth (R10). -/
inductive BState where
  | adopting | vacant | cabled | engaging | energizing | energized | syncing | deadbus | parallel | shore
  | resyncing | unparallel | separating | disengaging | lockout
  deriving DecidableEq, Repr

/-- Breaker positions (12.1). -/
inductive Position where
  | open | closed | moving | fault
  deriving DecidableEq, Repr

/-- The converter of the feeder FSB (12.1); any other word is taken as FAULT (R168). -/
inductive Converter where
  | stopped | running | fault
  deriving DecidableEq, Repr

/-- Request codes (12.1). -/
inductive ReqCode where
  | none | connect | transfer | return | disconnect | setLevel | setMode | release | abort
  deriving DecidableEq, Repr

/-- Results (06, section 6.3). -/
inductive Result where
  | none | done | busy | refused | invalid | timeout | nosync | overlap | aborted | tripped | nobudget | toosoon
  | maint | cable
  deriving DecidableEq, Repr

/-- Answer phase (R105). -/
inductive AnswerPhase where
  | pending | final
  deriving DecidableEq, Repr

/-- A set of fault flags (R66), bit order of 12.1. -/
structure FaultSet where
  uv : Bool
  ov : Bool
  earth : Bool
  pilot : Bool
  bkr : Bool
  stale : Bool
  deriving DecidableEq, Repr

/-- The empty fault set. -/
def FaultSet.empty : FaultSet :=
  { uv := false, ov := false, earth := false, pilot := false, bkr := false, stale := false }

/-! ## The Berth Record (R4, R5, R105) -/

/-- The latest scan result (R5). -/
structure ScanResult where
  shore : Position
  shipcon : Position
  gens : Position
  pilot : Bool
  earth : Bool
  ready : Bool
  vShore : Nat
  vShip : Nat
  fDiff : Int
  angle : Int
  load : Nat
  deriving DecidableEq, Repr

/-- The in-progress request: code, toggle, operand (R4). The operand is absent for the codes that read none. -/
structure InProgress where
  code : ReqCode
  toggle : Bool
  operand : Option (BitVec 8)
  deriving DecidableEq, Repr

/-- The dynamic part of a Berth Record (R4), with the answer phase and result of the Request Intake (R105). -/
structure Berth where
  mode : Mode
  state : BState
  settling : Bool
  closeIssued : Bool
  openingIssued : Bool
  request : Option InProgress
  lastTaken : Bool
  answered : Bool
  phase : AnswerPhase
  result : Result
  baseGrant : Nat
  level : Nat
  residency : Nat
  idle : Nat
  syncCount : Nat
  latest : Option ScanResult
  deriving DecidableEq, Repr

/-- The start-up values of R22, before the mode and the toggle are known. It also stands for "no record" (log 22). -/
def Berth.blank : Berth :=
  { mode := .auto, state := .adopting, settling := false, closeIssued := false, openingIssued := false,
    request := none, lastTaken := false, answered := false, phase := .final, result := .none,
    baseGrant := 0, level := 0, residency := 0, idle := 0, syncCount := 0, latest := none }

/-- The supervision record of a berth (R66). -/
structure Supervision where
  uvCount : Nat
  ovCount : Nat
  sticky : FaultSet
  quiet : Nat
  release : Bool
  deriving DecidableEq, Repr

/-- The values of R66 on entry to RUNNING. -/
def Supervision.blank : Supervision :=
  { uvCount := 0, ovCount := 0, sticky := FaultSet.empty, quiet := 0, release := false }

/-! ## Timer Bank (R147, R148) -/

/-- The two tick bases. -/
inductive TickBase where
  | f | s
  deriving DecidableEq, Repr

/-- Channel status (R148). -/
inductive ChanStatus where
  | idle | running | frozen
  deriving DecidableEq, Repr

/-- A channel timer (R148). -/
structure Channel where
  status : ChanStatus
  base : TickBase
  count : Nat
  freezable : Bool
  deriving DecidableEq, Repr

/-- An IDLE channel. -/
def Channel.idle : Channel :=
  { status := .idle, base := .f, count := 0, freezable := false }

/-- The two channels of a berth (R148). -/
structure Channels where
  step : Channel
  settle : Channel
  deriving DecidableEq, Repr

/-- Both channels IDLE. -/
def Channels.blank : Channels := { step := Channel.idle, settle := Channel.idle }

/-- The counts of a berth that the tick under way has still to reach (R147; the model's own marks, log 6): the Step channel as
a base F and as a base S tick, the Settle channel, whose base is F, and the held writes, whose base is S. -/
structure Owed where
  stepF : Bool
  stepS : Bool
  settle : Bool
  hold : Bool
  deriving DecidableEq, Repr

/-- The tick under way has reached every count of the berth. -/
def Owed.none : Owed := { stepF := false, stepS := false, settle := false, hold := false }

/-- Timer Bank: the counter that selects the base S ticks, its own decrement by the tick under way where that brings it to 0
(`sDue`, log 6), the sampled MAINT, and the counts that the tick under way has still to reach (R147, R151). -/
structure TimerBank where
  divider : Nat
  sDue : Bool
  maint : Bool
  owed : Eight Owed
  deriving DecidableEq, Repr

/-! ## Scan Engine (R51) -/

/-- Block status (R51). -/
inductive BlockStatus where
  | unseen | baseline | accepting
  deriving DecidableEq, Repr

/-- What the Scan Engine holds of one block (R51). -/
structure BlockScan where
  status : BlockStatus
  reference : Option Word
  stale : Nat
  deriving DecidableEq, Repr

/-- A block on entry to RUNNING (R51). -/
def BlockScan.blank : BlockScan := { status := .unseen, reference := none, stale := 0 }

/-- The blocks of a pass (R53). -/
inductive Block where
  | feeder
  | berth (b : BerthId)
  deriving DecidableEq, Repr

/-- A pass in flight: the block being read and the words of it read so far, whose number is the read position (R51, R54). -/
structure Pass where
  block : Block
  words : List Word
  deriving DecidableEq, Repr

/-- Scan Engine (R51). `tickDue` is the model's own mark: the tick that takes the scan timer to 0 has fallen and the
scan tick has not been taken yet (log 6). -/
structure ScanEngine where
  pass : Option Pass
  timer : Nat
  tickDue : Bool
  overrunReported : Bool
  passNumber : Word
  feeder : BlockScan
  feederStale : Bool
  deriving DecidableEq, Repr

/-! ## Budget Unit (R84) -/

/-- Claim kinds, a LEVEL claim with its target level (R88). -/
inductive ClaimKind where
  | engage
  | level (target : Nat)
  deriving DecidableEq, Repr

/-- A claim of the Budget Wait Queue (R88). -/
structure Claim where
  berth : BerthId
  kind : ClaimKind
  credits : Nat
  deriving DecidableEq, Repr

/-- Budget Unit (R84). The granted total is computed (`State.granted`, log 11). `serviceDue` and `testDue` are the
model's own marks of the event under way: a service pass, and the OVERCOMMIT test, end it (R91, R103, log 23). -/
structure Budget where
  capacity : Nat
  claims : List Claim
  stack : List BerthId
  highCount : Nat
  shedding : Bool
  overcommit : Bool
  serviceDue : Bool
  testDue : Bool
  deriving DecidableEq, Repr

/-! ## Manual Guard (R117) -/

/-- Why a write is held (R117). -/
inductive HoldReason where
  | budget | sync
  deriving DecidableEq, Repr

/-- A Hold Queue entry (R117). -/
structure Hold where
  address : Word
  berth : BerthId
  word : BreakerWord
  data : Word
  reason : HoldReason
  count : Nat
  deriving DecidableEq, Repr

/-! ## Memory path (R133, R138, R141, R144, R145) -/

/-- Classes of own writes (R138). -/
inductive WriteClass where
  | trip | seq | report
  deriving DecidableEq, Repr

/-- An Own Write Queue entry (R138). -/
structure OwnWrite where
  address : Word
  data : Word
  cls : WriteClass
  berth : Option BerthId
  deriving DecidableEq, Repr

/-- The host access in progress (R133): a read, or a passed write. -/
inductive HostAccess where
  | read (address : Word)
  | write (address data : Word)
  deriving DecidableEq, Repr

/-- The words the Image Loader reads at start-up (R165). -/
inductive StartRead where
  | req (b : BerthId)
  | groupReq (g : GroupId)
  deriving DecidableEq, Repr

/-- The header words of the LOG window (R154). -/
inductive HeaderWord where
  | status | producer | consumer | granted | capacity
  deriving DecidableEq, Repr

/-- What a Log Unit access writes (R154, R156). -/
inductive LogWrite where
  | firstHeader (h : HeaderWord)
  | recordWord (i : Nat)
  | producerWord
  | headerWord (h : HeaderWord)
  deriving DecidableEq, Repr

/-- An access in progress at the memory port (R141, R144). Host reads and start-up word writes complete in the grant (log 8). -/
inductive PortAccess where
  | hostWrite (address data : Word)
  | ownWrite (w : OwnWrite)
  | startRead (r : StartRead)
  | scanRead (address : Word)
  | logWrite (k : LogWrite) (address data : Word)
  deriving DecidableEq, Repr

/-- Host port and memory port: the host access in progress, the word last returned to the host (absent until a read has been
answered, log 24), the access in progress at the memory port, and the host streak (R145). -/
structure Ports where
  host : Option HostAccess
  hostData : Option Word
  busy : Option PortAccess
  streak : Nat
  deriving DecidableEq, Repr

/-! ## Log Unit (R154, R155) -/

/-- Record types (12.1). -/
inductive RecType where
  | restart | sink | state | trip | recovered | requestFinal | shed | levelIdle | overcommit | holdExpired
  | holdCancelled | manualNoclose | adopted | scanOverrun | feederStale | overflow
  deriving DecidableEq, Repr

/-- A log record (R155). -/
structure Record where
  type : RecType
  berth : Option BerthId
  qualifier : BitVec 3
  detailA : Word
  detailB : Word
  stamp : Word
  deriving DecidableEq, Repr

/-- The Log Unit (R154). `firstHeaders` are the header words that the log's beginning still has to write; `wordIndex` is
the next word of the head record (R156). -/
structure Log where
  capacity : Nat
  producer : Nat
  consumer : Nat
  staging : List Record
  wordIndex : Nat
  producerWaiting : Bool
  firstHeaders : List HeaderWord
  statusPending : Bool
  grantedPending : Bool
  capacityPending : Bool
  overflow : Bool
  dropCount : Nat
  deriving DecidableEq, Repr

/-- No log (R154: from reset through LOADING until the image is accepted, and in BLOCKED). -/
def Log.blank : Log :=
  { capacity := 0, producer := 0, consumer := 0, staging := [], wordIndex := 0, producerWaiting := false,
    firstHeaders := [], statusPending := false, grantedPending := false, capacityPending := false,
    overflow := false, dropCount := 0 }

/-! ## Image Loader (R160 to R165) -/

/-- The Image Loader: the words read so far, oldest first; the start-up word write waiting; whether that write is the one of
entry to LOADING, the Image Loader's first access (R162); the start-up reads still to make, the one in progress at the head. -/
structure Loader where
  words : List Word
  startupWaiting : Bool
  firstWaiting : Bool
  reads : List StartRead
  error : ErrorCode
  reportedN : Nat
  discarded : Bool
  deriving DecidableEq, Repr

/-! ## The whole -/

/-- The Plant Image Memory: word addresses and words, addresses strictly rising, no entry equal to what an unlisted
address reads as (log 1). The PIM's smallest unit is the word (00, Conventions). -/
abbrev Memory := List (Nat × Word)

/-- What an unlisted address of the PIM reads as (DESIGN CHOICE, log 1: the manual gives no contents at power-on). -/
def Memory.unlisted : Word := 0

/-- Keys strictly rising from a lower bound, all below 65,536, and no value equal to the unlisted one. -/
def Memory.wfFrom (low : Nat) : Memory → Bool
  | [] => true
  | (a, w) :: rest => decide (low ≤ a) && decide (a < 65536) && decide (w ≠ Memory.unlisted) && Memory.wfFrom (a + 1) rest

/-- The canonical form of the PIM. -/
def Memory.wf (m : Memory) : Bool := Memory.wfFrom 0 m

/-- The state of the machine. -/
structure State where
  /-- the commands waiting, first in, first out (the model's own) -/
  pending : List Instr
  phase : Phase
  /-- level of the MAINT input line -/
  maintPin : Bool
  pim : Memory
  /-- the FIELD windows of the image installed last, whose words the plant I/O station writes; none before any (the model's own, log 2) -/
  plant : Option (List Window)
  loader : Loader
  tables : Tables
  berths : Eight Berth
  sups : Eight Supervision
  chans : Eight Channels
  blocks : Eight BlockScan
  timer : TimerBank
  scan : ScanEngine
  budget : Budget
  holds : List Hold
  groupTaken : Four Bool
  owq : List OwnWrite
  ports : Ports
  log : Log
  deriving DecidableEq, Repr

/-- No meaning stops the machine with a fault: the manual names no event that does (INVENTORY, Faults). -/
inductive Fault where
  deriving DecidableEq, Repr

/-- Why a step can be refused. -/
inductive Refusal where
  /-- raised by an arm of exec whose command has no meaning yet; safe -/
  | notModelled (mnemonic : String)
  deriving DecidableEq, Repr

/-- The Timer Bank before entry to RUNNING (R147, R151): no base ticks, MAINT not sampled. -/
def TimerBank.blank : TimerBank := { divider := 0, sDue := false, maint := false, owed := Eight.fill Owed.none }

/-- The Scan Engine before entry to RUNNING (R51). -/
def ScanEngine.blank : ScanEngine :=
  { pass := none, timer := 0, tickDue := false, overrunReported := false, passNumber := 0,
    feeder := BlockScan.blank, feederStale := false }

/-- The Budget Unit on a good image (R84), and before one. -/
def Budget.blank : Budget :=
  { capacity := 0, claims := [], stack := [], highCount := 0, shedding := false, overcommit := false,
    serviceDue := false, testDue := false }

/-- The ports after a reset (R133, R145). -/
def Ports.blank : Ports := { host := none, hostData := none, busy := none, streak := 0 }

/-- The Image Loader while RESET is asserted (R162). -/
def Loader.blank : Loader :=
  { words := [], startupWaiting := false, firstWaiting := false, reads := [], error := .none, reportedN := 0, discarded := false }

/-- All part state lost (R162): what RESET_ASSERT leaves over a given command queue, MAINT line, PIM and plant. -/
def State.lost (pending : List Instr) (maintPin : Bool) (pim : Memory) (plant : Option (List Window)) : State :=
  { pending := pending, phase := .resetHeld, maintPin := maintPin, pim := pim, plant := plant, loader := Loader.blank,
    tables := Tables.blank, berths := Eight.fill Berth.blank, sups := Eight.fill Supervision.blank,
    chans := Eight.fill Channels.blank, blocks := Eight.fill BlockScan.blank, timer := TimerBank.blank,
    scan := ScanEngine.blank, budget := Budget.blank, holds := [], groupTaken := Four.fill false,
    owq := [], ports := Ports.blank, log := Log.blank }

/-- The machine right after power-on reset: LOADING, with the Image Loader's first start-up word write waiting (R162, log 5). -/
def State.reset : State :=
  { State.lost [] false [] none with
    phase := .loading
    loader := { Loader.blank with startupWaiting := true, firstWaiting := true } }

end Sys2Proof.Machine
end

