-- ==== Sys2Proof/Machine/Operands.lean ====
section
/-! DEFINITION. The fields of every word the part reads or writes (12), and the classing of PIM addresses by the Window
Table (R134). -/

namespace Sys2Proof.Machine

/-- A Bool as a word's bit 0. -/
def bit (b : Bool) : Nat := if b then 1 else 0

/-! ## Encodings of named values (12.1) -/

/-- Breaker position of a 2-bit code (12.1, R168: every code has a meaning). -/
def Position.ofCode (c : Nat) : Position :=
  match c with
  | 0 => .open
  | 1 => .closed
  | 2 => .moving
  | _ => .fault

/-- Breaker command NONE (12.1). -/
def cmdNone : Word := 0
/-- Breaker command OPEN (12.1). -/
def cmdOpen : Word := 1
/-- Breaker command CLOSE (12.1). -/
def cmdClose : Word := 2
/-- GEN_RELEASE = HOLD (12.1). -/
def genHold : Word := 0
/-- GEN_RELEASE = RELEASE (12.1). -/
def genRelease : Word := 1

/-- Mode encoding (12.1). -/
def modeCode : Mode → Nat
  | .auto => 0
  | .manual => 1

/-- Converter word, compared whole; any other word is FAULT (R168). -/
def Converter.ofWord (w : Word) : Converter :=
  if w = 0 then .stopped else if w = 1 then .running else .fault

/-- Berth state encoding (12.1). -/
def BState.code : BState → Nat
  | .adopting => 0 | .vacant => 1 | .cabled => 2 | .engaging => 3 | .energizing => 4 | .energized => 5
  | .syncing => 6 | .deadbus => 7 | .parallel => 8 | .shore => 9 | .resyncing => 10 | .unparallel => 11
  | .separating => 12 | .disengaging => 13 | .lockout => 14

/-- Request code encoding (12.1). -/
def ReqCode.code : ReqCode → BitVec 4
  | .none => 0 | .connect => 1 | .transfer => 2 | .return => 3 | .disconnect => 4 | .setLevel => 5
  | .setMode => 6 | .release => 7 | .abort => 8

/-- Request code of a code field; 9 to 15 is none of them (R169). -/
def ReqCode.ofCode? (c : BitVec 4) : Option ReqCode :=
  match c.toNat with
  | 0 => some .none
  | 1 => some .connect
  | 2 => some .transfer
  | 3 => some .return
  | 4 => some .disconnect
  | 5 => some .setLevel
  | 6 => some .setMode
  | 7 => some .release
  | 8 => some .abort
  | _ => Option.none

/-- Result encoding (12.1). -/
def Result.code : Result → Nat
  | .none => 0 | .done => 1 | .busy => 2 | .refused => 3 | .invalid => 4 | .timeout => 5 | .nosync => 6
  | .overlap => 7 | .aborted => 8 | .tripped => 9 | .nobudget => 10 | .toosoon => 11 | .maint => 12 | .cable => 13

/-- Answer phase encoding (12.1). -/
def AnswerPhase.code : AnswerPhase → Nat
  | .pending => 0
  | .final => 1

/-- Fault flags as a set (12.1). -/
def FaultSet.code (f : FaultSet) : Nat :=
  bit f.uv + 2 * bit f.ov + 4 * bit f.earth + 8 * bit f.pilot + 16 * bit f.bkr + 32 * bit f.stale

/-- Part state encoding (12.1). While RESET is held no part state is written anywhere. -/
def Phase.code : Phase → Nat
  | .resetHeld => 0
  | .loading => 0
  | .running => 1
  | .blocked => 2

/-- Error code encoding (12.1). -/
def ErrorCode.code : ErrorCode → Nat
  | .none => 0 | .badMarker => 1 | .badLength => 2 | .badCheck => 3 | .badWindow => 4 | .badBerth => 5
  | .badLevel => 6 | .badThreshold => 7 | .badGroup => 8 | .badTimer => 9

/-- Record type encoding (12.1). -/
def RecType.code : RecType → Nat
  | .restart => 0 | .sink => 1 | .state => 2 | .trip => 3 | .recovered => 4 | .requestFinal => 5 | .shed => 6
  | .levelIdle => 7 | .overcommit => 8 | .holdExpired => 9 | .holdCancelled => 10 | .manualNoclose => 11
  | .adopted => 12 | .scanOverrun => 13 | .feederStale => 14 | .overflow => 15

/-- Sink reasons (R137). -/
inductive SinkReason where
  | owned | field | guard | range
  deriving DecidableEq, Repr

/-- Sink reason encoding; the value 3 is not used (12.1). -/
def SinkReason.code : SinkReason → BitVec 3
  | .owned => 0
  | .field => 1
  | .guard => 2
  | .range => 4

/-! ## Request words (12.3) -/

/-- The REQ or GROUP_REQ word of a code and its other fields (12.3). -/
def reqWord (code : BitVec 4) (q : ReqBits) : Word :=
  BitVec.ofNat 16 (bit q.toggle * 32768 + q.spare.toNat * 4096 + code.toNat * 256 + q.operand.toNat)

/-- Bit 15: the toggle (12.3). -/
def toggleOf (w : Word) : Bool := w.getLsbD 15

/-- Bits 11 to 8: the request code (12.3). -/
def codeOf (w : Word) : BitVec 4 := w.extractLsb' 8 4

/-- Bits 7 to 0: the operand (12.3). -/
def operandOf (w : Word) : BitVec 8 := w.extractLsb' 0 8

/-- An ended request laid out as a REQ word, for REQUEST_FINAL detail A (12.4); an absent operand leaves 0 (log 19). -/
def InProgress.word (r : InProgress) : Word :=
  reqWord r.code.code { toggle := r.toggle, spare := 0, operand := r.operand.getD 0 }

/-- The RSP word, composed whole from the record's current values (R20, 12.3). -/
def rspWord (r : Berth) : Word :=
  BitVec.ofNat 16
    (bit r.answered * 32768 + r.phase.code * 16384 + r.result.code * 1024 + r.state.code * 64
      + modeCode r.mode * 32 + (r.level % 8) * 4)

/-- The GROUP_RSP word: answered toggle, result, and the counts taken, refused, blocked (R116, 12.3). -/
def groupRspWord (toggle : Bool) (result : Result) (taken refused blocked : Nat) : Word :=
  BitVec.ofNat 16
    (bit toggle * 32768 + (result.code % 8) * 4096 + (taken % 16) * 256 + (refused % 16) * 16 + blocked % 16)

/-! ## Field status blocks (12.2, R168) -/

/-- The latest scan result of a berth block's words 1 to 7 (R168). Unused bits are ignored. -/
def ScanResult.ofWords (breakers cable vShore vShip fDiff angle load : Word) : ScanResult :=
  { shore := Position.ofCode (breakers.toNat % 4)
    shipcon := Position.ofCode (breakers.toNat / 4 % 4)
    gens := Position.ofCode (breakers.toNat / 16 % 4)
    pilot := cable.getLsbD 0
    earth := cable.getLsbD 1
    ready := cable.getLsbD 2
    vShore := vShore.toNat
    vShip := vShip.toNat
    fDiff := fDiff.toInt
    angle := angle.toInt
    load := load.toNat }

/-! ## Log records (12.4) -/

/-- The berth field of record word 0: 0 to 7, or 15 for none. -/
def berthField : Option BerthId → Nat
  | some b => b.toNat
  | none => 15

/-- Record word i of 0 to 3 (12.4). -/
def Record.word (r : Record) (i : Nat) : Word :=
  match i with
  | 0 => BitVec.ofNat 16 (r.type.code * 4096 + berthField r.berth * 256 + r.qualifier.toNat * 32)
  | 1 => r.detailA
  | 2 => r.detailB
  | _ => r.stamp

/-- A detail that names a state and a mode: state in bits 3 to 0, mode in bit 4 (12.4). -/
def stateModeDetail (st : BState) (m : Mode) : Word := BitVec.ofNat 16 (st.code + 16 * modeCode m)

/-- The word of a hold record: SHORE_BKR 0, SHIPCON_BKR 1 (12.4). -/
def holdWordDetail : BreakerWord → Word
  | .shoreBkr => 0
  | .shipconBkr => 1

/-- SCAN_OVERRUN detail A: the berth number, or 15 for the feeder block (12.4). -/
def blockDetail : Block → Word
  | .feeder => 15
  | .berth b => BitVec.ofNat 16 b.toNat

/-- The start-up word (12.4). -/
def startupWord (phase : Phase) (error : ErrorCode) (n : Nat) (discarded : Bool) : Word :=
  BitVec.ofNat 16 (phase.code + error.code * 4 + (n % 16) * 64 + bit discarded * 32768)

/-! ## The Window Table (R134) -/

/-- The words of a COMMAND window (R134). -/
inductive CmdWord where
  | shoreBkr | shipconBkr | genRelease | chargeLimit
  deriving DecidableEq, Repr

/-- The position of a COMMAND word in its window (R134). -/
def CmdWord.offset : CmdWord → Nat
  | .shoreBkr => 0
  | .shipconBkr => 1
  | .genRelease => 2
  | .chargeLimit => 3

/-- The COMMAND word at a position. -/
def CmdWord.ofOffset (k : Nat) : CmdWord :=
  match k with
  | 0 => .shoreBkr
  | 1 => .shipconBkr
  | 2 => .genRelease
  | _ => .chargeLimit

/-- What a PIM address is to a host write (R136). -/
inductive WordClass where
  | plain
  | command (b : BerthId) (w : CmdWord)
  | req (b : BerthId)
  | rsp (b : BerthId)
  | field (b : Option BerthId)
  | groupReq (g : GroupId)
  | groupRsp (g : GroupId)
  | consumer
  | logOther
  | startup
  deriving DecidableEq, Repr

/-- The position of a header word in the LOG window (12.4). -/
def HeaderWord.offset : HeaderWord → Nat
  | .status => 0
  | .producer => 1
  | .consumer => 2
  | .granted => 3
  | .capacity => 4

end Sys2Proof.Machine

namespace Sys2Proof
open Machine

/-- The COMMAND word of a breaker word. -/
def BreakerWord.cmd : BreakerWord → CmdWord
  | .shoreBkr => .shoreBkr
  | .shipconBkr => .shipconBkr

/-- Length of a window in words (R134). -/
def Window.length (logCapacity : Nat) (w : Window) : Nat :=
  match w.kind with
  | .command => 4
  | .request => 2
  | .field => if w.index = 15 then 4 else 8
  | .group => 2
  | .log => 5 + 4 * logCapacity

/-- The windows of the table, empty entries left out. -/
def Tables.windowList (t : Tables) : List Window := t.windows.filterMap id

/-- The window of a kind and an index, if the table has one. The index of a LOG window is ignored (12.5). -/
def Tables.window? (t : Tables) (k : WindowKind) (i : Nat) : Option Window :=
  t.windowList.find? fun w => decide (w.kind = k) && (decide (w.kind = .log) || decide (w.index = i))

/-- The address of a word of a window; 0 where the table has no such window, which no good image leaves (R134, log 20). -/
def Tables.wordAddress (t : Tables) (k : WindowKind) (i offset : Nat) : Word :=
  match t.window? k i with
  | some w => BitVec.ofNat 16 (w.base + offset)
  | none => 0

/-- Address of a COMMAND word. -/
def Tables.cmdAddress (t : Tables) (b : BerthId) (w : CmdWord) : Word := t.wordAddress .command b.toNat w.offset

/-- Address of a REQ word. -/
def Tables.reqAddress (t : Tables) (b : BerthId) : Word := t.wordAddress .request b.toNat 0

/-- Address of an RSP word. -/
def Tables.rspAddress (t : Tables) (b : BerthId) : Word := t.wordAddress .request b.toNat 1

/-- Address of a GROUP_REQ word. -/
def Tables.groupReqAddress (t : Tables) (g : GroupId) : Word := t.wordAddress .group g.toNat 0

/-- Address of a GROUP_RSP word. -/
def Tables.groupRspAddress (t : Tables) (g : GroupId) : Word := t.wordAddress .group g.toNat 1

/-- Address of a word of the LOG window. -/
def Tables.logAddress (t : Tables) (offset : Nat) : Word := t.wordAddress .log 0 offset

/-- Address of word k of a field status block (R134). -/
def Tables.fieldAddress (t : Tables) (k : Block) (offset : Nat) : Word :=
  match k with
  | .feeder => t.wordAddress .field 15 offset
  | .berth b => t.wordAddress .field b.toNat offset

/-- Address of a start-up read (R165). -/
def Tables.startReadAddress (t : Tables) (r : StartRead) : Word :=
  match r with
  | .req b => t.reqAddress b
  | .groupReq g => t.groupReqAddress g

/-- The class of the word at a position of a window (R134). A window whose index names no berth or group, which no good
image has, classes as PLAIN (log 20). -/
def Window.classAt (w : Window) (offset : Nat) : WordClass :=
  match w.kind with
  | .command => match BerthId.ofNat? w.index with
    | some b => .command b (CmdWord.ofOffset offset)
    | none => .plain
  | .request => match BerthId.ofNat? w.index with
    | some b => if offset = 0 then .req b else .rsp b
    | none => .plain
  | .field => .field (BerthId.ofNat? w.index)
  | .group => match GroupId.ofNat? w.index with
    | some g => if offset = 0 then .groupReq g else .groupRsp g
    | none => .plain
  | .log => if offset = 2 then .consumer else .logOther

/-- Does a window cover an address? -/
def Window.covers (logCapacity : Nat) (w : Window) (a : Nat) : Bool :=
  decide (w.base ≤ a) && decide (a < w.base + w.length logCapacity)

/-- The class of an address: the start-up word by itself, the word of the window that covers it, else PLAIN (R134, R136). -/
def Tables.classify (t : Tables) (a : Word) : WordClass :=
  if a = startupAddress then .startup
  else
    match t.windowList.find? fun w => w.covers t.logCapacity a.toNat with
    | some w => w.classAt (a.toNat - w.base)
    | none => .plain

end Sys2Proof
end

