-- ==== Sys2Proof/Machine/Flags.lean ====
section
/-! DEFINITION. Flags and lines: fault flag sets (R66), the STATUS word (12.4), and the output lines as functions of the
state (R19, R76, R133, R159, R165; log 12). -/

namespace Sys2Proof.Machine

/-- The union of two fault sets. -/
def FaultSet.union (a b : FaultSet) : FaultSet :=
  { uv := a.uv || b.uv, ov := a.ov || b.ov, earth := a.earth || b.earth, pilot := a.pilot || b.pilot,
    bkr := a.bkr || b.bkr, stale := a.stale || b.stale }

/-- The flags of the first set that the second does not hold. -/
def FaultSet.minus (a b : FaultSet) : FaultSet :=
  { uv := a.uv && !b.uv, ov := a.ov && !b.ov, earth := a.earth && !b.earth, pilot := a.pilot && !b.pilot,
    bkr := a.bkr && !b.bkr, stale := a.stale && !b.stale }

/-- Does the set hold no flag? -/
def FaultSet.isEmpty (a : FaultSet) : Bool :=
  !(a.uv || a.ov || a.earth || a.pilot || a.bkr || a.stale)

/-- The set of BKR alone (R48, R72). -/
def FaultSet.onlyBkr : FaultSet := { FaultSet.empty with bkr := true }

/-- The set of STALE alone (R71, R72). -/
def FaultSet.onlyStale : FaultSet := { FaultSet.empty with stale := true }

/-- The nine states in which PERMn is on (R19). -/
def BState.permits : BState → Bool
  | .energizing => true
  | .energized => true
  | .syncing => true
  | .deadbus => true
  | .parallel => true
  | .shore => true
  | .resyncing => true
  | .unparallel => true
  | .separating => true
  | .adopting => false
  | .vacant => false
  | .cabled => false
  | .engaging => false
  | .disengaging => false
  | .lockout => false

/-- Is a berth configured while the part runs? Berths B0 to B(N−1) have a record from the image's installation on (R1, R165). -/
def State.configured (s : State) (b : BerthId) : Bool := decide (b.toNat < s.tables.n)

/-- PERMn (R19): on in RUNNING, for a configured berth, in the nine states. -/
def State.perm (s : State) (b : BerthId) : Bool :=
  decide (s.phase = .running) && s.configured b && (s.berths.get b).state.permits

/-- TRIPn (R76): asserted exactly while the berth is in LOCKOUT. -/
def State.trip (s : State) (b : BerthId) : Bool :=
  decide (s.phase = .running) && s.configured b && decide ((s.berths.get b).state = .lockout)

/-- READY (R162, R165): on in RUNNING alone. -/
def State.ready (s : State) : Bool := decide (s.phase = .running)

/-- ATTN (R159, R162): on in BLOCKED; off from reset through LOADING; in RUNNING on while the ring holds a record or OVERCOMMIT is set. -/
def State.attn (s : State) : Bool :=
  match s.phase with
  | .resetHeld => false
  | .loading => false
  | .running => decide (s.log.producer ≠ s.log.consumer) || s.budget.overcommit
  | .blocked => true

/-- WAIT (R133): asserted while a host read or passed write has not been answered. -/
def State.wait (s : State) : Bool := s.ports.host.isSome

/-- The STATUS word with the values current now (12.4, R154). The part state is LOADING until entry to RUNNING. -/
def State.statusWord (s : State) : Word :=
  BitVec.ofNat 16
    (s.phase.code + 4 * bit s.timer.maint + 8 * bit s.log.overflow + 16 * bit s.budget.shedding
      + 32 * bit s.budget.overcommit + 64 * bit s.scan.feederStale)

end Sys2Proof.Machine
end

