-- ==== Sys2Proof/Machine/Ops.lean ====
section
/-! DEFINITION. The named operations that every meaning is built from: the PIM, the banks of State, the Own Write Queue
(R138 to R142), the staging of log records (R156, R158), the channel timers (R149), RSP and STATE reports (R20, R21), and
the routing of finals (R109). -/

namespace Sys2Proof.Machine

/-! ## Plant Image Memory -/

/-- The word at an address. -/
def Memory.read (m : Memory) (a : Nat) : Word :=
  match m with
  | [] => Memory.unlisted
  | (k, w) :: rest => if k = a then w else Memory.read rest a

/-- Put a word at an address, keeping the canonical form. -/
def Memory.write (m : Memory) (a : Nat) (w : Word) : Memory :=
  match m with
  | [] => if w = Memory.unlisted then [] else [(a, w)]
  | (k, v) :: rest =>
    if a < k then if w = Memory.unlisted then (k, v) :: rest else (a, w) :: (k, v) :: rest
    else if a = k then if w = Memory.unlisted then rest else (a, w) :: rest
    else (k, v) :: Memory.write rest a w

/-- The word of the PIM at an address. -/
def State.pimRead (s : State) (a : Word) : Word := Memory.read s.pim a.toNat

/-- The PIM with a word written. -/
def State.pimWrite (s : State) (a w : Word) : State := { s with pim := Memory.write s.pim a.toNat w }

/-- Is a word one that the plant I/O station writes, a FIELD word (00, R135)? By the Window Table while the part holds one; while
it holds none, by the image installed last, or, before any, every word but the start-up word may be one (log 2). -/
def State.stationWord (s : State) (a : Word) : Bool :=
  match s.tables.windows, s.plant with
  | _ :: _, _ =>
    match s.tables.classify a with
    | .field _ => true
    | _ => false
  | [], some l => l.any fun w => w.covers 0 a.toNat
  | [], none => decide (a ≠ startupAddress)

/-- What the plant I/O station wrote at a FIELD word before the part's read of it (log 2). -/
def State.stationWrote (s : State) (a : Word) (station : Option Word) : State :=
  match station with
  | some w => s.pimWrite a w
  | none => s

/-! ## The banks -/

/-- The Berth Record of a berth. -/
def State.berth (s : State) (b : BerthId) : Berth := s.berths.get b

/-- Replace a berth's record. -/
def State.setBerth (s : State) (b : BerthId) (r : Berth) : State := { s with berths := s.berths.set b r }

/-- The supervision record of a berth. -/
def State.sup (s : State) (b : BerthId) : Supervision := s.sups.get b

/-- Replace a berth's supervision record. -/
def State.setSup (s : State) (b : BerthId) (r : Supervision) : State := { s with sups := s.sups.set b r }

/-- The channels of a berth. -/
def State.chan (s : State) (b : BerthId) : Channels := s.chans.get b

/-- Replace a berth's channels. -/
def State.setChan (s : State) (b : BerthId) (c : Channels) : State := { s with chans := s.chans.set b c }

/-- The block scan of a berth. -/
def State.block (s : State) (b : BerthId) : BlockScan := s.blocks.get b

/-- Replace a berth's block scan. -/
def State.setBlock (s : State) (b : BerthId) (k : BlockScan) : State := { s with blocks := s.blocks.set b k }

/-- The static part of a berth (R2). -/
def State.static (s : State) (b : BerthId) : BerthStatic := s.tables.statics.get b

/-- The Threshold Table entry at an index (R67); an absent entry, which no good image names, reads 0 (log 20). -/
def State.threshold (s : State) (i : Nat) : Nat := ((s.tables.thresholds[i]?).getD none).getD 0

/-- The Level Table entry of a level (R93). -/
def State.levelEntry (s : State) (n : Nat) : LevelEntry := (s.tables.levels[n]?).getD LevelEntry.blank

/-- The level credits of a level (R93). -/
def State.levelCredits (s : State) (n : Nat) : Nat := (s.levelEntry n).credits

/-- The credits one berth holds: its base grant and the credits of its level (R86). -/
def State.held (s : State) (b : BerthId) : Nat := (s.berth b).baseGrant + s.levelCredits (s.berth b).level

/-- The granted total G: the sum over berths of their base grants and level credits (R86, log 11). -/
def State.granted (s : State) : Nat := (BerthId.all.map s.held).sum

/-- Does the configuration give this group a GROUP window (R113)? -/
def State.groupInUse (s : State) (g : GroupId) : Bool := (s.tables.window? .group g.toNat).isSome

/-- Replace the Own Write Queue. -/
def State.setOwq (s : State) (q : List OwnWrite) : State := { s with owq := q }

/-- Replace the Log Unit. -/
def State.setLog (s : State) (l : Log) : State := { s with log := l }

/-- Replace the Budget Unit. -/
def State.setBudget (s : State) (b : Budget) : State := { s with budget := b }

/-- Replace the Hold Queue. -/
def State.setHolds (s : State) (h : List Hold) : State := { s with holds := h }

/-- Replace the ports. -/
def State.setPorts (s : State) (p : Ports) : State := { s with ports := p }

/-- Replace the Scan Engine's own items. -/
def State.setScan (s : State) (e : ScanEngine) : State := { s with scan := e }

/-- Replace the Timer Bank's own items. -/
def State.setTimer (s : State) (t : TimerBank) : State := { s with timer := t }

/-- The last-taken toggle of a group entry becomes a value (R113, R114). -/
def State.setGroupTaken (s : State) (g : GroupId) (x : Bool) : State := { s with groupTaken := s.groupTaken.set g x }

/-- The counts of a berth that the tick under way has still to reach (log 6). -/
def State.owed (s : State) (b : BerthId) : Owed := s.timer.owed.get b

/-- The tick under way has still to reach these counts of a berth. -/
def State.setOwed (s : State) (b : BerthId) (o : Owed) : State :=
  s.setTimer { s.timer with owed := s.timer.owed.set b o }

/-- Replace the Image Loader. -/
def State.setLoader (s : State) (l : Loader) : State := { s with loader := l }

/-! ## The Own Write Queue -/

/-- Is a TRIP entry at this address? -/
def tripAt (q : List OwnWrite) (a : Word) : Bool := q.any fun e => decide (e.address = a) && decide (e.cls = .trip)

/-- Is an entry at this address? -/
def entryAt (q : List OwnWrite) (a : Word) : Bool := q.any fun e => decide (e.address = a)

/-- Placing a SEQ or REPORT write (R139): dropped behind a TRIP entry; replacing the data of an entry in place; or a new
entry at the tail. -/
def placeWrite (q : List OwnWrite) (e : OwnWrite) : List OwnWrite :=
  if tripAt q e.address then q
  else if entryAt q e.address then q.map fun x => if x.address = e.address then { x with data := e.data } else x
  else q ++ [e]

/-- Placing a TRIP write (R140): every entry at its address goes; it stands behind the TRIP entries that remain and ahead
of every other entry. -/
def placeTrip (q : List OwnWrite) (e : OwnWrite) : List OwnWrite :=
  let rest := q.filter fun x => decide (x.address ≠ e.address)
  rest.filter (fun x => decide (x.cls = .trip)) ++ e :: rest.filter (fun x => decide (x.cls ≠ .trip))

/-- What a passed host write's carriage leaves (R142): SEQ and REPORT entries at its address go. -/
def removeAt (q : List OwnWrite) (a : Word) : List OwnWrite :=
  q.filter fun x => decide (x.address ≠ a) || decide (x.cls = .trip)

/-- A breaker, generator or charge command of the part, class SEQ (R24, R138). -/
def State.seqWrite (s : State) (b : BerthId) (w : CmdWord) (data : Word) : State :=
  s.setOwq (placeWrite s.owq { address := s.tables.cmdAddress b w, data := data, cls := .seq, berth := some b })

/-- The TRIP-class SHORE_BKR=OPEN of a berth (R73, R77). -/
def State.tripWrite (s : State) (b : BerthId) : State :=
  s.setOwq (placeTrip s.owq { address := s.tables.cmdAddress b .shoreBkr, data := cmdOpen, cls := .trip, berth := some b })

/-- The RSP write of a berth, composed whole from its record, class REPORT (R20). -/
def State.queueRsp (s : State) (b : BerthId) : State :=
  s.setOwq (placeWrite s.owq { address := s.tables.rspAddress b, data := rspWord (s.berth b), cls := .report, berth := some b })

/-- A GROUP_RSP write, class REPORT, no berth (R116, R138). -/
def State.queueGroupRsp (s : State) (g : GroupId) (data : Word) : State :=
  s.setOwq (placeWrite s.owq { address := s.tables.groupRspAddress g, data := data, cls := .report, berth := none })

/-! ## Log records -/

/-- Records in the ring: from the consumer index up to the producer index, circularly (R157, R158). -/
def Log.ringCount (l : Log) : Nat := (l.producer + l.capacity - l.consumer) % l.capacity

/-- Is there room for one more record (R158)? -/
def Log.hasRoom (l : Log) : Bool :=
  decide (l.ringCount + l.staging.length + 1 ≤ l.capacity - 1) && decide (l.staging.length < stagingCapacity)

/-- Place a record at the tail of the staging list, or drop it (R156, R158). -/
def Log.stage (l : Log) (r : Record) : Log :=
  if l.hasRoom then { l with staging := l.staging ++ [r] }
  else
    { l with dropCount := min 65535 (l.dropCount + 1), overflow := true, statusPending := l.statusPending || !l.overflow }

/-- Is an OVERFLOW record in the staging list? -/
def Log.overflowStaged (l : Log) : Bool := l.staging.any fun r => decide (r.type = .overflow)

/-- Room has been freed (R158): with the overflow flag set and no OVERFLOW record staged, one is staged if it finds room,
carrying the drop count, which restarts at 0. -/
def Log.roomFreed (l : Log) (stamp : Word) : Log :=
  if l.overflow && !l.overflowStaged && l.hasRoom then
    { l with
      staging := l.staging ++
        [{ type := .overflow, berth := none, qualifier := 0, detailA := BitVec.ofNat 16 l.dropCount, detailB := 0, stamp := stamp }]
      dropCount := 0 }
  else l

/-- A record handed to the Log Unit, stamped with the current pass number (R64, R155, R156). -/
def State.record (s : State) (t : RecType) (b : Option BerthId) (q : BitVec 3) (detailA detailB : Word) : State :=
  s.setLog (s.log.stage
    { type := t, berth := b, qualifier := q, detailA := detailA, detailB := detailB, stamp := s.scan.passNumber })

/-- A change of a STATUS flag adds STATUS to the header words pending (R154). -/
def State.statusChanged (s : State) : State := s.setLog { s.log with statusPending := true }

/-- A change of G adds GRANTED to the header words pending (R84, R154). -/
def State.grantedChanged (s : State) : State := s.setLog { s.log with grantedPending := true }

/-- A change of C adds CAPACITY to the header words pending (R84, R154). -/
def State.capacityChanged (s : State) : State := s.setLog { s.log with capacityPending := true }

/-! ## Channel timers -/

/-- The deadlines that channels count (R3, R148). -/
inductive Deadline where
  | engage | confirm | settle | sync | deadBus | overlap
  deriving DecidableEq, Repr

/-- The tick base of a deadline (R3, R148). -/
def Deadline.base : Deadline → TickBase
  | .engage => .s
  | .confirm => .f
  | .settle => .f
  | .sync => .s
  | .deadBus => .s
  | .overlap => .f

/-- The freeze class of a deadline: freezable or fixed (R148). -/
def Deadline.freezable : Deadline → Bool
  | .engage => true
  | .confirm => false
  | .settle => false
  | .sync => true
  | .deadBus => true
  | .overlap => false

/-- The value of a deadline in a static part (R3). -/
def Deadline.value (p : BerthStatic) : Deadline → Nat
  | .engage => p.engageLimit
  | .confirm => p.breakerConfirm
  | .settle => p.settle
  | .sync => p.syncLimit
  | .deadBus => p.deadBusLimit
  | .overlap => p.overlapLimit

/-- A load (R149): the deadline's value, base and class; FROZEN when freezable under MAINT, else RUNNING. A tick that has still to
reach the channel finds the new count (R150) and, by the model's choice, decrements it (log 6). -/
def Channel.loaded (d : Deadline) (value : Nat) (maint : Bool) : Channel :=
  { status := if d.freezable && maint then .frozen else .running
    base := d.base
    count := value
    freezable := d.freezable }

/-- Load a berth's Step channel (R149). -/
def State.loadStep (s : State) (b : BerthId) (d : Deadline) : State :=
  s.setChan b { s.chan b with step := Channel.loaded d (d.value (s.static b)) s.timer.maint }

/-- Stop a berth's Step channel (R149). -/
def State.stopStep (s : State) (b : BerthId) : State := s.setChan b { s.chan b with step := Channel.idle }

/-- Load a berth's Settle channel with the settle deadline (R148, R149). -/
def State.loadSettle (s : State) (b : BerthId) : State :=
  s.setChan b { s.chan b with settle := Channel.loaded .settle (s.static b).settle s.timer.maint }

/-- Stop a berth's Settle channel (R149). -/
def State.stopSettle (s : State) (b : BerthId) : State := s.setChan b { s.chan b with settle := Channel.idle }

/-- Stop both channels of a berth (R74, R149). -/
def State.stopChannels (s : State) (b : BerthId) : State := s.setChan b Channels.blank

/-! ## Berth state and its reports -/

/-- A berth enters a state: its sub-step marks are cleared (R6, R24 step 1). PERMn and TRIPn follow (R19, R76). -/
def State.enter (s : State) (b : BerthId) (st : BState) : State :=
  s.setBerth b { s.berth b with state := st, settling := false, closeIssued := false, openingIssued := false }

/-- Step 6 of R24: the RSP write of R20 and the STATE record of R21 with the state left and the mode before. -/
def State.reportState (s : State) (b : BerthId) (old : BState) (oldMode : Mode) : State :=
  (s.queueRsp b).record .state (some b) 0 (stateModeDetail old oldMode)
    (stateModeDetail (s.berth b).state (s.berth b).mode)

/-- A request in progress ends (R109): to RSP while RSP still answers it, otherwise to the log. -/
def State.finalise (s : State) (b : BerthId) (res : Result) : State :=
  match (s.berth b).request with
  | none => s
  | some rq =>
    match (s.berth b).phase with
    | .pending => (s.setBerth b { s.berth b with request := none, phase := .final, result := res }).queueRsp b
    | .final =>
      (s.setBerth b { s.berth b with request := none }).record .requestFinal (some b) 0 rq.word
        (BitVec.ofNat 16 res.code)

/-- Set the sync persistence counter (R7). -/
def State.setSyncCount (s : State) (b : BerthId) (n : Nat) : State := s.setBerth b { s.berth b with syncCount := n }

end Sys2Proof.Machine
end

