-- ==== Sys2Proof/Machine/Budget.lean ====
section
/-! DEFINITION. The Budget Unit's own operations: claims (R88, R92), base grants (R86), level changes and the Level Stack
(R94, R97, R99), shedding (R100, R101), the residency and idle counts (R98), and the OVERCOMMIT test (R103). -/

namespace Sys2Proof.Machine

/-- The event under way ends with a service pass (R91). -/
def State.needService (s : State) : State := s.setBudget { s.budget with serviceDue := true }

/-- The event under way changed G, C or the Level Stack and ends with the OVERCOMMIT test (R103). -/
def State.needTest (s : State) : State := s.setBudget { s.budget with testDue := true }

/-! ## Claims -/

/-- The claim of a berth, if one stands in the Budget Wait Queue (R88). -/
def State.claimOf (s : State) (b : BerthId) : Option Claim := s.budget.claims.find? fun c => decide (c.berth = b)

/-- The Budget Wait Queue without a berth's claim. -/
def dropClaim (l : List Claim) (b : BerthId) : List Claim := l.filter fun c => decide (c.berth ≠ b)

/-- A claim placed at the tail; a service pass ends the event (R88, R91). -/
def State.placeClaim (s : State) (c : Claim) : State :=
  State.needService (s.setBudget { s.budget with claims := s.budget.claims ++ [c] })

/-- A withdrawal (R92): it changes nothing for a berth with no claim. -/
def State.withdrawClaim (s : State) (b : BerthId) : State :=
  match s.claimOf b with
  | none => s
  | some _ => State.needService (s.setBudget { s.budget with claims := dropClaim s.budget.claims b })

/-- The limit of a LEVEL claim, Ccfg − R (R88). -/
def State.levelLimit (s : State) : Nat := s.tables.ccfg - s.tables.reserve

/-! ## Base grants -/

/-- The base grant is taken: at a claim's grant or at adoption (R86, R90, R167). -/
def State.takeBase (s : State) (b : BerthId) : State :=
  ((s.setBerth b { s.berth b with baseGrant := (s.static b).baseCredits }).grantedChanged).needTest

/-- The base grant is returned; a return of 0 changes nothing (R86). -/
def State.returnBase (s : State) (b : BerthId) : State :=
  if (s.berth b).baseGrant = 0 then s
  else (((s.setBerth b { s.berth b with baseGrant := 0 }).grantedChanged).needService).needTest

/-! ## Charging levels -/

/-- The Level Stack after a level change (R94 step 4, R99), top first. -/
def stackAfter (stack : List BerthId) (b : BerthId) (old new : Nat) : List BerthId :=
  if old < new then b :: stack.filter (fun x => decide (x ≠ b))
  else if new = 0 then stack.filter (fun x => decide (x ≠ b))
  else stack

/-- Steps 1 to 4 of R94: G, CHARGE_LIMIT, the two counts, the Level Stack. Step 5's RSP rewrite is the caller's (log 15).
The level falls: credits are returned, and a service pass ends the event (R91). -/
def State.changeLevel (s : State) (b : BerthId) (new : Nat) : State :=
  let old := (s.berth b).level
  let s1 := s.setBerth b { s.berth b with level := new, residency := 0, idle := 0 }
  let s2 := if s.levelCredits old = s.levelCredits new then s1 else s1.grantedChanged
  let s3 := if s.levelCredits new < s.levelCredits old then s2.needService else s2
  let s4 := s3.seqWrite b .chargeLimit (s.levelEntry new).limit
  (s4.setBudget { s4.budget with stack := stackAfter s4.budget.stack b old new }).needTest

/-- What the Budget Unit does at an entry to SHORE (R39): level 0, CHARGE_LIMIT with entry 0's limit, both counts 0. -/
def State.shoreLevelZero (s : State) (b : BerthId) : State := s.changeLevel b 0

/-- What the Budget Unit does at a departure from SHORE (R39): level 0, CHARGE_LIMIT, and the waiting LEVEL claim withdrawn.
The SET_LEVEL in progress is finalised by the departing transition. -/
def State.leaveShore (s : State) (b : BerthId) : State := (s.changeLevel b 0).withdrawClaim b

/-- A waiting LEVEL claim after its berth's level fell (R97): recomputed in place, or withdrawn with NOBUDGET. -/
def State.recomputeClaim (s : State) (b : BerthId) : State :=
  match s.claimOf b with
  | none => s
  | some c =>
    match c.kind with
    | .engage => s
    | .level target =>
      let credits := s.levelCredits target - s.levelCredits (s.berth b).level
      if credits ≤ s.levelLimit then
        s.setBudget
          { s.budget with
            claims := s.budget.claims.map fun x => if x.berth = b then { x with credits := credits } else x }
      else (s.withdrawClaim b).finalise b .nobudget

/-- A level falls by one for a cause with a record of its own (R94, R97, R98, R101). -/
def State.stepDown (s : State) (b : BerthId) (t : RecType) (q : BitVec 3) : State :=
  let old := (s.berth b).level
  let s1 := (s.changeLevel b (old - 1)).queueRsp b
  let s2 := s1.record t (some b) q (BitVec.ofNat 16 old) (BitVec.ofNat 16 (old - 1))
  s2.recomputeClaim b

/-! ## Free amounts (R87) -/

/-- Does a claim fit the free amount of its kind at this moment (R87)? -/
def State.fits (s : State) (c : Claim) : Bool :=
  match c.kind with
  | .engage => decide ((c.credits : Int) ≤ (s.budget.capacity : Int) - s.granted)
  | .level _ => decide ((c.credits : Int) ≤ (s.budget.capacity : Int) - s.tables.reserve - s.granted)

/-! ## Shedding (R100, R101) -/

/-- Causes of a SHED record (R155). -/
inductive ShedCause where
  | load | capacity
  deriving DecidableEq, Repr

/-- The cause field (12.4). -/
def ShedCause.code : ShedCause → BitVec 3
  | .load => 0
  | .capacity => 1

/-- A shedding step lowers the berth on top of the Level Stack by one; with an empty stack it is not taken (R101). -/
def State.shedStep (s : State) (c : ShedCause) : State :=
  match s.budget.stack with
  | [] => s
  | b :: _ => s.stepDown b .shed c.code

/-- The shedding flag changes: it is handed to the Log Unit for STATUS (R100). -/
def State.setShedding (s : State) (on : Bool) : State := (s.setBudget { s.budget with shedding := on }).statusChanged

/-- The shedding state after a feeder result's FEEDER_LOAD (R100). -/
def State.updateShedding (s : State) (load : Nat) : State :=
  if s.tables.highLoad ≤ load then
    let n := min 2 (s.budget.highCount + 1)
    let s1 := s.setBudget { s.budget with highCount := n }
    if n = 2 ∧ s.budget.shedding = false then s1.setShedding true else s1
  else
    let s1 := s.setBudget { s.budget with highCount := 0 }
    if load < s.tables.lowLoad ∧ s.budget.shedding = true then (s1.setShedding false).needService else s1

/-- C takes a new value; a change is handed to the Log Unit for CAPACITY (R84, R85). -/
def State.setCapacity (s : State) (c : Nat) : State :=
  if s.budget.capacity = c then s
  else ((s.setBudget { s.budget with capacity := c }).capacityChanged).needTest

/-- C of an accepted feeder result (R85). -/
def feederCapacity (ccfg : Nat) (conv : Converter) (cap : Nat) : Nat :=
  match conv with
  | .stopped => 0
  | .running => min ccfg cap
  | .fault => 0

/-- Steps 1 to 4 of R102; the service pass and the OVERCOMMIT test of steps 5 and 6 end the event. -/
def State.feederResult (s : State) (load cap : Nat) (conv : Converter) : State :=
  let s1 := s.setCapacity (feederCapacity s.tables.ccfg conv cap)
  let s2 := s1.updateShedding load
  let s3 := if s2.budget.shedding then s2.shedStep .load else s2
  let s4 := if s3.budget.capacity < s3.granted then s3.shedStep .capacity else s3
  s4.needService.needTest

/-! ## Residency, idle, idle step-down -/

/-- The Budget Unit's hand-over of an accepted result of a berth that stays in SHORE (R4, R60 step 3, R98). -/
def State.countShore (s : State) (b : BerthId) (r : ScanResult) : State :=
  let e := s.levelEntry (s.berth b).level
  let idle := if r.load < e.activity then min 255 ((s.berth b).idle + 1) else 0
  let s1 := s.setBerth b { s.berth b with residency := min 255 ((s.berth b).residency + 1), idle := idle }
  if 0 < (s.berth b).level ∧ e.downIdle ≤ idle then s1.stepDown b .levelIdle 0 else s1

/-! ## OVERCOMMIT -/

/-- The OVERCOMMIT test (R103): set while G > C with an empty Level Stack, cleared when G ≤ C; each change has a record and
updates STATUS. -/
def State.overcommitTest (s : State) : State :=
  if s.budget.overcommit then
    if s.granted ≤ s.budget.capacity then
      ((s.setBudget { s.budget with overcommit := false }).statusChanged).record .overcommit none 0
        (BitVec.ofNat 16 s.granted) (BitVec.ofNat 16 s.budget.capacity)
    else s
  else
    if s.budget.capacity < s.granted ∧ s.budget.stack = [] then
      ((s.setBudget { s.budget with overcommit := true }).statusChanged).record .overcommit none 1
        (BitVec.ofNat 16 s.granted) (BitVec.ofNat 16 s.budget.capacity)
    else s

end Sys2Proof.Machine
end

