-- ==== Sys2Proof/Machine/Holds.lean ====
section
/-! DEFINITION. The Hold Queue's own operations (R117): its entries, their cancellation (R125, R127) and release (R120,
R123). -/

namespace Sys2Proof.Machine

/-- The entry at an address, if one stands there (R117: at most one per address). -/
def State.holdAt (s : State) (a : Word) : Option Hold := s.holds.find? fun h => decide (h.address = a)

/-- The entries of a berth, in their order in the queue. -/
def State.holdsOf (s : State) (b : BerthId) : List Hold := s.holds.filter fun h => decide (h.berth = b)

/-- The entry of a berth for a reason, if one stands. -/
def State.holdFor (s : State) (b : BerthId) (reason : HoldReason) : Option Hold :=
  s.holds.find? fun h => decide (h.berth = b) && decide (h.reason = reason)

/-- The Hold Queue without an address's entry. -/
def dropHold (l : List Hold) (a : Word) : List Hold := l.filter fun h => decide (h.address ≠ a)

/-- An entry leaves the Hold Queue with a record of its berth and word (R125, R126). -/
def State.endHold (s : State) (t : RecType) (h : Hold) : State :=
  (s.setHolds (dropHold s.holds h.address)).record t (some h.berth) 0 (holdWordDetail h.word) 0

/-- Entries leave one after another, in the order given. -/
def State.cancelList (s : State) : List Hold → State
  | [] => s
  | h :: rest => (s.endHold .holdCancelled h).cancelList rest

/-- All of a berth's entries are cancelled, in queue order (R127). -/
def State.cancelHolds (s : State) (b : BerthId) : State := s.cancelList (s.holdsOf b)

/-- A new entry at the tail (R117, R119, R122). -/
def State.placeHold (s : State) (b : BerthId) (w : BreakerWord) (data : Word) (reason : HoldReason) : State :=
  s.setHolds (s.holds ++
    [{ address := s.tables.cmdAddress b w.cmd, berth := b, word := w, data := data, reason := reason,
       count := (s.static b).holdLimit }])

/-- A held write is released: the entry leaves the queue without a record, and its data is queued as a SEQ write (R120, R123). -/
def State.releaseHold (s : State) (h : Hold) : State :=
  (s.setHolds (dropHold s.holds h.address)).seqWrite h.berth h.word.cmd h.data

/-- A berth's ENGAGE claim is withdrawn if it waits, or its base grant returned if it has come (R30, R31, R47, R92). -/
def State.giveUpGrant (s : State) (b : BerthId) : State := (s.withdrawClaim b).returnBase b

end Sys2Proof.Machine
end

