-- ==== Sys2Proof/Machine/Supervision.lean ====
section
/-! DEFINITION. The Supervision Unit (04): fault conditions and persistence (R68 to R71), the trip action (R73 to R75), repeat
faults (R77), the base grant in LOCKOUT (R78), the quiet count (R79) and recovery (R81). -/

namespace Sys2Proof.Machine

/-! ## Fault conditions -/

/-- The states in which UV and OV are evaluated (R68). -/
def BState.voltageWatched : BState → Bool
  | .energized => true
  | .syncing => true
  | .deadbus => true
  | .parallel => true
  | .shore => true
  | .resyncing => true
  | .unparallel => true
  | .separating => true
  | .adopting => false
  | .vacant => false
  | .cabled => false
  | .engaging => false
  | .energizing => false
  | .disengaging => false
  | .lockout => false

/-- V_SHORE below the UV threshold (R67). -/
def State.underVoltage (s : State) (b : BerthId) (v : Nat) : Bool := decide (v < s.threshold (s.static b).uvIndex)

/-- V_SHORE above the OV threshold (R67). -/
def State.overVoltage (s : State) (b : BerthId) (v : Nat) : Bool := decide (s.threshold (s.static b).ovIndex < v)

/-- V_SHIP at or below the dead-bus threshold (R67). -/
def State.deadBus (s : State) (b : BerthId) (v : Nat) : Bool := decide (v ≤ s.threshold (s.static b).deadBusIndex)

/-- Does a result report FAULT at any of the three positions? -/
def ScanResult.anyFault (r : ScanResult) : Bool :=
  decide (r.shore = .fault) || decide (r.shipcon = .fault) || decide (r.gens = .fault)

/-- EARTH, PILOT and BKR of a result in a state (R68, R70). -/
def conditionFlags (st : BState) (r : ScanResult) : FaultSet :=
  { uv := false
    ov := false
    earth := decide (st ≠ .adopting) && decide (st ≠ .vacant) && r.pilot && !r.earth
    pilot := decide (st ≠ .adopting) && !r.pilot && decide (r.shore = .closed)
    bkr := decide (st ≠ .adopting) && r.anyFault
    stale := false }

/-- A consecutive count after one more result (R69). -/
def countRun (met : Bool) (n : Nat) : Nat := if met then n + 1 else 0

/-! ## The trip action -/

/-- Step 7 of R75: LOCKOUT entered, marks and counters cleared, the sticky fault set is F, the release flag is set if the
berth has auto release. -/
def State.enterLockout (s : State) (b : BerthId) (f : FaultSet) : State :=
  ((s.enter b .lockout).setSyncCount b 0).setSup b
    { uvCount := 0, ovCount := 0, sticky := f, quiet := 0, release := (s.static b).autoRelease }

/-- The TRIP record of a berth (R75, R77, R155). -/
def State.tripRecord (s : State) (b : BerthId) (again : BitVec 3) (left : BState) (f : FaultSet) : State :=
  s.record .trip (some b) again (BitVec.ofNat 16 left.code) (BitVec.ofNat 16 f.code)

/-- The trip action for a berth outside LOCKOUT with new flags F (R73 to R75), its effects in order. TRIPn and PERMn
follow the state (R19, R76). -/
def State.tripAction (s : State) (b : BerthId) (f : FaultSet) : State :=
  let left := (s.berth b).state
  let s1 := (s.tripWrite b).seqWrite b .genRelease genHold
  let s2 := ((s1.changeLevel b 0).withdrawClaim b).cancelHolds b
  let s3 := (s2.stopChannels b).enterLockout b f
  let s4 := s3.finalise b .tripped
  (s4.tripRecord b 0 left f).queueRsp b

/-- A repeat fault in LOCKOUT (R77). A flag already in the set sets the quiet count to 0; a new flag is added, the release
flag is cleared and set again under auto release, the OPEN is queued again, and a TRIP record carries the repeat mark. -/
def State.repeatFault (s : State) (b : BerthId) (met : FaultSet) : State :=
  let u := s.sup b
  let fresh := met.minus u.sticky
  if met.isEmpty then s
  else if fresh.isEmpty then s.setSup b { u with quiet := 0 }
  else
    let s1 := s.setSup b { u with sticky := u.sticky.union fresh, quiet := 0, release := (s.static b).autoRelease }
    (s1.tripWrite b).tripRecord b 1 .lockout fresh

/-- A trip request (R72): the trip action outside LOCKOUT, a repeat fault in it. -/
def State.tripRequest (s : State) (b : BerthId) (f : FaultSet) : State :=
  if (s.berth b).state = .lockout then s.repeatFault b f else s.tripAction b f

/-- The STALE condition of a berth (R71, R77). -/
def State.staleCondition (s : State) (b : BerthId) : State := s.tripRequest b FaultSet.onlyStale

/-! ## LOCKOUT -/

/-- Is an accepted result in LOCKOUT clean (R79)? -/
def ScanResult.clean (r : ScanResult) : Bool :=
  decide (r.shore = .open) && !r.anyFault && (!r.pilot || r.earth)

/-- The quiet-count step of a result (R79). -/
def State.countQuiet (s : State) (b : BerthId) (r : ScanResult) : State :=
  s.setSup b { s.sup b with quiet := if r.clean then min 255 ((s.sup b).quiet + 1) else 0 }

/-- Are both conditions of recovery met (R81)? -/
def State.mayRecover (s : State) (b : BerthId) : Bool :=
  decide ((s.static b).quietRequired ≤ (s.sup b).quiet) && (s.sup b).release

/-- The state recovery enters, by the latest result's pilot (R81 step 2). -/
def recoveredState (r : Option ScanResult) : BState :=
  match r with
  | some x => if x.pilot then .cabled else .vacant
  | none => .vacant

/-- Recovery (R81): the supervision record starts anew, LOCKOUT is left by the pilot, RECOVERED is staged, RSP is queued. -/
def State.recover (s : State) (b : BerthId) : State :=
  let st := recoveredState (s.berth b).latest
  (((s.setSup b Supervision.blank).enter b st).record .recovered (some b) 0 (BitVec.ofNat 16 st.code) 0).queueRsp b

/-- Recovery in the event in which both conditions hold (R81). -/
def State.tryRecover (s : State) (b : BerthId) : State := if s.mayRecover b then s.recover b else s

/-- An accepted result of a berth in LOCKOUT: the base grant's return (R78), repeat faults (R77), the quiet count (R79),
recovery (R81), in that order. -/
def State.superviseLockout (s : State) (b : BerthId) (r : ScanResult) : State :=
  let s1 := if r.shore = .open then s.returnBase b else s
  let s2 := s1.repeatFault b (conditionFlags .lockout r)
  (s2.countQuiet b r).tryRecover b

/-- An accepted result of a berth outside LOCKOUT: the persistence counters (R69) and every condition met (R68), which
together make one trip (R72). -/
def State.superviseLive (s : State) (b : BerthId) (r : ScanResult) : State :=
  let st := (s.berth b).state
  let u := s.sup b
  let watched := st.voltageWatched && decide (r.shore = .closed)
  let uvN := countRun (watched && s.underVoltage b r.vShore) u.uvCount
  let ovN := countRun (watched && s.overVoltage b r.vShore) u.ovCount
  let limit := (s.static b).uvOvPersistence
  let f : FaultSet :=
    { conditionFlags st r with
      uv := decide (0 < uvN) && decide (limit ≤ uvN)
      ov := decide (0 < ovN) && decide (limit ≤ ovN) }
  let s1 := s.setSup b { u with uvCount := uvN, ovCount := ovN }
  if f.isEmpty then s1 else s1.tripAction b f

/-- The Supervision Unit's hand-over of an accepted result (R60 step 1, R68). -/
def State.supervise (s : State) (b : BerthId) (r : ScanResult) : State :=
  if (s.berth b).state = .lockout then s.superviseLockout b r else s.superviseLive b r

end Sys2Proof.Machine
end

