-- ==== Sys2Proof/Machine/Sequencer.lean ====
section
/-! DEFINITION. The Berth Sequencer (02; 07 for MANUAL): the transitions that accepted results and expiries make, each with its
effects in the order of R24 (state, channels, budget, breaker commands, final, RSP and STATE record), and adoption (R166). -/

namespace Sys2Proof.Machine

/-! ## Transitions shared by several events -/

/-- Move to DISENGAGING (R32, R44, R47): PERMn off, breaker confirm loaded, SHORE_BKR=OPEN queued. -/
def State.toDisengaging (s : State) (b : BerthId) : State :=
  ((s.enter b .disengaging).stopChannels b |>.loadStep b .confirm).seqWrite b .shoreBkr cmdOpen

/-- Move to ENERGIZING (R29, R120): PERMn on, breaker confirm loaded. -/
def State.toEnergizing (s : State) (b : BerthId) : State := (s.enter b .energizing).loadStep b .confirm

/-- Move to SEPARATING with the opening commanded (R38, R40, R47, R131): SHIPCON_BKR=OPEN, then GEN_RELEASE=HOLD. -/
def State.toSeparating (s : State) (b : BerthId) : State :=
  (((s.enter b .separating).loadStep b .confirm).seqWrite b .shipconBkr cmdOpen).seqWrite b .genRelease genHold

/-- Entry to SHORE (R39): Step stopped, level 0, CHARGE_LIMIT with entry 0's limit; in AUTO the part queues
GEN_RELEASE=RELEASE, in MANUAL it does not (R129). -/
def State.toShore (s : State) (b : BerthId) : State :=
  let s1 := ((s.enter b .shore).stopStep b).shoreLevelZero b
  match (s1.berth b).mode with
  | .auto => s1.seqWrite b .genRelease genRelease
  | .manual => s1

/-- Move to ENERGIZED with the Step channel stopped. -/
def State.toEnergized (s : State) (b : BerthId) : State := (s.enter b .energized).stopStep b

/-- A departure from SHORE brings the level to 0 before the new state's effects (R39); in any other state nothing. -/
def State.leaveIfShore (s : State) (b : BerthId) (old : BState) : State :=
  if old = .shore then s.leaveShore b else s

/-- The SYNC entry of a berth leaving ENERGIZED is cancelled, its record before the STATE record (R127). -/
def State.cancelSync (s : State) (b : BerthId) : State := s.cancelHolds b

/-! ## Cable in and cable out (R27) -/

/-- VACANT and CABLED follow the cable, in both modes (R27). -/
def State.followCable (s : State) (b : BerthId) (r : ScanResult) : State :=
  let m := (s.berth b).mode
  match (s.berth b).state with
  | .vacant => if r.pilot && r.earth then (s.enter b .cabled).reportState b .vacant m else s
  | .cabled => if r.pilot then s else (s.enter b .vacant).reportState b .cabled m
  | _ => s

/-! ## CONNECT (R29 to R33) -/

/-- Grant and ship ready complete in AUTO (R29): ENERGIZING and SHORE_BKR=CLOSE. -/
def State.connectReady (s : State) (b : BerthId) : State :=
  ((s.toEnergizing b).seqWrite b .shoreBkr cmdClose).reportState b .engaging (s.berth b).mode

/-- Engage expiry (R30), cable loss (R31) and ABORT (R47) in ENGAGING in AUTO: the claim is withdrawn or the grant
returned, and the request in progress ends. -/
def State.leaveEngaging (s : State) (b : BerthId) (dest : BState) (res : Result) : State :=
  ((((s.enter b dest).stopStep b).giveUpGrant b).finalise b res).reportState b .engaging (s.berth b).mode

/-- A MANUAL berth leaves ENGAGING (R120, R125, R126, R128): the claim is withdrawn, the state reported. -/
def State.leaveManualEngaging (s : State) (b : BerthId) (dest : BState) : State :=
  ((s.enter b dest).giveUpGrant b).reportState b .engaging (s.berth b).mode

/-- An accepted result in ENGAGING (R29, R31; in MANUAL R120). -/
def State.engagingResult (s : State) (b : BerthId) (r : ScanResult) : State :=
  match (s.berth b).mode with
  | .auto =>
    if !r.pilot then s.leaveEngaging b .vacant .cable
    else if r.ready && decide ((s.berth b).baseGrant ≠ 0) then s.connectReady b
    else s
  | .manual => if !r.pilot then (s.cancelHolds b).leaveManualEngaging b .vacant else s

/-- The cable goes before the shore breaker has closed (R32). -/
def State.energizingCableLoss (s : State) (b : BerthId) : State :=
  ((s.toDisengaging b).finalise b .cable).reportState b .energizing (s.berth b).mode

/-- The shore breaker reports CLOSED in ENERGIZING (R32): Step stopped, Settle loaded, settling mark set. -/
def State.startSettle (s : State) (b : BerthId) : State :=
  let s1 := (s.stopStep b).loadSettle b
  s1.setBerth b { s1.berth b with settling := true }

/-! ## Loss of supply (R49; in MANUAL R130) -/

/-- The shore breaker has opened without the part's command, in AUTO (R49). -/
def State.lossOfSupply (s : State) (b : BerthId) : State :=
  let old := (s.berth b).state
  let s1 := ((s.enter b .cabled).stopChannels b).leaveIfShore b old |>.returnBase b
  let s2 := ((s1.seqWrite b .shoreBkr cmdOpen).seqWrite b .shipconBkr cmdOpen).seqWrite b .genRelease genHold
  (s2.finalise b .aborted).reportState b old (s.berth b).mode

/-- The same position followed in MANUAL (R130): no command is queued; a SET_LEVEL in progress ends ABORTED (R39). -/
def State.manualShoreOpen (s : State) (b : BerthId) : State :=
  let old := (s.berth b).state
  let s0 := s.cancelSync b
  let s1 := ((s0.enter b .cabled).stopChannels b).leaveIfShore b old |>.returnBase b
  (s1.finalise b .aborted).reportState b old (s.berth b).mode

/-- Loss of supply by the berth's mode. -/
def State.shoreOpened (s : State) (b : BerthId) : State :=
  match (s.berth b).mode with
  | .auto => s.lossOfSupply b
  | .manual => s.manualShoreOpen b

/-! ## The ship connection closes (R37; in MANUAL R129) -/

/-- A ship connection CLOSED seen in ENERGIZED, SYNCING or DEADBUS (R37, R129). In AUTO the part queues
GEN_RELEASE=RELEASE; in MANUAL it cancels the SYNC entry and queues no command. -/
def State.shipconClosed (s : State) (b : BerthId) (r : ScanResult) : State :=
  let old := (s.berth b).state
  let m := (s.berth b).mode
  let s0 := match m with
    | .auto => s
    | .manual => s.cancelSync b
  if r.gens = .open then ((s0.toShore b).finalise b .done).reportState b old m
  else
    let s1 := (s0.enter b .parallel).loadStep b .overlap
    let s2 := match m with
      | .auto => s1.seqWrite b .genRelease genRelease
      | .manual => s1
    s2.reportState b old m

/-! ## Synchronism (R7, R35, R123) -/

/-- Is a result inside the berth's sync window (R7)? -/
def State.inWindow (s : State) (b : BerthId) (r : ScanResult) : Bool :=
  decide (r.fDiff.natAbs ≤ (s.static b).syncMaxFreq) && decide (r.angle.natAbs ≤ (s.static b).syncMaxAngle)
    && decide (((r.vShore : Int) - r.vShip).natAbs ≤ (s.static b).syncMaxVolt)

/-- The sync persistence counter after a result (R7): it does not rise beyond the sync persistence. -/
def State.syncAfter (s : State) (b : BerthId) (r : ScanResult) : Nat :=
  if s.inWindow b r then min (s.static b).syncPersistence ((s.berth b).syncCount + 1) else 0

/-- Does an in-window result bring the counter to the sync persistence (R7)? -/
def State.syncReached (s : State) (b : BerthId) (r : ScanResult) : Bool :=
  s.inWindow b r && decide ((s.static b).syncPersistence ≤ s.syncAfter b r)

/-- The close is issued (R35, R36): SHIPCON_BKR=CLOSE queued, close-issued set, breaker confirm loaded. -/
def State.issueClose (s : State) (b : BerthId) : State :=
  let s1 := (s.setBerth b { s.berth b with closeIssued := true }).loadStep b .confirm
  s1.seqWrite b .shipconBkr cmdClose

/-- A result counted in SYNCING with the close-issued mark clear (R35). -/
def State.countSyncing (s : State) (b : BerthId) (r : ScanResult) : State :=
  let s1 := s.setSyncCount b (s.syncAfter b r)
  if s.syncReached b r then s1.issueClose b else s1

/-- A result counted in ENERGIZED in MANUAL while a SYNC entry stands (R7, R123). -/
def State.countSyncHold (s : State) (b : BerthId) (r : ScanResult) : State :=
  match s.holdFor b .sync with
  | none => s
  | some h =>
    let s1 := s.setSyncCount b (s.syncAfter b r)
    if s.syncReached b r then s1.releaseHold h else s1

/-! ## Results of each state -/

/-- An accepted result in ENERGIZING (R32; with the settling mark set R49 and R130). -/
def State.energizingResult (s : State) (b : BerthId) (r : ScanResult) : State :=
  if (s.berth b).settling then
    if r.shore = .open then s.shoreOpened b else s
  else if r.shore = .closed then s.startSettle b
  else if !r.pilot then s.energizingCableLoss b
  else s

/-- An accepted result in ENERGIZED (R23, R37, R49; R123, R129, R130). -/
def State.energizedResult (s : State) (b : BerthId) (r : ScanResult) : State :=
  if r.shore = .open then s.shoreOpened b
  else if r.shipcon = .closed then s.shipconClosed b r
  else
    match (s.berth b).mode with
    | .auto => s
    | .manual => s.countSyncHold b r

/-- An accepted result in SYNCING (R35, R37, R49). -/
def State.syncingResult (s : State) (b : BerthId) (r : ScanResult) : State :=
  if r.shore = .open then s.shoreOpened b
  else if r.shipcon = .closed then s.shipconClosed b r
  else if (s.berth b).closeIssued then s
  else s.countSyncing b r

/-- An accepted result in DEADBUS (R36, R37, R49). -/
def State.deadbusResult (s : State) (b : BerthId) (r : ScanResult) : State :=
  if r.shore = .open then s.shoreOpened b
  else if r.shipcon = .closed then s.shipconClosed b r
  else if (s.berth b).closeIssued then s
  else if r.gens = .open ∧ s.deadBus b r.vShip then s.issueClose b
  else s

/-- A ship connection OPEN out of turn in PARALLEL, SHORE or RESYNCING (R50); in MANUAL the position is followed without a
command (R129). -/
def State.shipconOpened (s : State) (b : BerthId) : State :=
  let old := (s.berth b).state
  let m := (s.berth b).mode
  let s1 := (s.toEnergized b).leaveIfShore b old
  let s2 := match m with
    | .auto => (s1.seqWrite b .shipconBkr cmdOpen).seqWrite b .genRelease genHold
    | .manual => s1
  (s2.finalise b .aborted).reportState b old m

/-- An accepted result in PARALLEL (R38, R49, R50; R129, R130). -/
def State.parallelResult (s : State) (b : BerthId) (r : ScanResult) : State :=
  if r.shore = .open then s.shoreOpened b
  else if r.shipcon = .open then s.shipconOpened b
  else if r.gens = .open then ((s.toShore b).finalise b .done).reportState b .parallel (s.berth b).mode
  else s

/-- A ship closes its generators in SHORE without a RETURN (R50, R129). -/
def State.shoreGensClosed (s : State) (b : BerthId) : State :=
  let m := (s.berth b).mode
  let s1 := ((s.enter b .unparallel).loadStep b .overlap).leaveShore b
  let s2 := match m with
    | .auto => (s1.seqWrite b .shipconBkr cmdOpen).seqWrite b .genRelease genHold
    | .manual => s1
  (s2.finalise b .aborted).reportState b .shore m

/-- An accepted result in SHORE (R49, R50; R129, R130). -/
def State.shoreResult (s : State) (b : BerthId) (r : ScanResult) : State :=
  if r.shore = .open then s.shoreOpened b
  else if r.shipcon = .open then s.shipconOpened b
  else if r.gens = .closed ∧ r.shipcon = .closed then s.shoreGensClosed b
  else s

/-- An accepted result in RESYNCING (R41, R49, R50). -/
def State.resyncingResult (s : State) (b : BerthId) (r : ScanResult) : State :=
  if r.shore = .open then s.shoreOpened b
  else if r.shipcon = .open then s.shipconOpened b
  else if r.gens = .closed then
    (((s.enter b .unparallel).loadStep b .overlap).seqWrite b .shipconBkr cmdOpen).reportState b .resyncing (s.berth b).mode
  else s

/-- A ship connection OPEN awaited in UNPARALLEL or SEPARATING (R42, R43, R129): ENERGIZED, a RETURN ends DONE. -/
def State.returnDone (s : State) (b : BerthId) : State :=
  ((s.toEnergized b).finalise b .done).reportState b (s.berth b).state (s.berth b).mode

/-- An accepted result in UNPARALLEL (R42, R49; R129, R130). -/
def State.unparallelResult (s : State) (b : BerthId) (r : ScanResult) : State :=
  if r.shore = .open then s.shoreOpened b
  else if r.shipcon = .open then s.returnDone b
  else
    match (s.berth b).mode with
    | .auto => s
    | .manual => if r.gens = .open then (s.toShore b).reportState b .unparallel .manual else s

/-- An accepted result in SEPARATING (R43, R49; R129, R130). -/
def State.separatingResult (s : State) (b : BerthId) (r : ScanResult) : State :=
  if r.shore = .open then s.shoreOpened b
  else if r.shipcon = .open then s.returnDone b
  else s

/-- An accepted result in DISENGAGING (R45, both modes). -/
def State.disengagingResult (s : State) (b : BerthId) (r : ScanResult) : State :=
  if r.shore = .open then
    ((((s.enter b .cabled).stopStep b).returnBase b).finalise b .done).reportState b .disengaging (s.berth b).mode
  else s

/-- The Berth Sequencer's hand-over of an accepted result (R23, R60 step 2): the transitions of the state found, in the
order of R23 (AUTO) and R129, R123 (MANUAL). ADOPTING is handed over by adoption (R61), LOCKOUT has no transition. -/
def State.sequence (s : State) (b : BerthId) (r : ScanResult) : State :=
  match (s.berth b).state with
  | .adopting => s
  | .vacant => s.followCable b r
  | .cabled => s.followCable b r
  | .engaging => s.engagingResult b r
  | .energizing => s.energizingResult b r
  | .energized => s.energizedResult b r
  | .syncing => s.syncingResult b r
  | .deadbus => s.deadbusResult b r
  | .parallel => s.parallelResult b r
  | .shore => s.shoreResult b r
  | .resyncing => s.resyncingResult b r
  | .unparallel => s.unparallelResult b r
  | .separating => s.separatingResult b r
  | .disengaging => s.disengagingResult b r
  | .lockout => s

/-! ## Expiries (section 2.10, R131, R121) -/

/-- A MANUAL berth's shore breaker has not reported CLOSED within breaker confirm (R121): no trip. -/
def State.manualNoclose (s : State) (b : BerthId) : State :=
  let s1 := ((s.enter b .cabled).stopStep b).returnBase b
  let s2 := (s1.seqWrite b .shoreBkr cmdOpen).reportState b .energizing (s.berth b).mode
  s2.record .manualNoclose (some b) 0 0 0

/-- Expiry of the sync or dead-bus limit before the close is issued (R35, R36): back to ENERGIZED. -/
def State.transferGivenUp (s : State) (b : BerthId) (res : Result) : State :=
  let old := (s.berth b).state
  let s1 := s.toEnergized b
  let s2 := if old = .deadbus then s1.seqWrite b .genRelease genHold else s1
  (s2.finalise b res).reportState b old (s.berth b).mode

/-- A Step expiry acts on the state and marks found (R26, R48, the table of section 2.10). The channel is IDLE already. -/
def State.stepExpired (s : State) (b : BerthId) : State :=
  let m := (s.berth b).mode
  match (s.berth b).state with
  | .engaging => s.leaveEngaging b .cabled .timeout
  | .energizing =>
    if (s.berth b).settling then s
    else
      match m with
      | .auto => s.tripRequest b FaultSet.onlyBkr
      | .manual => s.manualNoclose b
  | .syncing => if (s.berth b).closeIssued then s.tripRequest b FaultSet.onlyBkr else s.transferGivenUp b .nosync
  | .deadbus => if (s.berth b).closeIssued then s.tripRequest b FaultSet.onlyBkr else s.transferGivenUp b .timeout
  | .parallel => ((s.toSeparating b).finalise b .overlap).reportState b .parallel m
  | .resyncing => ((s.toShore b).finalise b .timeout).reportState b .resyncing m
  | .unparallel => s.tripRequest b FaultSet.onlyBkr
  | .separating => s.tripRequest b FaultSet.onlyBkr
  | .disengaging => s.tripRequest b FaultSet.onlyBkr
  | .adopting => s
  | .vacant => s
  | .cabled => s
  | .energized => s
  | .shore => s
  | .lockout => s

/-- The flags of the settle check on a shore voltage (R33). -/
def State.settleFlags (s : State) (b : BerthId) (v : Nat) : FaultSet :=
  { FaultSet.empty with uv := s.underVoltage b v, ov := s.overVoltage b v }

/-- A Settle expiry makes the settle check on the latest result as it stands (R33, R121). The channel is IDLE already. -/
def State.settleExpired (s : State) (b : BerthId) : State :=
  match (s.berth b).state, (s.berth b).latest with
  | .energizing, some r =>
    let f := s.settleFlags b r.vShore
    if f.isEmpty then
      ((s.toEnergized b).finalise b .done).reportState b .energizing (s.berth b).mode
    else s.tripRequest b f
  | _, _ => s

/-! ## Grant notices -/

/-- A grant notice of kind ENGAGE (R29, R90, R120), acted on in the state and mode found. -/
def State.grantNotice (s : State) (b : BerthId) : State :=
  match (s.berth b).state, (s.berth b).mode with
  | .engaging, .auto =>
    match (s.berth b).latest with
    | some r => if r.ready then s.connectReady b else s
    | none => s
  | .engaging, .manual =>
    let s1 := s.toEnergizing b
    let s2 := match s.holdFor b .budget with
      | some h => s1.releaseHold h
      | none => s1
    s2.reportState b .engaging .manual
  | _, _ => s

/-! ## Adoption (R166, R167) -/

/-- The report of an adoption: ADOPTED with the adopted state and mode, and the RSP write (R21, R166). -/
def State.reportAdopted (s : State) (b : BerthId) (st : BState) : State :=
  (s.record .adopted (some b) 0 (stateModeDetail st (s.berth b).mode) 0).queueRsp b

/-- The flags of an adoption trip (R166 row 1). -/
def adoptionFlags (r : ScanResult) : FaultSet :=
  { FaultSet.empty with bkr := r.anyFault, pilot := !r.pilot && decide (r.shore = .closed) }

/-- Row 3 of R166: CABLED, with the commands that confirm an opening. -/
def State.adoptCabled (s : State) (b : BerthId) (r : ScanResult) : State :=
  let s1 := s.enter b .cabled
  let s2 := if r.shipcon = .closed then s1.seqWrite b .shipconBkr cmdOpen else s1
  let s3 := if r.shore = .moving then s2.seqWrite b .shoreBkr cmdOpen else s2
  s3.reportAdopted b .cabled

/-- Adoption (R61, R166, R167): the mode is the default mode, and the first row that the result meets selects the state. In row 1
the ADOPTED record is staged and the RSP write queued before the adoption trip, from ADOPTING, is made. -/
def State.adopt (s : State) (b : BerthId) (r : ScanResult) : State :=
  let s0 := s.setBerth b { s.berth b with mode := (s.static b).defaultMode }
  if !(adoptionFlags r).isEmpty then
    (s0.reportAdopted b .lockout).tripAction b (adoptionFlags r)
  else if !r.pilot then (s0.enter b .vacant).reportAdopted b .vacant
  else if r.shore ≠ .closed then s0.adoptCabled b r
  else if r.shipcon ≠ .closed then ((s0.enter b .energized).takeBase b).reportAdopted b .energized
  else if r.gens = .open then ((s0.toShore b).takeBase b).reportAdopted b .shore
  else (((s0.enter b .parallel).loadStep b .overlap).takeBase b).reportAdopted b .parallel

end Sys2Proof.Machine
end

