-- ==== Sys2Proof/Machine/Event.lean ====
section
/-! DEFINITION. How an event ends: the service pass (R89 to R91, R96) and the OVERCOMMIT test (R103), after all of the event's
own effects. -/

namespace Sys2Proof.Machine

/-- A granted ENGAGE claim (R90): it leaves the queue, the base grant is taken, the notice goes to the berth's Sequencer. -/
def State.grantEngage (s : State) (c : Claim) : State :=
  ((s.setBudget { s.budget with claims := dropClaim s.budget.claims c.berth }).takeBase c.berth).grantNotice c.berth

/-- A granted LEVEL claim (R96): it leaves the queue, the level becomes the target, the SET_LEVEL in progress ends DONE. -/
def State.grantLevel (s : State) (c : Claim) (target : Nat) : State :=
  let s1 := s.setBudget { s.budget with claims := dropClaim s.budget.claims c.berth }
  ((s1.changeLevel c.berth target).queueRsp c.berth).finalise c.berth .done

/-- The walk of a service pass over the claims that stood in the queue when it began (R89). -/
def State.serviceWalk (s : State) : List Claim → State
  | [] => s
  | c :: rest =>
    match c.kind with
    | .engage => if s.fits c then (s.grantEngage c).serviceWalk rest else s
    | .level target =>
      if !s.budget.shedding && s.fits c then (s.grantLevel c target).serviceWalk rest else s.serviceWalk rest

/-- A service pass (R89). -/
def State.servicePass (s : State) : State := s.serviceWalk s.budget.claims

/-- No event is under way. -/
def State.clearMarks (s : State) : State := s.setBudget { s.budget with serviceDue := false, testDue := false }

/-- The end of an event: one service pass if the event calls for one (R91), then the OVERCOMMIT test if G, C or the Level Stack
changed (R103). -/
def State.endEvent (s : State) : State :=
  let s1 := if s.budget.serviceDue then s.servicePass else s
  let s2 := if s1.budget.testDue then s1.overcommitTest else s1
  s2.clearMarks

/-- One event: its own effects, then its end. -/
def State.event (s : State) (f : State → State) : State := (f s.clearMarks).endEvent

end Sys2Proof.Machine
end

