-- ==== Sys2Proof/Machine/Requests.lean ====
section
/-! DEFINITION. The Request Intake (06): taking a request (R106), judging it (R107, R110), its answer (R108), and each code's
owner: R28, R34, R40, R44, R46, R47, R95, R111, R112, R128. -/

namespace Sys2Proof.Machine

/-- The answer of a taken request: it runs on, or ends with a result (R106). -/
inductive Answer where
  | pending
  | final (r : Result)
  deriving DecidableEq, Repr

/-! ## Owners (R110) -/

/-- CONNECT in CABLED in AUTO (R28). A claim above Ccfg is refused at entry (R88) and the berth returns to CABLED. -/
def State.ownConnect (s : State) (b : BerthId) : State × Answer :=
  let m := (s.berth b).mode
  if (s.berth b).state = .cabled ∧ m = .auto then
    let s1 := (s.enter b .engaging).loadStep b .engage
    if (s.static b).baseCredits ≤ s.tables.ccfg then
      ((s1.placeClaim { berth := b, kind := .engage, credits := (s.static b).baseCredits }).reportState b .cabled m, .pending)
    else
      ((((s1.reportState b .cabled m).enter b .cabled).stopStep b).reportState b .engaging m, .final .nobudget)
  else (s, .final .refused)

/-- TRANSFER in ENERGIZED in AUTO (R34), by the transfer kind. -/
def State.ownTransfer (s : State) (b : BerthId) : State × Answer :=
  let m := (s.berth b).mode
  if (s.berth b).state = .energized ∧ m = .auto then
    match (s.static b).transferKind with
    | .closedTransition =>
      ((((s.enter b .syncing).setSyncCount b 0).loadStep b .sync).reportState b .energized m, .pending)
    | .openTransition =>
      ((((s.enter b .deadbus).loadStep b .deadBus).seqWrite b .genRelease genRelease).reportState b .energized m, .pending)
  else (s, .final .refused)

/-- RETURN in SHORE in AUTO (R40), by the transfer kind; the level goes to 0 first (R39). -/
def State.ownReturn (s : State) (b : BerthId) : State × Answer :=
  let m := (s.berth b).mode
  if (s.berth b).state = .shore ∧ m = .auto then
    match (s.static b).transferKind with
    | .closedTransition =>
      (((((s.enter b .resyncing).loadStep b .sync).leaveShore b).seqWrite b .genRelease genHold).reportState b .shore m, .pending)
    | .openTransition => (((s.leaveShore b).toSeparating b).reportState b .shore m, .pending)
  else (s, .final .refused)

/-- DISCONNECT in ENERGIZED in AUTO (R44). -/
def State.ownDisconnect (s : State) (b : BerthId) : State × Answer :=
  let m := (s.berth b).mode
  if (s.berth b).state = .energized ∧ m = .auto then ((s.toDisengaging b).reportState b .energized m, .pending)
  else (s, .final .refused)

/-- Is a level one that can be asked for (R93, R95)? -/
def State.levelValid (s : State) (n : Nat) : Bool := decide (n < 8) && (s.levelEntry n).valid

/-- SET_LEVEL in SHORE (R95), the first row that applies. -/
def State.ownSetLevel (s : State) (b : BerthId) (n : Nat) : State × Answer :=
  let cur := (s.berth b).level
  if (s.berth b).state = .shore then
    if !s.levelValid n then (s, .final .invalid)
    else if n = cur then (s, .final .done)
    else if n < cur then (s.changeLevel b n, .final .done)
    else if (s.berth b).residency < (s.levelEntry cur).upResidency then (s, .final .toosoon)
    else if s.levelLimit < s.levelCredits n - s.levelCredits cur then (s, .final .nobudget)
    else (s.placeClaim { berth := b, kind := .level n, credits := s.levelCredits n - s.levelCredits cur }, .pending)
  else (s, .final .refused)

/-- The states that take SET_MODE (R8, R111). -/
def BState.takesMode : BState → Bool
  | .vacant => true
  | .cabled => true
  | .energized => true
  | .shore => true
  | .lockout => true
  | .adopting => false
  | .engaging => false
  | .energizing => false
  | .syncing => false
  | .deadbus => false
  | .parallel => false
  | .resyncing => false
  | .unparallel => false
  | .separating => false
  | .disengaging => false

/-- The mode an operand names (R111, R169). -/
def modeOfOperand (op : BitVec 8) : Option Mode :=
  if op = 0 then some .auto else if op = 1 then some .manual else none

/-- A change of mode (R9, R111): the mode field; on a change to AUTO the hold entries are cancelled, a manual ENGAGE claim is
withdrawn, and in SHORE GEN_RELEASE=RELEASE is queued; then the STATE record. -/
def State.changeMode (s : State) (b : BerthId) (m : Mode) : State :=
  let old : Berth := s.berth b
  let s1 := s.setBerth b { old with mode := m }
  let s2 := match m with
    | .auto =>
      let s' := s1.cancelHolds b
      let s'' := if old.state = BState.engaging then s'.withdrawClaim b else s'
      if old.state = BState.shore then s''.seqWrite b .genRelease genRelease else s''
    | .manual => s1
  s2.reportState b old.state old.mode

/-- SET_MODE (R111). -/
def State.ownSetMode (s : State) (b : BerthId) (op : BitVec 8) : State × Answer :=
  if (s.berth b).state.takesMode then
    match modeOfOperand op with
    | none => (s, .final .invalid)
    | some m => if m = (s.berth b).mode then (s, .final .done) else (s.changeMode b m, .final .done)
  else (s, .final .busy)

/-- RELEASE (R80, R81, R112): in LOCKOUT the release flag is set, and the recovery it completes is made. -/
def State.ownRelease (s : State) (b : BerthId) : State × Answer :=
  if (s.berth b).state = .lockout then
    ((s.setSup b { s.sup b with release := true }).tryRecover b, .final .done)
  else (s, .final .refused)

/-- Does a LEVEL claim of the berth wait (R47, R128)? -/
def State.levelClaimWaits (s : State) (b : BerthId) : Bool :=
  match s.claimOf b with
  | some c => decide (c.kind ≠ .engage)
  | none => false

/-- A LEVEL claim given up by ABORT (R47, R92, R128): the SET_LEVEL ends ABORTED, the level is unchanged. -/
def State.abortLevel (s : State) (b : BerthId) : State := (s.withdrawClaim b).finalise b .aborted

/-- ABORT in AUTO, by the state and marks found (R47). -/
def State.abortAuto (s : State) (b : BerthId) : State × Answer :=
  let m := (s.berth b).mode
  match (s.berth b).state with
  | .engaging => (s.leaveEngaging b .cabled .aborted, .final .done)
  | .energizing => (((s.toDisengaging b).finalise b .aborted).reportState b .energizing m, .final .done)
  | .energized => (((s.toDisengaging b).finalise b .aborted).reportState b .energized m, .final .done)
  | .syncing =>
    if (s.berth b).closeIssued then (s, .final .refused) else (s.transferGivenUp b .aborted, .final .done)
  | .deadbus =>
    if (s.berth b).closeIssued then (s, .final .refused) else (s.transferGivenUp b .aborted, .final .done)
  | .parallel => (((s.toSeparating b).finalise b .aborted).reportState b .parallel m, .final .done)
  | .resyncing => (((s.toShore b).finalise b .aborted).reportState b .resyncing m, .final .done)
  | .shore => if s.levelClaimWaits b then (s.abortLevel b, .final .done) else (s, .final .refused)
  | .adopting => (s, .final .refused)
  | .vacant => (s, .final .refused)
  | .cabled => (s, .final .refused)
  | .unparallel => (s, .final .refused)
  | .separating => (s, .final .refused)
  | .disengaging => (s, .final .refused)
  | .lockout => (s, .final .refused)

/-- ABORT in MANUAL (R128): hold entries cancelled, the manual claim or the LEVEL claim withdrawn; DONE if anything changed. -/
def State.abortManual (s : State) (b : BerthId) : State × Answer :=
  let held := !(s.holdsOf b).isEmpty
  let s1 := s.cancelHolds b
  match (s.berth b).state with
  | .engaging => (s1.leaveManualEngaging b .cabled, .final .done)
  | .shore =>
    if s.levelClaimWaits b then (s1.abortLevel b, .final .done)
    else (s1, .final (if held then .done else .refused))
  | _ => (s1, .final (if held then .done else .refused))

/-- ABORT (R46, R47, R128). -/
def State.ownAbort (s : State) (b : BerthId) : State × Answer :=
  match (s.berth b).mode with
  | .auto => s.abortAuto b
  | .manual => s.abortManual b

/-! ## The intake -/

/-- Does row 5 of R107 leave the code alone under MAINT? -/
def ReqCode.passesMaint : ReqCode → Bool
  | .abort => true
  | .disconnect => true
  | .release => true
  | .none => false
  | .connect => false
  | .transfer => false
  | .return => false
  | .setLevel => false
  | .setMode => false

/-- Row 6 of R107: the block that owns the matter (R110). -/
def State.owner (s : State) (b : BerthId) (c : ReqCode) (op : BitVec 8) : State × Answer :=
  match c with
  | .none => (s, .final .none)
  | .connect => s.ownConnect b
  | .transfer => s.ownTransfer b
  | .return => s.ownReturn b
  | .disconnect => s.ownDisconnect b
  | .setLevel => s.ownSetLevel b op.toNat
  | .setMode => s.ownSetMode b op
  | .release => s.ownRelease b
  | .abort => s.ownAbort b

/-- A taken request is judged by the first row of R107 that applies. -/
def State.judge (s : State) (b : BerthId) (code : BitVec 4) (op : BitVec 8) : State × Answer :=
  match ReqCode.ofCode? code with
  | none => (s, .final .invalid)
  | some c =>
    if c = .none then (s, .final .none)
    else if (s.berth b).state = .adopting then (s, .final .busy)
    else if (s.berth b).request.isSome ∧ c ≠ .abort then (s, .final .busy)
    else if s.timer.maint ∧ c.passesMaint = false then (s, .final .maint)
    else s.owner b c op

/-- The operand an in-progress request holds: a level for SET_LEVEL, otherwise none (R4; SET_MODE never runs on, log 19). -/
def heldOperand (code : BitVec 4) (op : BitVec 8) : Option (BitVec 8) :=
  if code = ReqCode.setLevel.code then some op else none

/-- The answer is set and the RSP write queued (R106 step 3, R108). -/
def State.answer (s : State) (b : BerthId) (code : BitVec 4) (toggle : Bool) (op : BitVec 8) (a : Answer) : State :=
  match a with
  | .pending =>
    (s.setBerth b
      { s.berth b with
        request := some { code := (ReqCode.ofCode? code).getD .none, toggle := toggle, operand := heldOperand code op }
        phase := .pending
        result := .none }).queueRsp b
  | .final r => (s.setBerth b { s.berth b with phase := .final, result := r }).queueRsp b

/-- A request is taken (R106): the toggles first; RSP answers this request from here on, so that a request that this one ends
goes to the log (R46, R109); then the judgement and the answer. -/
def State.takeRequest (s : State) (b : BerthId) (code : BitVec 4) (toggle : Bool) (op : BitVec 8) : State :=
  let s1 := s.setBerth b { s.berth b with lastTaken := toggle, answered := toggle, phase := .final }
  let j := s1.judge b code op
  j.1.answer b code toggle op j.2

/-- A value written to a berth's REQ word is examined (R106): a repeat is taken for nothing. -/
def State.examineReq (s : State) (b : BerthId) (w : Word) : State :=
  if toggleOf w = (s.berth b).lastTaken then s else s.takeRequest b (codeOf w) (toggleOf w) (operandOf w)

/-! ## Groups (R113 to R116) -/

/-- The codes a group fans out (R114). -/
def ReqCode.fansOut : ReqCode → Bool
  | .connect => true
  | .transfer => true
  | .return => true
  | .disconnect => true
  | .setLevel => true
  | .abort => true
  | .none => false
  | .setMode => false
  | .release => false

/-- Is a code field one that a group fans out (R114)? -/
def fansOutCode (code : BitVec 4) : Bool :=
  match ReqCode.ofCode? code with
  | some c => c.fansOut
  | none => false

/-- The counts of a fan-out (R115). -/
structure GroupCount where
  taken : Nat
  refused : Nat
  blocked : Nat
  deriving DecidableEq, Repr

/-- How a member's answer is counted (R115): PENDING and DONE are taken, any other final is refused. -/
def countedTaken (r : Berth) : Bool :=
  match r.phase with
  | .pending => true
  | .final => decide (r.result = .done)

/-- One member's turn (R115): blocked, or delivered the code and operand with the complement of its last-taken toggle, as
one event of the member. -/
def State.fanOne (s : State) (n : GroupCount) (e : GroupEntry) (b : BerthId) (code : BitVec 4) (op : BitVec 8) :
    State × GroupCount :=
  if e.blocked.getLsbD b.toNat ∨ (s.berth b).state = .lockout then (s, { n with blocked := n.blocked + 1 })
  else
    let s1 := s.event fun t => t.takeRequest b code (!(t.berth b).lastTaken) op
    if countedTaken (s1.berth b) then (s1, { n with taken := n.taken + 1 }) else (s1, { n with refused := n.refused + 1 })

/-- The members in ascending berth order (R115). -/
def State.fanOut (s : State) (n : GroupCount) (e : GroupEntry) (code : BitVec 4) (op : BitVec 8) :
    List BerthId → State × GroupCount
  | [] => (s, n)
  | b :: rest =>
    if e.members.getLsbD b.toNat then
      let p := s.fanOne n e b code op
      p.1.fanOut p.2 e code op rest
    else s.fanOut n e code op rest

/-- A group request is taken (R114, R116). -/
def State.takeGroup (s : State) (g : GroupId) (code : BitVec 4) (toggle : Bool) (op : BitVec 8) : State :=
  let s1 := s.setGroupTaken g toggle
  if fansOutCode code then
    let p := s1.fanOut { taken := 0, refused := 0, blocked := 0 } (s.tables.groups.get g) code op BerthId.all
    p.1.queueGroupRsp g (groupRspWord toggle .done p.2.taken p.2.refused p.2.blocked)
  else s1.queueGroupRsp g (groupRspWord toggle .invalid 0 0 0)

/-- A value written to a GROUP_REQ word is examined (R114): a repeat is taken for nothing. -/
def State.examineGroup (s : State) (g : GroupId) (w : Word) : State :=
  if toggleOf w = s.groupTaken.get g then s else s.takeGroup g (codeOf w) (toggleOf w) (operandOf w)

end Sys2Proof.Machine
end

