-- ==== Sys2Proof/Machine/HostPort.lean ====
section
/-! DEFINITION. What becomes of a host write: the Window Decoder's classes (R136), refusals (R137), the Manual Guard (R118 to
R125), the CONSUMER word (R157), and discarded writes (R162, R164). -/

namespace Sys2Proof.Machine

/-- A passed write waits at the host port for the Port Arbiter (R133). -/
def State.passWrite (s : State) (a d : Word) : State := s.setPorts { s.ports with host := some (.write a d) }

/-- A refused write: a SINK record and nothing else (R137). -/
def State.sink (s : State) (reason : SinkReason) (b : Option BerthId) (a d : Word) : State :=
  s.record .sink b reason.code a d

/-- A write discarded while the part is not RUNNING: the first sets the writes-discarded mark and has the start-up word
rewritten (R162, R164). -/
def State.discardWrite (s : State) : State :=
  if s.loader.discarded then s else s.setLoader { s.loader with discarded := true, startupWaiting := true }

/-! ## The Manual Guard -/

/-- A manual engage (R119): refused GUARD outside CABLED or when the base credits exceed Ccfg; otherwise ENGAGING with a
BUDGET entry and an ENGAGE claim. -/
def State.manualEngage (s : State) (b : BerthId) (a d : Word) : State :=
  if (s.berth b).state = .cabled ∧ (s.static b).baseCredits ≤ s.tables.ccfg then
    let s1 := (s.enter b .engaging).placeHold b .shoreBkr d .budget
    (s1.placeClaim { berth := b, kind := .engage, credits := (s.static b).baseCredits }).reportState b .cabled
      (s.berth b).mode
  else s.sink .guard (some b) a d

/-- Does the berth's latest result show a dead ship bus (R122)? With no result yet it does not (log 20). -/
def State.latestDeadBus (s : State) (b : BerthId) : Bool :=
  match (s.berth b).latest with
  | some r => s.deadBus b r.vShip
  | none => false

/-- A manual close of the ship connection (R122): passed on a dead bus, otherwise held with reason SYNC; refused GUARD outside
ENERGIZED. -/
def State.manualShipcon (s : State) (b : BerthId) (a d : Word) : State :=
  if (s.berth b).state = .energized then
    if s.latestDeadBus b then s.passWrite a d
    else (s.placeHold b .shipconBkr d .sync).setSyncCount b 0
  else s.sink .guard (some b) a d

/-- A CLOSE written over a held CLOSE (R124): the data alone is replaced. -/
def State.supersede (s : State) (a d : Word) : State :=
  s.setHolds (s.holds.map fun h => if h.address = a then { h with data := d } else h)

/-- An OPEN or NONE written over a held CLOSE (R125 steps 1 to 3). -/
def State.cancelByHost (s : State) (b : BerthId) (h : Hold) : State :=
  let s1 := s.endHold .holdCancelled h
  match h.reason with
  | .budget => s1.leaveManualEngaging b .cabled
  | .sync => s1

/-- A host write to SHORE_BKR or SHIPCON_BKR of a MANUAL berth: the first row of R118 that applies. -/
def State.guardBreaker (s : State) (b : BerthId) (w : BreakerWord) (a d : Word) : State :=
  if d = cmdOpen ∨ d = cmdNone then
    match s.holdAt a with
    | some h => (s.cancelByHost b h).passWrite a d
    | none => s.passWrite a d
  else if d = cmdClose then
    match s.holdAt a with
    | some _ => s.supersede a d
    | none =>
      match w with
      | .shoreBkr => s.manualEngage b a d
      | .shipconBkr => s.manualShipcon b a d
  else s.sink .guard (some b) a d

/-- A host write to a COMMAND word (R136): refused OWNED in AUTO and for CHARGE_LIMIT; otherwise the Manual Guard decides. -/
def State.commandWrite (s : State) (b : BerthId) (w : CmdWord) (a d : Word) : State :=
  match w, (s.berth b).mode with
  | .chargeLimit, _ => s.sink .owned (some b) a d
  | _, .auto => s.sink .owned (some b) a d
  | .genRelease, .manual => s.passWrite a d
  | .shoreBkr, .manual => s.guardBreaker b .shoreBkr a d
  | .shipconBkr, .manual => s.guardBreaker b .shipconBkr a d

/-! ## CONSUMER -/

/-- Does a value lie in the accepted range of CONSUMER (R157)? -/
def Log.acceptsConsumer (l : Log) (v : Nat) : Bool :=
  decide (v < l.capacity) && decide ((v + l.capacity - l.consumer) % l.capacity ≤ l.ringCount)

/-- An accepted value becomes the consumer index, and the room it frees counts at once (R157, R158). -/
def Log.setConsumer (l : Log) (v : Nat) (stamp : Word) : Log :=
  if v = l.consumer then l else { l with consumer := v }.roomFreed stamp

/-- A host write to CONSUMER (R157). -/
def State.writeConsumer (s : State) (a d : Word) : State :=
  if s.log.acceptsConsumer d.toNat then
    (s.setLog (s.log.setConsumer d.toNat s.scan.passNumber)).passWrite a d
  else s.sink .range none a d

/-! ## Classification -/

/-- The outcome of a host write by its class, while the part is RUNNING (R136). -/
def State.decideWrite (s : State) (c : WordClass) (a d : Word) : State :=
  match c with
  | .plain => s.passWrite a d
  | .command b w => s.commandWrite b w a d
  | .req b => (s.passWrite a d).examineReq b d
  | .rsp b => s.sink .owned (some b) a d
  | .field b => s.sink .field b a d
  | .groupReq g => (s.passWrite a d).examineGroup g d
  | .groupRsp _ => s.sink .owned none a d
  | .consumer => s.writeConsumer a d
  | .logOther => s.sink .owned none a d
  | .startup => s.sink .owned none a d

/-- A host write arrives (R133, R162, R164). The host port holds one access at a time: while one is in progress no other
arrives (log 3). -/
def State.hostWrites (s : State) (c : WordClass) (a d : Word) : State :=
  if s.ports.host.isSome then s
  else
    match s.phase with
    | .resetHeld => s
    | .loading => s.discardWrite
    | .blocked => s.discardWrite
    | .running => s.event fun t => t.decideWrite c a d

/-- A host write to a word of a berth's window. In RUNNING a berth numbered N or above has no window (R1, log 3). -/
def State.berthWrites (s : State) (b : BerthId) (c : WordClass) (a d : Word) : State :=
  if s.phase = .running ∧ s.configured b = false then s else s.hostWrites c a d

/-- A host write to a berth's REQ word (R106). -/
def State.writesReq (s : State) (b : BerthId) (code : BitVec 4) (q : ReqBits) : State :=
  s.berthWrites b (.req b) (s.tables.reqAddress b) (reqWord code q)

/-- A host write to a COMMAND word of a berth (R136). -/
def State.writesCommand (s : State) (b : BerthId) (w : CmdWord) (d : Word) : State :=
  s.berthWrites b (.command b w) (s.tables.cmdAddress b w) d

/-- A host write to a GROUP_REQ word (R114). In RUNNING an entry with no GROUP window takes no request (R113, log 3). -/
def State.writesGroup (s : State) (g : GroupId) (code : BitVec 4) (q : ReqBits) : State :=
  if s.phase = .running ∧ s.groupInUse g = false then s
  else s.hostWrites (.groupReq g) (s.tables.groupReqAddress g) (reqWord code q)

end Sys2Proof.Machine
end

