-- ==== Sys2Proof/Machine/Image.lean ====
section
/-! DEFINITION. The configuration image (R160, 12.5): its check word, the checks of R161 in their order, and the tables
that a good image installs (R165). -/

namespace Sys2Proof.Machine

/-- Word i of an image, as a number. -/
def imageAt (ws : List Word) (i : Nat) : Nat := (ws.getD i 0).toNat

/-- Bits lo to lo+len−1 of a number. -/
def field (x lo len : Nat) : Nat := x / 2 ^ lo % 2 ^ len

/-! ## The check word (R160) -/

/-- One shift of the CRC-16 with polynomial 0x1021 (R160). -/
def crcShift (c : Word) : Word := if c.getLsbD 15 then (c <<< 1) ^^^ 0x1021 else c <<< 1

/-- One byte into the CRC (R160: without reflection). -/
def crcByte (c : Word) (byte : Nat) : Word :=
  (List.range 8).foldl (fun x _ => crcShift x) (c ^^^ BitVec.ofNat 16 (byte * 256))

/-- One word into the CRC, high byte first (R160). -/
def crcWord (c : Word) (w : Word) : Word := crcByte (crcByte c (w.toNat / 256)) (w.toNat % 256)

/-- The computed CRC: every image word except word 3, in word order, from 0xFFFF, without a final inversion (R160). -/
def imageCrc (ws : List Word) : Word := (ws.take 3 ++ ws.drop 4).foldl crcWord 0xFFFF

/-! ## Reading the sections (12.5) -/

/-- The berth count N of an image. -/
def imageN (ws : List Word) : Nat := imageAt ws 7

/-- The static part at place k (12.5). -/
def imageStatic (ws : List Word) (k : Nat) : BerthStatic :=
  let w := fun i => imageAt ws (8 + 16 * k + i)
  { defaultMode := if field (w 0) 0 1 = 1 then .manual else .auto
    transferKind := if field (w 0) 1 1 = 1 then .openTransition else .closedTransition
    autoRelease := decide (field (w 0) 2 1 = 1)
    baseCredits := w 1
    uvIndex := field (w 2) 0 4
    ovIndex := field (w 2) 4 4
    deadBusIndex := field (w 2) 8 4
    syncMaxFreq := w 3
    syncMaxAngle := w 4
    syncMaxVolt := w 5
    syncPersistence := field (w 6) 0 8
    uvOvPersistence := field (w 6) 8 8
    staleLimit := w 7
    quietRequired := w 8
    engageLimit := w 9
    breakerConfirm := w 10
    settle := w 11
    syncLimit := w 12
    deadBusLimit := w 13
    overlapLimit := w 14
    holdLimit := w 15 }

/-- The configured static parts of an image. -/
def imageStatics (ws : List Word) : List BerthStatic := (List.range (min (imageN ws) 8)).map (imageStatic ws)

/-- Threshold Table entry i: present when bit i of word 136 is set (12.5). -/
def imageThreshold (ws : List Word) (i : Nat) : Option Nat :=
  if field (imageAt ws 136) i 1 = 1 then some (imageAt ws (137 + i)) else none

/-- Level Table entry k (12.5). -/
def imageLevel (ws : List Word) (k : Nat) : LevelEntry :=
  let w := fun i => imageAt ws (153 + 4 * k + i)
  { valid := decide (field (w 0) 15 1 = 1)
    credits := field (w 0) 0 10
    limit := BitVec.ofNat 16 (w 1)
    activity := w 2
    upResidency := field (w 3) 0 8
    downIdle := field (w 3) 8 8 }

/-- The Level Table of an image. -/
def imageLevels (ws : List Word) : List LevelEntry := (List.range 8).map (imageLevel ws)

/-- Window Table entry k as it stands: kind code, index and base (12.5). -/
def imageRawWindow (ws : List Word) (k : Nat) : Nat × Nat × Nat :=
  let w0 := imageAt ws (189 + 2 * k)
  (field w0 12 4, field w0 0 4, imageAt ws (189 + 2 * k + 1))

/-- A Window Table entry of a known kind; kind 0 is an empty entry (12.1). -/
def windowOfRaw (r : Nat × Nat × Nat) : Option Window :=
  match r.1 with
  | 1 => some { kind := .command, index := r.2.1, base := r.2.2 }
  | 2 => some { kind := .request, index := r.2.1, base := r.2.2 }
  | 3 => some { kind := .field, index := r.2.1, base := r.2.2 }
  | 4 => some { kind := .group, index := r.2.1, base := r.2.2 }
  | 5 => some { kind := .log, index := r.2.1, base := r.2.2 }
  | _ => none

/-- The 32 entries of the Window Table. -/
def imageWindows (ws : List Word) : List (Option Window) :=
  (List.range 32).map fun k => windowOfRaw (imageRawWindow ws k)

/-- Group Table entry (12.5). -/
def imageGroup (ws : List Word) (g : Nat) : GroupEntry :=
  { members := BitVec.ofNat 8 (field (imageAt ws (253 + g)) 0 8)
    blocked := BitVec.ofNat 8 (field (imageAt ws (253 + g)) 8 8) }

/-- The log capacity of an image. -/
def imageLogCapacity (ws : List Word) : Nat := imageAt ws 257

/-! ## The checks (R161) -/

/-- Is a number in a range, ends included? -/
def within (lo hi x : Nat) : Bool := decide (lo ≤ x) && decide (x ≤ hi)

/-- Is a window's index one its kind allows, for N berths (R161 check 4, 12.5)? -/
def windowIndexOk (n : Nat) (w : Window) : Bool :=
  match w.kind with
  | .command => decide (w.index < n)
  | .request => decide (w.index < n)
  | .field => decide (w.index = 15) || (decide (w.index < n) && decide (w.index < 8))
  | .group => decide (w.index ≤ 3)
  | .log => true

/-- How many windows of a kind and index a list has. -/
def windowCount (l : List Window) (k : WindowKind) (i : Nat) : Nat :=
  (l.filter fun w => decide (w.kind = k) && (decide (k = .log) || decide (w.index = i))).length

/-- Do two windows share no address? -/
def windowsApart (logCapacity : Nat) (v w : Window) : Bool :=
  decide (v.base + v.length logCapacity ≤ w.base) || decide (w.base + w.length logCapacity ≤ v.base)

/-- Does no window of the list overlap a later one? -/
def allApart (logCapacity : Nat) : List Window → Bool
  | [] => true
  | w :: rest => rest.all (windowsApart logCapacity w) && allApart logCapacity rest

/-- Check 4, windows (R134, R161): known kinds, indexes, one window of each required kind, at most one GROUP window per
entry, no overlap, all within 0x0000 to 0xFFFE, and the log capacity in range. An N above 8 fails here. -/
def windowsOk (ws : List Word) : Bool :=
  let n := imageN ws
  let cap := imageLogCapacity ws
  let l := (imageWindows ws).filterMap id
  decide (n ≤ 8)
    && (List.range 32).all (fun k => decide ((imageRawWindow ws k).1 ≤ 5))
    && l.all (windowIndexOk n)
    && (List.range n).all (fun b =>
      decide (windowCount l .command b = 1) && decide (windowCount l .request b = 1) && decide (windowCount l .field b = 1))
    && decide (windowCount l .field 15 = 1)
    && decide (windowCount l .log 0 = 1)
    && (List.range 4).all (fun g => decide (windowCount l .group g ≤ 1))
    && within 16 256 cap
    && l.all (fun w => decide (w.base + w.length cap ≤ 0xFFFF))
    && allApart cap l

/-- The ranges of R2 for a static part, its deadlines left out. -/
def staticOk (p : BerthStatic) : Bool :=
  within 1 1023 p.baseCredits && within 1 100 p.syncMaxFreq && within 1 300 p.syncMaxAngle
    && within 1 1000 p.syncMaxVolt && within 1 4 p.syncPersistence && within 1 8 p.uvOvPersistence
    && within 2 16 p.staleLimit && within 4 255 p.quietRequired

/-- Check 5, berths (R161). -/
def berthsOk (ws : List Word) : Bool := within 1 8 (imageN ws) && (imageStatics ws).all staticOk

/-- Do the valid entries run contiguously from a place on, each with more credits than the one below and a down-idle of 1 or
more (R93)? -/
def levelsFollow (below : LevelEntry) : List LevelEntry → Bool
  | [] => true
  | e :: rest =>
    (!e.valid || (below.valid && decide (below.credits < e.credits) && within 1 255 e.downIdle)) && levelsFollow e rest

/-- The Level Table's conditions (R93). -/
def levelsOk : List LevelEntry → Bool
  | [] => false
  | e :: rest => e.valid && decide (e.credits = 0) && within 1 255 e.downIdle && levelsFollow e rest

/-- Check 6, Level Table and feeder (R84, R93, R161). -/
def feederOk (ws : List Word) : Bool :=
  levelsOk (imageLevels ws) && within 1 4095 (imageAt ws 185) && decide (imageAt ws 186 ≤ imageAt ws 185)
    && decide (imageAt ws 188 < imageAt ws 187)

/-- Check 7, thresholds (R67, R161). -/
def thresholdsOk (ws : List Word) : Bool :=
  (imageStatics ws).all fun p =>
    (imageThreshold ws p.uvIndex).isSome && (imageThreshold ws p.ovIndex).isSome
      && (imageThreshold ws p.deadBusIndex).isSome

/-- Check 8, groups: an entry with a GROUP window names configured berths only (R113, R161). -/
def groupsOk (ws : List Word) : Bool :=
  let l := (imageWindows ws).filterMap id
  GroupId.all.all fun g =>
    decide (windowCount l .group g.toNat = 0)
      || decide ((imageGroup ws g.toNat).members.toNat < 2 ^ imageN ws)

/-- The deadlines of a static part (R3). -/
def deadlinesOk (p : BerthStatic) : Bool :=
  within 1 65535 p.engageLimit && within 1 65535 p.breakerConfirm && within 1 65535 p.settle
    && within 1 65535 p.syncLimit && within 1 65535 p.deadBusLimit && within 1 65535 p.overlapLimit
    && within 1 255 p.holdLimit

/-- Check 9, timers (R147, R51, R3, R161). -/
def timersOk (ws : List Word) : Bool :=
  within 1 255 (imageAt ws 4) && within 1 65535 (imageAt ws 5) && within 1 255 (imageAt ws 6)
    && (imageStatics ws).all deadlinesOk

/-- Checks 3 to 9, made when the last word of the image has been read: the first that fails gives the code (R161). -/
def lateChecks (ws : List Word) : ErrorCode :=
  if imageCrc ws ≠ ws.getD 3 0 then .badCheck
  else if !windowsOk ws then .badWindow
  else if !berthsOk ws then .badBerth
  else if !feederOk ws then .badLevel
  else if !thresholdsOk ws then .badThreshold
  else if !groupsOk ws then .badGroup
  else if !timersOk ws then .badTimer
  else .none

/-- The check due when a word has been read (R161): marker and version after word 1, length after word 2, the rest after the
last word. `none` means that no check is due or that the check due passes and reading goes on. -/
def checkDue (ws : List Word) : ErrorCode :=
  if ws.length = 2 then
    if ws.getD 0 0 ≠ 0xA5F0 ∨ ws.getD 1 0 ≠ 1 then .badMarker else .none
  else if ws.length = 3 then
    if imageAt ws 2 ≠ imageLength then .badLength else .none
  else if ws.length = imageLength then lateChecks ws
  else .none

/-- Is a failing check number 4 or later, so that a good N is reported (R163)? -/
def ErrorCode.late : ErrorCode → Bool
  | .none => false
  | .badMarker => false
  | .badLength => false
  | .badCheck => false
  | .badWindow => true
  | .badBerth => true
  | .badLevel => true
  | .badThreshold => true
  | .badGroup => true
  | .badTimer => true

/-- N in the start-up word of a failed load (R163). -/
def blockedN (ws : List Word) (e : ErrorCode) : Nat := if e.late && within 1 8 (imageN ws) then imageN ws else 0

/-! ## Installation (R165 step 1) -/

/-- The static part of place k, blank for a berth numbered N or above (R160: not used). -/
def installedStatic (ws : List Word) (k : Nat) : BerthStatic :=
  if k < imageN ws then imageStatic ws k else BerthStatic.blank

/-- The tables of a good image. -/
def tablesOf (ws : List Word) : Tables :=
  let st := installedStatic ws
  { baseFPeriod := imageAt ws 4
    ns := imageAt ws 5
    scanPeriod := imageAt ws 6
    n := imageN ws
    statics := ⟨st 0, st 1, st 2, st 3, st 4, st 5, st 6, st 7⟩
    thresholds := (List.range 16).map (imageThreshold ws)
    levels := imageLevels ws
    ccfg := imageAt ws 185
    reserve := imageAt ws 186
    highLoad := imageAt ws 187
    lowLoad := imageAt ws 188
    windows := imageWindows ws
    groups := ⟨imageGroup ws 0, imageGroup ws 1, imageGroup ws 2, imageGroup ws 3⟩
    logCapacity := imageLogCapacity ws }

/-- The berths with a record, in ascending order (R1). -/
def berthsUpTo (n : Nat) : List BerthId := BerthId.all.filter fun b => decide (b.toNat < n)

end Sys2Proof.Machine
end

