-- ==== Sys2Proof/Machine/Startup.lean ====
section
/-! DEFINITION. Reset, LOADING, the installation of a good image, and entry to RUNNING or BLOCKED (R162 to R165). -/

namespace Sys2Proof.Machine

/-- What the memory holds when a reset ends the write in progress at the port (R141): the old value or, where it landed, the
new one. A host write in progress is not carried (R133, log 10). -/
def State.pimAtReset (s : State) (landed : Bool) : Memory :=
  match s.ports.busy with
  | some (.ownWrite w) => if landed then Memory.write s.pim w.address.toNat w.data else s.pim
  | some (.logWrite _ a d) => if landed then Memory.write s.pim a.toNat d else s.pim
  | some (.hostWrite _ _) => s.pim
  | some (.startRead _) => s.pim
  | some (.scanRead _) => s.pim
  | none => s.pim

/-- RESET asserted (R162): all part state is lost; the PIM is not touched. -/
def State.assertReset (s : State) (landed : Bool) : State := State.lost s.pending s.maintPin (s.pimAtReset landed) s.plant

/-- RESET released (R162): LOADING, with the first start-up word write waiting. -/
def State.releaseReset (s : State) : State :=
  if s.phase = .resetHeld then
    { s with phase := .loading, loader := { Loader.blank with startupWaiting := true, firstWaiting := true } }
  else s

/-- A failed load (R163, R164): BLOCKED, the start-up word rewritten with the code. -/
def State.enterBlocked (s : State) (ws : List Word) (e : ErrorCode) : State :=
  { s with
    phase := .blocked
    loader := { s.loader with words := ws, error := e, reportedN := blockedN ws e, startupWaiting := true } }

/-- The Berth Record that the Image Loader builds at a place (R22). -/
def builtBerth (t : Tables) (b : BerthId) : Berth :=
  if b.toNat < t.n then { Berth.blank with mode := (t.statics.get b).defaultMode } else Berth.blank

/-- The start-up reads in order (R165 step 2): the REQ words of B0 to B(N−1), then the GROUP_REQ words in entry order. -/
def startReads (t : Tables) : List StartRead :=
  (berthsUpTo t.n).map StartRead.req
    ++ (GroupId.all.filter fun g => (t.window? .group g.toNat).isSome).map StartRead.groupReq

/-- The log begins (R154): five header writes with the start values, then the RESTART record. -/
def Log.begun (t : Tables) : Log :=
  { Log.blank with
    capacity := t.logCapacity
    staging :=
      [{ type := .restart, berth := none, qualifier := 0, detailA := BitVec.ofNat 16 t.n,
         detailB := BitVec.ofNat 16 t.logCapacity, stamp := 0 }]
    firstHeaders := [.status, .producer, .consumer, .granted, .capacity] }

/-- A good image is installed (R165 step 1): tables and Berth Records are filled, the log begins, the start-up reads stand; the
plant's FIELD words are those of this image (log 2). The N of the start-up word stays 0 until entry to RUNNING: which N is
current between installation and RUNNING, R163 does not say; the model's choice (log 28). -/
def State.install (s : State) (ws : List Word) : State :=
  let t := tablesOf ws
  { s with
    tables := t
    plant := some (t.windowList.filter fun w => decide (w.kind = .field))
    berths := ⟨builtBerth t .b0, builtBerth t .b1, builtBerth t .b2, builtBerth t .b3,
      builtBerth t .b4, builtBerth t .b5, builtBerth t .b6, builtBerth t .b7⟩
    log := Log.begun t
    loader := { s.loader with words := ws, reads := startReads t } }

/-- One image word has been read (R160, R161). Only LOADING reads, and only up to the image's length. -/
def State.imageWord (s : State) (w : Word) : State :=
  if s.phase = .loading ∧ s.loader.words.length < imageLength then
    let ws := s.loader.words ++ [w]
    let e := checkDue ws
    if e ≠ .none then s.enterBlocked ws e
    else if ws.length = imageLength then s.install ws
    else s.setLoader { s.loader with words := ws }
  else s

/-- Entry to RUNNING (R51, R53, R147, R151, R154, R163, R165 step 3): both bases start, MAINT is sampled, the first pass starts,
STATUS and the start-up word are rewritten. -/
def State.enterRunning (s : State) : State :=
  { s with
    phase := .running
    loader := { s.loader with startupWaiting := true, reportedN := s.tables.n }
    timer := { TimerBank.blank with divider := s.tables.ns, maint := s.maintPin }
    scan := { ScanEngine.blank with timer := s.tables.scanPeriod, pass := some { block := .feeder, words := [] } }
    log := { s.log with statusPending := true } }

/-- RUNNING is entered when the last start-up read and the five first header writes have completed (R165 step 3). -/
def State.tryEnterRunning (s : State) : State :=
  if s.phase = .loading ∧ s.loader.words.length = imageLength ∧ s.loader.reads = [] ∧ s.log.firstHeaders = [] then
    s.enterRunning
  else s

/-- The toggle of a start-up read is taken over, and the start-up answer is queued (R22, R113, R165 step 2). -/
def State.takeOverToggle (s : State) (r : StartRead) (toggle : Bool) : State :=
  match r with
  | .req b =>
    (s.setBerth b { s.berth b with lastTaken := toggle, answered := toggle }).queueRsp b
  | .groupReq g =>
    (s.setGroupTaken g toggle).queueGroupRsp g (groupRspWord toggle .none 0 0 0)

/-- A start-up read in progress completes with the word that the host left in memory (R135, R165 step 2). -/
def State.startReadDone (s : State) : State :=
  match s.ports.busy with
  | some (.startRead r) =>
    let s1 := s.setPorts { s.ports with busy := none }
    let s2 := s1.setLoader { s1.loader with reads := s1.loader.reads.tail }
    (s2.takeOverToggle r (toggleOf (s.pimRead (s.tables.startReadAddress r)))).tryEnterRunning
  | _ => s

end Sys2Proof.Machine
end

