-- ==== Sys2Proof/Machine/Port.lean ====
section
/-! DEFINITION. The Port Arbiter (R144, R145), the completion of own and host writes (R141, R142), and the Log Unit's writes
(R154, R156, R158). -/

namespace Sys2Proof.Machine

/-! ## Who waits (R144) -/

/-- The Image Loader's waiting access: the start-up word write, or the next start-up read. -/
inductive LoaderAccess where
  | startupWrite
  | read (r : StartRead)
  deriving DecidableEq, Repr

/-- The Image Loader's waiting access (R144). The write of entry to LOADING is its first access (R162); where a later rewrite
and a start-up read both wait, `readFirst` says which it presents (log 9). -/
def Loader.next (l : Loader) (readFirst : Bool) : Option LoaderAccess :=
  match l.startupWaiting, l.reads with
  | true, [] => some .startupWrite
  | true, r :: _ => if readFirst && !l.firstWaiting then some (.read r) else some .startupWrite
  | false, r :: _ => some (.read r)
  | false, [] => none

/-- The Log Unit's next access (R154, R156): the first header words; the waiting PRODUCER write; the next word of the head
record; and, when none of these waits, the pending header words in the order STATUS, GRANTED, CAPACITY. -/
def Log.next (l : Log) : Option LogWrite :=
  match l.firstHeaders with
  | h :: _ => some (.firstHeader h)
  | [] =>
    if l.producerWaiting then some .producerWord
    else
      match l.staging with
      | _ :: _ => some (.recordWord l.wordIndex)
      | [] =>
        if l.statusPending then some (.headerWord .status)
        else if l.grantedPending then some (.headerWord .granted)
        else if l.capacityPending then some (.headerWord .capacity)
        else none

/-- Does some own requester wait (R145)? -/
def State.ownWaits (s : State) : Bool :=
  !s.owq.isEmpty || (s.loader.next false).isSome || s.scan.pass.isSome || s.log.next.isSome

/-- The access a grant is made to (R144). -/
inductive Grantee where
  | host (a : HostAccess)
  | own (w : OwnWrite)
  | loader (a : LoaderAccess)
  | scan (p : Pass)
  | log (k : LogWrite)
  deriving DecidableEq, Repr

/-- Items 3 to 7 of the grant order (R144). -/
def State.chooseOwn (s : State) (readFirst : Bool) : Option Grantee :=
  match s.loader.next readFirst, s.owq, s.scan.pass, s.log.next, s.ports.host with
  | some a, _, _, _, _ => some (.loader a)
  | none, w :: _, _, _, _ => some (.own w)
  | none, [], some p, _, _ => some (.scan p)
  | none, [], none, some k, _ => some (.log k)
  | none, [], none, none, some a => some (.host a)
  | none, [], none, none, none => none

/-- Items 2 to 7 of the grant order: the host while its streak is below 4 (R144). -/
def State.chooseHost (s : State) (readFirst : Bool) : Option Grantee :=
  match s.ports.host with
  | some a => if s.ports.streak < streakLimit then some (.host a) else s.chooseOwn readFirst
  | none => s.chooseOwn readFirst

/-- The grant order (R144): first a TRIP entry at the head of the Own Write Queue. -/
def State.choose (s : State) (readFirst : Bool) : Option Grantee :=
  match s.owq with
  | w :: _ => if w.cls = .trip then some (.own w) else s.chooseHost readFirst
  | [] => s.chooseHost readFirst

/-! ## Grants -/

/-- The reads of a block in one pass (R54). -/
def Block.reads : Block → Nat
  | .feeder => 5
  | .berth _ => 9

/-- The position in the block of read i: the last read is SEQ again (R54). -/
def Block.offset (k : Block) (i : Nat) : Nat := if i + 1 = k.reads then 0 else i

/-- The value of a header word at a write's grant (R154). -/
def State.headerValue (s : State) (h : HeaderWord) : Word :=
  match h with
  | .status => s.statusWord
  | .producer => BitVec.ofNat 16 s.log.producer
  | .consumer => BitVec.ofNat 16 s.log.consumer
  | .granted => BitVec.ofNat 16 s.granted
  | .capacity => BitVec.ofNat 16 s.budget.capacity

/-- Address of word i of ring slot p (R156): the LOG window's base address plus 5 + 4p, plus i. -/
def State.ringAddress (s : State) (i : Nat) : Word := s.tables.logAddress (5 + 4 * s.log.producer + i)

/-- The address and data of a Log Unit write (R154, R156). -/
def State.logTarget (s : State) (k : LogWrite) : Word × Word :=
  match k with
  | .firstHeader h => (s.tables.logAddress h.offset, s.headerValue h)
  | .recordWord i =>
    (s.ringAddress i, match s.log.staging with
      | r :: _ => r.word i
      | [] => 0)
  | .producerWord => (s.tables.logAddress HeaderWord.producer.offset, s.headerValue .producer)
  | .headerWord h => (s.tables.logAddress h.offset, s.headerValue h)

/-- A granted header word is no longer pending: a later change pends it anew (R154). -/
def Log.granted (l : Log) (k : LogWrite) : Log :=
  match k with
  | .firstHeader _ => l
  | .recordWord _ => l
  | .producerWord => { l with producerWaiting := false }
  | .headerWord .status => { l with statusPending := false }
  | .headerWord .granted => { l with grantedPending := false }
  | .headerWord .capacity => { l with capacityPending := false }
  | .headerWord .producer => l
  | .headerWord .consumer => l

/-- The memory port is taken by an own access: the host streak is 0 (R145). -/
def State.portTo (s : State) (a : PortAccess) : State := s.setPorts { s.ports with busy := some a, streak := 0 }

/-- The host streak after a host grant (R145). -/
def State.streakAfterHost (s : State) : Nat := if s.ownWaits then s.ports.streak + 1 else 0

/-- A host access is granted: a write takes the port until it is carried; a read is answered with the word the memory holds
(R135, R146), which at a FIELD word is what the plant I/O station last wrote (log 2), and completes (log 8). -/
def State.grantHost (s : State) (a : HostAccess) (station : Option Word) : State :=
  match a with
  | .write addr d =>
    s.setPorts { s.ports with busy := some (.hostWrite addr d), streak := s.streakAfterHost }
  | .read addr =>
    let s1 := if s.stationWord addr then s.stationWrote addr station else s
    s1.setPorts
      { s1.ports with host := none, hostData := some (s1.pimRead addr), streak := s.streakAfterHost }

/-- The start-up word write is granted with the values current now, and completes (R163, log 8). -/
def State.grantStartupWrite (s : State) : State :=
  let s1 := s.pimWrite startupAddress
    (startupWord s.phase s.loader.error s.loader.reportedN s.loader.discarded)
  (s1.setLoader { s1.loader with startupWaiting := false, firstWaiting := false }).setPorts { s1.ports with streak := 0 }

/-- A grant (R144). -/
def State.grantTo (s : State) (g : Grantee) (station : Option Word) : State :=
  match g with
  | .host a => s.grantHost a station
  | .own w => (s.setOwq s.owq.tail).portTo (.ownWrite w)
  | .loader .startupWrite => s.grantStartupWrite
  | .loader (.read r) => s.portTo (.startRead r)
  | .scan p => s.portTo (.scanRead (s.tables.fieldAddress p.block (p.block.offset p.words.length)))
  | .log k =>
    let t := s.logTarget k
    (s.setLog (s.log.granted k)).portTo (.logWrite k t.1 t.2)

/-- A host read arrives at the host port if it holds no access (R133, log 8). -/
def State.readArrives (s : State) (read : Option Word) : State :=
  match read, s.ports.host with
  | some a, none => s.setPorts { s.ports with host := some (.read a) }
  | _, _ => s

/-- One grant of the Port Arbiter, when the port is free and an access waits (R144). -/
def State.portGrant (s : State) (read station : Option Word) (readFirst : Bool) : State :=
  let s1 := s.readArrives read
  match s1.ports.busy with
  | some _ => s1
  | none =>
    match s1.choose readFirst with
    | some g => s1.grantTo g station
    | none => s1

/-! ## Completions -/

/-- The memory port is free again. -/
def State.portFree (s : State) : State := s.setPorts { s.ports with busy := none }

/-- The carriage of an own write is reported to the Berth Sequencer (R141): SHIPCON_BKR=OPEN carried for a berth in
SEPARATING sets its opening-issued mark (R6, R43). -/
def State.carriageReport (s : State) (w : OwnWrite) : State :=
  match w.berth with
  | none => s
  | some b =>
    if w.address = s.tables.cmdAddress b .shipconBkr ∧ w.data = cmdOpen ∧ (s.berth b).state = .separating then
      s.setBerth b { s.berth b with openingIssued := true }
    else s

/-- An own write in progress completes (R141). -/
def State.ownCarried (s : State) : State :=
  match s.ports.busy with
  | some (.ownWrite w) => ((s.pimWrite w.address w.data).portFree).carriageReport w
  | _ => s

/-- A removal is reported to the Berth Sequencer (R6, R142): for a SHIPCON_BKR write of a berth in SEPARATING with the
opening-issued mark clear, SHIPCON_BKR=OPEN is queued again. -/
def State.removalReport (s : State) (w : OwnWrite) : State :=
  match w.berth with
  | none => s
  | some b =>
    if w.address = s.tables.cmdAddress b .shipconBkr ∧ (s.berth b).state = .separating
        ∧ (s.berth b).openingIssued = false then
      s.seqWrite b .shipconBkr cmdOpen
    else s

/-- The removals of one host write, reported one after another. -/
def State.removalReports (s : State) : List OwnWrite → State
  | [] => s
  | w :: rest => (s.removalReport w).removalReports rest

/-- The entries a host write's carriage removes (R142). -/
def removedBy (q : List OwnWrite) (a : Word) : List OwnWrite :=
  q.filter fun x => decide (x.address = a) && decide (x.cls ≠ .trip)

/-- A passed host write in progress completes (R142): memory takes it, the host access ends, queued SEQ and REPORT entries at
its address go, and each removal is reported. -/
def State.hostCarried (s : State) : State :=
  match s.ports.busy with
  | some (.hostWrite a d) =>
    let gone := removedBy s.owq a
    let s1 := (s.pimWrite a d).setOwq (removeAt s.owq a)
    (s1.setPorts { s1.ports with busy := none, host := none }).removalReports gone
  | _ => s

/-- The head record's fourth word is written (R156, R158): it leaves the staging list, the producer index advances, PRODUCER
is to be written; an OVERFLOW record's completion clears the flag when nothing was dropped since; a staging place is free. -/
def Log.recordDone (l : Log) (stamp : Word) : Log :=
  let wasOverflow : Bool := match l.staging with
    | r :: _ => decide (r.type = .overflow)
    | [] => false
  let l1 : Log :=
    { l with
      staging := l.staging.tail
      wordIndex := 0
      producer := if l.producer + 1 < l.capacity then l.producer + 1 else 0
      producerWaiting := true }
  let l2 : Log := if wasOverflow && decide (l1.dropCount = 0) then { l1 with overflow := false, statusPending := true } else l1
  l2.roomFreed stamp

/-- What a completed Log Unit write leaves (R154, R156). -/
def Log.completed (l : Log) (k : LogWrite) (stamp : Word) : Log :=
  match k with
  | .firstHeader _ => { l with firstHeaders := l.firstHeaders.tail }
  | .recordWord i => if i < 3 then { l with wordIndex := i + 1 } else l.recordDone stamp
  | .producerWord => l
  | .headerWord _ => l

/-- A Log Unit write in progress completes (R156); the last first-header write may complete the start (R165 step 3). -/
def State.logCarried (s : State) : State :=
  match s.ports.busy with
  | some (.logWrite k a d) =>
    let s1 := (s.pimWrite a d).portFree
    (s1.setLog (s1.log.completed k s1.scan.passNumber)).tryEnterRunning
  | _ => s

end Sys2Proof.Machine
end

