-- ==== Sys2Proof/Machine/Scan.lean ====
section
/-! DEFINITION. The Scan Engine (03): scan ticks (R52, R53, R63), reads (R54), judging (R55 to R59), and the delivery of
results (R60 to R62). -/

namespace Sys2Proof.Machine

/-! ## Judging (section 3.3) -/

/-- The outcomes of a block result; an unchanged one says whether it brought the stale count to its limit. -/
inductive Verdict where
  | torn
  | baseline
  | fresh
  | unchanged (reached : Bool)
  deriving DecidableEq, Repr

/-- Equal SEQ values of a block with a reference: fresh or unchanged (R57, R58). -/
def BlockScan.judgeSeen (k : BlockScan) (limit : Nat) (seq : Word) : BlockScan × Verdict :=
  if k.reference ≠ some seq then ({ status := .accepting, reference := some seq, stale := 0 }, .fresh)
  else if k.stale < limit then
    ({ k with stale := k.stale + 1 }, .unchanged (decide (k.stale + 1 = limit)))
  else (k, .unchanged false)

/-- The judgement of a block from its two SEQ values and its reference (R55 to R59). -/
def BlockScan.judge (k : BlockScan) (limit : Nat) (first last : Word) : BlockScan × Verdict :=
  if first ≠ last then (k, .torn)
  else
    match k.status with
    | .unseen => ({ status := .baseline, reference := some last, stale := 0 }, .baseline)
    | .baseline => k.judgeSeen limit last
    | .accepting => k.judgeSeen limit last

/-! ## Delivery (R59 to R62) -/

/-- An accepted berth result (R57, R60, R61): the latest result is replaced; in ADOPTING it is handed to adoption and then to
the Supervision Unit; otherwise to the Supervision Unit, the Sequencer, and the Budget Unit, which counts a berth that the
result finds and leaves in SHORE. -/
def State.deliverBerth (s : State) (b : BerthId) (r : ScanResult) : State :=
  let s1 := s.setBerth b { s.berth b with latest := some r }
  if (s1.berth b).state = .adopting then (s1.adopt b r).supervise b r
  else
    let s2 := (s1.supervise b r).sequence b r
    if (s1.berth b).state = .shore ∧ (s2.berth b).state = .shore then s2.countShore b r else s2

/-- FEEDER_STALE is set (R59, R85): C is forced to 0, the record staged, STATUS updated, and the OVERCOMMIT test ends the event. -/
def State.setFeederStale (s : State) : State :=
  let s1 := s.setScan { s.scan with feederStale := true }
  (((s1.setCapacity 0).statusChanged).record .feederStale none 1 0 0).needTest

/-- FEEDER_STALE is cleared if it is set, before the result is delivered (R59). -/
def State.clearFeederStale (s : State) : State :=
  if s.scan.feederStale then
    ((s.setScan { s.scan with feederStale := false }).statusChanged).record .feederStale none 0 0 0
  else s

/-- The feeder block is judged and its result delivered (R59, R62). A torn result leaves C at the last accepted result's (R55, R85),
also after one was accepted: the model reads R167's "torn" as of a feeder block never accepted yet (log 27). -/
def State.judgeFeeder (s : State) (ws : List Word) : State :=
  let j := s.scan.feeder.judge feederStaleLimit (ws.getD 0 0) (ws.getD 4 0)
  let s1 := s.setScan { s.scan with feeder := j.1 }
  match j.2 with
  | .torn => s1
  | .baseline => s1
  | .fresh =>
    s1.clearFeederStale.feederResult (ws.getD 1 0).toNat (ws.getD 2 0).toNat (Converter.ofWord (ws.getD 3 0))
  | .unchanged reached => if reached then s1.setFeederStale else s1

/-- A berth block is judged and its result delivered (R55 to R58, R60). -/
def State.judgeBerth (s : State) (b : BerthId) (ws : List Word) : State :=
  let j := (s.block b).judge (s.static b).staleLimit (ws.getD 0 0) (ws.getD 8 0)
  let s1 := s.setBlock b j.1
  match j.2 with
  | .torn => s1
  | .baseline => s1
  | .fresh =>
    s1.deliverBerth b
      (ScanResult.ofWords (ws.getD 1 0) (ws.getD 2 0) (ws.getD 3 0) (ws.getD 4 0) (ws.getD 5 0) (ws.getD 6 0) (ws.getD 7 0))
  | .unchanged reached => if reached then s1.staleCondition b else s1

/-- A block is judged when its last read completes (R53). -/
def State.judgeBlock (s : State) (k : Block) (ws : List Word) : State :=
  match k with
  | .feeder => s.judgeFeeder ws
  | .berth b => s.judgeBerth b ws

/-! ## The pass (R53, R54, R64) -/

/-- The block read after a block, for N berths (R53). -/
def Block.nextIn (n : Nat) : Block → Option Block
  | .feeder => if 0 < n then some (.berth .b0) else none
  | .berth b =>
    match BerthId.ofNat? (b.toNat + 1) with
    | some c => if c.toNat < n then some (.berth c) else none
    | none => none

/-- After a block's delivery: the next block's first read, or the pass is complete and the pass number rises, wrapping (R53,
R64). -/
def State.passOn (s : State) (k : Block) : State :=
  match k.nextIn s.tables.n with
  | some k' => s.setScan { s.scan with pass := some { block := k', words := [] } }
  | none => s.setScan { s.scan with pass := none, passNumber := s.scan.passNumber + 1 }

/-- A word of the pass in flight (R54): kept, or, as the block's last, judged and delivered in one event. -/
def State.scanWord (s : State) (p : Pass) (w : Word) : State :=
  let ws := p.words ++ [w]
  if ws.length < p.block.reads then s.setScan { s.scan with pass := some { p with words := ws } }
  else (s.event fun t => t.judgeBlock p.block ws).passOn p.block

/-- A Scan Engine read in progress completes (R54). -/
def State.scanReadDone (s : State) (station : Option Word) : State :=
  match s.ports.busy, s.scan.pass with
  | some (.scanRead a), some p =>
    let s1 := (s.stationWrote a station).portFree
    s1.scanWord p (s1.pimRead a)
  | _, _ => s

/-! ## Scan ticks (R52, R53, R63) -/

/-- A scan tick: the timer is reloaded; an IDLE pass state starts a pass; a pass in flight drops the tick, recorded once per
run of overruns. -/
def State.scanTick (s : State) : State :=
  if s.scan.tickDue then
    let e := { s.scan with tickDue := false, timer := s.tables.scanPeriod }
    match e.pass with
    | none => s.setScan { e with pass := some { block := .feeder, words := [] }, overrunReported := false }
    | some p =>
      if e.overrunReported then s.setScan e
      else (s.setScan { e with overrunReported := true }).record .scanOverrun none 0 (blockDetail p.block) 0
  else s

end Sys2Proof.Machine
end

