-- ==== Sys2Proof/Machine/Timer.lean ====
section
/-! DEFINITION. The Timer Bank (09): base ticks (R147, R150), expiries (R26, R126, R150), and the maintenance freeze (R151,
R152). A tick decrements each count in that owner's own event (R147): BASE_F_TICK is the tick falling, which marks the counts it
has still to reach (log 6); BASE_S_TICK reaches the base S counts together, and STEP_EXPIRY, SETTLE_EXPIRY and HOLD_EXPIRY reach
one berth's count each (log 7). A decrement that brings a count to 0 is the expiry, and that of the divider or of the scan timer
the base S tick or the scan tick. -/

namespace Sys2Proof.Machine

/-! ## One tick at one count -/

/-- A tick of a base decrements a channel that is RUNNING on it (R150). -/
def Channel.ticks (c : Channel) (base : TickBase) : Bool := decide (c.status = .running) && decide (c.base = base)

/-- A channel's count after a tick of a base (R150). A count of 1 stands until its expiry is taken, which is the decrement to 0. -/
def Channel.tick (c : Channel) (base : TickBase) : Channel :=
  if c.ticks base && decide (1 < c.count) then { c with count := c.count - 1 } else c

/-- A held write's count after a base S tick (R126); a count of 1 stands until its expiry is taken. -/
def Hold.tick (h : Hold) : Hold := if 1 < h.count then { h with count := h.count - 1 } else h

/-- The base S divider's count of one base F tick (R147); the decrement to 0 is the base S tick. -/
def TimerBank.tick (t : TimerBank) : TimerBank :=
  if t.divider ≤ 1 then { t with sDue := true } else { t with divider := t.divider - 1 }

/-- The scan timer's count of one base F tick (R52); the decrement to 0 is the scan tick. -/
def ScanEngine.tick (e : ScanEngine) : ScanEngine :=
  if e.timer ≤ 1 then { e with tickDue := true } else { e with timer := e.timer - 1 }

/-! ## What a tick has still to reach (log 6) -/

/-- Has the tick under way still to reach the Step channel as a tick of this base? -/
def Owed.step (o : Owed) : TickBase → Bool
  | .f => o.stepF
  | .s => o.stepS

/-- The tick has reached the Step channel: one tick decrements a channel once, whichever its base (R147). -/
def Owed.stepTaken (o : Owed) : Owed := { o with stepF := false, stepS := false }

/-- The tick has reached the Step channel as a tick of this base, which the channel does not count. -/
def Owed.stepPassed (o : Owed) : TickBase → Owed
  | .f => { o with stepF := false }
  | .s => { o with stepS := false }

/-- The marks after a tick of a base has reached the Step channel: a count of 1 is left to its expiry. -/
def Owed.afterStep (o : Owed) (c : Channel) (base : TickBase) : Owed :=
  if c.ticks base then (if 1 < c.count then o.stepTaken else o) else o.stepPassed base

/-- The marks after a base F tick has reached the Settle channel: a count of 1 is left to its expiry. -/
def Owed.afterSettle (o : Owed) (c : Channel) : Owed :=
  if c.ticks .f && decide (c.count ≤ 1) then o else { o with settle := false }

/-- A tick of a base reaches a berth's Step channel (R150). -/
def State.reachStep (s : State) (b : BerthId) (base : TickBase) : State :=
  if (s.owed b).step base then
    (s.setChan b { s.chan b with step := (s.chan b).step.tick base }).setOwed b
      ((s.owed b).afterStep (s.chan b).step base)
  else s

/-- A base F tick reaches a berth's Settle channel (R150). -/
def State.reachSettle (s : State) (b : BerthId) : State :=
  if (s.owed b).settle then
    (s.setChan b { s.chan b with settle := (s.chan b).settle.tick .f }).setOwed b
      ((s.owed b).afterSettle (s.chan b).settle)
  else s

/-- The held write of a berth whose count a base S tick would bring to 0 (R126). -/
def State.lastHold (s : State) (b : BerthId) : Option Hold :=
  s.holds.find? fun h => decide (h.berth = b) && decide (h.count ≤ 1)

/-- The held writes after a base S tick has reached those of one berth (R126). -/
def tickHolds (l : List Hold) (b : BerthId) : List Hold := l.map fun h => if h.berth = b then h.tick else h

/-- A base S tick reaches a berth's held writes (R126): while MAINT is asserted none is counted down (R151); a count of 1 is left
to its expiry. -/
def State.reachHolds (s : State) (b : BerthId) : State :=
  if (s.owed b).hold then
    if s.timer.maint then s.setOwed b { s.owed b with hold := false }
    else if (s.lastHold b).isSome then s
    else (s.setHolds (tickHolds s.holds b)).setOwed b { s.owed b with hold := false }
  else s

/-! ## Expiries -/

/-- Would the tick under way bring a berth's Step count to 0 (R150)? -/
def State.stepExpires (s : State) (b : BerthId) : Bool :=
  decide ((s.chan b).step.status = .running) && decide ((s.chan b).step.count ≤ 1)
    && (s.owed b).step (s.chan b).step.base

/-- Would the tick under way bring a berth's Settle count to 0 (R150)? -/
def State.settleExpires (s : State) (b : BerthId) : Bool :=
  (s.chan b).settle.ticks .f && decide ((s.chan b).settle.count ≤ 1) && (s.owed b).settle

/-- The held write of a berth that the base S tick under way brings to its expiry (R126); none under MAINT (R151). -/
def State.holdExpires (s : State) (b : BerthId) : Option Hold :=
  if (s.owed b).hold && !s.timer.maint then s.lastHold b else none

/-- STEP_EXPIRY (R150): the tick under way reaches a berth's Step channel. A decrement to 0 is the expiry: in one event the channel
becomes IDLE and the Sequencer acts on the state and marks found. -/
def State.stepExpiry (s : State) (b : BerthId) : State :=
  if s.stepExpires b then
    (s.setOwed b (s.owed b).stepTaken).event fun t => (t.stopStep b).stepExpired b
  else (s.reachStep b .f).reachStep b .s

/-- SETTLE_EXPIRY (R33, R150): the tick under way reaches a berth's Settle channel. -/
def State.settleExpiry (s : State) (b : BerthId) : State :=
  if s.settleExpires b then
    (s.setOwed b { s.owed b with settle := false }).event fun t => (t.stopSettle b).settleExpired b
  else s.reachSettle b

/-- A hold entry's expiry (R126): HOLD_EXPIRED; a BUDGET entry's claim is withdrawn and its berth moves to CABLED. -/
def State.expireHold (s : State) (h : Hold) : State :=
  let s1 := s.endHold .holdExpired h
  match h.reason with
  | .budget => s1.leaveManualEngaging h.berth .cabled
  | .sync => s1

/-- HOLD_EXPIRY (R126): the base S tick under way reaches a berth's held writes. -/
def State.holdExpiry (s : State) (b : BerthId) : State :=
  match s.holdExpires b with
  | some h => (s.setOwed b { s.owed b with hold := false }).event fun t => t.expireHold h
  | none => s.reachHolds b

/-! ## Ticks -/

/-- The base S divider is reloaded with NS (R147). -/
def State.reload (s : State) : State :=
  if s.timer.sDue then s.setTimer { s.timer with divider := s.tables.ns, sDue := false } else s

/-- A base S tick reaches the base S counts of a berth. -/
def State.reachBerth (s : State) (b : BerthId) : State := (s.reachStep b .s).reachHolds b

/-- A base S tick reaches the base S counts of the berths listed. -/
def State.reachBerths (s : State) : List BerthId → State
  | [] => s
  | b :: rest => (s.reachBerth b).reachBerths rest

/-- What the tick under way still owes one berth: the Step channel, the Settle channel, the held writes, each expiring or
decremented. -/
def State.takeOwedBy (s : State) (b : BerthId) : State := ((s.stepExpiry b).settleExpiry b).holdExpiry b

/-- What the tick under way still owes the berths listed. -/
def State.takeOwedByAll (s : State) : List BerthId → State
  | [] => s
  | b :: rest => (s.takeOwedBy b).takeOwedByAll rest

/-- What a tick still owes is taken before the next tick: the base S tick, the scan tick, then the berths in order (log 6). -/
def State.takeOwed (s : State) : State := s.reload.scanTick.takeOwedByAll BerthId.all

/-- A base F tick falls (R147): the base S divider and the scan timer fall by 1, and the counts of every berth are to be reached, of
base S too where the divider comes to 0. -/
def State.tickFalls (s : State) : State :=
  let isS := decide (s.timer.divider ≤ 1)
  { s with
    timer := { s.timer.tick with owed := Eight.fill { stepF := true, stepS := isS, settle := true, hold := isS } }
    scan := s.scan.tick }

/-- BASE_F_TICK (R147): a tick falls, after what the previous one still owes. Neither base ticks outside RUNNING. -/
def State.baseFTick (s : State) : State := if s.phase = .running then s.takeOwed.tickFalls else s

/-- BASE_S_TICK (R147): the tick under way is a base S tick. The divider is reloaded, and the base S counts that the tick has still
to reach are decremented (R126, R150), those of 1 being left to their expiries. -/
def State.baseSTick (s : State) : State := if s.phase = .running then s.reload.reachBerths BerthId.all else s

/-! ## MAINT -/

/-- A Step channel RUNNING with a freezable deadline becomes FROZEN, keeping its count (R151): a tick that has still to reach it
finds it FROZEN. -/
def Channel.freeze (c : Channel) : Channel :=
  if c.status = .running ∧ c.freezable then { c with status := .frozen } else c

/-- A FROZEN channel becomes RUNNING from the count it kept (R152). -/
def Channel.resume (c : Channel) : Channel := if c.status = .frozen then { c with status := .running } else c

/-- MAINT rises (R151). Outside RUNNING the line alone changes. -/
def State.assertMaint (s : State) : State :=
  let s1 := { s with maintPin := true }
  if s.phase = .running ∧ s.timer.maint = false then
    let s2 : State :=
      { s1 with
        timer := { s.timer with maint := true }
        chans := s.chans.map fun c => { c with step := c.step.freeze } }
    s2.statusChanged
  else s1

/-- MAINT falls (R152). Outside RUNNING the line alone changes. What a tick still owes stays owed through `assertMaint` and here: a
tick that fell before MAINT rose and has reached a channel or a held write neither before nor during the freeze decrements it
after the release. R150 to R152 do not give the order of these three events; the model's choice (log 6). -/
def State.releaseMaint (s : State) : State :=
  let s1 := { s with maintPin := false }
  if s.phase = .running ∧ s.timer.maint = true then
    let s2 : State :=
      { s1 with
        timer := { s.timer with maint := false }
        chans := s.chans.map fun c => { c with step := c.step.resume } }
    s2.statusChanged
  else s1

end Sys2Proof.Machine
end

