-- ==== Sys2Proof/Machine/GroupCommands.lean ====
section
/-! DEFINITION. The meanings of the group request commands: host writes to GROUP_REQ words (06). -/

namespace Sys2Proof.Machine

/-- GROUP_CONNECT (R114 to R116): a host write to a GROUP_REQ word with code CONNECT, fanned out to the members. -/
def execGroupConnect (g : GroupId) (q : ReqBits) (s : State) : Host.Outcome State Fault Refusal :=
  .next (s.writesGroup g ReqCode.connect.code q)

/-- GROUP_TRANSFER (R114 to R116): a host write to a GROUP_REQ word with code TRANSFER, fanned out to the members. -/
def execGroupTransfer (g : GroupId) (q : ReqBits) (s : State) : Host.Outcome State Fault Refusal :=
  .next (s.writesGroup g ReqCode.transfer.code q)

/-- GROUP_RETURN (R114 to R116): a host write to a GROUP_REQ word with code RETURN, fanned out to the members. -/
def execGroupReturn (g : GroupId) (q : ReqBits) (s : State) : Host.Outcome State Fault Refusal :=
  .next (s.writesGroup g ReqCode.return.code q)

/-- GROUP_DISCONNECT (R114 to R116): a host write to a GROUP_REQ word with code DISCONNECT, fanned out to the members. -/
def execGroupDisconnect (g : GroupId) (q : ReqBits) (s : State) : Host.Outcome State Fault Refusal :=
  .next (s.writesGroup g ReqCode.disconnect.code q)

/-- GROUP_SET_LEVEL (R114 to R116): a host write to a GROUP_REQ word with code SET_LEVEL, fanned out to the members. -/
def execGroupSetLevel (g : GroupId) (q : ReqBits) (s : State) : Host.Outcome State Fault Refusal :=
  .next (s.writesGroup g ReqCode.setLevel.code q)

/-- GROUP_ABORT (R114 to R116): a host write to a GROUP_REQ word with code ABORT, fanned out to the members. -/
def execGroupAbort (g : GroupId) (q : ReqBits) (s : State) : Host.Outcome State Fault Refusal :=
  .next (s.writesGroup g ReqCode.abort.code q)

/-- GROUP_INVALID (R114): a host write to a GROUP_REQ word with any other code. -/
def execGroupInvalid (g : GroupId) (code : BitVec 4) (q : ReqBits) (s : State) : Host.Outcome State Fault Refusal :=
  .next (s.writesGroup g code q)

end Sys2Proof.Machine
end

