-- ==== Sys2Proof/Machine/HostCommands.lean ====
section
/-! DEFINITION. The meanings of the other host writes (07, 08, 10). -/

namespace Sys2Proof.Machine

/-- SHORE_BKR_CLOSE (R118, R119, R124, R136). -/
def execShoreBkrClose (b : BerthId) (s : State) : Host.Outcome State Fault Refusal :=
  .next (s.writesCommand b .shoreBkr cmdClose)

/-- SHIPCON_BKR_CLOSE (R118, R122, R124, R136). -/
def execShipconBkrClose (b : BerthId) (s : State) : Host.Outcome State Fault Refusal :=
  .next (s.writesCommand b .shipconBkr cmdClose)

/-- BKR_WRITE_OPEN (R118, R125, R136). -/
def execBkrWriteOpen (b : BerthId) (w : BreakerWord) (s : State) : Host.Outcome State Fault Refusal :=
  .next (s.writesCommand b w.cmd cmdOpen)

/-- BKR_WRITE_NONE (R118, R125, R136). -/
def execBkrWriteNone (b : BerthId) (w : BreakerWord) (s : State) : Host.Outcome State Fault Refusal :=
  .next (s.writesCommand b w.cmd cmdNone)

/-- BKR_WRITE_INVALID_VALUE (R118, R169). -/
def execBkrWriteInvalidValue (b : BerthId) (w : BreakerWord) (value : Word) (s : State) : Host.Outcome State Fault Refusal :=
  .next (s.writesCommand b w.cmd value)

/-- GEN_RELEASE_WRITE (R118, R136). -/
def execGenReleaseWrite (b : BerthId) (value : Word) (s : State) : Host.Outcome State Fault Refusal :=
  .next (s.writesCommand b .genRelease value)

/-- CONSUMER_WRITE (R157). -/
def execConsumerWrite (value : Word) (s : State) : Host.Outcome State Fault Refusal :=
  .next (s.hostWrites .consumer (s.tables.logAddress HeaderWord.consumer.offset) value)

/-- HOST_WRITE (R136): a host write to any address, classed by the Window Table. A write to a word that another row names is that row's write (log 21). -/
def execHostWrite (address value : Word) (s : State) : Host.Outcome State Fault Refusal :=
  .next (s.hostWrites (s.tables.classify address) address value)

end Sys2Proof.Machine
end

