-- ==== Sys2Proof/Machine/PortCommands.lean ====
section
/-! DEFINITION. The meanings of the memory port's commands (03, 08, 10). -/

namespace Sys2Proof.Machine

/-- PORT_GRANT (R144, R145): one grant of the Port Arbiter. -/
def execPortGrant (read station : Option Word) (readFirst : Bool) (s : State) : Host.Outcome State Fault Refusal :=
  .next (s.portGrant read station readFirst)

/-- OWN_WRITE_CARRIED (R141). -/
def execOwnWriteCarried (s : State) : Host.Outcome State Fault Refusal :=
  .next (s.ownCarried)

/-- HOST_WRITE_CARRIED (R142). -/
def execHostWriteCarried (s : State) : Host.Outcome State Fault Refusal :=
  .next (s.hostCarried)

/-- SCAN_READ_COMPLETE (R54 to R62). -/
def execScanReadComplete (station : Option Word) (s : State) : Host.Outcome State Fault Refusal :=
  .next (s.scanReadDone station)

/-- LOG_WRITE_COMPLETE (R156, R158). -/
def execLogWriteComplete (s : State) : Host.Outcome State Fault Refusal :=
  .next (s.logCarried)

end Sys2Proof.Machine
end

