-- ==== Sys2Proof/Machine/RequestCommands.lean ====
section
/-! DEFINITION. The meanings of the berth request commands: host writes to REQ words (06). -/

namespace Sys2Proof.Machine

/-- REQ_CONNECT (R28): a host write to a REQ word with code CONNECT, taken and judged by R106 and R107. -/
def execReqConnect (b : BerthId) (q : ReqBits) (s : State) : Host.Outcome State Fault Refusal :=
  .next (s.writesReq b ReqCode.connect.code q)

/-- REQ_TRANSFER (R34): a host write to a REQ word with code TRANSFER, taken and judged by R106 and R107. -/
def execReqTransfer (b : BerthId) (q : ReqBits) (s : State) : Host.Outcome State Fault Refusal :=
  .next (s.writesReq b ReqCode.transfer.code q)

/-- REQ_RETURN (R40): a host write to a REQ word with code RETURN, taken and judged by R106 and R107. -/
def execReqReturn (b : BerthId) (q : ReqBits) (s : State) : Host.Outcome State Fault Refusal :=
  .next (s.writesReq b ReqCode.return.code q)

/-- REQ_DISCONNECT (R44): a host write to a REQ word with code DISCONNECT, taken and judged by R106 and R107. -/
def execReqDisconnect (b : BerthId) (q : ReqBits) (s : State) : Host.Outcome State Fault Refusal :=
  .next (s.writesReq b ReqCode.disconnect.code q)

/-- REQ_SET_LEVEL (R95): a host write to a REQ word with code SET_LEVEL, taken and judged by R106 and R107. -/
def execReqSetLevel (b : BerthId) (q : ReqBits) (s : State) : Host.Outcome State Fault Refusal :=
  .next (s.writesReq b ReqCode.setLevel.code q)

/-- REQ_SET_MODE (R111): a host write to a REQ word with code SET_MODE, taken and judged by R106 and R107. -/
def execReqSetMode (b : BerthId) (q : ReqBits) (s : State) : Host.Outcome State Fault Refusal :=
  .next (s.writesReq b ReqCode.setMode.code q)

/-- REQ_RELEASE (R112): a host write to a REQ word with code RELEASE, taken and judged by R106 and R107. -/
def execReqRelease (b : BerthId) (q : ReqBits) (s : State) : Host.Outcome State Fault Refusal :=
  .next (s.writesReq b ReqCode.release.code q)

/-- REQ_ABORT (R46, R47, R128): a host write to a REQ word with code ABORT, taken and judged by R106 and R107. -/
def execReqAbort (b : BerthId) (q : ReqBits) (s : State) : Host.Outcome State Fault Refusal :=
  .next (s.writesReq b ReqCode.abort.code q)

/-- REQ_NONE (R107): a host write to a REQ word with code NONE, taken and judged by R106 and R107. -/
def execReqNone (b : BerthId) (q : ReqBits) (s : State) : Host.Outcome State Fault Refusal :=
  .next (s.writesReq b ReqCode.none.code q)

/-- REQ_INVALID_CODE (R107 row 1): a host write to a REQ word with a code that is none of the request codes. -/
def execReqInvalidCode (b : BerthId) (code : BitVec 4) (q : ReqBits) (s : State) : Host.Outcome State Fault Refusal :=
  .next (s.writesReq b code q)

end Sys2Proof.Machine
end

