-- ==== Sys2Proof/Machine/ResetCommands.lean ====
section
/-! DEFINITION. The meanings of the reset and start-up commands. -/

namespace Sys2Proof.Machine

/-- RESET_ASSERT (R162): all part state is lost. `landed` says whether a write of the part in progress reached memory (R141, log 10). -/
def execResetAssert (landed : Bool) (s : State) : Host.Outcome State Fault Refusal :=
  .next (s.assertReset landed)

/-- RESET_RELEASE (R162). -/
def execResetRelease (s : State) : Host.Outcome State Fault Refusal :=
  .next (s.releaseReset)

/-- IMAGE_WORD_READ (R160, R161, R164, R165). -/
def execImageWordRead (word : Word) (s : State) : Host.Outcome State Fault Refusal :=
  .next (s.imageWord word)

/-- STARTUP_REQ_READ (R165). The plant I/O station writes no REQ word, so its operand has no effect (R135, log 2). -/
def execStartupReqRead (_station : Option Word) (s : State) : Host.Outcome State Fault Refusal :=
  .next (s.startReadDone)

end Sys2Proof.Machine
end

