-- ==== Sys2Proof/Machine/TimeCommands.lean ====
section
/-! DEFINITION. The meanings of the ticks, the expiries and MAINT (03, 09). -/

namespace Sys2Proof.Machine

/-- BASE_F_TICK (R147). -/
def execBaseFTick (s : State) : Host.Outcome State Fault Refusal :=
  .next s.baseFTick

/-- BASE_S_TICK (R147): the base S tick that a base F tick carries. -/
def execBaseSTick (s : State) : Host.Outcome State Fault Refusal :=
  .next s.baseSTick

/-- SCAN_TICK (R52, R53, R63). -/
def execScanTick (s : State) : Host.Outcome State Fault Refusal :=
  .next (s.scanTick)

/-- STEP_EXPIRY (R150 and the table of section 2.10). -/
def execStepExpiry (b : BerthId) (s : State) : Host.Outcome State Fault Refusal :=
  .next (s.stepExpiry b)

/-- SETTLE_EXPIRY (R33). -/
def execSettleExpiry (b : BerthId) (s : State) : Host.Outcome State Fault Refusal :=
  .next (s.settleExpiry b)

/-- HOLD_EXPIRY (R126). -/
def execHoldExpiry (b : BerthId) (s : State) : Host.Outcome State Fault Refusal :=
  .next (s.holdExpiry b)

/-- MAINT_ASSERT (R151). -/
def execMaintAssert (s : State) : Host.Outcome State Fault Refusal :=
  .next (s.assertMaint)

/-- MAINT_RELEASE (R152). -/
def execMaintRelease (s : State) : Host.Outcome State Fault Refusal :=
  .next (s.releaseMaint)

end Sys2Proof.Machine
end

