-- ==== Sys2Proof/Machine/Dispatch.lean ====
section
/-! DEFINITION. One arm per command. -/

namespace Sys2Proof.Machine

def exec (i : Instr) (s : State) : Host.Outcome State Fault Refusal :=
  match i with
  | .resetAssert landed => Sys2Proof.Machine.execResetAssert landed s
  | .resetRelease => Sys2Proof.Machine.execResetRelease s
  | .imageWordRead word => Sys2Proof.Machine.execImageWordRead word s
  | .startupReqRead station => Sys2Proof.Machine.execStartupReqRead station s
  | .reqConnect b q => Sys2Proof.Machine.execReqConnect b q s
  | .reqTransfer b q => Sys2Proof.Machine.execReqTransfer b q s
  | .reqReturn b q => Sys2Proof.Machine.execReqReturn b q s
  | .reqDisconnect b q => Sys2Proof.Machine.execReqDisconnect b q s
  | .reqSetLevel b q => Sys2Proof.Machine.execReqSetLevel b q s
  | .reqSetMode b q => Sys2Proof.Machine.execReqSetMode b q s
  | .reqRelease b q => Sys2Proof.Machine.execReqRelease b q s
  | .reqAbort b q => Sys2Proof.Machine.execReqAbort b q s
  | .reqNone b q => Sys2Proof.Machine.execReqNone b q s
  | .reqInvalidCode b code q => Sys2Proof.Machine.execReqInvalidCode b code q s
  | .groupConnect g q => Sys2Proof.Machine.execGroupConnect g q s
  | .groupTransfer g q => Sys2Proof.Machine.execGroupTransfer g q s
  | .groupReturn g q => Sys2Proof.Machine.execGroupReturn g q s
  | .groupDisconnect g q => Sys2Proof.Machine.execGroupDisconnect g q s
  | .groupSetLevel g q => Sys2Proof.Machine.execGroupSetLevel g q s
  | .groupAbort g q => Sys2Proof.Machine.execGroupAbort g q s
  | .groupInvalid g code q => Sys2Proof.Machine.execGroupInvalid g code q s
  | .shoreBkrClose b => Sys2Proof.Machine.execShoreBkrClose b s
  | .shipconBkrClose b => Sys2Proof.Machine.execShipconBkrClose b s
  | .bkrWriteOpen b w => Sys2Proof.Machine.execBkrWriteOpen b w s
  | .bkrWriteNone b w => Sys2Proof.Machine.execBkrWriteNone b w s
  | .bkrWriteInvalidValue b w value => Sys2Proof.Machine.execBkrWriteInvalidValue b w value s
  | .genReleaseWrite b value => Sys2Proof.Machine.execGenReleaseWrite b value s
  | .consumerWrite value => Sys2Proof.Machine.execConsumerWrite value s
  | .hostWrite address value => Sys2Proof.Machine.execHostWrite address value s
  | .portGrant read station readFirst => Sys2Proof.Machine.execPortGrant read station readFirst s
  | .ownWriteCarried => Sys2Proof.Machine.execOwnWriteCarried s
  | .hostWriteCarried => Sys2Proof.Machine.execHostWriteCarried s
  | .baseFTick => Sys2Proof.Machine.execBaseFTick s
  | .baseSTick => Sys2Proof.Machine.execBaseSTick s
  | .scanTick => Sys2Proof.Machine.execScanTick s
  | .stepExpiry b => Sys2Proof.Machine.execStepExpiry b s
  | .settleExpiry b => Sys2Proof.Machine.execSettleExpiry b s
  | .holdExpiry b => Sys2Proof.Machine.execHoldExpiry b s
  | .scanReadComplete station => Sys2Proof.Machine.execScanReadComplete station s
  | .logWriteComplete => Sys2Proof.Machine.execLogWriteComplete s
  | .maintAssert => Sys2Proof.Machine.execMaintAssert s
  | .maintRelease => Sys2Proof.Machine.execMaintRelease s

end Sys2Proof.Machine
end

