-- ==== Sys2Proof/Safety.lean ====
section
/-! DEFINITION. What a safe state is (the invariants of the Own Write Queue, the log, the overlap and the freeze), and the
words in which the statements speak of commands and outcomes. -/

namespace Sys2Proof

/-- How many members a group has (R113). -/
def GroupEntry.size (e : GroupEntry) : Nat := (BerthId.all.filter fun b => e.members.getLsbD b.toNat).length

/-- Is a command a host write (R136)? -/
def Instr.isHostWrite : Instr → Bool
  | .reqConnect _ _ => true
  | .reqTransfer _ _ => true
  | .reqReturn _ _ => true
  | .reqDisconnect _ _ => true
  | .reqSetLevel _ _ => true
  | .reqSetMode _ _ => true
  | .reqRelease _ _ => true
  | .reqAbort _ _ => true
  | .reqNone _ _ => true
  | .reqInvalidCode _ _ _ => true
  | .groupConnect _ _ => true
  | .groupTransfer _ _ => true
  | .groupReturn _ _ => true
  | .groupDisconnect _ _ => true
  | .groupSetLevel _ _ => true
  | .groupAbort _ _ => true
  | .groupInvalid _ _ _ => true
  | .shoreBkrClose _ => true
  | .shipconBkrClose _ => true
  | .bkrWriteOpen _ _ => true
  | .bkrWriteNone _ _ => true
  | .bkrWriteInvalidValue _ _ _ => true
  | .genReleaseWrite _ _ => true
  | .consumerWrite _ => true
  | .hostWrite _ _ => true
  | .resetAssert _ => false
  | .resetRelease => false
  | .imageWordRead _ => false
  | .startupReqRead _ => false
  | .portGrant _ _ _ => false
  | .ownWriteCarried => false
  | .hostWriteCarried => false
  | .baseFTick => false
  | .baseSTick => false
  | .scanTick => false
  | .stepExpiry _ => false
  | .settleExpiry _ => false
  | .holdExpiry _ => false
  | .scanReadComplete _ => false
  | .logWriteComplete => false
  | .maintAssert => false
  | .maintRelease => false

/-- The berth whose event a command is: a host write to a word of the berth's windows, or an expiry of the berth. -/
def Instr.berth? : Instr → Option BerthId
  | .reqConnect b _ => some b
  | .reqTransfer b _ => some b
  | .reqReturn b _ => some b
  | .reqDisconnect b _ => some b
  | .reqSetLevel b _ => some b
  | .reqSetMode b _ => some b
  | .reqRelease b _ => some b
  | .reqAbort b _ => some b
  | .reqNone b _ => some b
  | .reqInvalidCode b _ _ => some b
  | .shoreBkrClose b => some b
  | .shipconBkrClose b => some b
  | .bkrWriteOpen b _ => some b
  | .bkrWriteNone b _ => some b
  | .bkrWriteInvalidValue b _ _ => some b
  | .genReleaseWrite b _ => some b
  | .stepExpiry b => some b
  | .settleExpiry b => some b
  | .holdExpiry b => some b
  | .resetAssert _ => none
  | .resetRelease => none
  | .imageWordRead _ => none
  | .startupReqRead _ => none
  | .groupConnect _ _ => none
  | .groupTransfer _ _ => none
  | .groupReturn _ _ => none
  | .groupDisconnect _ _ => none
  | .groupSetLevel _ _ => none
  | .groupAbort _ _ => none
  | .groupInvalid _ _ _ => none
  | .consumerWrite _ => none
  | .hostWrite _ _ => none
  | .portGrant _ _ _ => none
  | .ownWriteCarried => none
  | .hostWriteCarried => none
  | .baseFTick => none
  | .baseSTick => none
  | .scanTick => none
  | .scanReadComplete _ => none
  | .logWriteComplete => none
  | .maintAssert => none
  | .maintRelease => none

/-! ## Sound tables (R161) -/

open Machine

/-- The berths of a table (R1, R2, R3, R67, R161): one to eight, every static part in use in its ranges with no deadline of 0, and
every threshold it names present. -/
def Tables.berthsSound (t : Tables) : Prop :=
  within 1 8 t.n = true
    ∧ ∀ b : BerthId, b.toNat < t.n →
      staticOk (t.statics.get b) = true ∧ deadlinesOk (t.statics.get b) = true
        ∧ ∀ i, (i = (t.statics.get b).uvIndex ∨ i = (t.statics.get b).ovIndex ∨ i = (t.statics.get b).deadBusIndex) →
          ∃ v, t.thresholds[i]? = some (some v)

/-- The Level Table, the feeder parameters and the periods of a table (R51, R84, R93, R147, R161). -/
def Tables.budgetSound (t : Tables) : Prop :=
  levelsOk t.levels = true ∧ t.levels.length = 8 ∧ within 1 4095 t.ccfg = true ∧ t.reserve ≤ t.ccfg
    ∧ t.lowLoad < t.highLoad ∧ within 1 255 t.baseFPeriod = true ∧ within 1 65535 t.ns = true
    ∧ within 1 255 t.scanPeriod = true

/-- The windows and groups of a table (R113, R134, R154, R161): no two windows share an address, none covers the start-up word, each
configured berth has its three windows, the feeder and the log have one each, a group entry has at most one, and a group in use
names configured berths. -/
def Tables.windowsSound (t : Tables) : Prop :=
  within 16 256 t.logCapacity = true ∧ allApart t.logCapacity t.windowList = true
    ∧ (∀ w ∈ t.windowList, windowIndexOk t.n w = true ∧ w.base + w.length t.logCapacity ≤ 0xFFFF)
    ∧ (∀ b : BerthId, b.toNat < t.n →
      windowCount t.windowList .command b.toNat = 1 ∧ windowCount t.windowList .request b.toNat = 1
        ∧ windowCount t.windowList .field b.toNat = 1)
    ∧ windowCount t.windowList .field 15 = 1 ∧ windowCount t.windowList .log 0 = 1
    ∧ ∀ g : GroupId, windowCount t.windowList .group g.toNat ≤ 1
      ∧ ((t.window? .group g.toNat).isSome = true → (t.groups.get g).members.toNat < 2 ^ t.n)

end Sys2Proof

namespace Sys2Proof.Machine

/-! ## Invariants -/

/-- The Own Write Queue's order (R138): at most one entry per address, and every TRIP entry ahead of every other entry. -/
def ownWritesOrdered (q : List OwnWrite) : Prop :=
  (q.map fun e => e.address).Nodup ∧ q.Pairwise fun x y => y.cls = .trip → x.cls = .trip

/-- The addresses the Own Write Queue can carry (R143): four COMMAND words and the RSP word of each berth, and the GROUP_RSP
word of each group entry. -/
def ownAddresses (t : Tables) : List Word :=
  (BerthId.all.flatMap fun b =>
    [t.cmdAddress b .shoreBkr, t.cmdAddress b .shipconBkr, t.cmdAddress b .genRelease, t.cmdAddress b .chargeLimit,
      t.rspAddress b])
    ++ GroupId.all.map fun g => t.groupRspAddress g

/-- The log's bounds (R154, R156, R158): at most 8 records staged, the indices below the capacity, and the ring and the
staging list together within capacity − 1; or no log at all. -/
def Log.sound (l : Log) : Prop :=
  l.staging.length ≤ stagingCapacity
    ∧ ((l.capacity = 0 ∧ l.staging = [])
      ∨ (l.producer < l.capacity ∧ l.consumer < l.capacity ∧ l.ringCount + l.staging.length ≤ l.capacity - 1))

/-- The log is sound, and a record word is written only while a record is staged (R156). -/
def State.logSound (s : State) : Prop :=
  s.log.sound ∧ ∀ i a d, s.ports.busy = some (.logWrite (.recordWord i) a d) → s.log.staging ≠ []

/-- A berth in PARALLEL or UNPARALLEL has its Step channel RUNNING with a count no greater than its overlap limit (R38). -/
def State.overlapBounded (s : State) : Prop :=
  ∀ b, (s.berth b).state = .parallel ∨ (s.berth b).state = .unparallel →
    (s.chan b).step.status = .running ∧ (s.chan b).step.freezable = false ∧ (s.chan b).step.base = .f
      ∧ (s.chan b).step.count ≤ (s.static b).overlapLimit

/-- Outside RUNNING no channel is loaded, no write is held, the Budget Unit and the Supervision Unit hold nothing, no pass
is in flight and neither base ticks (R22, R51, R66, R84, R117, R147, R148). -/
def State.quietOutside (s : State) : Prop :=
  s.phase ≠ .running →
    s.chans = Eight.fill Channels.blank ∧ s.holds = [] ∧ s.budget = Budget.blank
      ∧ s.sups = Eight.fill Supervision.blank ∧ s.scan = ScanEngine.blank ∧ s.timer = TimerBank.blank

/-- The freeze follows MAINT (R148, R149, R151, R152): a FROZEN Step channel holds a freezable deadline under MAINT, under MAINT
no freezable deadline runs, and a Settle channel always counts a fixed deadline of base F and is never FROZEN. -/
def State.freezeFollowsMaint (s : State) : Prop :=
  ∀ b,
    ((s.chan b).step.status = .frozen → (s.chan b).step.freezable = true ∧ s.timer.maint = true)
      ∧ (s.timer.maint = true → (s.chan b).step.status = .running → (s.chan b).step.freezable = false)
      ∧ (s.chan b).settle.status ≠ .frozen ∧ (s.chan b).settle.freezable = false ∧ (s.chan b).settle.base = .f

/-- The two toggles of every berth are equal (R105). -/
def State.togglesEqual (s : State) : Prop := ∀ b, (s.berth b).lastTaken = (s.berth b).answered

/-- While FEEDER_STALE is set, C is 0 (R85). -/
def State.staleFeederEmpty (s : State) : Prop := s.scan.feederStale = true → s.budget.capacity = 0

/-- Is an image installed: RUNNING, or LOADING with the last image word read (R165)? -/
def State.imageInstalled (s : State) : Prop :=
  s.phase = .running ∨ s.phase = .loading ∧ s.loader.words.length = imageLength

/-- The tables of an accepted image are as its checks leave them (R161), from the last image word on. -/
def State.tablesSound (s : State) : Prop :=
  s.imageInstalled → s.tables.berthsSound ∧ s.tables.budgetSound ∧ s.tables.windowsSound

/-- Until an image is installed no own write is queued, and the Image Loader makes and has made no start-up read (R138, R165). -/
def State.ownWritesAfterImage (s : State) : Prop :=
  ¬ s.imageInstalled → s.owq = [] ∧ s.loader.reads = [] ∧ ∀ r, s.ports.busy ≠ some (.startRead r)

/-! ## Commands -/

/-- The command of a request code (12.1). -/
def reqCommand (k : ReqCode) (b : BerthId) (q : ReqBits) : Instr :=
  match k with
  | .none => .reqNone b q
  | .connect => .reqConnect b q
  | .transfer => .reqTransfer b q
  | .return => .reqReturn b q
  | .disconnect => .reqDisconnect b q
  | .setLevel => .reqSetLevel b q
  | .setMode => .reqSetMode b q
  | .release => .reqRelease b q
  | .abort => .reqAbort b q

/-- The commands of the six codes that a group fans out (R114), each with its code. -/
def groupCommands (g : GroupId) (q : ReqBits) : List (ReqCode × Instr) :=
  [(.connect, .groupConnect g q), (.transfer, .groupTransfer g q), (.return, .groupReturn g q),
    (.disconnect, .groupDisconnect g q), (.setLevel, .groupSetLevel g q), (.abort, .groupAbort g q)]

/-- The command that writes CLOSE to a breaker word. -/
def closeCommand (w : BreakerWord) (b : BerthId) : Instr :=
  match w with
  | .shoreBkr => .shoreBkrClose b
  | .shipconBkr => .shipconBkrClose b

/-! ## Conditions -/

/-- The part is RUNNING and its host port is free, so that a host write is decided as it arrives (R133, R136). -/
def State.takesHostWrite (s : State) : Prop := s.phase = .running ∧ s.ports.host = none

/-- A host write to a word of this berth's windows is decided as it arrives (R1, R136). -/
def State.serves (s : State) (b : BerthId) : Prop := s.takesHostWrite ∧ s.configured b = true

/-- No claim of a berth waits in the Budget Wait Queue (R88). -/
def State.noClaim (s : State) (b : BerthId) : Prop := ∀ c ∈ s.budget.claims, c.berth ≠ b

/-- The held writes of a berth, and no others, stand at the addresses of its two breaker words (R117), as windows that share no
address make it (R134). -/
def State.holdsPlaced (s : State) (b : BerthId) : Prop :=
  ∀ h ∈ s.holds,
    h.berth = b ↔ (h.address = s.tables.cmdAddress b .shoreBkr ∨ h.address = s.tables.cmdAddress b .shipconBkr)

/-- Every PIM word reads the same in both states. -/
def State.sameMemory (s t : State) : Prop := ∀ a : Word, t.pimRead a = s.pimRead a

/-- Every PIM word but one reads the same in both states. -/
def State.sameMemoryBut (s t : State) (x : Word) : Prop := ∀ a : Word, a ≠ x → t.pimRead a = s.pimRead a

/-- One berth's own state is the same in both states: record, supervision, channels, block and held writes. -/
def State.sameBerth (s t : State) (x : BerthId) : Prop :=
  t.berth x = s.berth x ∧ t.sup x = s.sup x ∧ t.chan x = s.chan x ∧ t.block x = s.block x ∧ t.holdsOf x = s.holdsOf x

/-- The berths' own state is the same in both states: records, supervision, channels, holds, groups, budget and log. -/
def State.sameBerths (s t : State) : Prop :=
  t.berths = s.berths ∧ t.sups = s.sups ∧ t.chans = s.chans ∧ t.holds = s.holds ∧ t.groupTaken = s.groupTaken
    ∧ t.budget = s.budget

/-! ## Outcomes -/

/-- A channel loaded with a deadline while MAINT has this level (R149). -/
def loadedChannel (freezable : Bool) (base : TickBase) (count : Nat) (maint : Bool) : Channel :=
  { status := if freezable && maint then .frozen else .running, base := base, count := count, freezable := freezable }

/-- A record that enters a state: the three sub-step marks are clear (R6). -/
def Berth.entered (r : Berth) (st : BState) : Berth :=
  { r with state := st, settling := false, closeIssued := false, openingIssued := false }

/-- A record whose toggles a request has taken and answered with a final result (R106, R108). -/
def Berth.answeredFinal (r : Berth) (toggle : Bool) (res : Result) : Berth :=
  { r with lastTaken := toggle, answered := toggle, phase := .final, result := res }

/-- A record whose request runs on (R106, R108). -/
def Berth.answeredPending (r : Berth) (toggle : Bool) (k : ReqCode) (operand : Option (BitVec 8)) : Berth :=
  { r with lastTaken := toggle, answered := toggle, phase := .pending, result := .none,
           request := some { code := k, toggle := toggle, operand := operand } }

/-- A record whose request in progress has ended with a final: to RSP while RSP still answers it (R109). -/
def Berth.finalised (r : Berth) (res : Result) : Berth :=
  match r.request, r.phase with
  | none, _ => r
  | some _, .pending => { r with request := none, phase := .final, result := res }
  | some _, .final => { r with request := none }

/-- The RSP write of a record (R20), as an Own Write Queue entry. -/
def State.rspEntry (s : State) (b : BerthId) (r : Berth) : OwnWrite :=
  { address := s.tables.rspAddress b, data := rspWord r, cls := .report, berth := some b }

/-- A SEQ write of the part to a COMMAND word, as an Own Write Queue entry (R138). -/
def State.seqEntry (s : State) (b : BerthId) (w : CmdWord) (d : Word) : OwnWrite :=
  { address := s.tables.cmdAddress b w, data := d, cls := .seq, berth := some b }

/-- The STATE record of a change (R21), stamped with the current pass number (R64). -/
def State.stateRecord (s : State) (b : BerthId) (old : BState) (oldMode : Mode) (new : BState) (newMode : Mode) : Record :=
  { type := .state, berth := some b, qualifier := 0, detailA := stateModeDetail old oldMode,
    detailB := stateModeDetail new newMode, stamp := s.scan.passNumber }

/-- The SINK record of a refused write (R137). -/
def State.sinkRecord (s : State) (reason : SinkReason) (b : Option BerthId) (a d : Word) : Record :=
  { type := .sink, berth := b, qualifier := reason.code, detailA := a, detailB := d, stamp := s.scan.passNumber }

/-- The outcome of a host write that is refused: a SINK record and nothing else (R137). -/
def State.refusedWrite (s : State) (reason : SinkReason) (b : Option BerthId) (a d : Word) : State :=
  { s.clearMarks with log := s.log.stage (s.sinkRecord reason b a d) }

/-- The outcome of a host write that is passed: it waits at the host port for the Port Arbiter (R133). -/
def State.passedWrite (s : State) (a d : Word) : State :=
  { s.clearMarks with ports := { s.ports with host := some (.write a d) } }

/-- The outcome of a request that is answered FINAL with no other effect: the REQ write is passed, the toggles are taken, the
answer is set and the RSP write is queued (R106, R107). -/
def State.answeredOnly (s : State) (b : BerthId) (toggle : Bool) (res : Result) (w : Word) : State :=
  let r := (s.berth b).answeredFinal toggle res
  { s.passedWrite (s.tables.reqAddress b) w with
    berths := s.berths.set b r
    owq := placeWrite s.owq (s.rspEntry b r) }

/-- The REQUEST_FINAL record of a request that has ended (R109, R155). -/
def State.finalRecord (s : State) (b : BerthId) (rq : InProgress) (res : Result) : Record :=
  { type := .requestFinal, berth := some b, qualifier := 0, detailA := rq.word, detailB := BitVec.ofNat 16 res.code,
    stamp := s.scan.passNumber }

/-- The record of a held write that leaves the Hold Queue without a release (R125, R126, R155). -/
def State.holdRecord (s : State) (t : RecType) (h : Hold) : Record :=
  { type := t, berth := some h.berth, qualifier := 0, detailA := holdWordDetail h.word, detailB := 0,
    stamp := s.scan.passNumber }

/-- The record of a request's end, where RSP answers a later request by then (R109). -/
def State.finalRecords (s : State) (b : BerthId) (res : Result) : List Record :=
  match (s.berth b).request, (s.berth b).phase with
  | some rq, .final => [s.finalRecord b rq res]
  | _, _ => []

/-- The TRIP record of a berth that leaves a state for LOCKOUT, or with the repeat mark (R75, R77, R155). -/
def State.tripRecordOf (s : State) (b : BerthId) (again : BitVec 3) (left : BState) (f : FaultSet) : Record :=
  { type := .trip, berth := some b, qualifier := again, detailA := BitVec.ofNat 16 left.code,
    detailB := BitVec.ofNat 16 f.code, stamp := s.scan.passNumber }

/-- The TRIP-class SHORE_BKR=OPEN of a berth, as an Own Write Queue entry (R73). -/
def State.tripEntry (s : State) (b : BerthId) : OwnWrite :=
  { address := s.tables.cmdAddress b .shoreBkr, data := cmdOpen, cls := .trip, berth := some b }

/-- SEQ and REPORT writes placed one after another (R139). -/
def placeAll (q ws : List OwnWrite) : List OwnWrite := ws.foldl placeWrite q

/-- Records staged one after another, each in the room it finds (R156, R158). -/
def Log.stageAll (l : Log) (rs : List Record) : Log := rs.foldl Log.stage l

/-- The SEQ writes of one event to a berth's COMMAND words, in order (R24, R138). -/
def State.seqEntries (s : State) (b : BerthId) (ws : List (CmdWord × Word)) : List OwnWrite :=
  ws.map fun w => s.seqEntry b w.1 w.2

/-- After the records of an event nothing was staged but, at its end, an OVERCOMMIT record (R103). -/
def State.stagedOnly (s t : State) (rs : List Record) : Prop :=
  ∃ more, (∀ x ∈ more, x.type = .overcommit) ∧ t.log.staging = (s.log.stageAll rs).staging ++ more

/-- No berth but this one has a claim waiting, whose grant could add to the event (R91). -/
def State.noOtherClaim (s : State) (b : BerthId) : Prop := ∀ c ∈ s.budget.claims, c.berth = b

/-- One event leaves a berth with this record and these channels; and, where no other berth's claim waits, the held writes as they
were, the Own Write Queue as given and these records staged. -/
def State.leaves (s t : State) (b : BerthId) (r : Berth) (c : Channels) (q : List OwnWrite) (rs : List Record) : Prop :=
  t.berth b = r ∧ t.chan b = c ∧ (s.noOtherClaim b → t.holds = s.holds ∧ t.owq = q ∧ s.stagedOnly t rs)

/-- A berth has left its state for LOCKOUT with flags F and the sticky set G (R73 to R75): its marks clear, level and counts 0, its
request ended TRIPPED, nothing held, claimed or running, TRIPn on and PERMn off. The TRIP write of SHORE_BKR=OPEN is queued, and
with no other berth's claim waiting GEN_RELEASE=HOLD, CHARGE_LIMIT with entry 0's limit and RSP follow it, and then no write but
those of the queue `q` makes of that; the log holds a HOLD_CANCELLED record for each held write, a REQUEST_FINAL record where RSP no
longer answers the request, the TRIP record, and then the records given. -/
def State.lockedOut (s t : State) (b : BerthId) (f g : FaultSet) (q : List OwnWrite → List OwnWrite) (rs : List Record) : Prop :=
  (t.berth b =
      ({ (s.berth b).entered .lockout with level := 0, residency := 0, idle := 0, syncCount := 0 } : Berth).finalised .tripped)
    ∧ t.sup b = { uvCount := 0, ovCount := 0, sticky := g, quiet := 0, release := (s.static b).autoRelease }
    ∧ t.chan b = Channels.blank ∧ t.noClaim b ∧ (∀ h ∈ t.holds, h.berth ≠ b) ∧ b ∉ t.budget.stack
    ∧ s.tripEntry b ∈ t.owq
    ∧ (s.noOtherClaim b →
      t.owq = q (placeAll (placeTrip s.owq (s.tripEntry b))
          (s.seqEntries b [(.genRelease, genHold), (.chargeLimit, (s.levelEntry 0).limit)] ++ [s.rspEntry b (t.berth b)]))
        ∧ s.stagedOnly t (((s.holdsOf b).map fun h => s.holdRecord .holdCancelled h) ++ s.finalRecords b .tripped
          ++ [s.tripRecordOf b 0 (s.berth b).state f] ++ rs))
    ∧ t.trip b = s.configured b ∧ t.perm b = false

/-- A berth has tripped with flags F: its sticky set is F, and the event writes and records nothing more. -/
def State.tripped (s t : State) (b : BerthId) (f : FaultSet) : Prop := s.lockedOut t b f f id []

/-! ## Groups -/

/-- A group's request as a member takes it (R115, R106): the member's command of that code with the complement of its last-taken toggle,
as an event of its own that leaves the host port as it is. -/
def State.deliveredTo (s : State) (k : ReqCode) (b : BerthId) (operand : BitVec 8) : State :=
  match exec (reqCommand k b { toggle := !(s.berth b).lastTaken, spare := 0, operand := operand })
      { s with ports := { s.ports with host := none } } with
  | .next t => { t with ports := s.ports }
  | .fault _ => s
  | .refused _ => s

/-- One member's turn in a group request (R115): blocked by the group or by LOCKOUT, or delivered; an answer PENDING or DONE counts as
taken, any other as refused. -/
def State.memberTurn (x : State × GroupCount) (e : GroupEntry) (k : ReqCode) (operand : BitVec 8) (b : BerthId) :
    State × GroupCount :=
  if e.members.getLsbD b.toNat = false then x
  else if e.blocked.getLsbD b.toNat = true ∨ (x.1.berth b).state = .lockout then
    (x.1, { x.2 with blocked := x.2.blocked + 1 })
  else
    let t := x.1.deliveredTo k b operand
    if (t.berth b).phase = .pending ∨ (t.berth b).result = .done then (t, { x.2 with taken := x.2.taken + 1 })
    else (t, { x.2 with refused := x.2.refused + 1 })

/-- The turns of a group's members, in ascending berth order (R115). -/
def State.membersTurns (s : State) (g : GroupId) (k : ReqCode) (operand : BitVec 8) : State × GroupCount :=
  BerthId.all.foldl (fun x b => State.memberTurn x (s.tables.groups.get g) k operand b)
    (s, { taken := 0, refused := 0, blocked := 0 })

/-- The answer to a group request (R116). -/
def State.groupAnswered (s : State) (g : GroupId) (data : Word) : State :=
  { s with
    owq := placeWrite s.owq { address := s.tables.groupRspAddress g, data := data, cls := .report, berth := none } }

/-! ## Log Unit -/

/-- The log has room for one more record: in the ring beside those staged, and in the staging list (R158). -/
def Log.roomFor (l : Log) : Prop :=
  (l.producer + l.capacity - l.consumer) % l.capacity + l.staging.length < l.capacity - 1 ∧ l.staging.length < 8

/-- An OVERFLOW record with the number of records dropped (R158). -/
def overflowRecord (n : Nat) (stamp : Word) : Record :=
  { type := .overflow, berth := none, qualifier := 0, detailA := BitVec.ofNat 16 n, detailB := 0, stamp := stamp }

/-- The head record is in the ring (R156): it has left the staging list, the producer index advances, wrapping, and PRODUCER is to be
written. -/
def Log.headStored (l : Log) : Log :=
  { l with
    staging := l.staging.tail, wordIndex := 0, producerWaiting := true
    producer := if l.producer + 1 < l.capacity then l.producer + 1 else 0 }

/-- The place of a header word in the LOG window (R154). -/
def headerPlace : HeaderWord → Nat
  | .status => 0
  | .producer => 1
  | .consumer => 2
  | .granted => 3
  | .capacity => 4

/-- The value of a header word now (R154). STATUS holds the part state in bits 1 and 0, MAINT, the overflow flag, the shedding state,
OVERCOMMIT and FEEDER_STALE in bits 2 to 6, and 0 above (12.4). -/
def State.headerReads (s : State) (h : HeaderWord) (d : Word) : Prop :=
  match h with
  | .status =>
    (s.phase = .loading → d.toNat % 4 = 0) ∧ (s.phase = .running → d.toNat % 4 = 1) ∧ (s.phase = .blocked → d.toNat % 4 = 2)
      ∧ d.getLsbD 2 = s.timer.maint ∧ d.getLsbD 3 = s.log.overflow ∧ d.getLsbD 4 = s.budget.shedding
      ∧ d.getLsbD 5 = s.budget.overcommit ∧ d.getLsbD 6 = s.scan.feederStale ∧ d.toNat < 128
  | .producer => d = BitVec.ofNat 16 s.log.producer
  | .consumer => d = BitVec.ofNat 16 s.log.consumer
  | .granted => d = BitVec.ofNat 16 s.granted
  | .capacity => d = BitVec.ofNat 16 s.budget.capacity

/-- A Log Unit write takes the memory port at a place of the LOG window (R144, R145, R156). -/
def State.logGranted (s : State) (k : LogWrite) (place : Nat) (d : Word) (l : Log) : State :=
  { s with log := l, ports := { s.ports with busy := some (.logWrite k (s.tables.logAddress place) d), streak := 0 } }

/-- No access of the Log Unit waits (R154, R156). -/
def Log.quiet (l : Log) : Prop :=
  l.firstHeaders = [] ∧ l.producerWaiting = false ∧ l.staging = [] ∧ l.statusPending = false ∧ l.grantedPending = false
    ∧ l.capacityPending = false

/-- A host read is answered in its grant (R133, R146, log 8): with the word that memory holds, but that at a FIELD word the plant I/O
station may have written it since (R135, log 2). -/
def State.readAnswered (s t : State) (a : Word) (station : Option Word) (streak : Nat) : Prop :=
  t.ports = { s.ports with host := none, hostData := some (t.pimRead a), streak := streak }
    ∧ s.sameMemoryBut t a ∧ s.sameBerths t ∧ t.log = s.log ∧ t.owq = s.owq
    ∧ (s.stationWord a = true → t.pimRead a = station.getD (s.pimRead a))
    ∧ (s.stationWord a = false → s.sameMemory t)
    ∧ (s.tables.windows ≠ [] → (∀ k, s.tables.classify a ≠ .field k) → s.sameMemory t)

/-- The last tick has reached every count, and every expiry it brought has been taken (log 6). -/
def State.nothingOwed (s : State) : Prop :=
  s.timer.sDue = false ∧ s.scan.tickDue = false ∧ s.timer.owed = Eight.fill Owed.none

/-! ## Scan reads -/

/-- The read in progress is the last of a berth's block: the eight words read before it and the word it returns (R54). -/
def State.lastBerthRead (s : State) (b : BerthId) (station : Option Word) (ws : List Word) (last : Word) : Prop :=
  ws.length = 8 ∧ s.scan.pass = some { block := .berth b, words := ws }
    ∧ ∃ a, s.ports.busy = some (.scanRead a) ∧ last = station.getD (s.pimRead a)

/-- The result that the words of a block hold (R168). -/
def resultOf (ws : List Word) : ScanResult :=
  ScanResult.ofWords (ws.getD 1 0) (ws.getD 2 0) (ws.getD 3 0) (ws.getD 4 0) (ws.getD 5 0) (ws.getD 6 0) (ws.getD 7 0)

/-- The last read of a berth's block makes its result fresh (R57). -/
def State.freshRead (s : State) (b : BerthId) (station : Option Word) (r : ScanResult) : Prop :=
  ∃ ws last, s.lastBerthRead b station ws last ∧ last = ws.getD 0 0 ∧ (s.block b).status ≠ .unseen
    ∧ (s.block b).reference ≠ some last ∧ r = resultOf ws

/-- The read in progress is the last of the feeder block: the four words read before it and the word it returns (R54). -/
def State.lastFeederRead (s : State) (station : Option Word) (ws : List Word) (last : Word) : Prop :=
  ws.length = 4 ∧ s.scan.pass = some { block := .feeder, words := ws }
    ∧ ∃ a, s.ports.busy = some (.scanRead a) ∧ last = station.getD (s.pimRead a)

/-- The shedding state after a feeder result (R100): on with the second result in a row at or above high load, off below low
load. -/
def State.shedAfter (s : State) (load : Nat) : Bool :=
  if s.tables.highLoad ≤ load then s.budget.shedding || decide (1 ≤ s.budget.highCount)
  else s.budget.shedding && decide (s.tables.lowLoad ≤ load)

/-! ## What a fresh result does to its berth

The clauses below speak of `u`, the state with the berth's latest result replaced (R57), and of `t`, the next state. -/

/-- The latest scan result of a berth is replaced whole (R57, R60). -/
def State.received (s : State) (b : BerthId) (r : ScanResult) : State := s.setBerth b { s.berth b with latest := some r }

/-- The held writes of a berth are cancelled, each with its record (R127). -/
def State.unheld (u : State) (b : BerthId) : State :=
  { u with
    holds := u.holds.filter fun h => (u.holdsOf b).all fun x => decide (x.address ≠ h.address)
    log := u.log.stageAll ((u.holdsOf b).map fun h => u.holdRecord .holdCancelled h) }

/-- A berth that follows a position in MANUAL has its held writes cancelled first (R127, R129, R130). -/
def State.unheldManual (u : State) (b : BerthId) : State :=
  match (u.berth b).mode with
  | .auto => u
  | .manual => u.unheld b

/-- Commands that the part queues in AUTO and leaves to the host in MANUAL (R129, R130). -/
def autoOnly (m : Mode) (ws : List (CmdWord × Word)) : List (CmdWord × Word) :=
  match m with
  | .auto => ws
  | .manual => []

/-- Breaker confirm, loaded (R149). -/
def State.confirmLoaded (u : State) (b : BerthId) : Channel :=
  loadedChannel false .f (u.static b).breakerConfirm u.timer.maint

/-- The overlap limit, loaded (R38, R149). -/
def State.overlapLoaded (u : State) (b : BerthId) : Channel :=
  loadedChannel false .f (u.static b).overlapLimit u.timer.maint

/-- CHARGE_LIMIT with entry 0's limit (R39). -/
def State.chargeZero (u : State) : CmdWord × Word := (.chargeLimit, (u.levelEntry 0).limit)

/-- The STATE record of a berth that enters a state in the mode it has (R21). -/
def State.moveRecord (u : State) (b : BerthId) (st : BState) : Record :=
  u.stateRecord b (u.berth b).state (u.berth b).mode st (u.berth b).mode

/-- One event moves a berth: SEQ writes in order, then RSP (R24); then what `leaves` says. -/
def State.movesTo (u t : State) (b : BerthId) (r : Berth) (c : Channels) (ws : List (CmdWord × Word)) (rs : List Record) : Prop :=
  u.leaves t b r c (placeAll u.owq (u.seqEntries b ws ++ [u.rspEntry b r])) rs

/-- One event changes a berth's record and channels and queues SEQ writes; no RSP write, no record, no other berth. -/
def State.issues (u t : State) (b : BerthId) (r : Berth) (c : Channels) (ws : List (CmdWord × Word)) : Prop :=
  t.berths = u.berths.set b r ∧ t.chans = u.chans.set b c ∧ t.holds = u.holds ∧ t.owq = placeAll u.owq (u.seqEntries b ws)
    ∧ t.log = u.log ∧ t.budget = u.clearMarks.budget

/-- The event does nothing to any berth, channel, queue, record or claim. -/
def State.unmoved (u t : State) : Prop :=
  t.berths = u.berths ∧ t.chans = u.chans ∧ t.holds = u.holds ∧ t.owq = u.owq ∧ t.log = u.log ∧ t.budget = u.clearMarks.budget

/-- A record brought to level 0 as the berth enters or leaves SHORE (R39). -/
def Berth.levelZero (r : Berth) : Berth := { r with level := 0, residency := 0, idle := 0 }

/-- The level of a berth that leaves SHORE goes to 0; in any other state it stands (R39). -/
def Berth.leftShore (r : Berth) (old : BState) : Berth := if old = .shore then r.levelZero else r

/-- Cable in and cable out (R27), in both modes. -/
def State.cableFollowed (u t : State) (b : BerthId) (r : ScanResult) : Prop :=
  ((u.berth b).state = .vacant →
      (r.pilot = true → r.earth = true →
          u.movesTo t b ((u.berth b).entered .cabled) (u.chan b) [] [u.moveRecord b .cabled])
        ∧ (r.pilot = false ∨ r.earth = false → u.unmoved t))
    ∧ ((u.berth b).state = .cabled →
      (r.pilot = false → u.movesTo t b ((u.berth b).entered .vacant) (u.chan b) [] [u.moveRecord b .vacant])
        ∧ (r.pilot = true → u.unmoved t))

/-- ENGAGING: ship ready with the grant held, and the cable's loss (R29, R31; in MANUAL R120). -/
def State.engagingFollowed (u t : State) (b : BerthId) (r : ScanResult) : Prop :=
  (u.berth b).state = .engaging →
    ((u.berth b).mode = .auto →
      (r.pilot = false →
          u.movesTo t b (({ (u.berth b).entered .vacant with baseGrant := 0 } : Berth).finalised .cable)
              { u.chan b with step := Channel.idle } [] (u.finalRecords b .cable ++ [u.moveRecord b .vacant])
            ∧ t.noClaim b)
        ∧ (r.pilot = true → r.ready = true → (u.berth b).baseGrant ≠ 0 →
          u.movesTo t b ((u.berth b).entered .energizing) { u.chan b with step := u.confirmLoaded b }
            [(.shoreBkr, cmdClose)] [u.moveRecord b .energizing])
        ∧ (r.pilot = true → r.ready = false ∨ (u.berth b).baseGrant = 0 → u.unmoved t))
    ∧ ((u.berth b).mode = .manual →
      (r.pilot = false →
          (u.unheld b).movesTo t b { (u.berth b).entered .vacant with baseGrant := 0 } (u.chan b) []
              [u.moveRecord b .vacant]
            ∧ t.noClaim b)
        ∧ (r.pilot = true → u.unmoved t))

/-- ENERGIZING with the settling mark clear, in both modes (R32, R121); with it set a breaker still closed changes nothing (R33). -/
def State.energizingFollowed (u t : State) (b : BerthId) (r : ScanResult) : Prop :=
  (u.berth b).state = .energizing →
    ((u.berth b).settling = false →
      (r.shore = .closed →
          u.issues t b { u.berth b with settling := true }
            { step := Channel.idle, settle := loadedChannel false .f (u.static b).settle u.timer.maint } [])
        ∧ (r.shore ≠ .closed → r.pilot = false →
          u.movesTo t b (((u.berth b).entered .disengaging).finalised .cable)
            { step := u.confirmLoaded b, settle := Channel.idle } [(.shoreBkr, cmdOpen)]
            (u.finalRecords b .cable ++ [u.moveRecord b .disengaging]))
        ∧ (r.shore ≠ .closed → r.pilot = true → u.unmoved t))
    ∧ ((u.berth b).settling = true → r.shore ≠ .open → u.unmoved t)

/-- The shore breaker OPEN without the part's command: loss of supply in AUTO (R49), followed in MANUAL without a command (R130).
A berth in SHORE is brought to level 0 first, and its waiting claim is withdrawn (R39). -/
def State.supplyLossFollowed (u t : State) (b : BerthId) (r : ScanResult) : Prop :=
  r.shore = .open → ((u.berth b).state ≠ .shore → u.noClaim b) →
    ((u.berth b).state = .energizing ∧ (u.berth b).settling = true ∨ (u.berth b).state = .energized
      ∨ (u.berth b).state = .parallel ∨ (u.berth b).state = .shore ∨ (u.berth b).state = .unparallel
      ∨ (u.berth b).state = .separating
      ∨ (u.berth b).mode = .auto ∧ ((u.berth b).state = .syncing ∨ (u.berth b).state = .deadbus ∨ (u.berth b).state = .resyncing)) →
    (u.unheldManual b).movesTo t b
        (({ ((u.berth b).entered .cabled).leftShore (u.berth b).state with baseGrant := 0 } : Berth).finalised .aborted)
        Channels.blank
        ((if (u.berth b).state = .shore then [u.chargeZero] else [])
          ++ autoOnly (u.berth b).mode [(.shoreBkr, cmdOpen), (.shipconBkr, cmdOpen), (.genRelease, genHold)])
        (u.finalRecords b .aborted ++ [u.moveRecord b .cabled])
      ∧ t.noClaim b ∧ ((u.berth b).state = .shore → b ∉ t.budget.stack)

/-- The ship connection CLOSED in ENERGIZED, SYNCING or DEADBUS, by the generators (R37; in MANUAL in ENERGIZED, R129). -/
def State.closingFollowed (u t : State) (b : BerthId) (r : ScanResult) : Prop :=
  r.shore ≠ .open → r.shipcon = .closed →
    ((u.berth b).state = .energized
      ∨ (u.berth b).mode = .auto ∧ ((u.berth b).state = .syncing ∨ (u.berth b).state = .deadbus)) →
    (r.gens = .open → u.noClaim b →
        (u.unheldManual b).movesTo t b (((u.berth b).entered .shore).levelZero.finalised .done)
          { u.chan b with step := Channel.idle }
          (u.chargeZero :: autoOnly (u.berth b).mode [(.genRelease, genRelease)])
          (u.finalRecords b .done ++ [u.moveRecord b .shore]))
      ∧ (r.gens ≠ .open →
        (u.unheldManual b).movesTo t b ((u.berth b).entered .parallel) { u.chan b with step := u.overlapLoaded b }
          (autoOnly (u.berth b).mode [(.genRelease, genRelease)]) [u.moveRecord b .parallel])

/-- Is a result inside the berth's sync window (R7)? -/
def State.insideWindow (u : State) (b : BerthId) (r : ScanResult) : Prop :=
  r.fDiff.natAbs ≤ (u.static b).syncMaxFreq ∧ r.angle.natAbs ≤ (u.static b).syncMaxAngle
    ∧ ((r.vShore : Int) - r.vShip).natAbs ≤ (u.static b).syncMaxVolt

/-- SYNCING, DEADBUS and ENERGIZED with the ship connection not CLOSED: the sync count and the close (R7, R35), the dead-bus test
(R36), and the count and release of a held SYNC entry in MANUAL (R123). -/
def State.syncFollowed (u t : State) (b : BerthId) (r : ScanResult) : Prop :=
  r.shore ≠ .open → r.shipcon ≠ .closed →
    ((u.berth b).state = .syncing →
      ((u.berth b).closeIssued = true → u.unmoved t)
        ∧ ((u.berth b).closeIssued = false →
          (¬ u.insideWindow b r → u.issues t b { u.berth b with syncCount := 0 } (u.chan b) [])
            ∧ (u.insideWindow b r → (u.berth b).syncCount + 1 < (u.static b).syncPersistence →
              u.issues t b { u.berth b with syncCount := (u.berth b).syncCount + 1 } (u.chan b) [])
            ∧ (u.insideWindow b r → (u.static b).syncPersistence ≤ (u.berth b).syncCount + 1 →
              u.issues t b { u.berth b with syncCount := (u.static b).syncPersistence, closeIssued := true }
                { u.chan b with step := u.confirmLoaded b } [(.shipconBkr, cmdClose)])))
    ∧ ((u.berth b).state = .deadbus →
      ((u.berth b).closeIssued = false → r.gens = .open → r.vShip ≤ u.threshold (u.static b).deadBusIndex →
          u.issues t b { u.berth b with closeIssued := true } { u.chan b with step := u.confirmLoaded b }
            [(.shipconBkr, cmdClose)])
        ∧ ((u.berth b).closeIssued = true ∨ r.gens ≠ .open ∨ u.threshold (u.static b).deadBusIndex < r.vShip → u.unmoved t))
    ∧ ((u.berth b).state = .energized →
      ((u.berth b).mode = .auto ∨ (∀ h ∈ u.holds, h.berth = b → h.reason ≠ .sync) → u.unmoved t)
        ∧ (∀ h, (u.berth b).mode = .manual → h ∈ u.holds → h.berth = b → h.reason = .sync →
          (∀ x ∈ u.holds, x.berth = b → x.reason = .sync → x = h) →
          (¬ u.insideWindow b r → u.issues t b { u.berth b with syncCount := 0 } (u.chan b) [])
            ∧ (u.insideWindow b r → (u.berth b).syncCount + 1 < (u.static b).syncPersistence →
              u.issues t b { u.berth b with syncCount := (u.berth b).syncCount + 1 } (u.chan b) [])
            ∧ (u.insideWindow b r → (u.static b).syncPersistence ≤ (u.berth b).syncCount + 1 →
              ({ u with holds := u.holds.filter fun x => decide (x.address ≠ h.address) } : State).issues t b
                { u.berth b with syncCount := (u.static b).syncPersistence } (u.chan b) [(h.word.cmd, h.data)])))

/-- The ship connection OPEN out of turn (R50; in MANUAL R129) and the ship connection awaited OPEN (R42, R43). -/
def State.openingFollowed (u t : State) (b : BerthId) (r : ScanResult) : Prop :=
  r.shore ≠ .open → r.shipcon = .open →
    (((u.berth b).state = .parallel ∨ (u.berth b).state = .shore
        ∨ (u.berth b).mode = .auto ∧ (u.berth b).state = .resyncing) →
        u.movesTo t b ((((u.berth b).entered .energized).leftShore (u.berth b).state).finalised .aborted)
            { u.chan b with step := Channel.idle }
            ((if (u.berth b).state = .shore then [u.chargeZero] else [])
              ++ autoOnly (u.berth b).mode [(.shipconBkr, cmdOpen), (.genRelease, genHold)])
            (u.finalRecords b .aborted ++ [u.moveRecord b .energized])
          ∧ ((u.berth b).state = .shore → t.noClaim b ∧ b ∉ t.budget.stack))
      ∧ (((u.berth b).state = .unparallel ∨ (u.berth b).state = .separating) →
        u.movesTo t b (((u.berth b).entered .energized).finalised .done) { u.chan b with step := Channel.idle } []
          (u.finalRecords b .done ++ [u.moveRecord b .energized]))

/-- PARALLEL, RESYNCING, UNPARALLEL and SEPARATING by the generators, the ship connection not OPEN (R38, R41, R42, R43; in MANUAL
R129), and DISENGAGING by the shore breaker (R45). -/
def State.generatorsFollowed (u t : State) (b : BerthId) (r : ScanResult) : Prop :=
  (r.shore ≠ .open → r.shipcon ≠ .open →
      ((u.berth b).state = .parallel →
          (r.gens = .open → u.noClaim b →
              u.movesTo t b (((u.berth b).entered .shore).levelZero.finalised .done) { u.chan b with step := Channel.idle }
                (u.chargeZero :: autoOnly (u.berth b).mode [(.genRelease, genRelease)])
                (u.finalRecords b .done ++ [u.moveRecord b .shore]))
            ∧ (r.gens ≠ .open → u.unmoved t))
        ∧ ((u.berth b).state = .resyncing → (u.berth b).mode = .auto →
          (r.gens = .closed →
              u.movesTo t b ((u.berth b).entered .unparallel) { u.chan b with step := u.overlapLoaded b }
                [(.shipconBkr, cmdOpen)] [u.moveRecord b .unparallel])
            ∧ (r.gens ≠ .closed → u.unmoved t))
        ∧ ((u.berth b).state = .unparallel →
          (r.gens = .open → (u.berth b).mode = .manual → u.noClaim b →
              u.movesTo t b ((u.berth b).entered .shore).levelZero { u.chan b with step := Channel.idle } [u.chargeZero]
                [u.moveRecord b .shore])
            ∧ (r.gens ≠ .open ∨ (u.berth b).mode = .auto → u.unmoved t))
        ∧ ((u.berth b).state = .separating → u.unmoved t))
    ∧ ((u.berth b).state = .disengaging →
      (r.shore = .open → u.noClaim b →
          u.movesTo t b (({ (u.berth b).entered .cabled with baseGrant := 0 } : Berth).finalised .done)
            { u.chan b with step := Channel.idle } [] (u.finalRecords b .done ++ [u.moveRecord b .cabled]))
        ∧ (r.shore ≠ .open → u.unmoved t))

/-- The LEVEL_IDLE record of an idle step-down (R98, R155). -/
def State.idleRecord (u : State) (b : BerthId) : Record :=
  { type := .levelIdle, berth := some b, qualifier := 0, detailA := BitVec.ofNat 16 (u.berth b).level,
    detailB := BitVec.ofNat 16 ((u.berth b).level - 1), stamp := u.scan.passNumber }

/-- The idle count after a result (R4). -/
def State.idleAfter (u : State) (b : BerthId) (r : ScanResult) : Nat :=
  if r.load < (u.levelEntry (u.berth b).level).activity then min 255 ((u.berth b).idle + 1) else 0

/-- A record one level down, residency and idle at 0 (R94). -/
def Berth.stepped (r : Berth) : Berth := { r with level := r.level - 1, residency := 0, idle := 0 }

/-- The CHARGE_LIMIT write of a level (R94). -/
def State.chargeWrite (u : State) (n : Nat) : CmdWord × Word := (.chargeLimit, (u.levelEntry n).limit)

/-- A step down of a berth for a cause (R94, R98, R101): one level less with CHARGE_LIMIT, RSP and the record of the cause. -/
def State.stepsDown (u t : State) (b : BerthId) (x : Record) : Prop :=
  u.movesTo t b (u.berth b).stepped (u.chan b) [u.chargeWrite ((u.berth b).level - 1)] [x]

/-- The one claim waiting, a LEVEL claim of a berth that a cause steps down (R97, R96): its credits K are computed anew from the level
left; above Ccfg − R it is withdrawn and its request ends NOBUDGET; else it waits on in its place while shedding is on or K does not
fit C − R − G; and it is granted in the same event where K fits. -/
def State.claimRecomputed (u t : State) (b : BerthId) (n k : Nat) (x : Record) : Prop :=
  (u.tables.ccfg - u.tables.reserve < k →
      u.movesTo t b ((u.berth b).stepped.finalised .nobudget) (u.chan b) [u.chargeWrite ((u.berth b).level - 1)]
          (x :: u.finalRecords b .nobudget)
        ∧ t.budget.claims = [])
    ∧ (k ≤ u.tables.ccfg - u.tables.reserve →
      (u.budget.shedding = true
          ∨ u.budget.capacity + u.levelCredits (u.berth b).level
            < k + u.tables.reserve + u.granted + u.levelCredits ((u.berth b).level - 1) →
          u.stepsDown t b x ∧ t.budget.claims = [{ berth := b, kind := ClaimKind.level n, credits := k }])
        ∧ (u.budget.shedding = false → u.levelCredits ((u.berth b).level - 1) < u.levelCredits (u.berth b).level →
          k + u.tables.reserve + u.granted + u.levelCredits ((u.berth b).level - 1)
            ≤ u.budget.capacity + u.levelCredits (u.berth b).level →
          u.leaves t b (({ (u.berth b).stepped with level := n } : Berth).finalised .done) (u.chan b)
              (placeAll u.owq
                (u.seqEntries b [u.chargeWrite ((u.berth b).level - 1)] ++ u.rspEntry b (u.berth b).stepped
                  :: u.seqEntries b [u.chargeWrite n]
                  ++ [u.rspEntry b (({ (u.berth b).stepped with level := n } : Berth).finalised .done)]))
              (x :: u.finalRecords b .done)
            ∧ t.budget.claims = []))

/-- A result that finds and leaves a berth in SHORE (R50, R60 step 3, R98): the generators closed onto shore end it; else residency
and idle are counted, and the idle count at the level's down-idle steps the level down by one. -/
def State.shoreFollowed (u t : State) (b : BerthId) (r : ScanResult) : Prop :=
  (u.berth b).state = .shore → r.shore ≠ .open → r.shipcon ≠ .open →
    (r.gens = .closed → r.shipcon = .closed →
        u.movesTo t b (((u.berth b).entered .unparallel).levelZero.finalised .aborted) { u.chan b with step := u.overlapLoaded b }
            (u.chargeZero :: autoOnly (u.berth b).mode [(.shipconBkr, cmdOpen), (.genRelease, genHold)])
            (u.finalRecords b .aborted ++ [u.moveRecord b .unparallel])
          ∧ t.noClaim b ∧ b ∉ t.budget.stack)
      ∧ (r.gens ≠ .closed ∨ r.shipcon ≠ .closed →
        ((u.berth b).level = 0 ∨ u.idleAfter b r < (u.levelEntry (u.berth b).level).downIdle →
            u.issues t b
              { u.berth b with residency := min 255 ((u.berth b).residency + 1), idle := u.idleAfter b r } (u.chan b) [])
          ∧ (0 < (u.berth b).level → (u.levelEntry (u.berth b).level).downIdle ≤ u.idleAfter b r →
            (u.noClaim b → u.stepsDown t b (u.idleRecord b) ∧ ((u.berth b).level = 1 → b ∉ t.budget.stack))
              ∧ ∀ n k, u.budget.claims = [{ berth := b, kind := ClaimKind.level n, credits := k }] →
                u.claimRecomputed t b n (u.levelCredits n - u.levelCredits ((u.berth b).level - 1)) (u.idleRecord b)))

/-- The flags that a result meets in a berth's state outside ADOPTING and LOCKOUT (R68 to R70). -/
def State.meets (s : State) (b : BerthId) (r : ScanResult) (f : FaultSet) : Prop :=
  (f.uv = true ↔ (s.berth b).state.voltageWatched = true ∧ r.shore = .closed
      ∧ r.vShore < s.threshold (s.static b).uvIndex ∧ (s.static b).uvOvPersistence ≤ (s.sup b).uvCount + 1)
    ∧ (f.ov = true ↔ (s.berth b).state.voltageWatched = true ∧ r.shore = .closed
      ∧ s.threshold (s.static b).ovIndex < r.vShore ∧ (s.static b).uvOvPersistence ≤ (s.sup b).ovCount + 1)
    ∧ (f.earth = true ↔ (s.berth b).state ≠ .vacant ∧ r.pilot = true ∧ r.earth = false)
    ∧ (f.pilot = true ↔ r.pilot = false ∧ r.shore = .closed)
    ∧ (f.bkr = true ↔ r.shore = .fault ∨ r.shipcon = .fault ∨ r.gens = .fault) ∧ f.stale = false

/-- A result that meets no fault condition in the berth's state, outside ADOPTING and LOCKOUT (R68 to R70). -/
def State.faultFree (s : State) (b : BerthId) (r : ScanResult) : Prop :=
  (s.berth b).state ≠ .adopting ∧ (s.berth b).state ≠ .lockout ∧ s.meets b r FaultSet.empty

/-- The UV and OV persistence counters after a result without a trip (R69): up by 1 while their condition is met and evaluated,
else 0. -/
def State.supervisedOnly (s : State) (b : BerthId) (r : ScanResult) : Supervision :=
  { s.sup b with
    uvCount :=
      if (s.berth b).state.voltageWatched = true ∧ r.shore = .closed ∧ r.vShore < s.threshold (s.static b).uvIndex then
        (s.sup b).uvCount + 1
      else 0
    ovCount :=
      if (s.berth b).state.voltageWatched = true ∧ r.shore = .closed ∧ s.threshold (s.static b).ovIndex < r.vShore then
        (s.sup b).ovCount + 1
      else 0 }

/-- The flags of EARTH, PILOT and BKR that a result meets in LOCKOUT (R70, R77). -/
def ScanResult.lockoutFlags (r : ScanResult) : FaultSet :=
  { FaultSet.empty with
    earth := decide (r.pilot = true ∧ r.earth = false)
    pilot := decide (r.pilot = false ∧ r.shore = .closed)
    bkr := decide (r.shore = .fault ∨ r.shipcon = .fault ∨ r.gens = .fault) }

/-- Is a result in LOCKOUT clean (R79)? -/
def ScanResult.isClean (r : ScanResult) : Prop :=
  r.shore = .open ∧ r.shipcon ≠ .fault ∧ r.gens ≠ .fault ∧ (r.pilot = true → r.earth = true)

/-- A result in LOCKOUT (R77 to R81), with the base grant returned at the first OPEN: an unclean one sets the quiet count to 0, and a
flag that is new to the sticky set is added, with the TRIP write and a TRIP record with the repeat mark; a clean one counts, and
where both conditions of recovery hold the berth recovers by its pilot. -/
def State.lockoutFollowed (u t : State) (b : BerthId) (r : ScanResult) : Prop :=
  (u.berth b).state = .lockout → u.noClaim b → 0 < (u.static b).quietRequired →
    (¬ r.isClean → (r.lockoutFlags.minus (u.sup b).sticky).isEmpty = true →
        u.leaves t b { u.berth b with baseGrant := if r.shore = .open then 0 else (u.berth b).baseGrant } (u.chan b) u.owq []
          ∧ t.sup b = { u.sup b with quiet := 0 })
      ∧ ((r.lockoutFlags.minus (u.sup b).sticky).isEmpty = false →
        u.leaves t b { u.berth b with baseGrant := if r.shore = .open then 0 else (u.berth b).baseGrant } (u.chan b)
            (placeTrip u.owq (u.tripEntry b)) [u.tripRecordOf b 1 .lockout (r.lockoutFlags.minus (u.sup b).sticky)]
          ∧ u.tripEntry b ∈ t.owq
          ∧ t.sup b =
            { u.sup b with
              sticky := (u.sup b).sticky.union r.lockoutFlags, quiet := 0, release := (u.static b).autoRelease })
      ∧ (r.isClean →
        ((u.sup b).release = false ∨ min 255 ((u.sup b).quiet + 1) < (u.static b).quietRequired →
            u.leaves t b { u.berth b with baseGrant := 0 } (u.chan b) u.owq []
              ∧ t.sup b = { u.sup b with quiet := min 255 ((u.sup b).quiet + 1) })
          ∧ ((u.sup b).release = true → (u.static b).quietRequired ≤ min 255 ((u.sup b).quiet + 1) →
            u.movesTo t b { (u.berth b).entered (if r.pilot then .cabled else .vacant) with baseGrant := 0 } (u.chan b) []
                [{ type := .recovered, berth := some b, qualifier := 0,
                   detailA := BitVec.ofNat 16 (BState.code (if r.pilot then .cabled else .vacant)), detailB := 0,
                   stamp := u.scan.passNumber }]
              ∧ t.sup b = { uvCount := 0, ovCount := 0, sticky := FaultSet.empty, quiet := 0, release := false }))

/-! ## The service pass -/

/-- The claims that a service pass grants (R89, R96), in arrival order, where C − G is `free` at its start: an ENGAGE claim that does
not fit ends the pass; a LEVEL claim that does not fit C − R − G is passed over, and so is every LEVEL claim while shedding is on.
Each grant takes its credits. -/
def served (shedding : Bool) (reserve : Nat) (free : Int) : List Claim → List Claim
  | [] => []
  | c :: rest =>
    match c.kind with
    | .engage => if c.credits ≤ free then c :: served shedding reserve (free - c.credits) rest else []
    | .level _ =>
      if shedding = false ∧ c.credits ≤ free - reserve then c :: served shedding reserve (free - c.credits) rest
      else served shedding reserve free rest

/-- A claim as R88 places it: ENGAGE of a berth in ENGAGING with no grant yet, for its base credits, in MANUAL with its held write
waiting for it; or LEVEL of a berth in SHORE, for the credits between its level and a higher one. -/
def State.claimSound (s : State) (c : Claim) : Prop :=
  match c.kind with
  | .engage =>
    (s.berth c.berth).state = .engaging ∧ (s.berth c.berth).baseGrant = 0 ∧ c.credits = (s.static c.berth).baseCredits
      ∧ ((s.berth c.berth).mode = .manual → ∃ h, s.holdsOf c.berth = [h] ∧ h.reason = .budget)
  | .level n =>
    (s.berth c.berth).state = .shore ∧ (s.berth c.berth).level < n
      ∧ s.levelCredits n = s.levelCredits (s.berth c.berth).level + c.credits

/-- The Budget Wait Queue as R88 keeps it: at most one claim a berth, each sound; and no two held writes at one address (R117). -/
def State.claimsSound (s : State) : Prop :=
  (s.budget.claims.map fun c => c.berth).Nodup ∧ (∀ c ∈ s.budget.claims, s.claimSound c)
    ∧ (s.holds.map fun h => h.address).Nodup

/-- Does a berth go on to ENERGIZING with its grant: in MANUAL always, in AUTO with the ship ready in its latest result (R29, R120)? -/
def State.goesOn (s : State) (b : BerthId) : Bool :=
  match (s.berth b).mode, (s.berth b).latest with
  | .manual, _ => true
  | .auto, some r => r.ready
  | .auto, none => false

/-- The record of a berth whose claim is granted (R29, R90, R96, R120). -/
def State.grantedBerth (s : State) (c : Claim) : Berth :=
  match c.kind with
  | .engage =>
    { (if s.goesOn c.berth then (s.berth c.berth).entered .energizing else s.berth c.berth) with
      baseGrant := (s.static c.berth).baseCredits }
  | .level n => ({ s.berth c.berth with level := n, residency := 0, idle := 0 } : Berth).finalised .done

/-- The channels of a berth whose claim is granted. -/
def State.grantedChannels (s : State) (c : Claim) : Channels :=
  match c.kind with
  | .engage =>
    if s.goesOn c.berth then { s.chan c.berth with step := s.confirmLoaded c.berth } else s.chan c.berth
  | .level _ => s.chan c.berth

/-- The held writes of a berth that its grant releases (R120). -/
def State.grantedHolds (s : State) (c : Claim) : List Hold :=
  match c.kind, (s.berth c.berth).mode with
  | .engage, .manual => s.holdsOf c.berth
  | _, _ => []

/-- The writes that a grant queues: SHORE_BKR=CLOSE, the part's own or the one held, with RSP where the berth goes on; CHARGE_LIMIT and
RSP for a level (R29, R90, R96, R120). -/
def State.grantedWrites (s : State) (c : Claim) : List OwnWrite :=
  match c.kind with
  | .engage =>
    if s.goesOn c.berth then
      (match (s.berth c.berth).mode with
        | .auto => [s.seqEntry c.berth .shoreBkr cmdClose]
        | .manual => (s.holdsOf c.berth).map fun h => s.seqEntry c.berth h.word.cmd h.data)
        ++ [s.rspEntry c.berth (s.grantedBerth c)]
    else []
  | .level n => [s.seqEntry c.berth .chargeLimit (s.levelEntry n).limit, s.rspEntry c.berth (s.grantedBerth c)]

/-- The records that a grant stages: the STATE record where the berth goes on, the REQUEST_FINAL record of a SET_LEVEL that RSP no
longer answers. -/
def State.grantedRecords (s : State) (c : Claim) : List Record :=
  match c.kind with
  | .engage => if s.goesOn c.berth then [s.moveRecord c.berth .energizing] else []
  | .level _ => s.finalRecords c.berth .done

/-- The Level Stack after a grant (R99). -/
def State.grantedStack (s : State) (stack : List BerthId) (c : Claim) : List BerthId :=
  match c.kind with
  | .engage => stack
  | .level n => stackAfter stack c.berth (s.berth c.berth).level n

/-- What a service pass that grants the claims `l` leaves: these leave the queue and the others wait on in their order; each berth
granted stands as its grant leaves it, every other berth as it was; the writes and records follow in the order of the grants, with
an OVERCOMMIT record at most at the end (R103). -/
def State.grantsMade (s t : State) (l : List Claim) (rs : List Record) : Prop :=
  t.budget.claims = s.budget.claims.filter (fun c => decide (c ∉ l))
    ∧ (∀ c ∈ l, t.berth c.berth = s.grantedBerth c ∧ t.chan c.berth = s.grantedChannels c)
    ∧ (∀ b, (∀ c ∈ l, c.berth ≠ b) → t.berth b = s.berth b ∧ t.chan b = s.chan b)
    ∧ t.holds = s.holds.filter (fun h => l.all fun c => decide (h ∉ s.grantedHolds c))
    ∧ t.owq = placeAll s.owq (l.flatMap s.grantedWrites)
    ∧ t.budget.stack = l.foldl s.grantedStack s.budget.stack
    ∧ s.stagedOnly t (rs ++ l.flatMap s.grantedRecords)

/-! ## Feeder results -/

/-- A FEEDER_STALE record (R59, R155): the qualifier says set or cleared. -/
def State.staleRecord (s : State) (q : BitVec 3) : Record :=
  { type := .feederStale, berth := none, qualifier := q, detailA := 0, detailB := 0, stamp := s.scan.passNumber }

/-- A SHED record of a berth (R101, R155): cause 0 load, 1 capacity. -/
def State.shedRecord (s : State) (b : BerthId) (cause : BitVec 3) (level : Nat) : Record :=
  { type := .shed, berth := some b, qualifier := cause, detailA := BitVec.ofNat 16 level,
    detailB := BitVec.ofNat 16 (level - 1), stamp := s.scan.passNumber }

/-- Steps 1 and 2 of R102, FEEDER_STALE cleared first (R59): C, and the shedding state after FEEDER_LOAD (R85, R100). -/
def State.fed (s : State) (capacity load : Nat) : State :=
  { s with
    scan := { s.scan with feederStale := false }
    log := if s.scan.feederStale then s.log.stage (s.staleRecord 0) else s.log
    budget := { s.budget with
      capacity := capacity
      highCount := if s.tables.highLoad ≤ load then min 2 (s.budget.highCount + 1) else 0
      shedding := s.shedAfter load } }

/-- C of a feeder result (R85): the smaller of Ccfg and FEEDER_CAP with the converter RUNNING, else 0. -/
def State.capacityOf (s : State) (ws : List Word) : Nat := if ws.getD 3 0 = 1 then min s.tables.ccfg (ws.getD 2 0).toNat else 0

/-- The shedding steps of a feeder result and the service pass (R101, R102), from the state `u` of its steps 1 and 2. No step, with
the stack empty or no cause, and a service pass. One step of the berth on top: for the load where shedding is on and that step
brings G to C, or the stack holds no other berth; for C where shedding is off and G exceeds C. Two steps for both causes: of one
berth at level 2 or above, or of the two on top. -/
def State.shedFollowed (u t : State) : Prop :=
  (u.budget.stack = [] ∨ u.budget.shedding = false ∧ u.granted ≤ u.budget.capacity → u.claimsSound →
      u.grantsMade t
        (served u.budget.shedding u.tables.reserve ((u.budget.capacity : Int) - u.granted) u.budget.claims) [])
    ∧ ∀ b rest, u.budget.stack = b :: rest → b ∉ rest →
      (∀ q, (u.budget.shedding = true ∧ q = 0
              ∧ (u.granted + u.levelCredits ((u.berth b).level - 1) ≤ u.budget.capacity + u.levelCredits (u.berth b).level
                ∨ rest = [] ∧ (u.berth b).level ≤ 1)
            ∨ u.budget.shedding = false ∧ q = 1 ∧ u.budget.capacity < u.granted) →
          (u.budget.claims = [] →
              u.stepsDown t b (u.shedRecord b q (u.berth b).level) ∧ (∀ c, c ≠ b → t.berth c = u.berth c)
                ∧ ((u.berth b).level ≤ 1 → t.budget.stack = rest)
                ∧ (1 < (u.berth b).level → t.budget.stack = u.budget.stack))
            ∧ ∀ n k, u.budget.claims = [{ berth := b, kind := ClaimKind.level n, credits := k }] →
              u.claimRecomputed t b n (u.levelCredits n - u.levelCredits ((u.berth b).level - 1))
                (u.shedRecord b q (u.berth b).level))
        ∧ (u.budget.shedding = true → u.budget.claims = [] →
          u.budget.capacity + u.levelCredits (u.berth b).level < u.granted + u.levelCredits ((u.berth b).level - 1) →
          (2 ≤ (u.berth b).level →
              u.leaves t b (u.berth b).stepped.stepped (u.chan b)
                  (placeAll u.owq
                    [u.seqEntry b .chargeLimit (u.levelEntry ((u.berth b).level - 1)).limit, u.rspEntry b (u.berth b).stepped,
                      u.seqEntry b .chargeLimit (u.levelEntry ((u.berth b).level - 2)).limit,
                      u.rspEntry b (u.berth b).stepped.stepped])
                  [u.shedRecord b 0 (u.berth b).level, u.shedRecord b 1 ((u.berth b).level - 1)]
                ∧ ∀ c, c ≠ b → t.berth c = u.berth c)
            ∧ (∀ c rest', (u.berth b).level ≤ 1 → rest = c :: rest' →
              t.berth b = (u.berth b).stepped
                ∧ u.leaves t c (u.berth c).stepped (u.chan c)
                  (placeAll u.owq
                    [u.seqEntry b .chargeLimit (u.levelEntry ((u.berth b).level - 1)).limit, u.rspEntry b (u.berth b).stepped,
                      u.seqEntry c .chargeLimit (u.levelEntry ((u.berth c).level - 1)).limit,
                      u.rspEntry c (u.berth c).stepped])
                  [u.shedRecord b 0 (u.berth b).level, u.shedRecord c 1 (u.berth c).level]
                ∧ ∀ x, x ≠ b → x ≠ c → t.berth x = u.berth x))

/-! ## Adoption -/

/-- The state that an adoption leaves (R166): record and channels, SEQ writes and then RSP, and the ADOPTED record of the state
adopted. -/
def State.adopted (u : State) (b : BerthId) (st : BState) (r : Berth) (c : Channels) (ws : List (CmdWord × Word)) : State :=
  { u with
    berths := u.berths.set b r
    chans := u.chans.set b c
    owq := placeAll u.owq (u.seqEntries b ws ++ [u.rspEntry b r])
    log := u.log.stage
      { type := .adopted, berth := some b, qualifier := 0, detailA := stateModeDetail st r.mode, detailB := 0,
        stamp := u.scan.passNumber } }

/-- The record of an adopted berth (R166): the default mode, the state of the row, and its base grant (R167). -/
def State.adoptedBerth (u : State) (b : BerthId) (st : BState) (grant : Nat) : Berth :=
  { (u.berth b).entered st with mode := (u.static b).defaultMode, baseGrant := grant }

/-- A berth adopted into a state stands there, or has tripped from it with the flags its result meets in it (R61). -/
def State.adoptsAs (u t : State) (b : BerthId) (r : ScanResult) (x : Berth) (c : Channels) (ws : List (CmdWord × Word)) : Prop :=
  ∀ v f, v = u.adopted b x.state x c ws → v.meets b r f →
    (f.isEmpty = true → v.leaves t b x c v.owq [] ∧ t.sup b = v.supervisedOnly b r)
      ∧ (f.isEmpty = false → v.tripped t b f)

/-- Row 1 of R166: the adoption trip, its ADOPTED record and RSP write first; with the earth lost too, the result's evaluation in
LOCKOUT (R61, R77) adds EARTH with a TRIP record of its own. -/
def State.adoptionTrips (u t : State) (b : BerthId) (r : ScanResult) (f : FaultSet) : Prop :=
  ∀ v, v = u.adopted b .lockout { u.berth b with mode := (u.static b).defaultMode } (u.chan b) [] →
    (¬ (r.pilot = true ∧ r.earth = false) → v.tripped t b f)
      ∧ (r.pilot = true → r.earth = false →
        v.lockedOut t b f { f with earth := true } (fun q => placeTrip q (v.tripEntry b))
          [v.tripRecordOf b 1 .lockout { FaultSet.empty with earth := true }])

end Sys2Proof.Machine
end

