-- ==== Sys2Proof/Certificates/Slice0/Obligations.lean ====
section
/-! DEFINITION. The statements for the provers. Equalities of states say a command's whole effect, every PIM word and every
other register included; statements with "there is t" say the part of the next state that they name. -/

open Sys2Proof Sys2Proof.Machine

/-! ## The machine -/

/-- A step takes the command at the front of the queue and executes it on the queue's rest. -/
def Obligations.StepRunsFrontCommand : Prop :=
  ∀ (s : State) (c : Instr) (rest : List Instr), s.pending = c :: rest → step s = exec c { s with pending := rest }

/-- No command stops the machine, and none touches the queue of commands. That a command which cannot arise in the state it finds
answers a next state too, and that the commands waiting are a queue which no command touches, are the model's choices (log 3,
log 4). -/
def Obligations.EveryCommandLeavesTheQueue : Prop :=
  ∀ (c : Instr) (s : State), ∃ t, exec c s = .next t ∧ t.pending = s.pending

/-- In RUNNING, no command but RESET_ASSERT changes a table or a static part, and none ends RUNNING. -/
def Obligations.TablesStayFixedWhileRunning : Prop :=
  ∀ (c : Instr) (s : State), s.phase = .running → (∀ l, c ≠ .resetAssert l) →
    ∃ t, exec c s = .next t ∧ t.tables = s.tables ∧ t.phase = .running

/-! ## Invariants -/

/-- The canonical form of the PIM is kept by every step (log 1). -/
def Obligations.MemoryStaysCanonical : Prop :=
  ∀ s t : State, Memory.wf s.pim = true → step s = .next t → Memory.wf t.pim = true

/-- One entry per address and TRIP entries first, after every step (R138). -/
def Obligations.OwnWriteQueueStaysOrdered : Prop :=
  ∀ s t : State, ownWritesOrdered s.owq → step s = .next t → ownWritesOrdered t.owq

/-- The queue carries its 44 addresses only and never fills, through every step, the image's installation and a reset included
(R143); until the image is installed it is empty (R138, R165). -/
def Obligations.OwnWriteQueueNeverFills : Prop :=
  ∀ s t : State, ownWritesOrdered s.owq → s.quietOutside → s.ownWritesAfterImage →
    (∀ e ∈ s.owq, e.address ∈ ownAddresses s.tables) → step s = .next t →
    t.ownWritesAfterImage ∧ (∀ e ∈ t.owq, e.address ∈ ownAddresses t.tables) ∧ t.owq.length ≤ 44

/-- The ring never holds more than capacity − 1 records and the staging list never more than 8 (R154, R156, R158). -/
def Obligations.LogRingStaysBounded : Prop := ∀ s t : State, s.logSound → step s = .next t → t.logSound

/-- PARALLEL and UNPARALLEL are always bounded by a running overlap limit (R38). -/
def Obligations.OverlapStaysBounded : Prop := ∀ s t : State, s.overlapBounded → step s = .next t → t.overlapBounded

/-- A freezable deadline is FROZEN exactly under MAINT, and a fixed one never (R148 to R152). -/
def Obligations.FreezeFollowsMaint : Prop :=
  ∀ s t : State, s.quietOutside → s.freezeFollowsMaint → step s = .next t → t.freezeFollowsMaint

/-- Outside RUNNING nothing is under way (R22, R51, R66, R84, R117, R148). -/
def Obligations.NothingRunsOutsideRunning : Prop :=
  ∀ s t : State, s.quietOutside → step s = .next t → t.quietOutside

/-- The last-taken and the answered toggle stay equal (R105). -/
def Obligations.TogglesStayEqual : Prop := ∀ s t : State, s.togglesEqual → step s = .next t → t.togglesEqual

/-- FEEDER_STALE holds C at 0 (R85). -/
def Obligations.StaleFeederHoldsCapacityAtZero : Prop :=
  ∀ s t : State, s.staleFeederEmpty → step s = .next t → t.staleFeederEmpty

/-- The tables of an accepted image stay as its checks leave them: berth count, static parts, deadlines and thresholds (R1, R2, R3,
R67), Level Table, feeder parameters, tick bases and scan period (R51, R84, R93, R147), log capacity, windows and groups (R113,
R134, R154). -/
def Obligations.TablesInUseStaySound : Prop := ∀ s t : State, s.tablesSound → step s = .next t → t.tablesSound

/-- The invariants hold right after power-on. -/
def Obligations.InvariantsHoldAtReset : Prop :=
  Memory.wf State.reset.pim = true ∧ ownWritesOrdered State.reset.owq
    ∧ (∀ e ∈ State.reset.owq, e.address ∈ ownAddresses State.reset.tables) ∧ State.reset.ownWritesAfterImage
    ∧ State.reset.logSound
    ∧ State.reset.overlapBounded ∧ State.reset.freezeFollowsMaint ∧ State.reset.quietOutside
    ∧ State.reset.togglesEqual ∧ State.reset.staleFeederEmpty ∧ State.reset.tablesSound

/-! ## Lines -/

/-- TRIPn is asserted exactly while berth n is in LOCKOUT, never together with PERMn, and not outside RUNNING (R76); a line whose
number is N or above stays off (R1). -/
def Obligations.TripLineFollowsLockout : Prop :=
  ∀ (s : State) (b : BerthId),
    (s.phase = .running → s.configured b = true → (s.trip b = true ↔ (s.berth b).state = .lockout))
      ∧ ¬ (s.trip b = true ∧ s.perm b = true) ∧ (s.phase ≠ .running → s.trip b = false)
      ∧ (s.tables.n ≤ b.toNat → s.trip b = false)

/-- PERMn is on exactly in the nine states, for a configured berth in RUNNING (R19). -/
def Obligations.PermitLineFollowsState : Prop :=
  ∀ (s : State) (b : BerthId),
    s.perm b = true ↔
      s.phase = .running ∧ b.toNat < s.tables.n
        ∧ ((s.berth b).state = .energizing ∨ (s.berth b).state = .energized ∨ (s.berth b).state = .syncing
          ∨ (s.berth b).state = .deadbus ∨ (s.berth b).state = .parallel ∨ (s.berth b).state = .shore
          ∨ (s.berth b).state = .resyncing ∨ (s.berth b).state = .unparallel ∨ (s.berth b).state = .separating)

/-- ATTN is asserted while the ring holds a record, in BLOCKED, and while OVERCOMMIT is set; from reset through LOADING it is
off (R159). READY is on exactly in RUNNING (R162, R165), and WAIT is asserted exactly while a host read or passed write waits for its
answer at the host port (R133). -/
def Obligations.AttentionLineFollowsLog : Prop :=
  ∀ s : State,
    (s.phase = .running →
        (s.attn = true ↔ s.log.producer ≠ s.log.consumer ∨ s.budget.overcommit = true))
      ∧ (s.phase = .blocked → s.attn = true) ∧ (s.phase = .loading → s.attn = false)
      ∧ (s.phase = .resetHeld → s.attn = false)
      ∧ (s.ready = true ↔ s.phase = .running)
      ∧ (s.wait = true ↔ (∃ a, s.ports.host = some (.read a)) ∨ ∃ a d, s.ports.host = some (.write a d))

/-! ## Reset and start-up -/

/-- RESET_ASSERT loses all part state and turns every line off; the PIM keeps every word but the one whose write by the part
was in progress and landed (R141, R162). R141 says it of the Own Write Queue; that a Log Unit write in progress may land too is the
model's reading (log 10). What the plant writes is no part state (log 2). RESET_RELEASE then enters LOADING with the mark clear
and the first start-up word write waiting (R162). -/
def Obligations.ResetDiscardsAndReleaseLoads : Prop :=
  ∀ (s : State) (landed : Bool),
    (Memory.wf s.pim = true →
      ∃ t, exec (.resetAssert landed) s = .next t
        ∧ t = State.lost s.pending s.maintPin t.pim s.plant
        ∧ (∀ b, t.perm b = false ∧ t.trip b = false) ∧ t.ready = false ∧ t.attn = false ∧ t.wait = false
        ∧ (∀ w, s.ports.busy = some (.ownWrite w) → landed = true →
            t.pimRead w.address = w.data ∧ s.sameMemoryBut t w.address)
        ∧ (∀ k a d, s.ports.busy = some (.logWrite k a d) → landed = true →
            t.pimRead a = d ∧ s.sameMemoryBut t a)
        ∧ ((landed = false ∨ ((∀ w, s.ports.busy ≠ some (.ownWrite w)) ∧ ∀ k a d, s.ports.busy ≠ some (.logWrite k a d)))
            → s.sameMemory t))
      ∧ (s.phase = .resetHeld →
        exec .resetRelease s =
          .next { s with
            phase := .loading
            loader :=
              { words := [], startupWaiting := true, firstWaiting := true, reads := [], error := .none, reportedN := 0,
                discarded := false } })

/-- A word of the image is stored; the marker and version are checked with word 1 and the length with word 2, and a failing
check moves the part to BLOCKED with its code (R160, R161, R164). -/
def Obligations.ImageWordIsStoredOrBlocks : Prop :=
  ∀ (s : State) (w : Word), s.phase = .loading → s.loader.words.length < 257 →
    (s.loader.words.length ≠ 1 → s.loader.words.length ≠ 2 →
        exec (.imageWordRead w) s = .next { s with loader := { s.loader with words := s.loader.words ++ [w] } })
      ∧ (∀ m, s.loader.words = [m] → m = 0xA5F0 → w = 1 →
        exec (.imageWordRead w) s = .next { s with loader := { s.loader with words := [m, w] } })
      ∧ (∀ m, s.loader.words = [m] → (m ≠ 0xA5F0 ∨ w ≠ 1) →
        ∃ t, exec (.imageWordRead w) s = .next t ∧ t.phase = .blocked ∧ t.loader.error = .badMarker
          ∧ t.loader.startupWaiting = true ∧ t.attn = true ∧ t.ready = false ∧ s.sameMemory t)
      ∧ (∀ m v, s.loader.words = [m, v] → w = 258 →
        exec (.imageWordRead w) s = .next { s with loader := { s.loader with words := [m, v, w] } })
      ∧ (∀ m v, s.loader.words = [m, v] → w ≠ 258 →
        ∃ t, exec (.imageWordRead w) s = .next t ∧ t.phase = .blocked ∧ t.loader.error = .badLength
          ∧ t.loader.startupWaiting = true ∧ t.attn = true ∧ t.ready = false ∧ s.sameMemory t)

/-- With its last word, an image that passes every check is installed: the tables are filled, a record is built for each of
B0 to B(N−1) with the values of R22, the log begins with its five header writes and the RESTART record, and the start-up
reads stand (R165 step 1); an image that fails one moves the part to BLOCKED with that check's code (R161, R164). -/
def Obligations.LastImageWordInstallsOrBlocks : Prop :=
  ∀ (s : State) (w : Word), s.phase = .loading → s.loader.words.length = 257 →
    (lateChecks (s.loader.words ++ [w]) = .none →
        ∃ t, exec (.imageWordRead w) s = .next t ∧ t.phase = .loading ∧ t.tables = tablesOf (s.loader.words ++ [w])
          ∧ (∀ b, b.toNat < t.tables.n →
            t.berth b =
              { mode := (t.static b).defaultMode, state := .adopting, settling := false, closeIssued := false,
                openingIssued := false, request := none, lastTaken := false, answered := false, phase := .final,
                result := .none, baseGrant := 0, level := 0, residency := 0, idle := 0, syncCount := 0, latest := none })
          ∧ t.log.firstHeaders.length = 5 ∧ t.log.producer = 0 ∧ t.log.consumer = 0
          ∧ t.log.capacity = t.tables.logCapacity ∧ (t.log.staging.map fun r => r.type) = [RecType.restart]
          ∧ t.loader.reads.length = t.tables.n + (GroupId.all.filter fun g => t.groupInUse g).length
          ∧ s.sameMemory t ∧ t.owq = s.owq)
      ∧ (lateChecks (s.loader.words ++ [w]) ≠ .none →
        ∃ t, exec (.imageWordRead w) s = .next t ∧ t.phase = .blocked
          ∧ t.loader.error = lateChecks (s.loader.words ++ [w]) ∧ t.loader.startupWaiting = true ∧ t.attn = true
          ∧ t.tables = s.tables ∧ t.berths = s.berths ∧ s.sameMemory t)

/-- A start-up read gives its berth or group entry the toggle of the word that the host left in memory, and queues its first answer
(R22, R113, R135, R165 step 2). -/
def Obligations.StartupReadTakesToggle : Prop :=
  ∀ (s : State) (w : Word) (station : Option Word),
    (∀ b, s.ports.busy = some (.startRead (.req b)) → w = s.pimRead (s.tables.reqAddress b) →
        ∃ t, exec (.startupReqRead station) s = .next t
          ∧ t.berth b = { s.berth b with lastTaken := w.getLsbD 15, answered := w.getLsbD 15 }
          ∧ (∀ c, c ≠ b → t.berth c = s.berth c)
          ∧ t.owq = placeWrite s.owq (s.rspEntry b (t.berth b)) ∧ t.ports = { s.ports with busy := none }
          ∧ t.loader.reads = s.loader.reads.tail ∧ s.sameMemory t)
      ∧ (∀ g, s.ports.busy = some (.startRead (.groupReq g)) → w = s.pimRead (s.tables.groupReqAddress g) →
        ∃ t, exec (.startupReqRead station) s = .next t ∧ t.groupTaken.get g = w.getLsbD 15 ∧ t.berths = s.berths
          ∧ t.owq = placeWrite s.owq
            { address := s.tables.groupRspAddress g, data := groupRspWord (w.getLsbD 15) .none 0 0 0, cls := .report,
              berth := none }
          ∧ t.loader.reads = s.loader.reads.tail ∧ s.sameMemory t)

/-- When the last start-up read completes after the five header writes, the part enters RUNNING: READY goes on, the bases start,
MAINT is sampled, the first pass starts and the start-up word is to be rewritten (R53, R147, R151, R165 step 3). -/
def Obligations.LastStartupReadEntersRunning : Prop :=
  ∀ (s : State) (r : StartRead) (station : Option Word), s.phase = .loading → s.loader.words.length = 258 →
    s.ports.busy = some (.startRead r) → s.loader.reads = [r] → s.log.firstHeaders = [] →
    ∃ t, exec (.startupReqRead station) s = .next t ∧ t.phase = .running ∧ t.ready = true
      ∧ t.timer = { divider := s.tables.ns, sDue := false, maint := s.maintPin, owed := Eight.fill Owed.none }
      ∧ t.scan.pass = some { block := .feeder, words := [] } ∧ t.scan.timer = s.tables.scanPeriod
      ∧ t.scan.passNumber = 0 ∧ t.scan.feederStale = false
      ∧ t.loader.startupWaiting = true ∧ t.loader.reportedN = s.tables.n ∧ t.log.statusPending = true

/-! ## Berth requests -/

/-- The intake (R106, R107): a REQ write with the last-taken toggle is passed and takes nothing; by rows 1 to 5 of R107 a new
request is taken, answered FINAL at once, and changes nothing else. -/
def Obligations.IntakeRowsAnswerAtOnce : Prop :=
  ∀ (s : State) (b : BerthId) (q : ReqBits), s.serves b →
    (q.toggle = (s.berth b).lastTaken →
        (∀ k, exec (reqCommand k b q) s = .next (s.passedWrite (s.tables.reqAddress b) (reqWord k.code q)))
          ∧ ∀ code, exec (.reqInvalidCode b code q) s = .next (s.passedWrite (s.tables.reqAddress b) (reqWord code q)))
      ∧ (q.toggle ≠ (s.berth b).lastTaken →
        (∀ code : BitVec 4, 9 ≤ code.toNat →
            exec (.reqInvalidCode b code q) s = .next (s.answeredOnly b q.toggle .invalid (reqWord code q)))
          ∧ exec (.reqNone b q) s = .next (s.answeredOnly b q.toggle .none (reqWord 0 q))
          ∧ ∀ k, k ≠ .none →
            ((s.berth b).state = .adopting →
                exec (reqCommand k b q) s = .next (s.answeredOnly b q.toggle .busy (reqWord k.code q)))
              ∧ ((s.berth b).state ≠ .adopting → (s.berth b).request ≠ none → k ≠ .abort →
                exec (reqCommand k b q) s = .next (s.answeredOnly b q.toggle .busy (reqWord k.code q)))
              ∧ ((s.berth b).state ≠ .adopting → (s.berth b).request = none → s.timer.maint = true →
                k ≠ .abort → k ≠ .disconnect → k ≠ .release →
                exec (reqCommand k b q) s = .next (s.answeredOnly b q.toggle .maint (reqWord k.code q))))

/-- A request that reaches its owner in a state or mode that does not take it is answered at once, and changes nothing else
(R25, R110). -/
def Obligations.RequestsOutOfStateAreRefused : Prop :=
  ∀ (s : State) (b : BerthId) (q : ReqBits), s.serves b → q.toggle ≠ (s.berth b).lastTaken →
    (s.berth b).state ≠ .adopting → (s.berth b).request = none →
    (s.timer.maint = false → ¬ ((s.berth b).state = .cabled ∧ (s.berth b).mode = .auto) →
        exec (.reqConnect b q) s = .next (s.answeredOnly b q.toggle .refused (reqWord 1 q)))
      ∧ (s.timer.maint = false → ¬ ((s.berth b).state = .energized ∧ (s.berth b).mode = .auto) →
        exec (.reqTransfer b q) s = .next (s.answeredOnly b q.toggle .refused (reqWord 2 q)))
      ∧ (s.timer.maint = false → ¬ ((s.berth b).state = .shore ∧ (s.berth b).mode = .auto) →
        exec (.reqReturn b q) s = .next (s.answeredOnly b q.toggle .refused (reqWord 3 q)))
      ∧ (s.timer.maint = false → (s.berth b).state ≠ .shore →
        exec (.reqSetLevel b q) s = .next (s.answeredOnly b q.toggle .refused (reqWord 5 q)))
      ∧ (s.timer.maint = false → (s.berth b).state ≠ .vacant → (s.berth b).state ≠ .cabled →
        (s.berth b).state ≠ .energized → (s.berth b).state ≠ .shore → (s.berth b).state ≠ .lockout →
        exec (.reqSetMode b q) s = .next (s.answeredOnly b q.toggle .busy (reqWord 6 q)))
      ∧ ((s.berth b).state ≠ .lockout →
        exec (.reqRelease b q) s = .next (s.answeredOnly b q.toggle .refused (reqWord 7 q)))

/-- CONNECT in CABLED in AUTO (R28, R29, R88, R90): the berth enters ENGAGING with its claim placed, and in the same event holds
its grant or goes on to ENERGIZING where the claim is granted, with SHORE_BKR=CLOSE queued as a SEQ write (the queue is given
where no other claim waits, whose grant could queue more); a claim above Ccfg is refused at entry and CONNECT ends NOBUDGET. -/
def Obligations.ConnectEntersEngaging : Prop :=
  ∀ (s : State) (b : BerthId) (q : ReqBits), s.serves b → q.toggle ≠ (s.berth b).lastTaken →
    s.timer.maint = false → (s.berth b).state = .cabled → (s.berth b).mode = .auto → (s.berth b).request = none →
    (s.tables.ccfg < (s.static b).baseCredits →
        exec (.reqConnect b q) s =
          .next { s.passedWrite (s.tables.reqAddress b) (reqWord 1 q) with
            berths := s.berths.set b (((s.berth b).entered .cabled).answeredFinal q.toggle .nobudget)
            chans := s.chans.set b { s.chan b with step := Channel.idle }
            owq := placeWrite s.owq (s.rspEntry b (((s.berth b).entered .cabled).answeredFinal q.toggle .nobudget))
            log := (s.log.stage (s.stateRecord b .cabled .auto .engaging .auto)).stage
              (s.stateRecord b .engaging .auto .cabled .auto) })
      ∧ ((s.static b).baseCredits ≤ s.tables.ccfg → s.noClaim b →
        ∃ t, exec (.reqConnect b q) s = .next t
          ∧ t.ports = { s.ports with host := some (.write (s.tables.reqAddress b) (reqWord 1 q)) }
          ∧ s.sameMemory t
          ∧ ((t.berth b = ((s.berth b).entered .engaging).answeredPending q.toggle .connect none
                ∧ { berth := b, kind := ClaimKind.engage, credits := (s.static b).baseCredits } ∈ t.budget.claims
                ∧ (t.chan b).step = loadedChannel true .s (s.static b).engageLimit false)
            ∨ (t.berth b = { ((s.berth b).entered .engaging).answeredPending q.toggle .connect none with
                    baseGrant := (s.static b).baseCredits }
                ∧ t.noClaim b ∧ (∀ r, (s.berth b).latest = some r → r.ready = false)
                ∧ (t.chan b).step = loadedChannel true .s (s.static b).engageLimit false)
            ∨ (t.berth b = { ((s.berth b).entered .energizing).answeredPending q.toggle .connect none with
                    baseGrant := (s.static b).baseCredits }
                ∧ t.noClaim b ∧ (∃ r, (s.berth b).latest = some r ∧ r.ready = true)
                ∧ (t.chan b).step = loadedChannel false .f (s.static b).breakerConfirm false
                ∧ (s.budget.claims = [] →
                  t.owq = placeWrite (placeWrite (placeWrite s.owq
                    (s.rspEntry b (((s.berth b).entered .engaging).answeredPending q.toggle .connect none)))
                    (s.seqEntry b .shoreBkr cmdClose)) (s.rspEntry b (t.berth b)))))
          ∧ (s.budget.claims = [] →
            (t.noClaim b ↔ ((s.static b).baseCredits : Int) ≤ (s.budget.capacity : Int) - s.granted)))

/-- TRANSFER in ENERGIZED in AUTO, by the transfer kind, is answered PENDING; under MAINT it is answered MAINT (R34). -/
def Obligations.TransferStartsByKind : Prop :=
  ∀ (s : State) (b : BerthId) (q : ReqBits), s.serves b → q.toggle ≠ (s.berth b).lastTaken →
    (s.berth b).state = .energized → (s.berth b).mode = .auto → (s.berth b).request = none →
    (s.timer.maint = false → (s.static b).transferKind = .closedTransition →
        exec (.reqTransfer b q) s =
          .next { s.passedWrite (s.tables.reqAddress b) (reqWord 2 q) with
            berths := s.berths.set b
              (({ (s.berth b).entered .syncing with syncCount := 0 } : Berth).answeredPending q.toggle .transfer none)
            chans := s.chans.set b { s.chan b with step := loadedChannel true .s (s.static b).syncLimit false }
            owq := placeWrite s.owq
              (s.rspEntry b (({ (s.berth b).entered .syncing with syncCount := 0 } : Berth).answeredPending q.toggle .transfer none))
            log := s.log.stage (s.stateRecord b .energized .auto .syncing .auto) })
      ∧ (s.timer.maint = false → (s.static b).transferKind = .openTransition →
        exec (.reqTransfer b q) s =
          .next { s.passedWrite (s.tables.reqAddress b) (reqWord 2 q) with
            berths := s.berths.set b (((s.berth b).entered .deadbus).answeredPending q.toggle .transfer none)
            chans := s.chans.set b { s.chan b with step := loadedChannel true .s (s.static b).deadBusLimit false }
            owq := placeWrite (placeWrite s.owq (s.seqEntry b .genRelease genRelease))
              (s.rspEntry b (((s.berth b).entered .deadbus).answeredPending q.toggle .transfer none))
            log := s.log.stage (s.stateRecord b .energized .auto .deadbus .auto) })
      ∧ (s.timer.maint = true →
        exec (.reqTransfer b q) s = .next (s.answeredOnly b q.toggle .maint (reqWord 2 q)))

/-- RETURN in SHORE in AUTO (R39, R40): the level goes to 0, then the return begins by the transfer kind, answered PENDING. The
commands queued are given where no other berth's claim waits, whose grant could queue more. That CHARGE_LIMIT is written also at a
departure from level 0 (log 14) and that the event's one RSP write stands after the commands (log 15) are the model's readings. -/
def Obligations.ReturnStartsByKind : Prop :=
  ∀ (s : State) (b : BerthId) (q : ReqBits), s.serves b → q.toggle ≠ (s.berth b).lastTaken → s.timer.maint = false →
    (s.berth b).state = .shore → (s.berth b).mode = .auto → (s.berth b).request = none → s.noClaim b →
    ((s.static b).transferKind = .closedTransition →
        ∃ t, exec (.reqReturn b q) s = .next t
          ∧ t.berth b =
            ({ (s.berth b).entered .resyncing with level := 0, residency := 0, idle := 0 } : Berth).answeredPending
              q.toggle .return none
          ∧ t.chan b = { s.chan b with step := loadedChannel true .s (s.static b).syncLimit false }
          ∧ b ∉ t.budget.stack ∧ s.sameMemory t
          ∧ t.ports = { s.ports with host := some (.write (s.tables.reqAddress b) (reqWord 3 q)) }
          ∧ (s.budget.claims = [] →
            t.owq = placeWrite (placeWrite (placeWrite s.owq (s.seqEntry b .chargeLimit (s.levelEntry 0).limit))
              (s.seqEntry b .genRelease genHold)) (s.rspEntry b (t.berth b))))
      ∧ ((s.static b).transferKind = .openTransition →
        ∃ t, exec (.reqReturn b q) s = .next t
          ∧ t.berth b =
            ({ (s.berth b).entered .separating with level := 0, residency := 0, idle := 0 } : Berth).answeredPending
              q.toggle .return none
          ∧ t.chan b = { s.chan b with step := loadedChannel false .f (s.static b).breakerConfirm false }
          ∧ b ∉ t.budget.stack ∧ s.sameMemory t
          ∧ t.ports = { s.ports with host := some (.write (s.tables.reqAddress b) (reqWord 3 q)) }
          ∧ (s.budget.claims = [] →
            t.owq = placeWrite (placeWrite (placeWrite (placeWrite s.owq
              (s.seqEntry b .chargeLimit (s.levelEntry 0).limit)) (s.seqEntry b .shipconBkr cmdOpen))
              (s.seqEntry b .genRelease genHold)) (s.rspEntry b (t.berth b))))

/-- DISCONNECT in ENERGIZED in AUTO, MAINT or not, moves the berth to DISENGAGING: PERMn off, breaker confirm loaded,
SHORE_BKR=OPEN queued, PENDING. In every other state it is answered REFUSED, or BUSY with a request in progress (R44); BUSY in
ADOPTING (R107). -/
def Obligations.DisconnectStartsOrIsRefused : Prop :=
  ∀ (s : State) (b : BerthId) (q : ReqBits), s.serves b → q.toggle ≠ (s.berth b).lastTaken →
    ((s.berth b).state = .energized → (s.berth b).mode = .auto → (s.berth b).request = none →
        exec (.reqDisconnect b q) s =
          .next { s.passedWrite (s.tables.reqAddress b) (reqWord 4 q) with
            berths := s.berths.set b (((s.berth b).entered .disengaging).answeredPending q.toggle .disconnect none)
            chans := s.chans.set b
              { step := loadedChannel false .f (s.static b).breakerConfirm s.timer.maint, settle := Channel.idle }
            owq := placeWrite (placeWrite s.owq (s.seqEntry b .shoreBkr cmdOpen))
              (s.rspEntry b (((s.berth b).entered .disengaging).answeredPending q.toggle .disconnect none))
            log := s.log.stage (s.stateRecord b .energized .auto .disengaging .auto) })
      ∧ (∀ t, exec (.reqDisconnect b q) s = .next t → (t.berth b).state = .disengaging → t.perm b = false)
      ∧ ((s.berth b).state ≠ .adopting → (s.berth b).request = none →
        ((s.berth b).state ≠ .energized ∨ (s.berth b).mode = .manual) →
        exec (.reqDisconnect b q) s = .next (s.answeredOnly b q.toggle .refused (reqWord 4 q)))
      ∧ (((s.berth b).state = .adopting ∨ (s.berth b).request ≠ none) →
        exec (.reqDisconnect b q) s = .next (s.answeredOnly b q.toggle .busy (reqWord 4 q)))

/-- SET_LEVEL in SHORE, by the first row of R95 that applies. With no claim waiting, the LEVEL claim it places is granted in the same
event if and only if shedding is off and it fits C − R − G (R87, R89, R96); granted, CHARGE_LIMIT is queued between the PENDING answer
and its end DONE; not granted, it waits with the answer PENDING. -/
def Obligations.SetLevelByRow : Prop :=
  ∀ (s : State) (b : BerthId) (q : ReqBits), s.serves b → q.toggle ≠ (s.berth b).lastTaken → s.timer.maint = false →
    (s.berth b).state = .shore → (s.berth b).request = none →
    ((7 < q.operand.toNat ∨ (s.levelEntry q.operand.toNat).valid = false) →
        exec (.reqSetLevel b q) s = .next (s.answeredOnly b q.toggle .invalid (reqWord 5 q)))
      ∧ (q.operand.toNat ≤ 7 → (s.levelEntry q.operand.toNat).valid = true →
        (q.operand.toNat = (s.berth b).level →
            exec (.reqSetLevel b q) s = .next (s.answeredOnly b q.toggle .done (reqWord 5 q)))
          ∧ (q.operand.toNat < (s.berth b).level → s.noClaim b →
            ∃ t, exec (.reqSetLevel b q) s = .next t
              ∧ t.berth b =
                ({ s.berth b with level := q.operand.toNat, residency := 0, idle := 0 } : Berth).answeredFinal q.toggle .done
              ∧ s.sameMemory t ∧ t.chan b = s.chan b
              ∧ (s.budget.claims = [] →
                t.owq = placeWrite (placeWrite s.owq (s.seqEntry b .chargeLimit (s.levelEntry q.operand.toNat).limit))
                    (s.rspEntry b (t.berth b))
                  ∧ (q.operand.toNat = 0 → b ∉ t.budget.stack)
                  ∧ (q.operand.toNat ≠ 0 → t.budget.stack = s.budget.stack)))
          ∧ ((s.berth b).level < q.operand.toNat →
            ((s.berth b).residency < (s.levelEntry (s.berth b).level).upResidency →
                exec (.reqSetLevel b q) s = .next (s.answeredOnly b q.toggle .toosoon (reqWord 5 q)))
              ∧ ((s.levelEntry (s.berth b).level).upResidency ≤ (s.berth b).residency →
                (s.tables.ccfg - s.tables.reserve
                    < s.levelCredits q.operand.toNat - s.levelCredits (s.berth b).level →
                    exec (.reqSetLevel b q) s = .next (s.answeredOnly b q.toggle .nobudget (reqWord 5 q)))
                  ∧ (s.levelCredits q.operand.toNat - s.levelCredits (s.berth b).level
                      ≤ s.tables.ccfg - s.tables.reserve → s.noClaim b →
                    ∃ t, exec (.reqSetLevel b q) s = .next t ∧ s.sameMemory t ∧ t.chan b = s.chan b
                      ∧ ((t.berth b = (s.berth b).answeredPending q.toggle .setLevel (some q.operand)
                            ∧ { berth := b, kind := ClaimKind.level q.operand.toNat,
                                credits := s.levelCredits q.operand.toNat - s.levelCredits (s.berth b).level }
                              ∈ t.budget.claims)
                        ∨ (t.berth b =
                              ({ s.berth b with level := q.operand.toNat, residency := 0, idle := 0 } : Berth).answeredFinal
                                q.toggle .done
                            ∧ s.budget.shedding = false ∧ t.noClaim b ∧ t.budget.stack.head? = some b))
                      ∧ (s.budget.claims = [] →
                        (t.noClaim b ↔
                          s.budget.shedding = false
                            ∧ ((s.levelCredits q.operand.toNat - s.levelCredits (s.berth b).level : Nat) : Int)
                              ≤ (s.budget.capacity : Int) - s.tables.reserve - s.granted)
                          ∧ (¬ t.noClaim b → t.owq = placeWrite s.owq (s.rspEntry b (t.berth b)))
                          ∧ (t.noClaim b →
                            t.owq = placeAll s.owq
                              [s.rspEntry b ((s.berth b).answeredPending q.toggle .setLevel (some q.operand)),
                                s.seqEntry b .chargeLimit (s.levelEntry q.operand.toNat).limit,
                                s.rspEntry b (t.berth b)]))))))

/-- SET_MODE in a state that takes it (R9, R111): an unknown operand is INVALID, the berth's own mode DONE, both without effect;
another mode changes the mode field alone, and on a change to AUTO the berth's held writes are cancelled and in SHORE
GEN_RELEASE=RELEASE is queued. -/
def Obligations.SetModeChangesModeAlone : Prop :=
  ∀ (s : State) (b : BerthId) (q : ReqBits), s.serves b → q.toggle ≠ (s.berth b).lastTaken → s.timer.maint = false →
    (s.berth b).request = none →
    ((s.berth b).state = .vacant ∨ (s.berth b).state = .cabled ∨ (s.berth b).state = .energized
      ∨ (s.berth b).state = .shore ∨ (s.berth b).state = .lockout) →
    (1 < q.operand.toNat → exec (.reqSetMode b q) s = .next (s.answeredOnly b q.toggle .invalid (reqWord 6 q)))
      ∧ ((q.operand = 0 ∧ (s.berth b).mode = .auto ∨ q.operand = 1 ∧ (s.berth b).mode = .manual) →
        exec (.reqSetMode b q) s = .next (s.answeredOnly b q.toggle .done (reqWord 6 q)))
      ∧ (q.operand = 1 → (s.berth b).mode = .auto →
        exec (.reqSetMode b q) s =
          .next { s.passedWrite (s.tables.reqAddress b) (reqWord 6 q) with
            berths := s.berths.set b (({ s.berth b with mode := .manual } : Berth).answeredFinal q.toggle .done)
            owq := placeWrite s.owq
              (s.rspEntry b (({ s.berth b with mode := .manual } : Berth).answeredFinal q.toggle .done))
            log := s.log.stage (s.stateRecord b (s.berth b).state .auto (s.berth b).state .manual) })
      ∧ (q.operand = 0 → (s.berth b).mode = .manual →
        ∃ t, exec (.reqSetMode b q) s = .next t
          ∧ t.berth b = ({ s.berth b with mode := .auto } : Berth).answeredFinal q.toggle .done
          ∧ (∀ h ∈ t.holds, h.berth ≠ b) ∧ t.chans = s.chans ∧ t.sups = s.sups ∧ s.sameMemory t
          ∧ (∀ c, c ≠ b → t.berth c = s.berth c)
          ∧ ((s.berth b).state = .shore →
            t.owq = placeWrite (placeWrite s.owq (s.seqEntry b .genRelease genRelease)) (s.rspEntry b (t.berth b)))
          ∧ ((s.berth b).state ≠ .shore → t.owq = placeWrite s.owq (s.rspEntry b (t.berth b)))
          ∧ (s.holdsOf b = [] →
            t.log = s.log.stage (s.stateRecord b (s.berth b).state .manual (s.berth b).state .auto))
          ∧ (∀ h, s.holdsOf b = [h] →
            t.log = (s.log.stage (s.holdRecord .holdCancelled h)).stage
              (s.stateRecord b (s.berth b).state .manual (s.berth b).state .auto)))

/-- RELEASE in LOCKOUT, MAINT or not, sets the release flag and is answered DONE; with the quiet count met the berth recovers in
the same event, by its pilot, before the answer is composed (R80, R81, R112). -/
def Obligations.ReleaseSetsFlagOrRecovers : Prop :=
  ∀ (s : State) (b : BerthId) (q : ReqBits), s.serves b → q.toggle ≠ (s.berth b).lastTaken →
    (s.berth b).state = .lockout → (s.berth b).request = none →
    ((s.sup b).quiet < (s.static b).quietRequired →
        exec (.reqRelease b q) s =
          .next { s.answeredOnly b q.toggle .done (reqWord 7 q) with
            sups := s.sups.set b { s.sup b with release := true } })
      ∧ ((s.static b).quietRequired ≤ (s.sup b).quiet →
        ∃ t st, exec (.reqRelease b q) s = .next t
          ∧ (st = .cabled ∧ (∃ r, (s.berth b).latest = some r ∧ r.pilot = true)
            ∨ st = .vacant ∧ ¬ ∃ r, (s.berth b).latest = some r ∧ r.pilot = true)
          ∧ t.berth b = ((s.berth b).entered st).answeredFinal q.toggle .done
          ∧ t.sup b = { uvCount := 0, ovCount := 0, sticky := FaultSet.empty, quiet := 0, release := false }
          ∧ t.trip b = false ∧ t.perm b = false
          ∧ t.owq = placeWrite s.owq (s.rspEntry b (t.berth b))
          ∧ t.log = s.log.stage
            { type := .recovered, berth := some b, qualifier := 0, detailA := BitVec.ofNat 16 st.code, detailB := 0,
              stamp := s.scan.passNumber }
          ∧ (∀ c, c ≠ b → t.berth c = s.berth c ∧ t.sup c = s.sup c) ∧ t.chans = s.chans ∧ s.sameMemory t)

/-- ABORT in AUTO, by the state and marks found (R46, R47). Where it is answered DONE, the request in progress has ended. From
RESYNCING the berth goes back to SHORE at level 0 with CHARGE_LIMIT of entry 0 (R39), GEN_RELEASE=RELEASE and RSP queued,
given where no other berth's claim waits. The REQUEST_FINAL record of the request in progress shows operand 0 where no operand
is kept, the model's reading (log 19). -/
def Obligations.AbortInAutoByState : Prop :=
  ∀ (s : State) (b : BerthId) (q : ReqBits), s.serves b → q.toggle ≠ (s.berth b).lastTaken → (s.berth b).mode = .auto →
    (((s.berth b).state = .vacant ∨ (s.berth b).state = .cabled ∨ (s.berth b).state = .unparallel
        ∨ (s.berth b).state = .separating ∨ (s.berth b).state = .disengaging ∨ (s.berth b).state = .lockout
        ∨ ((s.berth b).state = .syncing ∨ (s.berth b).state = .deadbus) ∧ (s.berth b).closeIssued = true
        ∨ (s.berth b).state = .shore ∧ s.noClaim b) →
        exec (.reqAbort b q) s = .next (s.answeredOnly b q.toggle .refused (reqWord 8 q)))
      ∧ ((s.berth b).state = .engaging →
        ∃ t, exec (.reqAbort b q) s = .next t
          ∧ t.berth b =
            { ((s.berth b).entered .cabled).answeredFinal q.toggle .done with request := none, baseGrant := 0 }
          ∧ (t.chan b).step = Channel.idle ∧ t.noClaim b ∧ s.sameMemory t)
      ∧ (((s.berth b).state = .energizing ∨ (s.berth b).state = .energized) →
        ∃ t, exec (.reqAbort b q) s = .next t
          ∧ t.berth b = { ((s.berth b).entered .disengaging).answeredFinal q.toggle .done with request := none }
          ∧ t.chan b =
            { step := loadedChannel false .f (s.static b).breakerConfirm s.timer.maint, settle := Channel.idle }
          ∧ t.perm b = false ∧ s.sameMemory t
          ∧ t.owq = placeWrite (placeWrite s.owq (s.seqEntry b .shoreBkr cmdOpen)) (s.rspEntry b (t.berth b)))
      ∧ (((s.berth b).state = .syncing ∨ (s.berth b).state = .deadbus) → (s.berth b).closeIssued = false →
        ∃ t, exec (.reqAbort b q) s = .next t
          ∧ t.berth b = { ((s.berth b).entered .energized).answeredFinal q.toggle .done with request := none }
          ∧ (t.chan b).step = Channel.idle ∧ s.sameMemory t
          ∧ ((s.berth b).state = .deadbus →
            t.owq = placeWrite (placeWrite s.owq (s.seqEntry b .genRelease genHold)) (s.rspEntry b (t.berth b)))
          ∧ ∀ rq, (s.berth b).request = some rq →
            t.log = (s.log.stage (s.finalRecord b rq .aborted)).stage
              (s.stateRecord b (s.berth b).state .auto .energized .auto))
      ∧ ((s.berth b).state = .parallel →
        ∃ t, exec (.reqAbort b q) s = .next t
          ∧ t.berth b = { ((s.berth b).entered .separating).answeredFinal q.toggle .done with request := none }
          ∧ (t.chan b).step = loadedChannel false .f (s.static b).breakerConfirm s.timer.maint ∧ s.sameMemory t
          ∧ t.owq = placeWrite (placeWrite (placeWrite s.owq (s.seqEntry b .shipconBkr cmdOpen))
            (s.seqEntry b .genRelease genHold)) (s.rspEntry b (t.berth b)))
      ∧ ((s.berth b).state = .resyncing → s.noClaim b →
        ∃ t, exec (.reqAbort b q) s = .next t
          ∧ t.berth b =
            { ((s.berth b).entered .shore).answeredFinal q.toggle .done with
              request := none, level := 0, residency := 0, idle := 0 }
          ∧ (t.chan b).step = Channel.idle ∧ s.sameMemory t
          ∧ (s.budget.claims = [] →
            t.owq = placeAll s.owq
              (s.seqEntries b [s.chargeZero, (.genRelease, genRelease)] ++ [s.rspEntry b (t.berth b)])))
      ∧ (∀ n k, (s.berth b).state = .shore →
        { berth := b, kind := ClaimKind.level n, credits := k } ∈ s.budget.claims →
        (∀ c ∈ s.budget.claims, c.berth = b → c = { berth := b, kind := ClaimKind.level n, credits := k }) →
        ∃ t, exec (.reqAbort b q) s = .next t
          ∧ t.berth b = { (s.berth b).answeredFinal q.toggle .done with request := none }
          ∧ t.noClaim b ∧ t.chan b = s.chan b ∧ s.sameMemory t)

/-- ABORT in MANUAL (R128): the berth's held writes are cancelled, a manual claim or a LEVEL claim is withdrawn, the SET_LEVEL of a
LEVEL claim ends ABORTED in the log with the level unchanged, DONE if anything changed, else REFUSED. It opens nothing: RSP is the
only word queued (given where no other berth's claim waits, whose grant could queue more). The REQUEST_FINAL record of a request in
progress shows operand 0 where no operand is kept, the model's reading (log 19). -/
def Obligations.AbortInManualCancelsHolds : Prop :=
  ∀ (s : State) (b : BerthId) (q : ReqBits), s.serves b → q.toggle ≠ (s.berth b).lastTaken → (s.berth b).mode = .manual →
    (s.berth b).state ≠ .adopting →
    ((s.berth b).state ≠ .engaging → s.holdsOf b = [] → ((s.berth b).state = .shore → s.noClaim b) →
        exec (.reqAbort b q) s = .next (s.answeredOnly b q.toggle .refused (reqWord 8 q)))
      ∧ ((s.berth b).state = .engaging →
        ∃ t, exec (.reqAbort b q) s = .next t
          ∧ t.berth b = { ((s.berth b).entered .cabled).answeredFinal q.toggle .done with baseGrant := 0 }
          ∧ (∀ h ∈ t.holds, h.berth ≠ b) ∧ t.noClaim b ∧ t.chan b = s.chan b ∧ s.sameMemory t
          ∧ (∀ h, s.holdsOf b = [h] →
            ∃ more, t.log.staging = (s.log.stage (s.holdRecord .holdCancelled h)).staging ++ more)
          ∧ ((∀ c ∈ s.budget.claims, c.berth = b) → t.owq = placeWrite s.owq (s.rspEntry b (t.berth b))))
      ∧ ((s.berth b).state ≠ .engaging → ((s.berth b).state = .shore → s.noClaim b) → s.holdsOf b ≠ [] →
        ∃ t, exec (.reqAbort b q) s = .next t ∧ t.berth b = (s.berth b).answeredFinal q.toggle .done
          ∧ (∀ h ∈ t.holds, h.berth ≠ b) ∧ t.chans = s.chans ∧ s.sameMemory t
          ∧ t.owq = placeWrite s.owq (s.rspEntry b (t.berth b)))
      ∧ (∀ n k, (s.berth b).state = .shore →
        { berth := b, kind := ClaimKind.level n, credits := k } ∈ s.budget.claims →
        (∀ c ∈ s.budget.claims, c.berth = b → c = { berth := b, kind := ClaimKind.level n, credits := k }) →
        ∃ t, exec (.reqAbort b q) s = .next t
          ∧ t.berth b = { (s.berth b).answeredFinal q.toggle .done with request := none }
          ∧ t.noClaim b ∧ (∀ h ∈ t.holds, h.berth ≠ b) ∧ t.chan b = s.chan b ∧ s.sameMemory t
          ∧ (∀ rq, (s.berth b).request = some rq → s.holdsOf b = [] →
            ∃ more, t.log.staging = (s.log.stage (s.finalRecord b rq .aborted)).staging ++ more)
          ∧ ((∀ c ∈ s.budget.claims, c.berth = b) → t.owq = placeWrite s.owq (s.rspEntry b (t.berth b))))

/-! ## Group requests -/

/-- A new GROUP_REQ with any code but the six is answered INVALID, and no member is offered anything; one with the entry's last-taken
toggle is passed and taken for nothing (R114). -/
def Obligations.GroupInvalidTouchesNoMember : Prop :=
  ∀ (s : State) (g : GroupId) (code : BitVec 4) (q : ReqBits), s.takesHostWrite → s.groupInUse g = true →
    (q.toggle ≠ s.groupTaken.get g → isGroupCode code = false →
        exec (.groupInvalid g code q) s =
          .next { s.passedWrite (s.tables.groupReqAddress g) (reqWord code q) with
            groupTaken := s.groupTaken.set g q.toggle
            owq := placeWrite s.owq
              { address := s.tables.groupRspAddress g, data := groupRspWord q.toggle .invalid 0 0 0, cls := .report,
                berth := none } })
      ∧ (q.toggle = s.groupTaken.get g →
        exec (.groupInvalid g code q) s = .next (s.passedWrite (s.tables.groupReqAddress g) (reqWord code q)))

/-- A new GROUP_REQ with one of the six codes (R114 to R116): the members take their turns in ascending order, each that is not
blocked taking the code and operand as a request of its own with its toggle complemented, and the answer is DONE with the counts of
taken, refused and blocked members, whose sum is the number of members; where every member is blocked, nothing but the answer happens.
One with the entry's last-taken toggle is passed and taken for nothing (R114). A good image's groups name configured berths
(`TablesInUseStaySound`). -/
def Obligations.GroupRequestCountsEveryMember : Prop :=
  ∀ (s : State) (g : GroupId) (q : ReqBits) (p : ReqCode × Instr), s.takesHostWrite → s.groupInUse g = true →
    p ∈ groupCommands g q →
    (q.toggle = s.groupTaken.get g →
        exec p.2 s = .next (s.passedWrite (s.tables.groupReqAddress g) (reqWord p.1.code q)))
      ∧ (q.toggle ≠ s.groupTaken.get g →
        (∀ b : BerthId, (s.tables.groups.get g).members.getLsbD b.toNat = true → s.configured b = true) →
        ∀ x : State × GroupCount,
          x = ({ s.passedWrite (s.tables.groupReqAddress g) (reqWord p.1.code q) with
              groupTaken := s.groupTaken.set g q.toggle } : State).membersTurns g p.1 q.operand →
          exec p.2 s =
              .next (x.1.groupAnswered g (groupRspWord q.toggle .done x.2.taken x.2.refused x.2.blocked))
            ∧ x.2.taken + x.2.refused + x.2.blocked = (s.tables.groups.get g).size
            ∧ s.sameMemory x.1)
      ∧ (q.toggle ≠ s.groupTaken.get g →
        (∀ b : BerthId, (s.tables.groups.get g).members.getLsbD b.toNat = true →
          (s.tables.groups.get g).blocked.getLsbD b.toNat = true ∨ (s.berth b).state = .lockout) →
        exec p.2 s =
          .next { s.passedWrite (s.tables.groupReqAddress g) (reqWord p.1.code q) with
            groupTaken := s.groupTaken.set g q.toggle
            owq := placeWrite s.owq
              { address := s.tables.groupRspAddress g,
                data := groupRspWord q.toggle .done 0 0 (s.tables.groups.get g).size, cls := .report, berth := none } })

/-! ## Host writes to COMMAND words and the rest -/

/-- Every host write to a COMMAND word of a berth in AUTO is refused OWNED: a SINK record and nothing else (R8, R136, R137). In
MANUAL, GEN_RELEASE is passed whatever its value; a breaker value that is not NONE, OPEN or CLOSE, and a CLOSE with no entry in a
state that does not allow it, are refused GUARD (R118, R137, R169). -/
def Obligations.CommandWritesByModeAndValue : Prop :=
  ∀ (s : State) (b : BerthId) (w : BreakerWord) (v : Word), s.serves b →
    ((s.berth b).mode = .auto →
        exec (closeCommand w b) s = .next (s.refusedWrite .owned (some b) (s.tables.cmdAddress b w.cmd) cmdClose)
          ∧ exec (.bkrWriteOpen b w) s = .next (s.refusedWrite .owned (some b) (s.tables.cmdAddress b w.cmd) cmdOpen)
          ∧ exec (.bkrWriteNone b w) s = .next (s.refusedWrite .owned (some b) (s.tables.cmdAddress b w.cmd) cmdNone)
          ∧ exec (.bkrWriteInvalidValue b w v) s = .next (s.refusedWrite .owned (some b) (s.tables.cmdAddress b w.cmd) v)
          ∧ exec (.genReleaseWrite b v) s = .next (s.refusedWrite .owned (some b) (s.tables.cmdAddress b .genRelease) v))
      ∧ ((s.berth b).mode = .manual →
        exec (.genReleaseWrite b v) s = .next (s.passedWrite (s.tables.cmdAddress b .genRelease) v)
          ∧ (2 < v.toNat →
            exec (.bkrWriteInvalidValue b w v) s = .next (s.refusedWrite .guard (some b) (s.tables.cmdAddress b w.cmd) v))
          ∧ (s.holdAt (s.tables.cmdAddress b .shoreBkr) = none → (s.berth b).state ≠ .cabled →
            exec (.shoreBkrClose b) s =
              .next (s.refusedWrite .guard (some b) (s.tables.cmdAddress b .shoreBkr) cmdClose))
          ∧ (s.holdAt (s.tables.cmdAddress b .shipconBkr) = none → (s.berth b).state ≠ .energized →
            exec (.shipconBkrClose b) s =
              .next (s.refusedWrite .guard (some b) (s.tables.cmdAddress b .shipconBkr) cmdClose)))

/-- SHORE_BKR=CLOSE in CABLED in MANUAL with no entry at the address is a manual engage (R119, R120): refused GUARD above Ccfg;
otherwise held with its claim placed, or released at once where the claim is granted, which queues the held CLOSE as a SEQ write. With
no other claim waiting, whose grant could queue more, the queue is given, and the claim is granted if and only if it fits C − G (R87,
R89). -/
def Obligations.ManualEngageHoldsOrGrants : Prop :=
  ∀ (s : State) (b : BerthId), s.serves b → (s.berth b).mode = .manual → (s.berth b).state = .cabled →
    s.holdAt (s.tables.cmdAddress b .shoreBkr) = none →
    (s.tables.ccfg < (s.static b).baseCredits →
        exec (.shoreBkrClose b) s = .next (s.refusedWrite .guard (some b) (s.tables.cmdAddress b .shoreBkr) cmdClose))
      ∧ ((s.static b).baseCredits ≤ s.tables.ccfg → s.noClaim b → (∀ h ∈ s.holds, h.berth ≠ b) →
        ∃ t, exec (.shoreBkrClose b) s = .next t ∧ t.ports = s.ports ∧ s.sameMemory t
          ∧ ((t.berth b = (s.berth b).entered .engaging ∧ t.chan b = s.chan b
                ∧ { berth := b, kind := ClaimKind.engage, credits := (s.static b).baseCredits } ∈ t.budget.claims
                ∧ { address := s.tables.cmdAddress b .shoreBkr, berth := b, word := .shoreBkr, data := cmdClose,
                    reason := .budget, count := (s.static b).holdLimit } ∈ t.holds)
            ∨ (t.berth b = { (s.berth b).entered .energizing with baseGrant := (s.static b).baseCredits }
                ∧ (t.chan b).step = loadedChannel false .f (s.static b).breakerConfirm s.timer.maint
                ∧ t.noClaim b ∧ (∀ h ∈ t.holds, h.berth ≠ b)
                ∧ (s.budget.claims = [] →
                  t.owq = placeWrite (placeWrite (placeWrite s.owq (s.rspEntry b ((s.berth b).entered .engaging)))
                    (s.seqEntry b .shoreBkr cmdClose)) (s.rspEntry b (t.berth b)))))
          ∧ (s.budget.claims = [] →
            (t.noClaim b ↔ ((s.static b).baseCredits : Int) ≤ (s.budget.capacity : Int) - s.granted)
              ∧ (¬ t.noClaim b → t.owq = placeWrite s.owq (s.rspEntry b (t.berth b)))))

/-- SHIPCON_BKR=CLOSE in ENERGIZED in MANUAL with no entry at the address (R122): passed onto a dead ship bus, otherwise held with
reason SYNC and the sync persistence counter at 0. -/
def Obligations.ManualShipconPassedOrHeld : Prop :=
  ∀ (s : State) (b : BerthId) (r : ScanResult), s.serves b → (s.berth b).mode = .manual →
    (s.berth b).state = .energized → s.holdAt (s.tables.cmdAddress b .shipconBkr) = none → (s.berth b).latest = some r →
    (r.vShip ≤ s.threshold (s.static b).deadBusIndex →
        exec (.shipconBkrClose b) s = .next (s.passedWrite (s.tables.cmdAddress b .shipconBkr) cmdClose))
      ∧ (s.threshold (s.static b).deadBusIndex < r.vShip →
        exec (.shipconBkrClose b) s =
          .next { s.clearMarks with
            holds := s.holds ++
              [{ address := s.tables.cmdAddress b .shipconBkr, berth := b, word := .shipconBkr, data := cmdClose,
                 reason := .sync, count := (s.static b).holdLimit }]
            berths := s.berths.set b { s.berth b with syncCount := 0 } })

/-- A CLOSE written to an address at which an entry stands replaces the entry's data and nothing else (R124). -/
def Obligations.ClosingWriteSupersedes : Prop :=
  ∀ (s : State) (b : BerthId) (w : BreakerWord) (h : Hold), s.serves b → (s.berth b).mode = .manual →
    s.holdAt (s.tables.cmdAddress b w.cmd) = some h →
    exec (closeCommand w b) s =
      .next { s.clearMarks with
        holds := s.holds.map fun x =>
          if x.address = s.tables.cmdAddress b w.cmd then { x with data := cmdClose } else x }

/-- OPEN or NONE written to a breaker word in MANUAL (R118, R125): passed; an entry at the address leaves the Hold Queue first, with a
HOLD_CANCELLED record, and a BUDGET entry also withdraws the claim and moves the berth to CABLED. -/
def Obligations.OpeningWriteCancelsAndPasses : Prop :=
  ∀ (s : State) (b : BerthId) (w : BreakerWord) (c : Instr) (d : Word), s.serves b → (s.berth b).mode = .manual →
    (c = .bkrWriteOpen b w ∧ d = cmdOpen ∨ c = .bkrWriteNone b w ∧ d = cmdNone) →
    (s.holdAt (s.tables.cmdAddress b w.cmd) = none →
        exec c s = .next (s.passedWrite (s.tables.cmdAddress b w.cmd) d))
      ∧ (∀ h, s.holdAt (s.tables.cmdAddress b w.cmd) = some h → h.reason = .sync →
        exec c s =
          .next { s.passedWrite (s.tables.cmdAddress b w.cmd) d with
            holds := s.holds.filter fun x => decide (x.address ≠ h.address)
            log := s.log.stage (s.holdRecord .holdCancelled h) })
      ∧ (∀ h, s.holdAt (s.tables.cmdAddress b w.cmd) = some h → h.reason = .budget →
        ∃ t, exec c s = .next t ∧ t.berth b = { (s.berth b).entered .cabled with baseGrant := 0 } ∧ t.noClaim b
          ∧ (∀ x ∈ t.holds, x.address ≠ h.address)
          ∧ (∃ more, t.log.staging = (s.log.stage (s.holdRecord .holdCancelled h)).staging ++ more)
          ∧ t.ports = { s.ports with host := some (.write (s.tables.cmdAddress b w.cmd) d) }
          ∧ s.sameMemory t ∧ t.chan b = s.chan b)

/-- CONSUMER is judged at arrival (R157): a value in the accepted range becomes the consumer index and the write is passed, the room
it frees counting at once; the index itself changes nothing; any other value is refused RANGE. -/
def Obligations.ConsumerIsJudged : Prop :=
  ∀ (s : State) (v : Word), s.takesHostWrite →
    (v.toNat < s.log.capacity →
        (v.toNat + s.log.capacity - s.log.consumer) % s.log.capacity
          ≤ (s.log.producer + s.log.capacity - s.log.consumer) % s.log.capacity →
        (v.toNat = s.log.consumer →
            exec (.consumerWrite v) s = .next (s.passedWrite (s.tables.logAddress 2) v))
          ∧ (v.toNat ≠ s.log.consumer →
            exec (.consumerWrite v) s =
              .next { s.passedWrite (s.tables.logAddress 2) v with
                log := Log.roomFreed { s.log with consumer := v.toNat } s.scan.passNumber }))
      ∧ (¬ (v.toNat < s.log.capacity ∧
            (v.toNat + s.log.capacity - s.log.consumer) % s.log.capacity
              ≤ (s.log.producer + s.log.capacity - s.log.consumer) % s.log.capacity) →
        exec (.consumerWrite v) s = .next (s.refusedWrite .range none (s.tables.logAddress 2) v))

/-- Any other host write in RUNNING, by the word it names (R136, R137): passed to a PLAIN address; refused FIELD in a FIELD window;
refused OWNED for RSP, GROUP_RSP, CHARGE_LIMIT, the other LOG words and the start-up word. -/
def Obligations.OtherWritesByClass : Prop :=
  ∀ (s : State) (a d : Word), s.takesHostWrite →
    (a ≠ 0xFFFF → (∀ w ∈ s.tables.windowList, w.covers s.tables.logCapacity a.toNat = false) →
        exec (.hostWrite a d) s = .next (s.passedWrite a d))
      ∧ (a = 0xFFFF → exec (.hostWrite a d) s = .next (s.refusedWrite .owned none a d))
      ∧ (∀ b, s.tables.classify a = .field b → exec (.hostWrite a d) s = .next (s.refusedWrite .field b a d))
      ∧ (∀ b, s.tables.classify a = .rsp b → exec (.hostWrite a d) s = .next (s.refusedWrite .owned (some b) a d))
      ∧ (∀ b, s.tables.classify a = .command b .chargeLimit →
        exec (.hostWrite a d) s = .next (s.refusedWrite .owned (some b) a d))
      ∧ (∀ g, s.tables.classify a = .groupRsp g → exec (.hostWrite a d) s = .next (s.refusedWrite .owned none a d))
      ∧ (s.tables.classify a = .logOther → exec (.hostWrite a d) s = .next (s.refusedWrite .owned none a d))

/-- In LOADING and BLOCKED every host write is discarded: the first sets the writes-discarded mark and has the start-up word
rewritten, later ones change nothing; while RESET is held a write leaves no trace (R162, R164). -/
def Obligations.WritesOutsideRunningAreDiscarded : Prop :=
  ∀ (c : Instr) (s : State), c.isHostWrite = true → s.ports.host = none →
    ((s.phase = .loading ∨ s.phase = .blocked) → s.loader.discarded = false →
        exec c s = .next { s with loader := { s.loader with discarded := true, startupWaiting := true } })
      ∧ ((s.phase = .loading ∨ s.phase = .blocked) → s.loader.discarded = true → exec c s = .next s)
      ∧ (s.phase = .resetHeld → exec c s = .next s)

/-! ## The memory port -/

/-- The grant order and the host streak (R144, R145). A busy port grants nothing. The Log Unit's accesses stand in the order of R154
and R156: the first header words, PRODUCER, the words of the head record, and then the pending STATUS, GRANTED and CAPACITY, each with
its value at the grant. A host read is answered with the word that memory holds, but that at a FIELD word the plant I/O station may have
written it since (R133, R135, R146; log 2). The write of entry to LOADING is the Image Loader's first access (R162). That a host read
arrives by the operand and completes in its grant, as a start-up word write does (log 8), and that the operand says which of a later
start-up word write and a start-up read is presented first (log 9) are the model's choices. -/
def Obligations.GrantFollowsOrder : Prop :=
  ∀ (s : State) (station : Option Word) (first : Bool), Memory.wf s.pim = true →
    (∀ a,
      (s.ports.host = none →
          exec (.portGrant (some a) station first) s =
            exec (.portGrant none station first) { s with ports := { s.ports with host := some (.read a) } })
        ∧ (s.ports.host ≠ none → exec (.portGrant (some a) station first) s = exec (.portGrant none station first) s))
      ∧ (s.ports.busy ≠ none → exec (.portGrant none station first) s = .next s)
      ∧ (∀ w rest, s.ports.busy = none → s.owq = w :: rest → w.cls = .trip →
        exec (.portGrant none station first) s =
          .next { s with owq := rest, ports := { s.ports with busy := some (.ownWrite w), streak := 0 } })
      ∧ (s.ports.busy = none → (∀ w rest, s.owq = w :: rest → w.cls ≠ .trip) →
        (∀ a d, s.ports.host = some (.write a d) → s.ports.streak < 4 →
            exec (.portGrant none station first) s =
              .next { s with
                ports := { s.ports with
                  busy := some (.hostWrite a d)
                  streak := if s.ownWaits then s.ports.streak + 1 else 0 } })
          ∧ (∀ a, s.ports.host = some (.read a) → s.ports.streak < 4 →
            ∃ t, exec (.portGrant none station first) s = .next t
              ∧ s.readAnswered t a station (if s.ownWaits then s.ports.streak + 1 else 0))
          ∧ ((s.ports.host = none ∨ 4 ≤ s.ports.streak) →
            (s.loader.startupWaiting = true →
                (s.loader.reads = [] ∨ first = false ∨ s.loader.firstWaiting = true) →
                ∃ t, exec (.portGrant none station first) s = .next t
                  ∧ t.pimRead 0xFFFF = startupWord s.phase s.loader.error s.loader.reportedN s.loader.discarded
                  ∧ s.sameMemoryBut t 0xFFFF ∧ t.loader = { s.loader with startupWaiting := false, firstWaiting := false }
                  ∧ t.ports = { s.ports with streak := 0 } ∧ s.sameBerths t ∧ t.log = s.log)
              ∧ (∀ r rest, s.loader.reads = r :: rest → (s.loader.startupWaiting = false ∨ first = true ∧ s.loader.firstWaiting = false) →
                exec (.portGrant none station first) s =
                  .next { s with ports := { s.ports with busy := some (.startRead r), streak := 0 } })
              ∧ (s.loader.startupWaiting = false → s.loader.reads = [] →
                (∀ w rest, s.owq = w :: rest →
                    exec (.portGrant none station first) s =
                      .next { s with owq := rest, ports := { s.ports with busy := some (.ownWrite w), streak := 0 } })
                  ∧ (∀ p, s.owq = [] → s.scan.pass = some p →
                    exec (.portGrant none station first) s =
                      .next { s with
                        ports := { s.ports with
                          busy := some (.scanRead (s.tables.fieldAddress p.block
                            (if p.words.length + 1 = p.block.reads then 0 else p.words.length)))
                          streak := 0 } })
                  ∧ (s.owq = [] → s.scan.pass = none →
                    (∀ h rest, s.log.firstHeaders = h :: rest →
                        ∃ d, s.headerReads h d
                          ∧ exec (.portGrant none station first) s =
                            .next (s.logGranted (.firstHeader h) (headerPlace h) d s.log))
                      ∧ (s.log.firstHeaders = [] → s.log.producerWaiting = true →
                        ∃ d, s.headerReads .producer d
                          ∧ exec (.portGrant none station first) s =
                            .next (s.logGranted .producerWord 1 d { s.log with producerWaiting := false }))
                      ∧ (∀ r rest, s.log.firstHeaders = [] → s.log.producerWaiting = false → s.log.staging = r :: rest →
                        exec (.portGrant none station first) s =
                          .next (s.logGranted (.recordWord s.log.wordIndex)
                            (5 + 4 * s.log.producer + s.log.wordIndex) (r.word s.log.wordIndex) s.log))
                      ∧ (s.log.firstHeaders = [] → s.log.producerWaiting = false → s.log.staging = [] →
                        (s.log.statusPending = true →
                            ∃ d, s.headerReads .status d
                              ∧ exec (.portGrant none station first) s =
                                .next (s.logGranted (.headerWord .status) 0 d { s.log with statusPending := false }))
                          ∧ (s.log.statusPending = false → s.log.grantedPending = true →
                            ∃ d, s.headerReads .granted d
                              ∧ exec (.portGrant none station first) s =
                                .next (s.logGranted (.headerWord .granted) 3 d { s.log with grantedPending := false }))
                          ∧ (s.log.statusPending = false → s.log.grantedPending = false → s.log.capacityPending = true →
                            ∃ d, s.headerReads .capacity d
                              ∧ exec (.portGrant none station first) s =
                                .next (s.logGranted (.headerWord .capacity) 4 d { s.log with capacityPending := false })))
                      ∧ (s.log.quiet →
                        (∀ a d, s.ports.host = some (.write a d) →
                            exec (.portGrant none station first) s =
                              .next { s with ports := { s.ports with busy := some (.hostWrite a d), streak := 0 } })
                          ∧ (∀ a, s.ports.host = some (.read a) →
                            ∃ t, exec (.portGrant none station first) s = .next t ∧ s.readAnswered t a station 0)
                          ∧ (s.ports.host = none → exec (.portGrant none station first) s = .next s))))))

/-- An own write completes (R141): memory takes its word and no other, the port is free, and SHIPCON_BKR=OPEN carried for a berth in
SEPARATING sets its opening-issued mark. -/
def Obligations.OwnWriteCarriageStoresItsWord : Prop :=
  ∀ (s : State) (w : OwnWrite), Memory.wf s.pim = true → s.ports.busy = some (.ownWrite w) →
    ∃ t, exec .ownWriteCarried s = .next t ∧ t.pimRead w.address = w.data ∧ s.sameMemoryBut t w.address
      ∧ t.ports = { s.ports with busy := none } ∧ t.owq = s.owq ∧ t.log = s.log ∧ t.budget = s.budget
      ∧ t.chans = s.chans ∧ t.sups = s.sups ∧ t.holds = s.holds
      ∧ (∀ b, (t.berth b =
          if w.berth = some b ∧ w.address = s.tables.cmdAddress b .shipconBkr ∧ w.data = cmdOpen
              ∧ (s.berth b).state = .separating
          then { s.berth b with openingIssued := true } else s.berth b))

/-- A passed host write completes (R142, R6): memory takes its word and no other, the host access ends, and the SEQ and REPORT entries
at its address go; SHIPCON_BKR=OPEN of a berth in SEPARATING whose opening is not issued is queued again. -/
def Obligations.HostWriteCarriageRemovesQueuedWrites : Prop :=
  ∀ (s : State) (a d : Word), Memory.wf s.pim = true → s.ports.busy = some (.hostWrite a d) →
    ∃ t, exec .hostWriteCarried s = .next t ∧ t.pimRead a = d ∧ s.sameMemoryBut t a
      ∧ t.ports = { s.ports with busy := none, host := none } ∧ s.sameBerths t ∧ t.log = s.log
      ∧ ((∀ x ∈ s.owq, x.address = a → x.cls ≠ .trip → ∀ b, x.berth = some b →
            ¬ (a = s.tables.cmdAddress b .shipconBkr ∧ (s.berth b).state = .separating
              ∧ (s.berth b).openingIssued = false)) →
        t.owq = s.owq.filter fun x => decide (x.address ≠ a) || decide (x.cls = .trip))
      ∧ (∀ b, a = s.tables.cmdAddress b .shipconBkr → (s.berth b).state = .separating →
        (s.berth b).openingIssued = false → tripAt s.owq a = false →
        (∃ x ∈ s.owq, x.address = a ∧ x.berth = some b) →
        ∃ x ∈ t.owq, x.address = a ∧ x.data = cmdOpen ∧ x.cls = .seq)

/-- A Log Unit write completes (R154, R156, R158), in LOADING as in RUNNING: memory takes its word and no other; a first
header word is done with; after words 0 to 2 of a record the next word follows; after word 3 the record leaves the staging
list, the producer index advances, wrapping, and PRODUCER is to be written. The last first header word completes the start
when the start-up reads are done: the part enters RUNNING (R165 step 3). A completed OVERFLOW record with nothing dropped
since clears the overflow flag, and STATUS is to be written. A record that finds no room is dropped and counted, up to 65,535,
and sets the flag; freed room stages an OVERFLOW record with the drop count, which restarts at 0, where the flag is set and
none is staged (R158). That the completion of an OVERFLOW record frees room as any record's does is the model's reading (log
17). -/
def Obligations.LogWriteAdvancesTheRing : Prop :=
  ∀ (s : State) (k : LogWrite) (a d : Word), Memory.wf s.pim = true → s.ports.busy = some (.logWrite k a d) →
    ((s.phase ≠ .loading ∨ s.loader.words.length ≠ 258 ∨ s.loader.reads ≠ []
        ∨ (∃ h, k = .firstHeader h) ∧ s.log.firstHeaders.tail ≠ []
        ∨ (∀ h, k ≠ .firstHeader h) ∧ s.log.firstHeaders ≠ []) →
        ∃ t, exec .logWriteComplete s = .next t ∧ t.phase = s.phase ∧ t.pimRead a = d ∧ s.sameMemoryBut t a
          ∧ t.ports = { s.ports with busy := none } ∧ s.sameBerths t ∧ t.owq = s.owq ∧ t.loader = s.loader
          ∧ (∀ i, k = .recordWord i → i < 3 → t.log = { s.log with wordIndex := i + 1 })
          ∧ (k = .producerWord → t.log = s.log) ∧ (∀ h, k = .headerWord h → t.log = s.log)
          ∧ (∀ h, k = .firstHeader h → t.log = { s.log with firstHeaders := s.log.firstHeaders.tail })
          ∧ (∀ r rest, k = .recordWord 3 → s.log.staging = r :: rest →
            (r.type = .overflow → s.log.dropCount = 0 →
                t.log = { s.log.headStored with overflow := false, statusPending := true })
              ∧ (r.type ≠ .overflow ∨ s.log.dropCount ≠ 0 →
                t.log = s.log.headStored.roomFreed s.scan.passNumber)))
      ∧ (∀ h, s.phase = .loading → s.loader.words.length = 258 → s.loader.reads = [] → k = .firstHeader h →
        s.log.firstHeaders = [h] →
        ∃ t, exec .logWriteComplete s = .next t ∧ t.phase = .running ∧ t.ready = true ∧ t.pimRead a = d
          ∧ s.sameMemoryBut t a ∧ t.ports = { s.ports with busy := none } ∧ s.sameBerths t ∧ t.owq = s.owq
          ∧ t.timer = { divider := s.tables.ns, sDue := false, maint := s.maintPin, owed := Eight.fill Owed.none }
          ∧ t.scan.pass = some { block := .feeder, words := [] } ∧ t.scan.timer = s.tables.scanPeriod
          ∧ t.scan.passNumber = 0 ∧ t.scan.feederStale = false
          ∧ t.loader.startupWaiting = true ∧ t.loader.reportedN = s.tables.n
          ∧ t.log = { s.log with firstHeaders := [], statusPending := true })
      ∧ (∀ (l : Log) (r : Record),
        (l.roomFor → l.stage r = { l with staging := l.staging ++ [r] })
          ∧ (¬ l.roomFor →
            l.stage r =
              { l with
                dropCount := min 65535 (l.dropCount + 1), overflow := true
                statusPending := if l.overflow = true then l.statusPending else true }))
      ∧ (∀ (l : Log) (stamp : Word),
        (l.overflow = true → (∀ x ∈ l.staging, x.type ≠ .overflow) → l.roomFor →
            l.roomFreed stamp = { l with staging := l.staging ++ [overflowRecord l.dropCount stamp], dropCount := 0 })
          ∧ ((l.overflow = false ∨ (∃ x ∈ l.staging, x.type = .overflow) ∨ ¬ l.roomFor) → l.roomFreed stamp = l))

/-! ## Scan results -/

/-- A scan read keeps its word until the block's last; then a torn result is discarded, the first whole reading sets the
baseline, and an unchanged result only counts stale; nothing is delivered (R53 to R56, R58). The unchanged result that brings
the count to the stale limit trips the berth STALE, or is a repeat fault in LOCKOUT; later ones change nothing (R58, R71,
R77). The operand is what the plant I/O station wrote at the word before the read, if it wrote (log 2). A final's record shows
operand 0 where no operand is kept (log 19). -/
def Obligations.ScanReadIsKeptOrJudged : Prop :=
  ∀ (s : State) (b : BerthId) (station : Option Word) (ws : List Word) (last : Word), Memory.wf s.pim = true →
    (∀ a, s.ports.busy = some (.scanRead a) → s.scan.pass = some { block := .berth b, words := ws } → ws.length < 8 →
        ∃ t, exec (.scanReadComplete station) s = .next t
          ∧ t.scan = { s.scan with pass := some { block := .berth b, words := ws ++ [station.getD (s.pimRead a)] } }
          ∧ t.blocks = s.blocks ∧ s.sameBerths t ∧ t.log = s.log ∧ t.owq = s.owq
          ∧ t.ports = { s.ports with busy := none } ∧ t.pimRead a = station.getD (s.pimRead a) ∧ s.sameMemoryBut t a)
      ∧ (s.lastBerthRead b station ws last →
        (last ≠ ws.getD 0 0 →
            ∃ t, exec (.scanReadComplete station) s = .next t ∧ t.blocks = s.blocks ∧ t.berths = s.berths
              ∧ t.sups = s.sups ∧ t.log = s.log ∧ t.owq = s.owq)
          ∧ (last = ws.getD 0 0 → (s.block b).status = .unseen →
            ∃ t, exec (.scanReadComplete station) s = .next t
              ∧ t.blocks = s.blocks.set b { status := .baseline, reference := some last, stale := 0 }
              ∧ t.berths = s.berths ∧ t.sups = s.sups ∧ t.log = s.log ∧ t.owq = s.owq)
          ∧ (last = ws.getD 0 0 → (s.block b).status ≠ .unseen → (s.block b).reference = some last →
            (s.block b).stale + 1 < (s.static b).staleLimit →
            ∃ t, exec (.scanReadComplete station) s = .next t
              ∧ t.blocks = s.blocks.set b { s.block b with stale := (s.block b).stale + 1 }
              ∧ t.berths = s.berths ∧ t.sups = s.sups ∧ t.log = s.log ∧ t.owq = s.owq)
          ∧ (last = ws.getD 0 0 → (s.block b).status ≠ .unseen → (s.block b).reference = some last →
            (s.block b).stale + 1 = (s.static b).staleLimit → s.phase = .running →
            ∃ t, exec (.scanReadComplete station) s = .next t
              ∧ t.blocks = s.blocks.set b { s.block b with stale := (s.static b).staleLimit }
              ∧ ((s.berth b).state ≠ .lockout → s.tripped t b FaultSet.onlyStale)
              ∧ ((s.berth b).state = .lockout → t.berths = s.berths ∧ t.holds = s.holds
                ∧ ((s.sup b).sticky.stale = true →
                  t.sups = s.sups.set b { s.sup b with quiet := 0 } ∧ t.owq = s.owq ∧ t.log = s.log)
                ∧ ((s.sup b).sticky.stale = false →
                  t.sups = s.sups.set b
                      { s.sup b with
                        sticky := { (s.sup b).sticky with stale := true }, quiet := 0,
                        release := (s.static b).autoRelease }
                    ∧ t.owq = placeTrip s.owq
                      { address := s.tables.cmdAddress b .shoreBkr, data := cmdOpen, cls := .trip, berth := some b }
                    ∧ t.log = s.log.stage
                      { type := .trip, berth := some b, qualifier := 1, detailA := 14, detailB := 32,
                        stamp := s.scan.passNumber })))
          ∧ (last = ws.getD 0 0 → (s.block b).status ≠ .unseen → (s.block b).reference = some last →
            (s.static b).staleLimit ≤ (s.block b).stale →
            ∃ t, exec (.scanReadComplete station) s = .next t ∧ t.blocks = s.blocks ∧ t.berths = s.berths
              ∧ t.sups = s.sups ∧ t.log = s.log ∧ t.owq = s.owq)
          ∧ ∃ t, exec (.scanReadComplete station) s = .next t
              ∧ (∀ c, (Block.berth b).nextIn s.tables.n = some c →
                t.scan.pass = some { block := c, words := [] } ∧ t.scan.passNumber = s.scan.passNumber)
              ∧ ((Block.berth b).nextIn s.tables.n = none →
                t.scan.pass = none ∧ t.scan.passNumber = s.scan.passNumber + 1))

/-- A fresh result is accepted (R57): the block becomes ACCEPTING with the new SEQ as its reference and count 0, and the
latest scan result is replaced whole; no other berth's is. In a state but ADOPTING and LOCKOUT and with no fault condition
met, the Supervision Unit sets the two persistence counters (R69), the Sequencer acts by state, mode and marks (R27 to R45,
R49, R50; in MANUAL R120, R123, R129, R130), and the Budget Unit counts a berth that the result finds and leaves in SHORE (R4,
R60, R98). The operand is the station's (log 2). The model's readings: the two counters each follow their own condition (log
26); a departure from SHORE writes CHARGE_LIMIT also at level 0 (log 14), and an event's one RSP write stands after the
commands (log 15); a LEVEL_IDLE record stands before the NOBUDGET final that the same step-down causes (log 16); a final's
record shows operand 0 where no operand is kept (log 19). -/
def Obligations.FreshResultIsAccepted : Prop :=
  ∀ (s : State) (b : BerthId) (station : Option Word) (ws : List Word) (last : Word) (r : ScanResult),
    Memory.wf s.pim = true → s.lastBerthRead b station ws last → last = ws.getD 0 0 → (s.block b).status ≠ .unseen →
    (s.block b).reference ≠ some last → r = resultOf ws →
    ∃ t, exec (.scanReadComplete station) s = .next t ∧ (t.berth b).latest = some r
      ∧ t.block b = { status := .accepting, reference := some last, stale := 0 }
      ∧ (∀ c, c ≠ b → (t.berth c).latest = (s.berth c).latest ∧ t.block c = s.block c)
      ∧ (s.faultFree b r →
        t.sup b = s.supervisedOnly b r
          ∧ (s.received b r).cableFollowed t b r ∧ (s.received b r).engagingFollowed t b r
          ∧ (s.received b r).energizingFollowed t b r ∧ (s.received b r).supplyLossFollowed t b r
          ∧ (s.received b r).closingFollowed t b r ∧ (s.received b r).syncFollowed t b r
          ∧ (s.received b r).openingFollowed t b r ∧ (s.received b r).generatorsFollowed t b r
          ∧ (s.received b r).shoreFollowed t b r)

/-- A fresh result that meets a fault condition outside ADOPTING and LOCKOUT trips the berth, with every flag met (R68 to
R75). In LOCKOUT it returns the base grant at the first OPEN, is a repeat fault, counts quiet or recovers the berth (R77 to
R81). The operand is the station's (log 2). A good image's quiet required is 4 or more (R2, `TablesInUseStaySound`). The two
counters each follow their own condition (log 26). A final's record shows operand 0 where no operand is kept (log 19). -/
def Obligations.FaultyResultTrips : Prop :=
  ∀ (s : State) (b : BerthId) (station : Option Word) (r : ScanResult), Memory.wf s.pim = true →
    s.freshRead b station r → s.phase = .running →
    (∀ f : FaultSet, (s.berth b).state ≠ .adopting → (s.berth b).state ≠ .lockout → s.meets b r f → f.isEmpty = false →
        ∃ t, exec (.scanReadComplete station) s = .next t ∧ (s.received b r).tripped t b f)
      ∧ ((s.berth b).state = .lockout →
        ∃ t, exec (.scanReadComplete station) s = .next t ∧ (s.received b r).lockoutFollowed t b r)

/-- The first fresh result of a berth in ADOPTING selects the adopted state (R166, R167) with its mode, base grant and
commands and the ADOPTED record, and is then supervised in that state, where lost earth or a voltage out of bounds may trip it
(R61); with a FAULT position, or the pilot open and the shore breaker CLOSED, the berth trips in its adoption. The operand is
the station's (log 2). The two counters each follow their own condition (log 26). A final's record shows operand 0 where no
operand is kept (log 19). -/
def Obligations.AdoptionFollowsBreakers : Prop :=
  ∀ (s u : State) (b : BerthId) (station : Option Word) (r : ScanResult), Memory.wf s.pim = true → s.freshRead b station r →
    s.phase = .running → (s.berth b).state = .adopting → s.noClaim b → 0 < (s.static b).quietRequired →
    u = s.received b r →
    ∃ t, exec (.scanReadComplete station) s = .next t ∧ (t.berth b).mode = (s.static b).defaultMode
      ∧ (∀ f : FaultSet, (s.berth b).baseGrant = 0 →
        (r.shore = .fault ∨ r.shipcon = .fault ∨ r.gens = .fault ∨ r.pilot = false ∧ r.shore = .closed) →
        f = { FaultSet.empty with
          bkr := decide (r.shore = .fault ∨ r.shipcon = .fault ∨ r.gens = .fault)
          pilot := decide (r.pilot = false ∧ r.shore = .closed) } →
        u.adoptionTrips t b r f)
      ∧ (r.shore ≠ .fault → r.shipcon ≠ .fault → r.gens ≠ .fault →
        (r.pilot = false → r.shore ≠ .closed →
            u.adoptsAs t b r (u.adoptedBerth b .vacant (u.berth b).baseGrant) (u.chan b) [])
          ∧ (r.pilot = true → r.shore ≠ .closed →
            u.adoptsAs t b r (u.adoptedBerth b .cabled (u.berth b).baseGrant) (u.chan b)
              ((if r.shipcon = .closed then [(.shipconBkr, cmdOpen)] else [])
                ++ (if r.shore = .moving then [(.shoreBkr, cmdOpen)] else [])))
          ∧ (r.pilot = true → r.shore = .closed →
            (r.shipcon ≠ .closed →
                u.adoptsAs t b r (u.adoptedBerth b .energized (u.static b).baseCredits) (u.chan b) [])
              ∧ (r.shipcon = .closed → r.gens = .open →
                u.adoptsAs t b r (u.adoptedBerth b .shore (u.static b).baseCredits).levelZero
                  { u.chan b with step := Channel.idle }
                  (u.chargeZero :: autoOnly (u.static b).defaultMode [(.genRelease, genRelease)]))
              ∧ (r.shipcon = .closed → r.gens ≠ .open →
                u.adoptsAs t b r (u.adoptedBerth b .parallel (u.static b).baseCredits)
                  { u.chan b with step := u.overlapLoaded b } [])))

/-- Feeder reads and results (R55, R56, R59, R85, R100 to R103). A read keeps its word until the block's fifth; a torn result
changes nothing (that C stays, log 27), the first whole one sets the baseline. A fresh one clears FEEDER_STALE, gives C,
counts FEEDER_LOAD and moves the shedding state; then come the shedding steps it calls for, no more than two levels in all,
and the service pass, which grants the waiting claims in their order (R89 to R91, R96). The third unchanged result in a row
sets FEEDER_STALE with C at 0, and later ones change nothing. The next block of the pass follows (R53). The operand is the
station's (log 2). A SHED record stands before the NOBUDGET final of the same step-down (log 16), a FEEDER_STALE record before
an OVERCOMMIT record (log 18). A final's record shows operand 0 where no operand is kept (log 19). -/
def Obligations.FeederResultMovesTheBudget : Prop :=
  ∀ (s : State) (station : Option Word) (ws : List Word) (last : Word), Memory.wf s.pim = true →
    (∀ a, s.ports.busy = some (.scanRead a) → s.scan.pass = some { block := .feeder, words := ws } → ws.length < 4 →
        ∃ t, exec (.scanReadComplete station) s = .next t
          ∧ t.scan = { s.scan with pass := some { block := .feeder, words := ws ++ [station.getD (s.pimRead a)] } }
          ∧ t.blocks = s.blocks ∧ s.sameBerths t ∧ t.log = s.log ∧ t.owq = s.owq
          ∧ t.ports = { s.ports with busy := none } ∧ t.pimRead a = station.getD (s.pimRead a) ∧ s.sameMemoryBut t a)
      ∧ (s.lastFeederRead station ws last →
        ∃ t, exec (.scanReadComplete station) s = .next t ∧ t.blocks = s.blocks ∧ t.ports = { s.ports with busy := none }
          ∧ (0 < s.tables.n →
            t.scan.pass = some { block := .berth .b0, words := [] } ∧ t.scan.passNumber = s.scan.passNumber)
          ∧ (last ≠ ws.getD 0 0 →
            t.scan.feeder = s.scan.feeder ∧ t.scan.feederStale = s.scan.feederStale ∧ t.berths = s.berths ∧ t.holds = s.holds
              ∧ t.budget = s.clearMarks.budget ∧ t.log = s.log ∧ t.owq = s.owq)
          ∧ (last = ws.getD 0 0 → s.scan.feeder.status = .unseen →
            t.scan.feeder = { status := .baseline, reference := some last, stale := 0 }
              ∧ t.scan.feederStale = s.scan.feederStale ∧ t.berths = s.berths ∧ t.holds = s.holds
              ∧ t.budget = s.clearMarks.budget ∧ t.log = s.log ∧ t.owq = s.owq)
          ∧ (last = ws.getD 0 0 → s.scan.feeder.status ≠ .unseen → s.scan.feeder.reference ≠ some last →
            t.scan.feeder = { status := .accepting, reference := some last, stale := 0 } ∧ t.scan.feederStale = false
              ∧ t.budget.capacity = s.capacityOf ws
              ∧ t.budget.highCount =
                (if s.tables.highLoad ≤ (ws.getD 1 0).toNat then min 2 (s.budget.highCount + 1) else 0)
              ∧ t.budget.shedding = s.shedAfter (ws.getD 1 0).toNat
              ∧ (s.fed (s.capacityOf ws) (ws.getD 1 0).toNat).shedFollowed t
              ∧ (t.budget.overcommit = true ↔
                t.budget.capacity < t.granted ∧ (s.budget.overcommit = true ∨ t.budget.stack = []))
              ∧ (s.budget.claims = [] →
                (∀ b, (t.berth b).level ≤ (s.berth b).level)
                  ∧ (BerthId.all.map fun b => (s.berth b).level).sum
                    ≤ (BerthId.all.map fun b => (t.berth b).level).sum + 2))
          ∧ (last = ws.getD 0 0 → s.scan.feeder.status ≠ .unseen → s.scan.feeder.reference = some last →
            (s.scan.feeder.stale = 2 →
                t.scan.feeder = { s.scan.feeder with stale := 3 } ∧ t.scan.feederStale = true ∧ t.budget.capacity = 0
                  ∧ t.berths = s.berths ∧ t.holds = s.holds ∧ t.owq = s.owq ∧ t.budget.claims = s.budget.claims
                  ∧ t.budget.shedding = s.budget.shedding ∧ t.budget.stack = s.budget.stack
                  ∧ s.stagedOnly t [s.staleRecord 1])
              ∧ (s.scan.feeder.stale < 2 → t.scan.feeder = { s.scan.feeder with stale := s.scan.feeder.stale + 1 })
              ∧ (3 ≤ s.scan.feeder.stale → t.scan.feeder = s.scan.feeder)
              ∧ (s.scan.feeder.stale ≠ 2 →
                t.scan.feederStale = s.scan.feederStale ∧ t.berths = s.berths ∧ t.holds = s.holds
                  ∧ t.budget = s.clearMarks.budget ∧ t.log = s.log ∧ t.owq = s.owq)))

/-! ## Time -/

/-- One tick (R52, R126, R147, R150). With nothing owed a base F tick takes the scan timer and the base S divider down by 1 and leaves
the count of every channel, and on a base S tick of every held write, to be reached each in its own event: by STEP_EXPIRY,
SETTLE_EXPIRY and HOLD_EXPIRY one by one, by BASE_S_TICK those of base S together, and at the latest by the next base F tick. A
count that is reached falls by 1, once for a tick; a count of 1 is left to its expiry; under MAINT no held write is counted. Which
command reaches a count is the model's (log 6, log 7). -/
def Obligations.BaseTicksCountDown : Prop :=
  ∀ s : State, s.phase = .running →
    (s.nothingOwed →
        ∃ t, exec .baseFTick s = .next t
          ∧ t.timer.divider = (if s.timer.divider ≤ 1 then s.timer.divider else s.timer.divider - 1)
          ∧ t.timer.sDue = decide (s.timer.divider ≤ 1) ∧ t.timer.maint = s.timer.maint
          ∧ t.scan = (if s.scan.timer ≤ 1 then { s.scan with tickDue := true }
              else { s.scan with timer := s.scan.timer - 1 })
          ∧ (∀ b, t.owed b =
            { stepF := true, stepS := decide (s.timer.divider ≤ 1), settle := true, hold := decide (s.timer.divider ≤ 1) })
          ∧ s.sameBerths t ∧ t.owq = s.owq ∧ t.ports = s.ports ∧ t.log = s.log ∧ s.sameMemory t)
      ∧ (s.timer.sDue = false → s.scan.tickDue = false →
        (∀ b, s.owed b = { stepF := true, stepS := false, settle := true, hold := false }) →
        (∀ b, 1 < (s.chan b).step.count ∨ (s.chan b).step.status ≠ .running ∨ (s.chan b).step.base ≠ .f) →
        (∀ b, 1 < (s.chan b).settle.count ∨ (s.chan b).settle.status ≠ .running ∨ (s.chan b).settle.base ≠ .f) →
        ∃ t, exec .baseFTick s = .next t
          ∧ (∀ b, t.chan b = { step := (s.chan b).step.tick .f, settle := (s.chan b).settle.tick .f })
          ∧ t.berths = s.berths ∧ t.sups = s.sups ∧ t.holds = s.holds ∧ t.budget = s.budget ∧ t.owq = s.owq
          ∧ t.ports = s.ports ∧ t.log = s.log ∧ s.sameMemory t)
      ∧ (s.timer.sDue = true →
        ∃ t, exec .baseSTick s = .next t ∧ t.timer.divider = s.tables.ns ∧ t.timer.sDue = false
          ∧ t.timer.maint = s.timer.maint
          ∧ (∀ b, (t.chan b).settle = (s.chan b).settle
            ∧ (t.chan b).step = (if (s.owed b).stepS then (s.chan b).step.tick .s else (s.chan b).step))
          ∧ (s.timer.maint = true → t.holds = s.holds)
          ∧ (s.timer.maint = false → (∀ b, (s.owed b).hold = true) → (∀ h ∈ s.holds, ∀ x ∈ s.holds, x.berth = h.berth → x = h) →
            t.holds = s.holds.map fun h => if 1 < h.count then { h with count := h.count - 1 } else h)
          ∧ t.scan = s.scan ∧ t.berths = s.berths ∧ t.sups = s.sups ∧ t.budget = s.budget ∧ t.owq = s.owq
          ∧ t.ports = s.ports ∧ t.log = s.log ∧ s.sameMemory t)
      ∧ (∀ b,
        ((s.owed b).stepF = false → (s.owed b).stepS = false → exec (.stepExpiry b) s = .next s)
          ∧ ((s.owed b).step (s.chan b).step.base = true → (s.chan b).step.status = .running → 1 < (s.chan b).step.count →
            exec (.stepExpiry b) s =
              .next { s with
                chans := s.chans.set b
                  { s.chan b with step := { (s.chan b).step with count := (s.chan b).step.count - 1 } }
                timer := { s.timer with owed := s.timer.owed.set b { s.owed b with stepF := false, stepS := false } } })
          ∧ ((s.chan b).step.status ≠ .running →
            exec (.stepExpiry b) s =
              .next { s with
                timer := { s.timer with owed := s.timer.owed.set b { s.owed b with stepF := false, stepS := false } } }))
      ∧ (∀ b,
        ((s.owed b).settle = false → exec (.settleExpiry b) s = .next s)
          ∧ ((s.owed b).settle = true → (s.chan b).settle.status = .running → (s.chan b).settle.base = .f →
            1 < (s.chan b).settle.count →
            exec (.settleExpiry b) s =
              .next { s with
                chans := s.chans.set b
                  { s.chan b with settle := { (s.chan b).settle with count := (s.chan b).settle.count - 1 } }
                timer := { s.timer with owed := s.timer.owed.set b { s.owed b with settle := false } } }))
      ∧ (∀ b h, (s.owed b).hold = true → s.timer.maint = false → s.holdsOf b = [h] → 1 < h.count →
        exec (.holdExpiry b) s =
          .next { s with
            holds := s.holds.map fun x => if x.berth = b then { x with count := x.count - 1 } else x
            timer := { s.timer with owed := s.timer.owed.set b { s.owed b with hold := false } } })
      ∧ (∀ (c : Channel) (base : TickBase),
        (c.status ≠ .running ∨ c.base ≠ base → c.tick base = c)
          ∧ (c.status = .running → c.base = base → 1 < c.count → c.tick base = { c with count := c.count - 1 })
          ∧ (c.count = 1 → c.tick base = c))

/-- A scan tick reloads the timer and starts a pass, or is dropped by a pass in flight with one SCAN_OVERRUN record per run (R52, R53,
R63). That it is a command of its own after the tick that brought the timer to 0, with a mark between them where R52 has one event, is
the model's choice (log 6). -/
def Obligations.ScanTickStartsOrDropsPass : Prop :=
  ∀ s : State, s.scan.tickDue = true →
    (s.scan.pass = none →
        exec .scanTick s =
          .next { s with
            scan := { s.scan with
              tickDue := false, timer := s.tables.scanPeriod, overrunReported := false
              pass := some { block := .feeder, words := [] } } })
      ∧ (∀ p, s.scan.pass = some p → s.scan.overrunReported = true →
        exec .scanTick s = .next { s with scan := { s.scan with tickDue := false, timer := s.tables.scanPeriod } })
      ∧ (∀ p, s.scan.pass = some p → s.scan.overrunReported = false →
        exec .scanTick s =
          .next { s with
            scan := { s.scan with tickDue := false, timer := s.tables.scanPeriod, overrunReported := true }
            log := s.log.stage
              { type := .scanOverrun, berth := none, qualifier := 0,
                detailA := (match p.block with
                  | .feeder => 15
                  | .berth b => BitVec.ofNat 16 b.toNat)
                detailB := 0, stamp := s.scan.passNumber } })

/-- A Step expiry, a tick that has still to reach a count of 1, acts by the state and marks found (the table of section 2.10;
R30, R35, R36, R38, R39, R41, R48, R121, R131, R150; log 6 for the tick under way). The writes and records from RESYNCING and
of a MANUAL berth's ENERGIZING are given where no claim waits, whose grant could queue more. A final's record shows operand 0
where no operand is kept (log 19). -/
def Obligations.StepExpiryActsByState : Prop :=
  ∀ (s : State) (b : BerthId), s.phase = .running → (s.chan b).step.status = .running → (s.chan b).step.count = 1 →
    (s.owed b).step (s.chan b).step.base = true →
    ((s.berth b).state = .engaging →
        ∃ t, exec (.stepExpiry b) s = .next t
          ∧ t.berth b = { ((s.berth b).entered .cabled).finalised .timeout with baseGrant := 0 }
          ∧ (t.chan b).step = Channel.idle ∧ t.noClaim b)
      ∧ ((s.berth b).state = .syncing → (s.berth b).closeIssued = false →
        ∃ t, exec (.stepExpiry b) s = .next t
          ∧ t.berth b = ((s.berth b).entered .energized).finalised .nosync ∧ (t.chan b).step = Channel.idle)
      ∧ ((s.berth b).state = .deadbus → (s.berth b).closeIssued = false →
        ∃ t, exec (.stepExpiry b) s = .next t
          ∧ t.berth b = ((s.berth b).entered .energized).finalised .timeout ∧ (t.chan b).step = Channel.idle
          ∧ t.owq = placeWrite (placeWrite s.owq (s.seqEntry b .genRelease genHold)) (s.rspEntry b (t.berth b)))
      ∧ ((s.berth b).state = .parallel →
        ∃ t, exec (.stepExpiry b) s = .next t
          ∧ t.berth b = ((s.berth b).entered .separating).finalised .overlap
          ∧ (t.chan b).step = loadedChannel false .f (s.static b).breakerConfirm s.timer.maint
          ∧ t.owq = placeWrite (placeWrite (placeWrite s.owq (s.seqEntry b .shipconBkr cmdOpen))
            (s.seqEntry b .genRelease genHold)) (s.rspEntry b (t.berth b)))
      ∧ ((s.berth b).state = .resyncing → s.noClaim b →
        ∃ t, exec (.stepExpiry b) s = .next t
          ∧ t.berth b =
            ({ (s.berth b).entered .shore with level := 0, residency := 0, idle := 0 } : Berth).finalised .timeout
          ∧ (t.chan b).step = Channel.idle
          ∧ ((s.berth b).mode = .auto → s.budget.claims = [] →
            t.owq = placeAll s.owq
                (s.seqEntries b [s.chargeZero, (.genRelease, genRelease)] ++ [s.rspEntry b (t.berth b)])
              ∧ s.stagedOnly t (s.finalRecords b .timeout ++ [s.moveRecord b .shore])))
      ∧ ((s.berth b).state = .energizing → (s.berth b).settling = false → (s.berth b).mode = .manual → s.noClaim b →
        ∃ t, exec (.stepExpiry b) s = .next t
          ∧ t.berth b = { (s.berth b).entered .cabled with baseGrant := 0 }
          ∧ (t.chan b).step = Channel.idle ∧ t.trip b = false
          ∧ (s.budget.claims = [] →
            t.owq = placeAll s.owq [s.seqEntry b .shoreBkr cmdOpen, s.rspEntry b (t.berth b)]
              ∧ s.stagedOnly t
                [s.moveRecord b .cabled,
                  { type := .manualNoclose, berth := some b, qualifier := 0, detailA := 0, detailB := 0,
                    stamp := s.scan.passNumber }]))
      ∧ (((s.berth b).state = .unparallel ∨ (s.berth b).state = .separating ∨ (s.berth b).state = .disengaging
          ∨ ((s.berth b).state = .syncing ∨ (s.berth b).state = .deadbus) ∧ (s.berth b).closeIssued = true
          ∨ (s.berth b).state = .energizing ∧ (s.berth b).settling = false ∧ (s.berth b).mode = .auto) →
        ∃ t, exec (.stepExpiry b) s = .next t ∧ s.tripped t b FaultSet.onlyBkr)

/-- A Settle expiry (a base F tick that has still to reach a count of 1, log 6) makes the settle check on the latest V_SHORE
(R33): ENERGIZED and DONE within the thresholds, otherwise a trip with UV, OV or both, without persistence. A final's record
shows operand 0 where no operand is kept (log 19). -/
def Obligations.SettleExpiryChecksVoltage : Prop :=
  ∀ (s : State) (b : BerthId) (r : ScanResult), s.phase = .running → (s.chan b).settle.status = .running →
    (s.chan b).settle.base = .f → (s.chan b).settle.count = 1 → (s.owed b).settle = true →
    (s.berth b).state = .energizing → (s.berth b).latest = some r →
    (s.threshold (s.static b).uvIndex ≤ r.vShore → r.vShore ≤ s.threshold (s.static b).ovIndex →
        ∃ t, exec (.settleExpiry b) s = .next t
          ∧ t.berth b = ((s.berth b).entered .energized).finalised .done
          ∧ t.chan b = Channels.blank ∧ t.perm b = s.configured b
          ∧ t.owq = placeWrite s.owq (s.rspEntry b (t.berth b)))
      ∧ (∀ f : FaultSet,
        f = { FaultSet.empty with
          uv := decide (r.vShore < s.threshold (s.static b).uvIndex)
          ov := decide (s.threshold (s.static b).ovIndex < r.vShore) } → (f.uv = true ∨ f.ov = true) →
        ∃ t, exec (.settleExpiry b) s = .next t ∧ s.tripped t b f)

/-- A hold entry's expiry, a base S tick that has still to reach its count of 1 with MAINT released (R126; log 6 for the tick under
way): the entry leaves the Hold Queue with a HOLD_EXPIRED record; a SYNC entry leaves its berth as it is, a BUDGET entry withdraws
the claim and moves its berth to CABLED. While MAINT is asserted no entry expires (R151). -/
def Obligations.HoldExpiryEndsTheWait : Prop :=
  ∀ (s : State) (b : BerthId) (h : Hold), s.holdsOf b = [h] → s.holdAt h.address = some h → h.count = 1 →
    (s.owed b).hold = true →
    (s.timer.maint = true →
        exec (.holdExpiry b) s =
          .next { s with timer := { s.timer with owed := s.timer.owed.set b { s.owed b with hold := false } } })
      ∧ (s.timer.maint = false → h.reason = .sync →
        exec (.holdExpiry b) s =
          .next { s.clearMarks with
            timer := { s.timer with owed := s.timer.owed.set b { s.owed b with hold := false } }
            holds := s.holds.filter fun x => decide (x.address ≠ h.address)
            log := s.log.stage (s.holdRecord .holdExpired h) })
      ∧ (s.timer.maint = false → h.reason = .budget →
        ∃ t, exec (.holdExpiry b) s = .next t ∧ t.berth b = { (s.berth b).entered .cabled with baseGrant := 0 }
          ∧ (∀ x ∈ t.holds, x.address ≠ h.address)
          ∧ (∃ more, t.log.staging = (s.log.stage (s.holdRecord .holdExpired h)).staging ++ more)
          ∧ t.noClaim b ∧ t.chan b = s.chan b ∧ s.sameMemory t)

/-- MAINT freezes the RUNNING freezable Step counts and lets them go on from the same counts; the STATUS word follows; no other count
moves (R151, R152). -/
def Obligations.MaintFreezesAndResumes : Prop :=
  ∀ s : State, s.phase = .running →
    (s.timer.maint = false →
        ∃ t, exec .maintAssert s = .next t ∧ t.timer = { s.timer with maint := true } ∧ t.maintPin = true
          ∧ t.log = { s.log with statusPending := true }
          ∧ (∀ b, (t.chan b).settle = (s.chan b).settle ∧ (t.chan b).step.count = (s.chan b).step.count
            ∧ (t.chan b).step.status =
              (if (s.chan b).step.status = .running ∧ (s.chan b).step.freezable = true then .frozen
                else (s.chan b).step.status))
          ∧ t.holds = s.holds ∧ t.berths = s.berths ∧ t.sups = s.sups ∧ t.budget = s.budget ∧ t.owq = s.owq ∧ t.ports = s.ports
          ∧ t.scan = s.scan ∧ s.sameMemory t)
      ∧ (s.timer.maint = true →
        ∃ t, exec .maintRelease s = .next t ∧ t.timer = { s.timer with maint := false } ∧ t.maintPin = false
          ∧ t.log = { s.log with statusPending := true } ∧ t.holds = s.holds
          ∧ (∀ b, (t.chan b).settle = (s.chan b).settle ∧ (t.chan b).step.count = (s.chan b).step.count
            ∧ (t.chan b).step.status =
              (if (s.chan b).step.status = .frozen then .running else (s.chan b).step.status))
          ∧ t.berths = s.berths ∧ t.sups = s.sups ∧ t.budget = s.budget ∧ t.owq = s.owq ∧ t.ports = s.ports
          ∧ t.scan = s.scan ∧ s.sameMemory t)

/-! ## Frames -/

/-- Host writes, expiries and ticks store nothing in the PIM and leave the tables, the Image Loader and the access at the memory port
alone, and host writes and expiries leave the Scan Engine and the Timer Bank alone too, but that an expiry marks that the tick has
reached its count (log 6) (in RUNNING). -/
def Obligations.EventsLeaveTheSurroundings : Prop :=
  ∀ (c : Instr) (s : State), s.phase = .running →
    (∀ b, (c.isHostWrite = true ∨ c = .stepExpiry b ∨ c = .settleExpiry b ∨ c = .holdExpiry b) →
        ∃ t, exec c s = .next t ∧ s.sameMemory t ∧ t.tables = s.tables ∧ t.loader = s.loader ∧ t.maintPin = s.maintPin
          ∧ t.plant = s.plant
          ∧ t.timer = { s.timer with owed := t.timer.owed } ∧ (c.isHostWrite = true → t.timer = s.timer)
          ∧ (∀ x, x ≠ b → t.owed x = s.owed x)
          ∧ t.scan = s.scan ∧ t.blocks = s.blocks ∧ t.ports.busy = s.ports.busy
          ∧ t.ports.streak = s.ports.streak ∧ t.ports.hostData = s.ports.hostData)
      ∧ ((c = .baseFTick ∨ c = .baseSTick ∨ c = .scanTick ∨ c = .maintAssert ∨ c = .maintRelease) →
        ∃ t, exec c s = .next t ∧ s.sameMemory t ∧ t.tables = s.tables ∧ t.loader = s.loader ∧ t.ports = s.ports
          ∧ t.blocks = s.blocks ∧ t.groupTaken = s.groupTaken ∧ t.plant = s.plant)

/-- With no claim waiting, whose grant could reach another berth, a host write to a berth's words, an expiry of the berth or a
read of its block leaves every other berth as it is; a group request leaves every berth that is no member as it is. -/
def Obligations.OtherBerthsAreLeftAlone : Prop :=
  ∀ (s : State) (c : Instr), s.phase = .running → s.budget.claims = [] →
    (∀ b x, x ≠ b → s.holdsPlaced b →
        (c.berth? = some b
          ∨ ∃ station ws, c = .scanReadComplete station ∧ s.scan.pass = some { block := .berth b, words := ws }) →
        ∃ t, exec c s = .next t ∧ s.sameBerth t x ∧ t.groupTaken = s.groupTaken)
      ∧ (∀ g x q, (s.tables.groups.get g).members.getLsbD x.toNat = false →
        ((∃ k, (k, c) ∈ groupCommands g q) ∨ ∃ code, c = .groupInvalid g code q) →
        ∃ t, exec c s = .next t ∧ t.berth x = s.berth x ∧ t.sup x = s.sup x ∧ t.chan x = s.chan x ∧ t.block x = s.block x)
end

