-- ==== Sys2Proof/Laws/State.lean ====
section
/-! SUPPORT. One lemma per field per update: what a setter writes, and that it leaves every other field as it was. -/

namespace Sys2Proof

/-! ## Banks -/

@[simp] theorem Eight.get_set_same {α : Type} (e : Eight α) (b : BerthId) (x : α) : (e.set b x).get b = x := by
  cases b <;> rfl

@[simp] theorem Eight.get_set_of_ne {α : Type} (e : Eight α) {b c : BerthId} (x : α) (h : c ≠ b) :
    (e.set b x).get c = e.get c := by
  cases b <;> cases c <;> first | rfl | exact absurd rfl h

theorem Eight.get_set {α : Type} (e : Eight α) (b c : BerthId) (x : α) :
    (e.set b x).get c = if c = b then x else e.get c := by
  by_cases h : c = b
  · simp [h]
  · simp [h]

@[simp] theorem Eight.get_fill {α : Type} (x : α) (b : BerthId) : (Eight.fill x).get b = x := by
  cases b <;> rfl

@[simp] theorem Eight.get_map {α β : Type} (f : α → β) (e : Eight α) (b : BerthId) : (e.map f).get b = f (e.get b) := by
  cases b <;> rfl

@[simp] theorem Eight.set_get_self {α : Type} (e : Eight α) (b : BerthId) : e.set b (e.get b) = e := by
  cases b <;> rfl

@[simp] theorem Eight.set_set {α : Type} (e : Eight α) (b : BerthId) (x y : α) : (e.set b x).set b y = e.set b y := by
  cases b <;> rfl

/-- Two banks with the same entries are the same bank. -/
theorem Eight.ext_get {α : Type} {e f : Eight α} (h : ∀ b, e.get b = f.get b) : e = f := by
  cases e
  cases f
  simp only [Eight.mk.injEq]
  exact ⟨h .b0, h .b1, h .b2, h .b3, h .b4, h .b5, h .b6, h .b7⟩

@[simp] theorem Four.get_set_same {α : Type} (e : Four α) (g : GroupId) (x : α) : (e.set g x).get g = x := by
  cases g <;> rfl

@[simp] theorem Four.get_set_of_ne {α : Type} (e : Four α) {g k : GroupId} (x : α) (h : k ≠ g) :
    (e.set g x).get k = e.get k := by
  cases g <;> cases k <;> first | rfl | exact absurd rfl h

@[simp] theorem Four.get_fill {α : Type} (x : α) (g : GroupId) : (Four.fill x).get g = x := by
  cases g <;> rfl

namespace Machine

/-! ## pimWrite -/
@[simp] theorem State.pimWrite_pending (s : State) (a w : Word) : (s.pimWrite a w).pending = s.pending := rfl
@[simp] theorem State.pimWrite_phase (s : State) (a w : Word) : (s.pimWrite a w).phase = s.phase := rfl
@[simp] theorem State.pimWrite_maintPin (s : State) (a w : Word) : (s.pimWrite a w).maintPin = s.maintPin := rfl
@[simp] theorem State.pimWrite_pim (s : State) (a w : Word) : (s.pimWrite a w).pim = Memory.write s.pim a.toNat w := rfl
@[simp] theorem State.pimWrite_plant (s : State) (a w : Word) : (s.pimWrite a w).plant = s.plant := rfl
@[simp] theorem State.pimWrite_loader (s : State) (a w : Word) : (s.pimWrite a w).loader = s.loader := rfl
@[simp] theorem State.pimWrite_tables (s : State) (a w : Word) : (s.pimWrite a w).tables = s.tables := rfl
@[simp] theorem State.pimWrite_berths (s : State) (a w : Word) : (s.pimWrite a w).berths = s.berths := rfl
@[simp] theorem State.pimWrite_sups (s : State) (a w : Word) : (s.pimWrite a w).sups = s.sups := rfl
@[simp] theorem State.pimWrite_chans (s : State) (a w : Word) : (s.pimWrite a w).chans = s.chans := rfl
@[simp] theorem State.pimWrite_blocks (s : State) (a w : Word) : (s.pimWrite a w).blocks = s.blocks := rfl
@[simp] theorem State.pimWrite_timer (s : State) (a w : Word) : (s.pimWrite a w).timer = s.timer := rfl
@[simp] theorem State.pimWrite_scan (s : State) (a w : Word) : (s.pimWrite a w).scan = s.scan := rfl
@[simp] theorem State.pimWrite_budget (s : State) (a w : Word) : (s.pimWrite a w).budget = s.budget := rfl
@[simp] theorem State.pimWrite_holds (s : State) (a w : Word) : (s.pimWrite a w).holds = s.holds := rfl
@[simp] theorem State.pimWrite_groupTaken (s : State) (a w : Word) : (s.pimWrite a w).groupTaken = s.groupTaken := rfl
@[simp] theorem State.pimWrite_owq (s : State) (a w : Word) : (s.pimWrite a w).owq = s.owq := rfl
@[simp] theorem State.pimWrite_ports (s : State) (a w : Word) : (s.pimWrite a w).ports = s.ports := rfl
@[simp] theorem State.pimWrite_log (s : State) (a w : Word) : (s.pimWrite a w).log = s.log := rfl

/-! ## setBerth -/
@[simp] theorem State.setBerth_pending (s : State) (b : BerthId) (r : Berth) : (s.setBerth b r).pending = s.pending := rfl
@[simp] theorem State.setBerth_phase (s : State) (b : BerthId) (r : Berth) : (s.setBerth b r).phase = s.phase := rfl
@[simp] theorem State.setBerth_maintPin (s : State) (b : BerthId) (r : Berth) : (s.setBerth b r).maintPin = s.maintPin := rfl
@[simp] theorem State.setBerth_pim (s : State) (b : BerthId) (r : Berth) : (s.setBerth b r).pim = s.pim := rfl
@[simp] theorem State.setBerth_plant (s : State) (b : BerthId) (r : Berth) : (s.setBerth b r).plant = s.plant := rfl
@[simp] theorem State.setBerth_loader (s : State) (b : BerthId) (r : Berth) : (s.setBerth b r).loader = s.loader := rfl
@[simp] theorem State.setBerth_tables (s : State) (b : BerthId) (r : Berth) : (s.setBerth b r).tables = s.tables := rfl
@[simp] theorem State.setBerth_berths (s : State) (b : BerthId) (r : Berth) : (s.setBerth b r).berths = s.berths.set b r := rfl
@[simp] theorem State.setBerth_sups (s : State) (b : BerthId) (r : Berth) : (s.setBerth b r).sups = s.sups := rfl
@[simp] theorem State.setBerth_chans (s : State) (b : BerthId) (r : Berth) : (s.setBerth b r).chans = s.chans := rfl
@[simp] theorem State.setBerth_blocks (s : State) (b : BerthId) (r : Berth) : (s.setBerth b r).blocks = s.blocks := rfl
@[simp] theorem State.setBerth_timer (s : State) (b : BerthId) (r : Berth) : (s.setBerth b r).timer = s.timer := rfl
@[simp] theorem State.setBerth_scan (s : State) (b : BerthId) (r : Berth) : (s.setBerth b r).scan = s.scan := rfl
@[simp] theorem State.setBerth_budget (s : State) (b : BerthId) (r : Berth) : (s.setBerth b r).budget = s.budget := rfl
@[simp] theorem State.setBerth_holds (s : State) (b : BerthId) (r : Berth) : (s.setBerth b r).holds = s.holds := rfl
@[simp] theorem State.setBerth_groupTaken (s : State) (b : BerthId) (r : Berth) : (s.setBerth b r).groupTaken = s.groupTaken := rfl
@[simp] theorem State.setBerth_owq (s : State) (b : BerthId) (r : Berth) : (s.setBerth b r).owq = s.owq := rfl
@[simp] theorem State.setBerth_ports (s : State) (b : BerthId) (r : Berth) : (s.setBerth b r).ports = s.ports := rfl
@[simp] theorem State.setBerth_log (s : State) (b : BerthId) (r : Berth) : (s.setBerth b r).log = s.log := rfl

/-! ## setSup -/
@[simp] theorem State.setSup_pending (s : State) (b : BerthId) (r : Supervision) : (s.setSup b r).pending = s.pending := rfl
@[simp] theorem State.setSup_phase (s : State) (b : BerthId) (r : Supervision) : (s.setSup b r).phase = s.phase := rfl
@[simp] theorem State.setSup_maintPin (s : State) (b : BerthId) (r : Supervision) : (s.setSup b r).maintPin = s.maintPin := rfl
@[simp] theorem State.setSup_pim (s : State) (b : BerthId) (r : Supervision) : (s.setSup b r).pim = s.pim := rfl
@[simp] theorem State.setSup_plant (s : State) (b : BerthId) (r : Supervision) : (s.setSup b r).plant = s.plant := rfl
@[simp] theorem State.setSup_loader (s : State) (b : BerthId) (r : Supervision) : (s.setSup b r).loader = s.loader := rfl
@[simp] theorem State.setSup_tables (s : State) (b : BerthId) (r : Supervision) : (s.setSup b r).tables = s.tables := rfl
@[simp] theorem State.setSup_berths (s : State) (b : BerthId) (r : Supervision) : (s.setSup b r).berths = s.berths := rfl
@[simp] theorem State.setSup_sups (s : State) (b : BerthId) (r : Supervision) : (s.setSup b r).sups = s.sups.set b r := rfl
@[simp] theorem State.setSup_chans (s : State) (b : BerthId) (r : Supervision) : (s.setSup b r).chans = s.chans := rfl
@[simp] theorem State.setSup_blocks (s : State) (b : BerthId) (r : Supervision) : (s.setSup b r).blocks = s.blocks := rfl
@[simp] theorem State.setSup_timer (s : State) (b : BerthId) (r : Supervision) : (s.setSup b r).timer = s.timer := rfl
@[simp] theorem State.setSup_scan (s : State) (b : BerthId) (r : Supervision) : (s.setSup b r).scan = s.scan := rfl
@[simp] theorem State.setSup_budget (s : State) (b : BerthId) (r : Supervision) : (s.setSup b r).budget = s.budget := rfl
@[simp] theorem State.setSup_holds (s : State) (b : BerthId) (r : Supervision) : (s.setSup b r).holds = s.holds := rfl
@[simp] theorem State.setSup_groupTaken (s : State) (b : BerthId) (r : Supervision) : (s.setSup b r).groupTaken = s.groupTaken := rfl
@[simp] theorem State.setSup_owq (s : State) (b : BerthId) (r : Supervision) : (s.setSup b r).owq = s.owq := rfl
@[simp] theorem State.setSup_ports (s : State) (b : BerthId) (r : Supervision) : (s.setSup b r).ports = s.ports := rfl
@[simp] theorem State.setSup_log (s : State) (b : BerthId) (r : Supervision) : (s.setSup b r).log = s.log := rfl

/-! ## setChan -/
@[simp] theorem State.setChan_pending (s : State) (b : BerthId) (c : Channels) : (s.setChan b c).pending = s.pending := rfl
@[simp] theorem State.setChan_phase (s : State) (b : BerthId) (c : Channels) : (s.setChan b c).phase = s.phase := rfl
@[simp] theorem State.setChan_maintPin (s : State) (b : BerthId) (c : Channels) : (s.setChan b c).maintPin = s.maintPin := rfl
@[simp] theorem State.setChan_pim (s : State) (b : BerthId) (c : Channels) : (s.setChan b c).pim = s.pim := rfl
@[simp] theorem State.setChan_plant (s : State) (b : BerthId) (c : Channels) : (s.setChan b c).plant = s.plant := rfl
@[simp] theorem State.setChan_loader (s : State) (b : BerthId) (c : Channels) : (s.setChan b c).loader = s.loader := rfl
@[simp] theorem State.setChan_tables (s : State) (b : BerthId) (c : Channels) : (s.setChan b c).tables = s.tables := rfl
@[simp] theorem State.setChan_berths (s : State) (b : BerthId) (c : Channels) : (s.setChan b c).berths = s.berths := rfl
@[simp] theorem State.setChan_sups (s : State) (b : BerthId) (c : Channels) : (s.setChan b c).sups = s.sups := rfl
@[simp] theorem State.setChan_chans (s : State) (b : BerthId) (c : Channels) : (s.setChan b c).chans = s.chans.set b c := rfl
@[simp] theorem State.setChan_blocks (s : State) (b : BerthId) (c : Channels) : (s.setChan b c).blocks = s.blocks := rfl
@[simp] theorem State.setChan_timer (s : State) (b : BerthId) (c : Channels) : (s.setChan b c).timer = s.timer := rfl
@[simp] theorem State.setChan_scan (s : State) (b : BerthId) (c : Channels) : (s.setChan b c).scan = s.scan := rfl
@[simp] theorem State.setChan_budget (s : State) (b : BerthId) (c : Channels) : (s.setChan b c).budget = s.budget := rfl
@[simp] theorem State.setChan_holds (s : State) (b : BerthId) (c : Channels) : (s.setChan b c).holds = s.holds := rfl
@[simp] theorem State.setChan_groupTaken (s : State) (b : BerthId) (c : Channels) : (s.setChan b c).groupTaken = s.groupTaken := rfl
@[simp] theorem State.setChan_owq (s : State) (b : BerthId) (c : Channels) : (s.setChan b c).owq = s.owq := rfl
@[simp] theorem State.setChan_ports (s : State) (b : BerthId) (c : Channels) : (s.setChan b c).ports = s.ports := rfl
@[simp] theorem State.setChan_log (s : State) (b : BerthId) (c : Channels) : (s.setChan b c).log = s.log := rfl

/-! ## setBlock -/
@[simp] theorem State.setBlock_pending (s : State) (b : BerthId) (k : BlockScan) : (s.setBlock b k).pending = s.pending := rfl
@[simp] theorem State.setBlock_phase (s : State) (b : BerthId) (k : BlockScan) : (s.setBlock b k).phase = s.phase := rfl
@[simp] theorem State.setBlock_maintPin (s : State) (b : BerthId) (k : BlockScan) : (s.setBlock b k).maintPin = s.maintPin := rfl
@[simp] theorem State.setBlock_pim (s : State) (b : BerthId) (k : BlockScan) : (s.setBlock b k).pim = s.pim := rfl
@[simp] theorem State.setBlock_plant (s : State) (b : BerthId) (k : BlockScan) : (s.setBlock b k).plant = s.plant := rfl
@[simp] theorem State.setBlock_loader (s : State) (b : BerthId) (k : BlockScan) : (s.setBlock b k).loader = s.loader := rfl
@[simp] theorem State.setBlock_tables (s : State) (b : BerthId) (k : BlockScan) : (s.setBlock b k).tables = s.tables := rfl
@[simp] theorem State.setBlock_berths (s : State) (b : BerthId) (k : BlockScan) : (s.setBlock b k).berths = s.berths := rfl
@[simp] theorem State.setBlock_sups (s : State) (b : BerthId) (k : BlockScan) : (s.setBlock b k).sups = s.sups := rfl
@[simp] theorem State.setBlock_chans (s : State) (b : BerthId) (k : BlockScan) : (s.setBlock b k).chans = s.chans := rfl
@[simp] theorem State.setBlock_blocks (s : State) (b : BerthId) (k : BlockScan) : (s.setBlock b k).blocks = s.blocks.set b k := rfl
@[simp] theorem State.setBlock_timer (s : State) (b : BerthId) (k : BlockScan) : (s.setBlock b k).timer = s.timer := rfl
@[simp] theorem State.setBlock_scan (s : State) (b : BerthId) (k : BlockScan) : (s.setBlock b k).scan = s.scan := rfl
@[simp] theorem State.setBlock_budget (s : State) (b : BerthId) (k : BlockScan) : (s.setBlock b k).budget = s.budget := rfl
@[simp] theorem State.setBlock_holds (s : State) (b : BerthId) (k : BlockScan) : (s.setBlock b k).holds = s.holds := rfl
@[simp] theorem State.setBlock_groupTaken (s : State) (b : BerthId) (k : BlockScan) : (s.setBlock b k).groupTaken = s.groupTaken := rfl
@[simp] theorem State.setBlock_owq (s : State) (b : BerthId) (k : BlockScan) : (s.setBlock b k).owq = s.owq := rfl
@[simp] theorem State.setBlock_ports (s : State) (b : BerthId) (k : BlockScan) : (s.setBlock b k).ports = s.ports := rfl
@[simp] theorem State.setBlock_log (s : State) (b : BerthId) (k : BlockScan) : (s.setBlock b k).log = s.log := rfl

/-! ## setOwq -/
@[simp] theorem State.setOwq_pending (s : State) (q : List OwnWrite) : (s.setOwq q).pending = s.pending := rfl
@[simp] theorem State.setOwq_phase (s : State) (q : List OwnWrite) : (s.setOwq q).phase = s.phase := rfl
@[simp] theorem State.setOwq_maintPin (s : State) (q : List OwnWrite) : (s.setOwq q).maintPin = s.maintPin := rfl
@[simp] theorem State.setOwq_pim (s : State) (q : List OwnWrite) : (s.setOwq q).pim = s.pim := rfl
@[simp] theorem State.setOwq_plant (s : State) (q : List OwnWrite) : (s.setOwq q).plant = s.plant := rfl
@[simp] theorem State.setOwq_loader (s : State) (q : List OwnWrite) : (s.setOwq q).loader = s.loader := rfl
@[simp] theorem State.setOwq_tables (s : State) (q : List OwnWrite) : (s.setOwq q).tables = s.tables := rfl
@[simp] theorem State.setOwq_berths (s : State) (q : List OwnWrite) : (s.setOwq q).berths = s.berths := rfl
@[simp] theorem State.setOwq_sups (s : State) (q : List OwnWrite) : (s.setOwq q).sups = s.sups := rfl
@[simp] theorem State.setOwq_chans (s : State) (q : List OwnWrite) : (s.setOwq q).chans = s.chans := rfl
@[simp] theorem State.setOwq_blocks (s : State) (q : List OwnWrite) : (s.setOwq q).blocks = s.blocks := rfl
@[simp] theorem State.setOwq_timer (s : State) (q : List OwnWrite) : (s.setOwq q).timer = s.timer := rfl
@[simp] theorem State.setOwq_scan (s : State) (q : List OwnWrite) : (s.setOwq q).scan = s.scan := rfl
@[simp] theorem State.setOwq_budget (s : State) (q : List OwnWrite) : (s.setOwq q).budget = s.budget := rfl
@[simp] theorem State.setOwq_holds (s : State) (q : List OwnWrite) : (s.setOwq q).holds = s.holds := rfl
@[simp] theorem State.setOwq_groupTaken (s : State) (q : List OwnWrite) : (s.setOwq q).groupTaken = s.groupTaken := rfl
@[simp] theorem State.setOwq_owq (s : State) (q : List OwnWrite) : (s.setOwq q).owq = q := rfl
@[simp] theorem State.setOwq_ports (s : State) (q : List OwnWrite) : (s.setOwq q).ports = s.ports := rfl
@[simp] theorem State.setOwq_log (s : State) (q : List OwnWrite) : (s.setOwq q).log = s.log := rfl

/-! ## setLog -/
@[simp] theorem State.setLog_pending (s : State) (l : Log) : (s.setLog l).pending = s.pending := rfl
@[simp] theorem State.setLog_phase (s : State) (l : Log) : (s.setLog l).phase = s.phase := rfl
@[simp] theorem State.setLog_maintPin (s : State) (l : Log) : (s.setLog l).maintPin = s.maintPin := rfl
@[simp] theorem State.setLog_pim (s : State) (l : Log) : (s.setLog l).pim = s.pim := rfl
@[simp] theorem State.setLog_plant (s : State) (l : Log) : (s.setLog l).plant = s.plant := rfl
@[simp] theorem State.setLog_loader (s : State) (l : Log) : (s.setLog l).loader = s.loader := rfl
@[simp] theorem State.setLog_tables (s : State) (l : Log) : (s.setLog l).tables = s.tables := rfl
@[simp] theorem State.setLog_berths (s : State) (l : Log) : (s.setLog l).berths = s.berths := rfl
@[simp] theorem State.setLog_sups (s : State) (l : Log) : (s.setLog l).sups = s.sups := rfl
@[simp] theorem State.setLog_chans (s : State) (l : Log) : (s.setLog l).chans = s.chans := rfl
@[simp] theorem State.setLog_blocks (s : State) (l : Log) : (s.setLog l).blocks = s.blocks := rfl
@[simp] theorem State.setLog_timer (s : State) (l : Log) : (s.setLog l).timer = s.timer := rfl
@[simp] theorem State.setLog_scan (s : State) (l : Log) : (s.setLog l).scan = s.scan := rfl
@[simp] theorem State.setLog_budget (s : State) (l : Log) : (s.setLog l).budget = s.budget := rfl
@[simp] theorem State.setLog_holds (s : State) (l : Log) : (s.setLog l).holds = s.holds := rfl
@[simp] theorem State.setLog_groupTaken (s : State) (l : Log) : (s.setLog l).groupTaken = s.groupTaken := rfl
@[simp] theorem State.setLog_owq (s : State) (l : Log) : (s.setLog l).owq = s.owq := rfl
@[simp] theorem State.setLog_ports (s : State) (l : Log) : (s.setLog l).ports = s.ports := rfl
@[simp] theorem State.setLog_log (s : State) (l : Log) : (s.setLog l).log = l := rfl

/-! ## setBudget -/
@[simp] theorem State.setBudget_pending (s : State) (u : Budget) : (s.setBudget u).pending = s.pending := rfl
@[simp] theorem State.setBudget_phase (s : State) (u : Budget) : (s.setBudget u).phase = s.phase := rfl
@[simp] theorem State.setBudget_maintPin (s : State) (u : Budget) : (s.setBudget u).maintPin = s.maintPin := rfl
@[simp] theorem State.setBudget_pim (s : State) (u : Budget) : (s.setBudget u).pim = s.pim := rfl
@[simp] theorem State.setBudget_plant (s : State) (u : Budget) : (s.setBudget u).plant = s.plant := rfl
@[simp] theorem State.setBudget_loader (s : State) (u : Budget) : (s.setBudget u).loader = s.loader := rfl
@[simp] theorem State.setBudget_tables (s : State) (u : Budget) : (s.setBudget u).tables = s.tables := rfl
@[simp] theorem State.setBudget_berths (s : State) (u : Budget) : (s.setBudget u).berths = s.berths := rfl
@[simp] theorem State.setBudget_sups (s : State) (u : Budget) : (s.setBudget u).sups = s.sups := rfl
@[simp] theorem State.setBudget_chans (s : State) (u : Budget) : (s.setBudget u).chans = s.chans := rfl
@[simp] theorem State.setBudget_blocks (s : State) (u : Budget) : (s.setBudget u).blocks = s.blocks := rfl
@[simp] theorem State.setBudget_timer (s : State) (u : Budget) : (s.setBudget u).timer = s.timer := rfl
@[simp] theorem State.setBudget_scan (s : State) (u : Budget) : (s.setBudget u).scan = s.scan := rfl
@[simp] theorem State.setBudget_budget (s : State) (u : Budget) : (s.setBudget u).budget = u := rfl
@[simp] theorem State.setBudget_holds (s : State) (u : Budget) : (s.setBudget u).holds = s.holds := rfl
@[simp] theorem State.setBudget_groupTaken (s : State) (u : Budget) : (s.setBudget u).groupTaken = s.groupTaken := rfl
@[simp] theorem State.setBudget_owq (s : State) (u : Budget) : (s.setBudget u).owq = s.owq := rfl
@[simp] theorem State.setBudget_ports (s : State) (u : Budget) : (s.setBudget u).ports = s.ports := rfl
@[simp] theorem State.setBudget_log (s : State) (u : Budget) : (s.setBudget u).log = s.log := rfl

/-! ## setHolds -/
@[simp] theorem State.setHolds_pending (s : State) (l : List Hold) : (s.setHolds l).pending = s.pending := rfl
@[simp] theorem State.setHolds_phase (s : State) (l : List Hold) : (s.setHolds l).phase = s.phase := rfl
@[simp] theorem State.setHolds_maintPin (s : State) (l : List Hold) : (s.setHolds l).maintPin = s.maintPin := rfl
@[simp] theorem State.setHolds_pim (s : State) (l : List Hold) : (s.setHolds l).pim = s.pim := rfl
@[simp] theorem State.setHolds_plant (s : State) (l : List Hold) : (s.setHolds l).plant = s.plant := rfl
@[simp] theorem State.setHolds_loader (s : State) (l : List Hold) : (s.setHolds l).loader = s.loader := rfl
@[simp] theorem State.setHolds_tables (s : State) (l : List Hold) : (s.setHolds l).tables = s.tables := rfl
@[simp] theorem State.setHolds_berths (s : State) (l : List Hold) : (s.setHolds l).berths = s.berths := rfl
@[simp] theorem State.setHolds_sups (s : State) (l : List Hold) : (s.setHolds l).sups = s.sups := rfl
@[simp] theorem State.setHolds_chans (s : State) (l : List Hold) : (s.setHolds l).chans = s.chans := rfl
@[simp] theorem State.setHolds_blocks (s : State) (l : List Hold) : (s.setHolds l).blocks = s.blocks := rfl
@[simp] theorem State.setHolds_timer (s : State) (l : List Hold) : (s.setHolds l).timer = s.timer := rfl
@[simp] theorem State.setHolds_scan (s : State) (l : List Hold) : (s.setHolds l).scan = s.scan := rfl
@[simp] theorem State.setHolds_budget (s : State) (l : List Hold) : (s.setHolds l).budget = s.budget := rfl
@[simp] theorem State.setHolds_holds (s : State) (l : List Hold) : (s.setHolds l).holds = l := rfl
@[simp] theorem State.setHolds_groupTaken (s : State) (l : List Hold) : (s.setHolds l).groupTaken = s.groupTaken := rfl
@[simp] theorem State.setHolds_owq (s : State) (l : List Hold) : (s.setHolds l).owq = s.owq := rfl
@[simp] theorem State.setHolds_ports (s : State) (l : List Hold) : (s.setHolds l).ports = s.ports := rfl
@[simp] theorem State.setHolds_log (s : State) (l : List Hold) : (s.setHolds l).log = s.log := rfl

/-! ## setPorts -/
@[simp] theorem State.setPorts_pending (s : State) (p : Ports) : (s.setPorts p).pending = s.pending := rfl
@[simp] theorem State.setPorts_phase (s : State) (p : Ports) : (s.setPorts p).phase = s.phase := rfl
@[simp] theorem State.setPorts_maintPin (s : State) (p : Ports) : (s.setPorts p).maintPin = s.maintPin := rfl
@[simp] theorem State.setPorts_pim (s : State) (p : Ports) : (s.setPorts p).pim = s.pim := rfl
@[simp] theorem State.setPorts_plant (s : State) (p : Ports) : (s.setPorts p).plant = s.plant := rfl
@[simp] theorem State.setPorts_loader (s : State) (p : Ports) : (s.setPorts p).loader = s.loader := rfl
@[simp] theorem State.setPorts_tables (s : State) (p : Ports) : (s.setPorts p).tables = s.tables := rfl
@[simp] theorem State.setPorts_berths (s : State) (p : Ports) : (s.setPorts p).berths = s.berths := rfl
@[simp] theorem State.setPorts_sups (s : State) (p : Ports) : (s.setPorts p).sups = s.sups := rfl
@[simp] theorem State.setPorts_chans (s : State) (p : Ports) : (s.setPorts p).chans = s.chans := rfl
@[simp] theorem State.setPorts_blocks (s : State) (p : Ports) : (s.setPorts p).blocks = s.blocks := rfl
@[simp] theorem State.setPorts_timer (s : State) (p : Ports) : (s.setPorts p).timer = s.timer := rfl
@[simp] theorem State.setPorts_scan (s : State) (p : Ports) : (s.setPorts p).scan = s.scan := rfl
@[simp] theorem State.setPorts_budget (s : State) (p : Ports) : (s.setPorts p).budget = s.budget := rfl
@[simp] theorem State.setPorts_holds (s : State) (p : Ports) : (s.setPorts p).holds = s.holds := rfl
@[simp] theorem State.setPorts_groupTaken (s : State) (p : Ports) : (s.setPorts p).groupTaken = s.groupTaken := rfl
@[simp] theorem State.setPorts_owq (s : State) (p : Ports) : (s.setPorts p).owq = s.owq := rfl
@[simp] theorem State.setPorts_ports (s : State) (p : Ports) : (s.setPorts p).ports = p := rfl
@[simp] theorem State.setPorts_log (s : State) (p : Ports) : (s.setPorts p).log = s.log := rfl

/-! ## setScan -/
@[simp] theorem State.setScan_pending (s : State) (e : ScanEngine) : (s.setScan e).pending = s.pending := rfl
@[simp] theorem State.setScan_phase (s : State) (e : ScanEngine) : (s.setScan e).phase = s.phase := rfl
@[simp] theorem State.setScan_maintPin (s : State) (e : ScanEngine) : (s.setScan e).maintPin = s.maintPin := rfl
@[simp] theorem State.setScan_pim (s : State) (e : ScanEngine) : (s.setScan e).pim = s.pim := rfl
@[simp] theorem State.setScan_plant (s : State) (e : ScanEngine) : (s.setScan e).plant = s.plant := rfl
@[simp] theorem State.setScan_loader (s : State) (e : ScanEngine) : (s.setScan e).loader = s.loader := rfl
@[simp] theorem State.setScan_tables (s : State) (e : ScanEngine) : (s.setScan e).tables = s.tables := rfl
@[simp] theorem State.setScan_berths (s : State) (e : ScanEngine) : (s.setScan e).berths = s.berths := rfl
@[simp] theorem State.setScan_sups (s : State) (e : ScanEngine) : (s.setScan e).sups = s.sups := rfl
@[simp] theorem State.setScan_chans (s : State) (e : ScanEngine) : (s.setScan e).chans = s.chans := rfl
@[simp] theorem State.setScan_blocks (s : State) (e : ScanEngine) : (s.setScan e).blocks = s.blocks := rfl
@[simp] theorem State.setScan_timer (s : State) (e : ScanEngine) : (s.setScan e).timer = s.timer := rfl
@[simp] theorem State.setScan_scan (s : State) (e : ScanEngine) : (s.setScan e).scan = e := rfl
@[simp] theorem State.setScan_budget (s : State) (e : ScanEngine) : (s.setScan e).budget = s.budget := rfl
@[simp] theorem State.setScan_holds (s : State) (e : ScanEngine) : (s.setScan e).holds = s.holds := rfl
@[simp] theorem State.setScan_groupTaken (s : State) (e : ScanEngine) : (s.setScan e).groupTaken = s.groupTaken := rfl
@[simp] theorem State.setScan_owq (s : State) (e : ScanEngine) : (s.setScan e).owq = s.owq := rfl
@[simp] theorem State.setScan_ports (s : State) (e : ScanEngine) : (s.setScan e).ports = s.ports := rfl
@[simp] theorem State.setScan_log (s : State) (e : ScanEngine) : (s.setScan e).log = s.log := rfl

/-! ## setTimer -/
@[simp] theorem State.setTimer_pending (s : State) (t : TimerBank) : (s.setTimer t).pending = s.pending := rfl
@[simp] theorem State.setTimer_phase (s : State) (t : TimerBank) : (s.setTimer t).phase = s.phase := rfl
@[simp] theorem State.setTimer_maintPin (s : State) (t : TimerBank) : (s.setTimer t).maintPin = s.maintPin := rfl
@[simp] theorem State.setTimer_pim (s : State) (t : TimerBank) : (s.setTimer t).pim = s.pim := rfl
@[simp] theorem State.setTimer_plant (s : State) (t : TimerBank) : (s.setTimer t).plant = s.plant := rfl
@[simp] theorem State.setTimer_loader (s : State) (t : TimerBank) : (s.setTimer t).loader = s.loader := rfl
@[simp] theorem State.setTimer_tables (s : State) (t : TimerBank) : (s.setTimer t).tables = s.tables := rfl
@[simp] theorem State.setTimer_berths (s : State) (t : TimerBank) : (s.setTimer t).berths = s.berths := rfl
@[simp] theorem State.setTimer_sups (s : State) (t : TimerBank) : (s.setTimer t).sups = s.sups := rfl
@[simp] theorem State.setTimer_chans (s : State) (t : TimerBank) : (s.setTimer t).chans = s.chans := rfl
@[simp] theorem State.setTimer_blocks (s : State) (t : TimerBank) : (s.setTimer t).blocks = s.blocks := rfl
@[simp] theorem State.setTimer_timer (s : State) (t : TimerBank) : (s.setTimer t).timer = t := rfl
@[simp] theorem State.setTimer_scan (s : State) (t : TimerBank) : (s.setTimer t).scan = s.scan := rfl
@[simp] theorem State.setTimer_budget (s : State) (t : TimerBank) : (s.setTimer t).budget = s.budget := rfl
@[simp] theorem State.setTimer_holds (s : State) (t : TimerBank) : (s.setTimer t).holds = s.holds := rfl
@[simp] theorem State.setTimer_groupTaken (s : State) (t : TimerBank) : (s.setTimer t).groupTaken = s.groupTaken := rfl
@[simp] theorem State.setTimer_owq (s : State) (t : TimerBank) : (s.setTimer t).owq = s.owq := rfl
@[simp] theorem State.setTimer_ports (s : State) (t : TimerBank) : (s.setTimer t).ports = s.ports := rfl
@[simp] theorem State.setTimer_log (s : State) (t : TimerBank) : (s.setTimer t).log = s.log := rfl

/-! ## setOwed -/
@[simp] theorem State.setOwed_pending (s : State) (b : BerthId) (o : Owed) : (s.setOwed b o).pending = s.pending := rfl
@[simp] theorem State.setOwed_phase (s : State) (b : BerthId) (o : Owed) : (s.setOwed b o).phase = s.phase := rfl
@[simp] theorem State.setOwed_maintPin (s : State) (b : BerthId) (o : Owed) : (s.setOwed b o).maintPin = s.maintPin := rfl
@[simp] theorem State.setOwed_pim (s : State) (b : BerthId) (o : Owed) : (s.setOwed b o).pim = s.pim := rfl
@[simp] theorem State.setOwed_plant (s : State) (b : BerthId) (o : Owed) : (s.setOwed b o).plant = s.plant := rfl
@[simp] theorem State.setOwed_loader (s : State) (b : BerthId) (o : Owed) : (s.setOwed b o).loader = s.loader := rfl
@[simp] theorem State.setOwed_tables (s : State) (b : BerthId) (o : Owed) : (s.setOwed b o).tables = s.tables := rfl
@[simp] theorem State.setOwed_berths (s : State) (b : BerthId) (o : Owed) : (s.setOwed b o).berths = s.berths := rfl
@[simp] theorem State.setOwed_sups (s : State) (b : BerthId) (o : Owed) : (s.setOwed b o).sups = s.sups := rfl
@[simp] theorem State.setOwed_chans (s : State) (b : BerthId) (o : Owed) : (s.setOwed b o).chans = s.chans := rfl
@[simp] theorem State.setOwed_blocks (s : State) (b : BerthId) (o : Owed) : (s.setOwed b o).blocks = s.blocks := rfl
@[simp] theorem State.setOwed_timer (s : State) (b : BerthId) (o : Owed) : (s.setOwed b o).timer = { s.timer with owed := s.timer.owed.set b o } := rfl
@[simp] theorem State.setOwed_scan (s : State) (b : BerthId) (o : Owed) : (s.setOwed b o).scan = s.scan := rfl
@[simp] theorem State.setOwed_budget (s : State) (b : BerthId) (o : Owed) : (s.setOwed b o).budget = s.budget := rfl
@[simp] theorem State.setOwed_holds (s : State) (b : BerthId) (o : Owed) : (s.setOwed b o).holds = s.holds := rfl
@[simp] theorem State.setOwed_groupTaken (s : State) (b : BerthId) (o : Owed) : (s.setOwed b o).groupTaken = s.groupTaken := rfl
@[simp] theorem State.setOwed_owq (s : State) (b : BerthId) (o : Owed) : (s.setOwed b o).owq = s.owq := rfl
@[simp] theorem State.setOwed_ports (s : State) (b : BerthId) (o : Owed) : (s.setOwed b o).ports = s.ports := rfl
@[simp] theorem State.setOwed_log (s : State) (b : BerthId) (o : Owed) : (s.setOwed b o).log = s.log := rfl

/-! ## setLoader -/
@[simp] theorem State.setLoader_pending (s : State) (l : Loader) : (s.setLoader l).pending = s.pending := rfl
@[simp] theorem State.setLoader_phase (s : State) (l : Loader) : (s.setLoader l).phase = s.phase := rfl
@[simp] theorem State.setLoader_maintPin (s : State) (l : Loader) : (s.setLoader l).maintPin = s.maintPin := rfl
@[simp] theorem State.setLoader_pim (s : State) (l : Loader) : (s.setLoader l).pim = s.pim := rfl
@[simp] theorem State.setLoader_plant (s : State) (l : Loader) : (s.setLoader l).plant = s.plant := rfl
@[simp] theorem State.setLoader_loader (s : State) (l : Loader) : (s.setLoader l).loader = l := rfl
@[simp] theorem State.setLoader_tables (s : State) (l : Loader) : (s.setLoader l).tables = s.tables := rfl
@[simp] theorem State.setLoader_berths (s : State) (l : Loader) : (s.setLoader l).berths = s.berths := rfl
@[simp] theorem State.setLoader_sups (s : State) (l : Loader) : (s.setLoader l).sups = s.sups := rfl
@[simp] theorem State.setLoader_chans (s : State) (l : Loader) : (s.setLoader l).chans = s.chans := rfl
@[simp] theorem State.setLoader_blocks (s : State) (l : Loader) : (s.setLoader l).blocks = s.blocks := rfl
@[simp] theorem State.setLoader_timer (s : State) (l : Loader) : (s.setLoader l).timer = s.timer := rfl
@[simp] theorem State.setLoader_scan (s : State) (l : Loader) : (s.setLoader l).scan = s.scan := rfl
@[simp] theorem State.setLoader_budget (s : State) (l : Loader) : (s.setLoader l).budget = s.budget := rfl
@[simp] theorem State.setLoader_holds (s : State) (l : Loader) : (s.setLoader l).holds = s.holds := rfl
@[simp] theorem State.setLoader_groupTaken (s : State) (l : Loader) : (s.setLoader l).groupTaken = s.groupTaken := rfl
@[simp] theorem State.setLoader_owq (s : State) (l : Loader) : (s.setLoader l).owq = s.owq := rfl
@[simp] theorem State.setLoader_ports (s : State) (l : Loader) : (s.setLoader l).ports = s.ports := rfl
@[simp] theorem State.setLoader_log (s : State) (l : Loader) : (s.setLoader l).log = s.log := rfl

/-! ## setGroupTaken -/
@[simp] theorem State.setGroupTaken_pending (s : State) (g : GroupId) (x : Bool) : (s.setGroupTaken g x).pending = s.pending := rfl
@[simp] theorem State.setGroupTaken_phase (s : State) (g : GroupId) (x : Bool) : (s.setGroupTaken g x).phase = s.phase := rfl
@[simp] theorem State.setGroupTaken_maintPin (s : State) (g : GroupId) (x : Bool) : (s.setGroupTaken g x).maintPin = s.maintPin := rfl
@[simp] theorem State.setGroupTaken_pim (s : State) (g : GroupId) (x : Bool) : (s.setGroupTaken g x).pim = s.pim := rfl
@[simp] theorem State.setGroupTaken_plant (s : State) (g : GroupId) (x : Bool) : (s.setGroupTaken g x).plant = s.plant := rfl
@[simp] theorem State.setGroupTaken_loader (s : State) (g : GroupId) (x : Bool) : (s.setGroupTaken g x).loader = s.loader := rfl
@[simp] theorem State.setGroupTaken_tables (s : State) (g : GroupId) (x : Bool) : (s.setGroupTaken g x).tables = s.tables := rfl
@[simp] theorem State.setGroupTaken_berths (s : State) (g : GroupId) (x : Bool) : (s.setGroupTaken g x).berths = s.berths := rfl
@[simp] theorem State.setGroupTaken_sups (s : State) (g : GroupId) (x : Bool) : (s.setGroupTaken g x).sups = s.sups := rfl
@[simp] theorem State.setGroupTaken_chans (s : State) (g : GroupId) (x : Bool) : (s.setGroupTaken g x).chans = s.chans := rfl
@[simp] theorem State.setGroupTaken_blocks (s : State) (g : GroupId) (x : Bool) : (s.setGroupTaken g x).blocks = s.blocks := rfl
@[simp] theorem State.setGroupTaken_timer (s : State) (g : GroupId) (x : Bool) : (s.setGroupTaken g x).timer = s.timer := rfl
@[simp] theorem State.setGroupTaken_scan (s : State) (g : GroupId) (x : Bool) : (s.setGroupTaken g x).scan = s.scan := rfl
@[simp] theorem State.setGroupTaken_budget (s : State) (g : GroupId) (x : Bool) : (s.setGroupTaken g x).budget = s.budget := rfl
@[simp] theorem State.setGroupTaken_holds (s : State) (g : GroupId) (x : Bool) : (s.setGroupTaken g x).holds = s.holds := rfl
@[simp] theorem State.setGroupTaken_groupTaken (s : State) (g : GroupId) (x : Bool) : (s.setGroupTaken g x).groupTaken = s.groupTaken.set g x := rfl
@[simp] theorem State.setGroupTaken_owq (s : State) (g : GroupId) (x : Bool) : (s.setGroupTaken g x).owq = s.owq := rfl
@[simp] theorem State.setGroupTaken_ports (s : State) (g : GroupId) (x : Bool) : (s.setGroupTaken g x).ports = s.ports := rfl
@[simp] theorem State.setGroupTaken_log (s : State) (g : GroupId) (x : Bool) : (s.setGroupTaken g x).log = s.log := rfl

/-! ## The readers of the banks -/

@[simp] theorem State.berth_setBerth_same (s : State) (b : BerthId) (r : Berth) : (s.setBerth b r).berth b = r :=
  Eight.get_set_same _ _ _

@[simp] theorem State.berth_setBerth_of_ne (s : State) {b c : BerthId} (x : Berth) (h : c ≠ b) :
    (s.setBerth b x).berth c = s.berth c :=
  Eight.get_set_of_ne _ _ h

@[simp] theorem State.berth_pimWrite (s : State) (a w : Word) (b : BerthId) : (s.pimWrite a w).berth b = s.berth b := rfl
@[simp] theorem State.berth_setSup (s : State) (b' : BerthId) (r : Supervision) (b : BerthId) : (s.setSup b' r).berth b = s.berth b := rfl
@[simp] theorem State.berth_setChan (s : State) (b' : BerthId) (c : Channels) (b : BerthId) : (s.setChan b' c).berth b = s.berth b := rfl
@[simp] theorem State.berth_setBlock (s : State) (b' : BerthId) (k : BlockScan) (b : BerthId) : (s.setBlock b' k).berth b = s.berth b := rfl
@[simp] theorem State.berth_setOwq (s : State) (q : List OwnWrite) (b : BerthId) : (s.setOwq q).berth b = s.berth b := rfl
@[simp] theorem State.berth_setLog (s : State) (l : Log) (b : BerthId) : (s.setLog l).berth b = s.berth b := rfl
@[simp] theorem State.berth_setBudget (s : State) (u : Budget) (b : BerthId) : (s.setBudget u).berth b = s.berth b := rfl
@[simp] theorem State.berth_setHolds (s : State) (l : List Hold) (b : BerthId) : (s.setHolds l).berth b = s.berth b := rfl
@[simp] theorem State.berth_setPorts (s : State) (p : Ports) (b : BerthId) : (s.setPorts p).berth b = s.berth b := rfl
@[simp] theorem State.berth_setScan (s : State) (e : ScanEngine) (b : BerthId) : (s.setScan e).berth b = s.berth b := rfl
@[simp] theorem State.berth_setTimer (s : State) (t : TimerBank) (b : BerthId) : (s.setTimer t).berth b = s.berth b := rfl
@[simp] theorem State.berth_setOwed (s : State) (b' : BerthId) (o : Owed) (b : BerthId) : (s.setOwed b' o).berth b = s.berth b := rfl
@[simp] theorem State.berth_setLoader (s : State) (l : Loader) (b : BerthId) : (s.setLoader l).berth b = s.berth b := rfl
@[simp] theorem State.berth_setGroupTaken (s : State) (g : GroupId) (x : Bool) (b : BerthId) : (s.setGroupTaken g x).berth b = s.berth b := rfl

@[simp] theorem State.sup_setSup_same (s : State) (b : BerthId) (r : Supervision) : (s.setSup b r).sup b = r :=
  Eight.get_set_same _ _ _

@[simp] theorem State.sup_setSup_of_ne (s : State) {b c : BerthId} (x : Supervision) (h : c ≠ b) :
    (s.setSup b x).sup c = s.sup c :=
  Eight.get_set_of_ne _ _ h

@[simp] theorem State.sup_pimWrite (s : State) (a w : Word) (b : BerthId) : (s.pimWrite a w).sup b = s.sup b := rfl
@[simp] theorem State.sup_setBerth (s : State) (b' : BerthId) (r : Berth) (b : BerthId) : (s.setBerth b' r).sup b = s.sup b := rfl
@[simp] theorem State.sup_setChan (s : State) (b' : BerthId) (c : Channels) (b : BerthId) : (s.setChan b' c).sup b = s.sup b := rfl
@[simp] theorem State.sup_setBlock (s : State) (b' : BerthId) (k : BlockScan) (b : BerthId) : (s.setBlock b' k).sup b = s.sup b := rfl
@[simp] theorem State.sup_setOwq (s : State) (q : List OwnWrite) (b : BerthId) : (s.setOwq q).sup b = s.sup b := rfl
@[simp] theorem State.sup_setLog (s : State) (l : Log) (b : BerthId) : (s.setLog l).sup b = s.sup b := rfl
@[simp] theorem State.sup_setBudget (s : State) (u : Budget) (b : BerthId) : (s.setBudget u).sup b = s.sup b := rfl
@[simp] theorem State.sup_setHolds (s : State) (l : List Hold) (b : BerthId) : (s.setHolds l).sup b = s.sup b := rfl
@[simp] theorem State.sup_setPorts (s : State) (p : Ports) (b : BerthId) : (s.setPorts p).sup b = s.sup b := rfl
@[simp] theorem State.sup_setScan (s : State) (e : ScanEngine) (b : BerthId) : (s.setScan e).sup b = s.sup b := rfl
@[simp] theorem State.sup_setTimer (s : State) (t : TimerBank) (b : BerthId) : (s.setTimer t).sup b = s.sup b := rfl
@[simp] theorem State.sup_setOwed (s : State) (b' : BerthId) (o : Owed) (b : BerthId) : (s.setOwed b' o).sup b = s.sup b := rfl
@[simp] theorem State.sup_setLoader (s : State) (l : Loader) (b : BerthId) : (s.setLoader l).sup b = s.sup b := rfl
@[simp] theorem State.sup_setGroupTaken (s : State) (g : GroupId) (x : Bool) (b : BerthId) : (s.setGroupTaken g x).sup b = s.sup b := rfl

@[simp] theorem State.chan_setChan_same (s : State) (b : BerthId) (c : Channels) : (s.setChan b c).chan b = c :=
  Eight.get_set_same _ _ _

@[simp] theorem State.chan_setChan_of_ne (s : State) {b c : BerthId} (x : Channels) (h : c ≠ b) :
    (s.setChan b x).chan c = s.chan c :=
  Eight.get_set_of_ne _ _ h

@[simp] theorem State.chan_pimWrite (s : State) (a w : Word) (b : BerthId) : (s.pimWrite a w).chan b = s.chan b := rfl
@[simp] theorem State.chan_setBerth (s : State) (b' : BerthId) (r : Berth) (b : BerthId) : (s.setBerth b' r).chan b = s.chan b := rfl
@[simp] theorem State.chan_setSup (s : State) (b' : BerthId) (r : Supervision) (b : BerthId) : (s.setSup b' r).chan b = s.chan b := rfl
@[simp] theorem State.chan_setBlock (s : State) (b' : BerthId) (k : BlockScan) (b : BerthId) : (s.setBlock b' k).chan b = s.chan b := rfl
@[simp] theorem State.chan_setOwq (s : State) (q : List OwnWrite) (b : BerthId) : (s.setOwq q).chan b = s.chan b := rfl
@[simp] theorem State.chan_setLog (s : State) (l : Log) (b : BerthId) : (s.setLog l).chan b = s.chan b := rfl
@[simp] theorem State.chan_setBudget (s : State) (u : Budget) (b : BerthId) : (s.setBudget u).chan b = s.chan b := rfl
@[simp] theorem State.chan_setHolds (s : State) (l : List Hold) (b : BerthId) : (s.setHolds l).chan b = s.chan b := rfl
@[simp] theorem State.chan_setPorts (s : State) (p : Ports) (b : BerthId) : (s.setPorts p).chan b = s.chan b := rfl
@[simp] theorem State.chan_setScan (s : State) (e : ScanEngine) (b : BerthId) : (s.setScan e).chan b = s.chan b := rfl
@[simp] theorem State.chan_setTimer (s : State) (t : TimerBank) (b : BerthId) : (s.setTimer t).chan b = s.chan b := rfl
@[simp] theorem State.chan_setOwed (s : State) (b' : BerthId) (o : Owed) (b : BerthId) : (s.setOwed b' o).chan b = s.chan b := rfl
@[simp] theorem State.chan_setLoader (s : State) (l : Loader) (b : BerthId) : (s.setLoader l).chan b = s.chan b := rfl
@[simp] theorem State.chan_setGroupTaken (s : State) (g : GroupId) (x : Bool) (b : BerthId) : (s.setGroupTaken g x).chan b = s.chan b := rfl

@[simp] theorem State.block_setBlock_same (s : State) (b : BerthId) (k : BlockScan) : (s.setBlock b k).block b = k :=
  Eight.get_set_same _ _ _

@[simp] theorem State.block_setBlock_of_ne (s : State) {b c : BerthId} (x : BlockScan) (h : c ≠ b) :
    (s.setBlock b x).block c = s.block c :=
  Eight.get_set_of_ne _ _ h

@[simp] theorem State.block_pimWrite (s : State) (a w : Word) (b : BerthId) : (s.pimWrite a w).block b = s.block b := rfl
@[simp] theorem State.block_setBerth (s : State) (b' : BerthId) (r : Berth) (b : BerthId) : (s.setBerth b' r).block b = s.block b := rfl
@[simp] theorem State.block_setSup (s : State) (b' : BerthId) (r : Supervision) (b : BerthId) : (s.setSup b' r).block b = s.block b := rfl
@[simp] theorem State.block_setChan (s : State) (b' : BerthId) (c : Channels) (b : BerthId) : (s.setChan b' c).block b = s.block b := rfl
@[simp] theorem State.block_setOwq (s : State) (q : List OwnWrite) (b : BerthId) : (s.setOwq q).block b = s.block b := rfl
@[simp] theorem State.block_setLog (s : State) (l : Log) (b : BerthId) : (s.setLog l).block b = s.block b := rfl
@[simp] theorem State.block_setBudget (s : State) (u : Budget) (b : BerthId) : (s.setBudget u).block b = s.block b := rfl
@[simp] theorem State.block_setHolds (s : State) (l : List Hold) (b : BerthId) : (s.setHolds l).block b = s.block b := rfl
@[simp] theorem State.block_setPorts (s : State) (p : Ports) (b : BerthId) : (s.setPorts p).block b = s.block b := rfl
@[simp] theorem State.block_setScan (s : State) (e : ScanEngine) (b : BerthId) : (s.setScan e).block b = s.block b := rfl
@[simp] theorem State.block_setTimer (s : State) (t : TimerBank) (b : BerthId) : (s.setTimer t).block b = s.block b := rfl
@[simp] theorem State.block_setOwed (s : State) (b' : BerthId) (o : Owed) (b : BerthId) : (s.setOwed b' o).block b = s.block b := rfl
@[simp] theorem State.block_setLoader (s : State) (l : Loader) (b : BerthId) : (s.setLoader l).block b = s.block b := rfl
@[simp] theorem State.block_setGroupTaken (s : State) (g : GroupId) (x : Bool) (b : BerthId) : (s.setGroupTaken g x).block b = s.block b := rfl

/-! ## What the tick under way has still to reach -/

@[simp] theorem State.owed_setOwed_same (s : State) (b : BerthId) (o : Owed) : (s.setOwed b o).owed b = o :=
  Eight.get_set_same _ _ _

@[simp] theorem State.owed_setOwed_of_ne (s : State) {b c : BerthId} (o : Owed) (h : c ≠ b) :
    (s.setOwed b o).owed c = s.owed c :=
  Eight.get_set_of_ne _ _ h

@[simp] theorem State.owed_setTimer (s : State) (t : TimerBank) (b : BerthId) : (s.setTimer t).owed b = t.owed.get b := rfl
@[simp] theorem State.owed_setBlock (s : State) (b' : BerthId) (k : BlockScan) (b : BerthId) : (s.setBlock b' k).owed b = s.owed b := rfl
@[simp] theorem State.owed_pimWrite (s : State) (a w : Word) (b : BerthId) : (s.pimWrite a w).owed b = s.owed b := rfl
@[simp] theorem State.owed_setBerth (s : State) (b' : BerthId) (r : Berth) (b : BerthId) : (s.setBerth b' r).owed b = s.owed b := rfl
@[simp] theorem State.owed_setSup (s : State) (b' : BerthId) (r : Supervision) (b : BerthId) : (s.setSup b' r).owed b = s.owed b := rfl
@[simp] theorem State.owed_setChan (s : State) (b' : BerthId) (c : Channels) (b : BerthId) : (s.setChan b' c).owed b = s.owed b := rfl
@[simp] theorem State.owed_setOwq (s : State) (q : List OwnWrite) (b : BerthId) : (s.setOwq q).owed b = s.owed b := rfl
@[simp] theorem State.owed_setLog (s : State) (l : Log) (b : BerthId) : (s.setLog l).owed b = s.owed b := rfl
@[simp] theorem State.owed_setBudget (s : State) (u : Budget) (b : BerthId) : (s.setBudget u).owed b = s.owed b := rfl
@[simp] theorem State.owed_setHolds (s : State) (l : List Hold) (b : BerthId) : (s.setHolds l).owed b = s.owed b := rfl
@[simp] theorem State.owed_setPorts (s : State) (p : Ports) (b : BerthId) : (s.setPorts p).owed b = s.owed b := rfl
@[simp] theorem State.owed_setScan (s : State) (e : ScanEngine) (b : BerthId) : (s.setScan e).owed b = s.owed b := rfl
@[simp] theorem State.owed_setLoader (s : State) (l : Loader) (b : BerthId) : (s.setLoader l).owed b = s.owed b := rfl
@[simp] theorem State.owed_setGroupTaken (s : State) (g : GroupId) (x : Bool) (b : BerthId) : (s.setGroupTaken g x).owed b = s.owed b := rfl

/-! ## The tables, read through an update -/

@[simp] theorem State.static_setBerth (s : State) (b : BerthId) (r : Berth) (i : BerthId) : (s.setBerth b r).static i = s.static i := rfl
@[simp] theorem State.static_setSup (s : State) (b : BerthId) (r : Supervision) (i : BerthId) : (s.setSup b r).static i = s.static i := rfl
@[simp] theorem State.static_setChan (s : State) (b : BerthId) (c : Channels) (i : BerthId) : (s.setChan b c).static i = s.static i := rfl
@[simp] theorem State.static_setBlock (s : State) (b : BerthId) (k : BlockScan) (i : BerthId) : (s.setBlock b k).static i = s.static i := rfl
@[simp] theorem State.static_setOwq (s : State) (q : List OwnWrite) (i : BerthId) : (s.setOwq q).static i = s.static i := rfl
@[simp] theorem State.static_setLog (s : State) (l : Log) (i : BerthId) : (s.setLog l).static i = s.static i := rfl
@[simp] theorem State.static_setBudget (s : State) (u : Budget) (i : BerthId) : (s.setBudget u).static i = s.static i := rfl
@[simp] theorem State.static_setHolds (s : State) (h : List Hold) (i : BerthId) : (s.setHolds h).static i = s.static i := rfl
@[simp] theorem State.static_setPorts (s : State) (p : Ports) (i : BerthId) : (s.setPorts p).static i = s.static i := rfl
@[simp] theorem State.static_setScan (s : State) (e : ScanEngine) (i : BerthId) : (s.setScan e).static i = s.static i := rfl
@[simp] theorem State.static_setTimer (s : State) (m : TimerBank) (i : BerthId) : (s.setTimer m).static i = s.static i := rfl
@[simp] theorem State.static_setOwed (s : State) (b' : BerthId) (o : Owed) (i : BerthId) : (s.setOwed b' o).static i = s.static i := rfl
@[simp] theorem State.static_setLoader (s : State) (l : Loader) (i : BerthId) : (s.setLoader l).static i = s.static i := rfl
@[simp] theorem State.static_setGroupTaken (s : State) (g : GroupId) (x : Bool) (i : BerthId) : (s.setGroupTaken g x).static i = s.static i := rfl

@[simp] theorem State.threshold_setBerth (s : State) (b : BerthId) (r : Berth) (i : Nat) : (s.setBerth b r).threshold i = s.threshold i := rfl
@[simp] theorem State.threshold_setSup (s : State) (b : BerthId) (r : Supervision) (i : Nat) : (s.setSup b r).threshold i = s.threshold i := rfl
@[simp] theorem State.threshold_setChan (s : State) (b : BerthId) (c : Channels) (i : Nat) : (s.setChan b c).threshold i = s.threshold i := rfl
@[simp] theorem State.threshold_setBlock (s : State) (b : BerthId) (k : BlockScan) (i : Nat) : (s.setBlock b k).threshold i = s.threshold i := rfl
@[simp] theorem State.threshold_setOwq (s : State) (q : List OwnWrite) (i : Nat) : (s.setOwq q).threshold i = s.threshold i := rfl
@[simp] theorem State.threshold_setLog (s : State) (l : Log) (i : Nat) : (s.setLog l).threshold i = s.threshold i := rfl
@[simp] theorem State.threshold_setBudget (s : State) (u : Budget) (i : Nat) : (s.setBudget u).threshold i = s.threshold i := rfl
@[simp] theorem State.threshold_setHolds (s : State) (h : List Hold) (i : Nat) : (s.setHolds h).threshold i = s.threshold i := rfl
@[simp] theorem State.threshold_setPorts (s : State) (p : Ports) (i : Nat) : (s.setPorts p).threshold i = s.threshold i := rfl
@[simp] theorem State.threshold_setScan (s : State) (e : ScanEngine) (i : Nat) : (s.setScan e).threshold i = s.threshold i := rfl
@[simp] theorem State.threshold_setTimer (s : State) (m : TimerBank) (i : Nat) : (s.setTimer m).threshold i = s.threshold i := rfl
@[simp] theorem State.threshold_setOwed (s : State) (b' : BerthId) (o : Owed) (i : Nat) : (s.setOwed b' o).threshold i = s.threshold i := rfl
@[simp] theorem State.threshold_setLoader (s : State) (l : Loader) (i : Nat) : (s.setLoader l).threshold i = s.threshold i := rfl
@[simp] theorem State.threshold_setGroupTaken (s : State) (g : GroupId) (x : Bool) (i : Nat) : (s.setGroupTaken g x).threshold i = s.threshold i := rfl

@[simp] theorem State.levelEntry_setBerth (s : State) (b : BerthId) (r : Berth) (i : Nat) : (s.setBerth b r).levelEntry i = s.levelEntry i := rfl
@[simp] theorem State.levelEntry_setSup (s : State) (b : BerthId) (r : Supervision) (i : Nat) : (s.setSup b r).levelEntry i = s.levelEntry i := rfl
@[simp] theorem State.levelEntry_setChan (s : State) (b : BerthId) (c : Channels) (i : Nat) : (s.setChan b c).levelEntry i = s.levelEntry i := rfl
@[simp] theorem State.levelEntry_setBlock (s : State) (b : BerthId) (k : BlockScan) (i : Nat) : (s.setBlock b k).levelEntry i = s.levelEntry i := rfl
@[simp] theorem State.levelEntry_setOwq (s : State) (q : List OwnWrite) (i : Nat) : (s.setOwq q).levelEntry i = s.levelEntry i := rfl
@[simp] theorem State.levelEntry_setLog (s : State) (l : Log) (i : Nat) : (s.setLog l).levelEntry i = s.levelEntry i := rfl
@[simp] theorem State.levelEntry_setBudget (s : State) (u : Budget) (i : Nat) : (s.setBudget u).levelEntry i = s.levelEntry i := rfl
@[simp] theorem State.levelEntry_setHolds (s : State) (h : List Hold) (i : Nat) : (s.setHolds h).levelEntry i = s.levelEntry i := rfl
@[simp] theorem State.levelEntry_setPorts (s : State) (p : Ports) (i : Nat) : (s.setPorts p).levelEntry i = s.levelEntry i := rfl
@[simp] theorem State.levelEntry_setScan (s : State) (e : ScanEngine) (i : Nat) : (s.setScan e).levelEntry i = s.levelEntry i := rfl
@[simp] theorem State.levelEntry_setTimer (s : State) (m : TimerBank) (i : Nat) : (s.setTimer m).levelEntry i = s.levelEntry i := rfl
@[simp] theorem State.levelEntry_setOwed (s : State) (b' : BerthId) (o : Owed) (i : Nat) : (s.setOwed b' o).levelEntry i = s.levelEntry i := rfl
@[simp] theorem State.levelEntry_setLoader (s : State) (l : Loader) (i : Nat) : (s.setLoader l).levelEntry i = s.levelEntry i := rfl
@[simp] theorem State.levelEntry_setGroupTaken (s : State) (g : GroupId) (x : Bool) (i : Nat) : (s.setGroupTaken g x).levelEntry i = s.levelEntry i := rfl

@[simp] theorem State.levelCredits_setBerth (s : State) (b : BerthId) (r : Berth) (i : Nat) : (s.setBerth b r).levelCredits i = s.levelCredits i := rfl
@[simp] theorem State.levelCredits_setSup (s : State) (b : BerthId) (r : Supervision) (i : Nat) : (s.setSup b r).levelCredits i = s.levelCredits i := rfl
@[simp] theorem State.levelCredits_setChan (s : State) (b : BerthId) (c : Channels) (i : Nat) : (s.setChan b c).levelCredits i = s.levelCredits i := rfl
@[simp] theorem State.levelCredits_setBlock (s : State) (b : BerthId) (k : BlockScan) (i : Nat) : (s.setBlock b k).levelCredits i = s.levelCredits i := rfl
@[simp] theorem State.levelCredits_setOwq (s : State) (q : List OwnWrite) (i : Nat) : (s.setOwq q).levelCredits i = s.levelCredits i := rfl
@[simp] theorem State.levelCredits_setLog (s : State) (l : Log) (i : Nat) : (s.setLog l).levelCredits i = s.levelCredits i := rfl
@[simp] theorem State.levelCredits_setBudget (s : State) (u : Budget) (i : Nat) : (s.setBudget u).levelCredits i = s.levelCredits i := rfl
@[simp] theorem State.levelCredits_setHolds (s : State) (h : List Hold) (i : Nat) : (s.setHolds h).levelCredits i = s.levelCredits i := rfl
@[simp] theorem State.levelCredits_setPorts (s : State) (p : Ports) (i : Nat) : (s.setPorts p).levelCredits i = s.levelCredits i := rfl
@[simp] theorem State.levelCredits_setScan (s : State) (e : ScanEngine) (i : Nat) : (s.setScan e).levelCredits i = s.levelCredits i := rfl
@[simp] theorem State.levelCredits_setTimer (s : State) (m : TimerBank) (i : Nat) : (s.setTimer m).levelCredits i = s.levelCredits i := rfl
@[simp] theorem State.levelCredits_setOwed (s : State) (b' : BerthId) (o : Owed) (i : Nat) : (s.setOwed b' o).levelCredits i = s.levelCredits i := rfl
@[simp] theorem State.levelCredits_setLoader (s : State) (l : Loader) (i : Nat) : (s.setLoader l).levelCredits i = s.levelCredits i := rfl
@[simp] theorem State.levelCredits_setGroupTaken (s : State) (g : GroupId) (x : Bool) (i : Nat) : (s.setGroupTaken g x).levelCredits i = s.levelCredits i := rfl

@[simp] theorem State.configured_setBerth (s : State) (b : BerthId) (r : Berth) (i : BerthId) : (s.setBerth b r).configured i = s.configured i := rfl
@[simp] theorem State.configured_setSup (s : State) (b : BerthId) (r : Supervision) (i : BerthId) : (s.setSup b r).configured i = s.configured i := rfl
@[simp] theorem State.configured_setChan (s : State) (b : BerthId) (c : Channels) (i : BerthId) : (s.setChan b c).configured i = s.configured i := rfl
@[simp] theorem State.configured_setBlock (s : State) (b : BerthId) (k : BlockScan) (i : BerthId) : (s.setBlock b k).configured i = s.configured i := rfl
@[simp] theorem State.configured_setOwq (s : State) (q : List OwnWrite) (i : BerthId) : (s.setOwq q).configured i = s.configured i := rfl
@[simp] theorem State.configured_setLog (s : State) (l : Log) (i : BerthId) : (s.setLog l).configured i = s.configured i := rfl
@[simp] theorem State.configured_setBudget (s : State) (u : Budget) (i : BerthId) : (s.setBudget u).configured i = s.configured i := rfl
@[simp] theorem State.configured_setHolds (s : State) (h : List Hold) (i : BerthId) : (s.setHolds h).configured i = s.configured i := rfl
@[simp] theorem State.configured_setPorts (s : State) (p : Ports) (i : BerthId) : (s.setPorts p).configured i = s.configured i := rfl
@[simp] theorem State.configured_setScan (s : State) (e : ScanEngine) (i : BerthId) : (s.setScan e).configured i = s.configured i := rfl
@[simp] theorem State.configured_setTimer (s : State) (m : TimerBank) (i : BerthId) : (s.setTimer m).configured i = s.configured i := rfl
@[simp] theorem State.configured_setOwed (s : State) (b' : BerthId) (o : Owed) (i : BerthId) : (s.setOwed b' o).configured i = s.configured i := rfl
@[simp] theorem State.configured_setLoader (s : State) (l : Loader) (i : BerthId) : (s.setLoader l).configured i = s.configured i := rfl
@[simp] theorem State.configured_setGroupTaken (s : State) (g : GroupId) (x : Bool) (i : BerthId) : (s.setGroupTaken g x).configured i = s.configured i := rfl

end Machine

end Sys2Proof
end

