-- ==== Sys2Proof/Laws/Log.lean ====
section
/-! SUPPORT. The log's bounds (R154, R156, R158): what the staging list and the ring can hold after each operation of the Log
Unit. -/

namespace Sys2Proof.Machine

/-- The ring's count without the remainder (R157). -/
theorem Log.ringCount_eq {l : Log} (hp : l.producer < l.capacity) (hc : l.consumer < l.capacity) :
    l.ringCount = if l.consumer ≤ l.producer then l.producer - l.consumer else l.producer + l.capacity - l.consumer := by
  unfold Log.ringCount
  split
  · have : l.producer + l.capacity - l.consumer = (l.producer - l.consumer) + l.capacity := by omega
    rw [this, Nat.add_mod_right, Nat.mod_eq_of_lt (by omega)]
  · rw [Nat.mod_eq_of_lt (by omega)]

/-- Staging changes neither index nor the capacity. -/
@[simp] theorem Log.stage_capacity (l : Log) (r : Record) : (l.stage r).capacity = l.capacity := by
  unfold Log.stage; split <;> rfl
@[simp] theorem Log.stage_producer (l : Log) (r : Record) : (l.stage r).producer = l.producer := by
  unfold Log.stage; split <;> rfl
@[simp] theorem Log.stage_consumer (l : Log) (r : Record) : (l.stage r).consumer = l.consumer := by
  unfold Log.stage; split <;> rfl
@[simp] theorem Log.stage_wordIndex (l : Log) (r : Record) : (l.stage r).wordIndex = l.wordIndex := by
  unfold Log.stage; split <;> rfl
@[simp] theorem Log.stage_producerWaiting (l : Log) (r : Record) : (l.stage r).producerWaiting = l.producerWaiting := by
  unfold Log.stage; split <;> rfl
@[simp] theorem Log.stage_firstHeaders (l : Log) (r : Record) : (l.stage r).firstHeaders = l.firstHeaders := by
  unfold Log.stage; split <;> rfl

/-- A record only adds to the staging list. -/
theorem Log.stage_staging (l : Log) (r : Record) : ∃ more, (l.stage r).staging = l.staging ++ more := by
  unfold Log.stage
  split
  · exact ⟨[r], rfl⟩
  · exact ⟨[], by simp⟩

/-- Two logs that stage alike: the same room, the same staging list. -/
structure Log.Alike (l l' : Log) : Prop where
  capacity : l'.capacity = l.capacity
  producer : l'.producer = l.producer
  consumer : l'.consumer = l.consumer
  staging : l'.staging = l.staging

theorem Log.Alike.refl (l : Log) : l.Alike l := ⟨rfl, rfl, rfl, rfl⟩

theorem Log.Alike.trans {l l' l'' : Log} (h : l.Alike l') (h' : l'.Alike l'') : l.Alike l'' :=
  ⟨h'.capacity.trans h.capacity, h'.producer.trans h.producer, h'.consumer.trans h.consumer, h'.staging.trans h.staging⟩

theorem Log.Alike.hasRoom {l l' : Log} (h : l.Alike l') : l'.hasRoom = l.hasRoom := by
  unfold Log.hasRoom Log.ringCount
  rw [h.capacity, h.producer, h.consumer, h.staging]

/-- Logs that stage alike stay alike. -/
theorem Log.Alike.stage {l l' : Log} (h : l.Alike l') (r : Record) : (l.stage r).Alike (l'.stage r) := by
  unfold Log.stage
  rw [h.hasRoom]
  split
  · exact ⟨h.capacity, h.producer, h.consumer, by rw [h.staging]⟩
  · exact ⟨h.capacity, h.producer, h.consumer, h.staging⟩

theorem Log.Alike.stageAll {l l' : Log} (h : l.Alike l') (rs : List Record) : (l.stageAll rs).Alike (l'.stageAll rs) := by
  unfold Log.stageAll
  induction rs generalizing l l' with
  | nil => exact h
  | cons r rest ih => exact ih (h.stage r)

@[simp] theorem Log.stageAll_nil (l : Log) : l.stageAll [] = l := rfl
@[simp] theorem Log.stageAll_cons (l : Log) (r : Record) (rs : List Record) : l.stageAll (r :: rs) = (l.stage r).stageAll rs := rfl
theorem Log.stageAll_append (l : Log) (rs rs' : List Record) : l.stageAll (rs ++ rs') = (l.stageAll rs).stageAll rs' :=
  List.foldl_append

/-- A staged record never empties the staging list. -/
theorem Log.stage_staging_ne_nil {l : Log} (r : Record) (h : l.staging ≠ []) : (l.stage r).staging ≠ [] := by
  unfold Log.stage
  split
  · simp
  · exact h

/-- Where there is room there is a log, with a place in the ring and in the staging list. -/
theorem Log.sound_of_hasRoom {l : Log} (h : l.sound) (hr : l.hasRoom = true) :
    l.producer < l.capacity ∧ l.consumer < l.capacity ∧ l.ringCount + l.staging.length + 1 ≤ l.capacity - 1
      ∧ l.staging.length < stagingCapacity := by
  unfold Log.hasRoom at hr
  simp only [Bool.and_eq_true, decide_eq_true_eq] at hr
  rcases h.2 with ⟨h0, _⟩ | ⟨h1, h2, _⟩
  · omega
  · exact ⟨h1, h2, hr.1, hr.2⟩

/-- A record that is staged or dropped keeps the bounds (R156, R158). -/
theorem Log.sound_stage {l : Log} (r : Record) (h : l.sound) : (l.stage r).sound := by
  unfold Log.stage
  split
  · rename_i hr
    obtain ⟨h1, h2, h3, h4⟩ := Log.sound_of_hasRoom h hr
    refine ⟨?_, .inr ⟨h1, h2, ?_⟩⟩
    · simp only [List.length_append, List.length_cons, List.length_nil]
      omega
    · simp only [List.length_append, List.length_cons, List.length_nil, Log.ringCount] at h3 ⊢
      omega
  · exact h

/-- Freed room keeps the bounds (R158). -/
theorem Log.sound_roomFreed {l : Log} (stamp : Word) (h : l.sound) : (l.roomFreed stamp).sound := by
  unfold Log.roomFreed
  split
  · rename_i hr
    simp only [Bool.and_eq_true] at hr
    obtain ⟨h1, h2, h3, h4⟩ := Log.sound_of_hasRoom h hr.2
    refine ⟨?_, .inr ⟨h1, h2, ?_⟩⟩
    · simp only [List.length_append, List.length_cons, List.length_nil]
      omega
    · simp only [List.length_append, List.length_cons, List.length_nil, Log.ringCount] at h3 ⊢
      omega
  · exact h

/-- Freed room never empties the staging list. -/
theorem Log.roomFreed_staging_ne_nil {l : Log} (stamp : Word) (h : l.staging ≠ []) : (l.roomFreed stamp).staging ≠ [] := by
  unfold Log.roomFreed
  split
  · simp
  · exact h

/-- With the overflow flag clear, freed room is nothing. -/
theorem Log.roomFreed_of_no_overflow {l : Log} (stamp : Word) (h : l.overflow = false) : l.roomFreed stamp = l := by
  simp [Log.roomFreed, h]

/-- An accepted CONSUMER value keeps the bounds: the ring never holds more than before (R157). -/
theorem Log.sound_setConsumer {l : Log} {v : Nat} (stamp : Word) (h : l.sound) (ha : l.acceptsConsumer v = true) :
    (l.setConsumer v stamp).sound := by
  unfold Log.setConsumer
  split
  · exact h
  · apply Log.sound_roomFreed
    unfold Log.acceptsConsumer at ha
    simp only [Bool.and_eq_true, decide_eq_true_eq] at ha
    obtain ⟨hv, hr⟩ := ha
    obtain ⟨hl, h0 | ⟨hp, hc, hs⟩⟩ := h
    · omega
    · refine ⟨hl, .inr ⟨hp, hv, ?_⟩⟩
      have e1 := Log.ringCount_eq hp hc
      have e2 := Log.ringCount_eq (l := { l with consumer := v }) hp hv
      have e3 := Log.ringCount_eq (l := { l with producer := v }) hv hc
      have e4 : (v + l.capacity - l.consumer) % l.capacity = Log.ringCount { l with producer := v } := rfl
      rw [e4, e3, e1] at hr
      rw [e1] at hs
      rw [e2]
      dsimp only at hr ⊢
      revert hr hs
      repeat' split
      all_goals omega

/-- An accepted CONSUMER value never empties the staging list. -/
theorem Log.setConsumer_staging_ne_nil {l : Log} (v : Nat) (stamp : Word) (h : l.staging ≠ []) :
    (l.setConsumer v stamp).staging ≠ [] := by
  unfold Log.setConsumer
  split
  · exact h
  · exact Log.roomFreed_staging_ne_nil _ h

/-- A written record moves from the staging list to the ring: the bounds are kept (R156, R158). -/
theorem Log.sound_recordDone {l : Log} (stamp : Word) (h : l.sound) (hne : l.staging ≠ []) :
    (l.recordDone stamp).sound := by
  obtain ⟨hl, ⟨_, h0⟩ | ⟨hp, hc, hs⟩⟩ := h
  · exact absurd h0 hne
  · have hlen : 0 < l.staging.length := List.length_pos_iff.mpr hne
    have key : Log.sound
        { l with
          staging := l.staging.tail
          wordIndex := 0
          producer := if l.producer + 1 < l.capacity then l.producer + 1 else 0
          producerWaiting := true } := by
      have hp' : (if l.producer + 1 < l.capacity then l.producer + 1 else 0) < l.capacity := by split <;> omega
      refine ⟨by simp only [List.length_tail]; omega, .inr ⟨hp', hc, ?_⟩⟩
      rw [Log.ringCount_eq hp hc] at hs
      have e := Log.ringCount_eq (l := { l with producer := if l.producer + 1 < l.capacity then l.producer + 1 else 0 }) hp' hc
      show Log.ringCount { l with producer := if l.producer + 1 < l.capacity then l.producer + 1 else 0 }
        + l.staging.tail.length ≤ l.capacity - 1
      rw [e, List.length_tail]
      dsimp only
      revert hs
      repeat' split
      all_goals omega
    unfold Log.recordDone
    apply Log.sound_roomFreed
    dsimp only
    generalize ((match l.staging with
      | r :: _ => decide (r.type = .overflow)
      | [] => false) && decide (l.dropCount = 0)) = c
    cases c
    · exact key
    · exact key

/-- A completed Log Unit write keeps the bounds (R154, R156). -/
theorem Log.sound_completed {l : Log} (k : LogWrite) (stamp : Word) (h : l.sound)
    (hne : ∀ i, k = .recordWord i → l.staging ≠ []) : (l.completed k stamp).sound := by
  unfold Log.completed
  split
  · exact h
  · split
    · exact h
    · exact Log.sound_recordDone _ h (hne _ rfl)
  · exact h
  · exact h

/-- A granted header word keeps the bounds. -/
theorem Log.sound_granted {l : Log} (k : LogWrite) (h : l.sound) : (l.granted k).sound := by
  unfold Log.granted
  split <;> exact h

/-- A grant does not touch the staging list. -/
@[simp] theorem Log.granted_staging (l : Log) (k : LogWrite) : (l.granted k).staging = l.staging := by
  unfold Log.granted
  split <;> rfl

/-- A record word is the Log Unit's next access only while a record is staged (R156). -/
theorem Log.staging_ne_nil_of_next {l : Log} {i : Nat} (h : l.next = some (.recordWord i)) : l.staging ≠ [] := by
  unfold Log.next at h
  split at h
  · cases h
  · split at h
    · cases h
    · split at h
      · rename_i hst
        rw [hst]
        simp
      · split at h
        · cases h
        · split at h
          · cases h
          · split at h <;> cases h

end Sys2Proof.Machine
end

