-- ==== Sys2Proof/Laws/OwnWrites.lean ====
section
/-! SUPPORT. The Own Write Queue: every placement and removal keeps its order (R138 to R142), and what the queue carries. -/

namespace Sys2Proof.Machine

theorem tripAt_iff {q : List OwnWrite} {a : Word} : tripAt q a = true ↔ ∃ e ∈ q, e.address = a ∧ e.cls = .trip := by
  simp [tripAt]

theorem entryAt_iff {q : List OwnWrite} {a : Word} : entryAt q a = true ↔ ∃ e ∈ q, e.address = a := by
  simp [entryAt]

/-- One entry per address: the address names the entry. -/
theorem eq_of_address_eq {q : List OwnWrite} (h : (q.map fun e => e.address).Nodup) {x y : OwnWrite} (hx : x ∈ q)
    (hy : y ∈ q) (hxy : x.address = y.address) : x = y := by
  induction q with
  | nil => cases hx
  | cons z rest ih =>
    rw [List.map_cons, List.nodup_cons] at h
    rcases List.mem_cons.mp hx with hx | hx <;> rcases List.mem_cons.mp hy with hy | hy
    · rw [hx, hy]
    · exact absurd (List.mem_map.mpr ⟨y, hy, by rw [← hxy, hx]⟩) h.1
    · exact absurd (List.mem_map.mpr ⟨x, hx, by rw [hxy, hy]⟩) h.1
    · exact ih h.2 hx hy

/-- Placing a SEQ or REPORT write keeps the order (R139). -/
theorem ownWritesOrdered_placeWrite {q : List OwnWrite} {e : OwnWrite} (h : ownWritesOrdered q) (he : e.cls ≠ .trip) :
    ownWritesOrdered (placeWrite q e) := by
  obtain ⟨h1, h2⟩ := h
  unfold placeWrite
  split
  · exact ⟨h1, h2⟩
  · split
    · refine ⟨?_, ?_⟩
      · rw [List.map_map]
        have : (q.map ((fun x => x.address) ∘ fun x => if x.address = e.address then { x with data := e.data } else x))
            = q.map fun x => x.address := by
          refine List.map_congr_left fun x _ => ?_
          simp only [Function.comp_apply]
          split <;> rfl
        rw [this]
        exact h1
      · rw [List.pairwise_map]
        refine h2.imp fun {x y} hxy => ?_
        have key : ∀ z : OwnWrite, (if z.address = e.address then { z with data := e.data } else z).cls = z.cls := by
          intro z
          split <;> rfl
        rw [key, key]
        exact hxy
    · rename_i hn
      refine ⟨?_, ?_⟩
      · rw [List.map_append, List.nodup_append]
        refine ⟨h1, by simp, ?_⟩
        intro x hx y hy
        obtain ⟨z, hz, rfl⟩ := List.mem_map.mp hx
        simp only [List.map_cons, List.map_nil, List.mem_singleton] at hy
        subst hy
        intro heq
        exact hn (entryAt_iff.mpr ⟨z, hz, heq⟩)
      · rw [List.pairwise_append]
        refine ⟨h2, by simp, ?_⟩
        intro x _ y hy hc
        rw [List.mem_singleton] at hy
        subst hy
        exact absurd hc he

/-- Any part of an ordered queue is ordered. -/
theorem ownWritesOrdered_sublist {q p : List OwnWrite} (h : ownWritesOrdered q) (hs : p.Sublist q) :
    ownWritesOrdered p :=
  ⟨h.1.sublist (hs.map _), h.2.sublist hs⟩

/-- A removal keeps the order (R142). -/
theorem ownWritesOrdered_removeAt {q : List OwnWrite} (a : Word) (h : ownWritesOrdered q) :
    ownWritesOrdered (removeAt q a) :=
  ownWritesOrdered_sublist h List.filter_sublist

/-- Placing a TRIP write keeps the order (R140). -/
theorem ownWritesOrdered_placeTrip {q : List OwnWrite} {e : OwnWrite} (h : ownWritesOrdered q) (he : e.cls = .trip) :
    ownWritesOrdered (placeTrip q e) := by
  unfold placeTrip
  dsimp only
  have hr := ownWritesOrdered_sublist h (p := q.filter fun x => decide (x.address ≠ e.address)) List.filter_sublist
  have hmem : ∀ x ∈ q.filter (fun x => decide (x.address ≠ e.address)), x.address ≠ e.address := by
    intro x hx
    simpa using (List.mem_filter.mp hx).2
  generalize q.filter (fun x => decide (x.address ≠ e.address)) = r at hr hmem
  obtain ⟨h1, h2⟩ := hr
  refine ⟨?_, ?_⟩
  · rw [List.map_append, List.map_cons, List.nodup_append]
    refine ⟨h1.sublist (List.filter_sublist.map _), ?_, ?_⟩
    · rw [List.nodup_cons]
      refine ⟨?_, h1.sublist (List.filter_sublist.map _)⟩
      intro hm
      obtain ⟨x, hx, hxa⟩ := List.mem_map.mp hm
      exact hmem x (List.mem_filter.mp hx).1 hxa
    · intro a ha c hc hac
      obtain ⟨x, hx, rfl⟩ := List.mem_map.mp ha
      obtain ⟨hx1, hx2⟩ := List.mem_filter.mp hx
      rcases List.mem_cons.mp hc with hc | hc
      · exact hmem x hx1 (hac.trans hc)
      · obtain ⟨y, hy, rfl⟩ := List.mem_map.mp hc
        obtain ⟨hy1, hy2⟩ := List.mem_filter.mp hy
        have := eq_of_address_eq h1 hx1 hy1 hac
        subst this
        simp at hx2 hy2
        exact hy2 hx2
  · rw [List.pairwise_append]
    refine ⟨h2.sublist List.filter_sublist, ?_, ?_⟩
    · rw [List.pairwise_cons]
      exact ⟨fun _ _ _ => he, h2.sublist List.filter_sublist⟩
    · intro x hx y _ _
      simpa using (List.mem_filter.mp hx).2

/-- A placement adds at most its own address. -/
theorem mem_placeWrite {q : List OwnWrite} {e x : OwnWrite} (h : x ∈ placeWrite q e) :
    x.address = e.address ∨ ∃ y ∈ q, y.address = x.address := by
  unfold placeWrite at h
  split at h
  · exact .inr ⟨x, h, rfl⟩
  · split at h
    · obtain ⟨y, hy, rfl⟩ := List.mem_map.mp h
      refine .inr ⟨y, hy, ?_⟩
      split <;> rfl
    · rcases List.mem_append.mp h with h | h
      · exact .inr ⟨x, h, rfl⟩
      · exact .inl (by rw [List.mem_singleton.mp h])

/-- A TRIP placement adds at most its own address. -/
theorem mem_placeTrip {q : List OwnWrite} {e x : OwnWrite} (h : x ∈ placeTrip q e) :
    x.address = e.address ∨ ∃ y ∈ q, y.address = x.address := by
  unfold placeTrip at h
  dsimp only at h
  rcases List.mem_append.mp h with h | h
  · exact .inr ⟨x, (List.mem_filter.mp (List.mem_filter.mp h).1).1, rfl⟩
  · rcases List.mem_cons.mp h with h | h
    · exact .inl (by rw [h])
    · exact .inr ⟨x, (List.mem_filter.mp (List.mem_filter.mp h).1).1, rfl⟩

/-- A SEQ or REPORT placement leaves every TRIP entry's address with a TRIP entry. -/
theorem tripAt_placeWrite {q : List OwnWrite} {e : OwnWrite} {a : Word} (h : tripAt q a = true) :
    tripAt (placeWrite q e) a = true := by
  unfold placeWrite
  split
  · exact h
  · rw [tripAt_iff] at h ⊢
    obtain ⟨x, hx, hxa, hxc⟩ := h
    split
    · refine ⟨_, List.mem_map.mpr ⟨x, hx, rfl⟩, ?_, ?_⟩
      · split <;> exact hxa
      · split <;> exact hxc
    · exact ⟨x, List.mem_append.mpr (.inl hx), hxa, hxc⟩

/-- A SEQ or REPORT placement leaves every TRIP entry as it is (R139). -/
theorem trip_mem_placeWrite {q : List OwnWrite} {e x : OwnWrite} (h : x ∈ q) (hc : x.cls = .trip) : x ∈ placeWrite q e := by
  unfold placeWrite
  split
  · exact h
  · rename_i ht
    split
    · have hx : x.address ≠ e.address := fun ha => ht (tripAt_iff.mpr ⟨x, h, ha, hc⟩)
      exact List.mem_map.mpr ⟨x, h, by simp [hx]⟩
    · exact List.mem_append.mpr (.inl h)

/-- A TRIP placement puts its entry into the queue (R140). -/
theorem mem_placeTrip_self (q : List OwnWrite) (e : OwnWrite) : e ∈ placeTrip q e := by simp [placeTrip]

/-- A TRIP placement leaves every TRIP entry at another address as it is (R140). -/
theorem trip_mem_placeTrip {q : List OwnWrite} {e x : OwnWrite} (h : x ∈ q) (hc : x.cls = .trip) (ha : x.address ≠ e.address) :
    x ∈ placeTrip q e := by
  simp [placeTrip, h, hc, ha]

/-- A TRIP placement leaves every TRIP entry's address with a TRIP entry, its own too. -/
theorem tripAt_placeTrip {q : List OwnWrite} {e : OwnWrite} {a : Word} (he : e.cls = .trip)
    (h : tripAt q a = true ∨ a = e.address) : tripAt (placeTrip q e) a = true := by
  rw [tripAt_iff]
  by_cases hae : a = e.address
  · exact ⟨e, by simp [placeTrip], hae.symm, he⟩
  · rcases h with h | h
    · obtain ⟨x, hx, hxa, hxc⟩ := tripAt_iff.mp h
      refine ⟨x, ?_, hxa, hxc⟩
      simp [placeTrip, hx, hxc, hxa, hae]
    · exact absurd h hae

/-- Of two writes placed at one address the later data stands, as if it alone had been placed. -/
theorem placeWrite_placeWrite_same (q : List OwnWrite) (e f : OwnWrite) (ha : f.address = e.address) (hc : f.cls = e.cls)
    (hb : f.berth = e.berth) (he : e.cls ≠ .trip) : placeWrite (placeWrite q e) f = placeWrite q f := by
  have hmap : ∀ l : List OwnWrite, tripAt (l.map fun x => if x.address = e.address then { x with data := e.data } else x)
      e.address = tripAt l e.address := by
    intro l
    rw [Bool.eq_iff_iff, tripAt_iff, tripAt_iff]
    constructor
    · rintro ⟨x, hx, h1, h2⟩
      obtain ⟨y, hy, rfl⟩ := List.mem_map.mp hx
      refine ⟨y, hy, ?_, ?_⟩
      · revert h1
        split <;> exact id
      · revert h2
        split <;> exact id
    · rintro ⟨x, hx, h1, h2⟩
      exact ⟨_, List.mem_map.mpr ⟨x, hx, rfl⟩, by split <;> exact h1, by split <;> exact h2⟩
  have hmap2 : ∀ l : List OwnWrite, entryAt (l.map fun x => if x.address = e.address then { x with data := e.data } else x)
      e.address = entryAt l e.address := by
    intro l
    rw [Bool.eq_iff_iff, entryAt_iff, entryAt_iff]
    constructor
    · rintro ⟨x, hx, h1⟩
      obtain ⟨y, hy, rfl⟩ := List.mem_map.mp hx
      refine ⟨y, hy, ?_⟩
      revert h1
      split <;> exact id
    · rintro ⟨x, hx, h1⟩
      exact ⟨_, List.mem_map.mpr ⟨x, hx, rfl⟩, by split <;> exact h1⟩
  cases ht : tripAt q e.address with
  | true =>
    have : placeWrite q e = q := by simp [placeWrite, ht]
    rw [this]
  | false =>
    cases hen : entryAt q e.address with
    | true =>
      have h1 : placeWrite q e = q.map fun x => if x.address = e.address then { x with data := e.data } else x := by
        simp [placeWrite, ht, hen]
      rw [h1]
      unfold placeWrite
      simp only [ha, hmap, hmap2, ht, hen, List.map_map]
      simp only [Bool.false_eq_true, if_false, if_true]
      refine List.map_congr_left fun x _ => ?_
      simp only [Function.comp_apply]
      by_cases hx : x.address = e.address
      · simp [hx]
      · simp [hx]
    | false =>
      have h1 : placeWrite q e = q ++ [e] := by simp [placeWrite, ht, hen]
      have h2 : placeWrite q f = q ++ [f] := by simp [placeWrite, ha, ht, hen]
      have h3 : tripAt (q ++ [e]) e.address = false := by
        have : tripAt (q ++ [e]) e.address = (tripAt q e.address || (true && decide (e.cls = .trip))) := by
          simp [tripAt, List.any_append]
        rw [this, ht]
        simp [he]
      have h4 : entryAt (q ++ [e]) e.address = true := by simp [entryAt]
      rw [h1, h2]
      unfold placeWrite
      rw [ha, h3, h4]
      simp only [Bool.false_eq_true, if_false, if_true, List.map_append, List.map_cons, List.map_nil]
      have hq : q.map (fun x => if x.address = e.address then { x with data := f.data } else x) = q := by
        have : ∀ x ∈ q, (if x.address = e.address then { x with data := f.data } else x) = x := by
          intro x hx
          have : x.address ≠ e.address := by
            intro hxe
            have := entryAt_iff.mpr ⟨x, hx, hxe⟩
            rw [hen] at this
            exact absurd this (by decide)
          simp [this]
        calc q.map _ = q.map id := List.map_congr_left this
          _ = q := List.map_id q
      rw [hq]
      cases e
      cases f
      simp_all

/-- SEQ and REPORT placements leave every TRIP entry as it is (R139). -/
theorem trip_mem_placeAll {q ws : List OwnWrite} {x : OwnWrite} (h : x ∈ q) (hc : x.cls = .trip) : x ∈ placeAll q ws := by
  unfold placeAll
  induction ws generalizing q with
  | nil => exact h
  | cons e rest ih => exact ih (trip_mem_placeWrite h hc)

@[simp] theorem placeAll_nil (q : List OwnWrite) : placeAll q [] = q := rfl
@[simp] theorem placeAll_cons (q : List OwnWrite) (e : OwnWrite) (ws : List OwnWrite) :
    placeAll q (e :: ws) = placeAll (placeWrite q e) ws := rfl
theorem placeAll_append (q ws ws' : List OwnWrite) : placeAll q (ws ++ ws') = placeAll (placeAll q ws) ws' :=
  List.foldl_append

/-- Of two RSP writes of a berth the later stands (R20, R139). -/
@[simp] theorem placeWrite_report_report (q : List OwnWrite) (a d d' : Word) (o : Option BerthId) :
    placeWrite (placeWrite q { address := a, data := d, cls := .report, berth := o })
        { address := a, data := d', cls := .report, berth := o } =
      placeWrite q { address := a, data := d', cls := .report, berth := o } :=
  placeWrite_placeWrite_same _ _ _ rfl rfl rfl (fun h => by cases h)

end Sys2Proof.Machine
end

