-- ==== Sys2Proof/Laws/Event.lean ====
section
/-! SUPPORT. How an event ends. `Apart b s t` says what the grants of a service pass leave alone at a berth that has no claim
granted: the lemmas carry it from the primitive effects on another berth up to the end of the event. -/

namespace Sys2Proof.Machine

/-! ## Marks -/

@[simp] theorem State.clearMarks_serviceDue (s : State) : s.clearMarks.budget.serviceDue = false := rfl
@[simp] theorem State.clearMarks_testDue (s : State) : s.clearMarks.budget.testDue = false := rfl
@[simp] theorem State.threshold_clearMarks (s : State) (i : Nat) : s.clearMarks.threshold i = s.threshold i := rfl
@[simp] theorem State.levelEntry_clearMarks (s : State) (i : Nat) : s.clearMarks.levelEntry i = s.levelEntry i := rfl
@[simp] theorem State.levelCredits_clearMarks (s : State) (i : Nat) : s.clearMarks.levelCredits i = s.levelCredits i := rfl
@[simp] theorem State.clearMarks_claims (s : State) : s.clearMarks.budget.claims = s.budget.claims := rfl
@[simp] theorem State.clearMarks_stack (s : State) : s.clearMarks.budget.stack = s.budget.stack := rfl
@[simp] theorem State.clearMarks_capacity (s : State) : s.clearMarks.budget.capacity = s.budget.capacity := rfl
@[simp] theorem State.clearMarks_shedding (s : State) : s.clearMarks.budget.shedding = s.budget.shedding := rfl
@[simp] theorem State.clearMarks_overcommit (s : State) : s.clearMarks.budget.overcommit = s.budget.overcommit := rfl
@[simp] theorem State.clearMarks_highCount (s : State) : s.clearMarks.budget.highCount = s.budget.highCount := rfl
@[simp] theorem State.clearMarks_clearMarks (s : State) : s.clearMarks.clearMarks = s.clearMarks := rfl
@[simp] theorem State.berth_clearMarks (s : State) (b : BerthId) : s.clearMarks.berth b = s.berth b := rfl
@[simp] theorem State.sup_clearMarks (s : State) (b : BerthId) : s.clearMarks.sup b = s.sup b := rfl
@[simp] theorem State.chan_clearMarks (s : State) (b : BerthId) : s.clearMarks.chan b = s.chan b := rfl
@[simp] theorem State.static_clearMarks (s : State) (b : BerthId) : s.clearMarks.static b = s.static b := rfl
@[simp] theorem State.granted_clearMarks (s : State) : s.clearMarks.granted = s.granted := rfl

/-- An event that calls for neither a service pass nor the OVERCOMMIT test ends with its own effects (R91, R103). -/
theorem State.endEvent_of_quiet {s : State} (h1 : s.budget.serviceDue = false) (h2 : s.budget.testDue = false) :
    s.endEvent = s.clearMarks := by
  simp [State.endEvent, h1, h2]

/-- An event whose effects leave the marks clear is its effects. -/
theorem State.event_of_quiet {s : State} {f : State → State} (h1 : (f s.clearMarks).budget.serviceDue = false)
    (h2 : (f s.clearMarks).budget.testDue = false) : s.event f = f s.clearMarks := by
  unfold State.event
  rw [State.endEvent_of_quiet h1 h2]
  generalize f s.clearMarks = t at h1 h2
  unfold State.clearMarks State.setBudget
  cases t
  rename_i u _ _ _ _ _
  cases u
  simp only at h1 h2
  subst h1 h2
  rfl

/-- A service pass over an empty Budget Wait Queue is nothing (R89). -/
theorem State.servicePass_of_nil {s : State} (h : s.budget.claims = []) : s.servicePass = s := by
  simp [State.servicePass, h, State.serviceWalk]

/-! ## A berth set apart -/

/-- Between two states of one event, berth `b` was left alone: its record, supervision, channels and claims are the same, and
nothing of it was added to the Level Stack or the Hold Queue; TRIP entries stand, and records were only added to the log's staging
list. -/
structure Apart (b : BerthId) (s t : State) : Prop where
  berth : t.berth b = s.berth b
  sup : t.sup b = s.sup b
  chan : t.chan b = s.chan b
  claims : t.budget.claims.filter (fun c => decide (c.berth = b)) = s.budget.claims.filter fun c => decide (c.berth = b)
  stack : b ∈ t.budget.stack → b ∈ s.budget.stack
  holds : ∀ h ∈ t.holds, h.berth = b → h ∈ s.holds
  trips : ∀ e ∈ s.owq, e.cls = .trip → e ∈ t.owq
  staging : ∃ more, t.log.staging = s.log.staging ++ more
  tables : t.tables = s.tables
  phase : t.phase = s.phase
  maint : t.timer.maint = s.timer.maint

namespace Apart

variable {b : BerthId} {s t u : State}

theorem refl (b : BerthId) (s : State) : Apart b s s :=
  ⟨rfl, rfl, rfl, rfl, id, fun _ h _ => h, fun _ h _ => h, ⟨[], by simp⟩, rfl, rfl, rfl⟩

theorem trans (h1 : Apart b s t) (h2 : Apart b t u) : Apart b s u :=
  ⟨h2.berth.trans h1.berth, h2.sup.trans h1.sup, h2.chan.trans h1.chan, h2.claims.trans h1.claims,
    fun h => h1.stack (h2.stack h), fun x hx hb => h1.holds x (h2.holds x hx hb) hb, fun e he hc => h2.trips e (h1.trips e he hc) hc,
    h1.staging.elim fun m hm => h2.staging.elim fun n hn => ⟨m ++ n, by rw [hn, hm, List.append_assoc]⟩,
    h2.tables.trans h1.tables, h2.phase.trans h1.phase, h2.maint.trans h1.maint⟩

/-- A berth without a claim has none afterwards. -/
theorem noClaim (h : Apart b s t) (hn : s.noClaim b) : t.noClaim b := by
  have hs : s.budget.claims.filter (fun c => decide (c.berth = b)) = [] := by
    rw [List.filter_eq_nil_iff]
    intro c hc
    simpa using hn c hc
  have ht := h.claims.trans hs
  rw [List.filter_eq_nil_iff] at ht
  intro c hc
  simpa using ht c hc

/-- The two lines of the berth follow (R19, R76). -/
theorem lines (h : Apart b s t) : t.perm b = s.perm b ∧ t.trip b = s.trip b := by
  unfold State.perm State.trip State.configured
  have := h.berth
  unfold State.berth at this
  rw [h.phase, h.tables, this]
  exact ⟨rfl, rfl⟩

theorem setBerth {c : BerthId} (r : Berth) (h : b ≠ c) : Apart b s (s.setBerth c r) :=
  { refl b s with berth := State.berth_setBerth_of_ne s r h }

theorem setSup {c : BerthId} (r : Supervision) (h : b ≠ c) : Apart b s (s.setSup c r) :=
  { refl b s with sup := State.sup_setSup_of_ne s r h }

theorem setChan {c : BerthId} (k : Channels) (h : b ≠ c) : Apart b s (s.setChan c k) :=
  { refl b s with chan := State.chan_setChan_of_ne s k h }

theorem record (x b' q d e) : Apart b s (s.record x b' q d e) := { refl b s with staging := Log.stage_staging _ _ }

theorem statusChanged : Apart b s s.statusChanged := { refl b s with }

theorem grantedChanged : Apart b s s.grantedChanged := { refl b s with }

theorem place (e : OwnWrite) : Apart b s (s.setOwq (placeWrite s.owq e)) :=
  { refl b s with trips := fun _ h hc => trip_mem_placeWrite h hc }

theorem needService : Apart b s s.needService := { refl b s with }

theorem needTest : Apart b s s.needTest := { refl b s with }

theorem clearMarks : Apart b s s.clearMarks := { refl b s with }

theorem dropClaim {c : BerthId} (h : b ≠ c) :
    Apart b s (s.setBudget { s.budget with claims := Machine.dropClaim s.budget.claims c }) :=
  { refl b s with
    claims := by
      simp only [State.setBudget, Machine.dropClaim, List.filter_filter]
      refine List.filter_congr fun x _ => ?_
      by_cases hx : x.berth = b
      · simp [hx, h]
      · simp [hx] }

theorem seqWrite (c w d) : Apart b s (s.seqWrite c w d) := place _

theorem queueRsp (c) : Apart b s (s.queueRsp c) := place _

theorem reportState (c old m) : Apart b s (s.reportState c old m) := (queueRsp c).trans (record ..)

theorem enter {c : BerthId} (st) (h : b ≠ c) : Apart b s (s.enter c st) := setBerth _ h

theorem finalise {c : BerthId} (res) (h : b ≠ c) : Apart b s (s.finalise c res) := by
  unfold State.finalise
  split
  · exact refl b s
  · split
    · exact (setBerth _ h).trans (queueRsp c)
    · exact (setBerth _ h).trans (record ..)

theorem takeBase {c : BerthId} (h : b ≠ c) : Apart b s (s.takeBase c) :=
  (setBerth _ h).trans (grantedChanged.trans needTest)

theorem stackAfter {c : BerthId} (old new : Nat) (h : b ≠ c) :
    Apart b s (s.setBudget { s.budget with stack := Machine.stackAfter s.budget.stack c old new }) :=
  { refl b s with
    stack := by
      intro hm
      simp only [State.setBudget, Machine.stackAfter] at hm
      split at hm
      · rcases List.mem_cons.mp hm with hm | hm
        · exact absurd hm h
        · exact (List.mem_filter.mp hm).1
      · split at hm
        · exact (List.mem_filter.mp hm).1
        · exact hm }

theorem changeLevel {c : BerthId} (n) (h : b ≠ c) : Apart b s (s.changeLevel c n) := by
  unfold State.changeLevel
  dsimp only
  have h1 : Apart b s (s.setBerth c { s.berth c with level := n, residency := 0, idle := 0 }) := setBerth _ h
  refine trans ?_ needTest
  refine trans ?_ (stackAfter _ _ h)
  refine trans ?_ (seqWrite _ _ _)
  split
  · refine trans ?_ needService
    split
    · exact h1
    · exact h1.trans grantedChanged
  · split
    · exact h1
    · exact h1.trans grantedChanged

theorem releaseHold {h : Hold} : Apart b s (s.releaseHold h) :=
  trans (t := s.setHolds (dropHold s.holds h.address))
    { refl b s with holds := fun _ hx _ => (List.mem_filter.mp hx).1 } (seqWrite _ _ _)

theorem toEnergizing {c : BerthId} (h : b ≠ c) : Apart b s (s.toEnergizing c) := (enter _ h).trans (setChan _ h)

theorem grantNotice {c : BerthId} (h : b ≠ c) : Apart b s (s.grantNotice c) := by
  unfold State.grantNotice
  split
  · split
    · split
      · exact (toEnergizing h).trans ((seqWrite _ _ _).trans (reportState _ _ _))
      · exact refl b s
    · exact refl b s
  · dsimp only
    refine trans ?_ (reportState _ _ _)
    split
    · exact (toEnergizing h).trans releaseHold
    · exact toEnergizing h
  · exact refl b s

theorem grantEngage {c : Claim} (h : b ≠ c.berth) : Apart b s (s.grantEngage c) :=
  (dropClaim h).trans ((takeBase h).trans (grantNotice h))

theorem grantLevel {c : Claim} (n) (h : b ≠ c.berth) : Apart b s (s.grantLevel c n) :=
  (dropClaim h).trans ((changeLevel n h).trans ((queueRsp _).trans (finalise _ h)))

theorem serviceWalk {l : List Claim} (h : ∀ c ∈ l, c.berth ≠ b) : Apart b s (s.serviceWalk l) := by
  induction l generalizing s with
  | nil => exact refl b s
  | cons c rest ih =>
    have hc : b ≠ c.berth := fun e => h c (List.mem_cons_self ..) e.symm
    have hr : ∀ x ∈ rest, x.berth ≠ b := fun x hx => h x (List.mem_cons_of_mem _ hx)
    unfold State.serviceWalk
    split
    · split
      · exact (grantEngage hc).trans (ih hr)
      · exact refl b s
    · split
      · exact (grantLevel _ hc).trans (ih hr)
      · exact ih hr

/-- A service pass leaves a berth alone that has no claim (R89). -/
theorem servicePass (h : s.noClaim b) : Apart b s s.servicePass := serviceWalk h

theorem overcommitTest : Apart b s s.overcommitTest := by
  unfold State.overcommitTest
  have h : ∀ k, Apart b s (s.setBudget { s.budget with overcommit := k }).statusChanged := fun _ => { refl b s with }
  split
  · split
    · exact (h _).trans (record ..)
    · exact refl b s
  · split
    · exact (h _).trans (record ..)
    · exact refl b s

/-- The end of an event leaves a berth alone that has no claim (R91). -/
theorem endEvent (h : s.noClaim b) : Apart b s s.endEvent := by
  have h1 : Apart b s (if s.budget.serviceDue then s.servicePass else s) := by
    split
    · exact servicePass h
    · exact refl b s
  unfold State.endEvent
  dsimp only
  generalize (if s.budget.serviceDue then s.servicePass else s) = u at h1 ⊢
  refine trans ?_ clearMarks
  split
  · exact h1.trans overcommitTest
  · exact h1

end Apart

end Sys2Proof.Machine
end

