-- ==== Sys2Proof/Laws/Kept.lean ====
section
/-! SUPPORT. What survives an event. A property of states that every primitive effect of an event keeps is kept by every
event: `Kept` names the primitive effects once, and each lemma here carries it one operation further, up to the delivery of
a result and the outcome of a host write. A frame (a field that nothing in the event writes) and an invariant (a property
that the primitives preserve) are both proved by one use of it. `KeptCalm` names the effects that move no berth from its
state and load or stop no channel: the operations made of these alone are carried by it. -/

namespace Sys2Proof.Machine

/-- `P` is kept by every primitive effect that leaves every berth in its state and every channel as it is. -/
structure KeptCalm (P : State → Prop) : Prop where
  berth : ∀ s b r, r.state = (s.berth b).state → r.lastTaken = (s.berth b).lastTaken →
    r.answered = (s.berth b).answered → r.latest = (s.berth b).latest → P s → P (s.setBerth b r)
  sup : ∀ s b u, P s → P (s.setSup b u)
  budget : ∀ s u, u.capacity = s.budget.capacity → P s → P (s.setBudget u)
  holds : ∀ s l, P s → P (s.setHolds l)
  seqWrite : ∀ s b w d, P s → P (s.seqWrite b w d)
  tripWrite : ∀ s b, P s → P (s.tripWrite b)
  queueRsp : ∀ s b, P s → P (s.queueRsp b)
  record : ∀ s t b q x y, P s → P (s.record t b q x y)
  statusChanged : ∀ s, P s → P s.statusChanged
  grantedChanged : ∀ s, P s → P s.grantedChanged

namespace KeptCalm

variable {P : State → Prop} {s : State}

/-! ## Records, channels and reports -/

theorem reportState (h : KeptCalm P) (b old m) (hs : P s) : P (s.reportState b old m) :=
  h.record _ _ _ _ _ _ (h.queueRsp _ _ hs)

theorem finalise (h : KeptCalm P) (b res) (hs : P s) : P (s.finalise b res) := by
  unfold State.finalise
  split
  · exact hs
  · split
    · exact h.queueRsp _ _ (h.berth _ _ _ rfl rfl rfl rfl hs)
    · exact h.record _ _ _ _ _ _ (h.berth _ _ _ rfl rfl rfl rfl hs)

theorem setSyncCount (h : KeptCalm P) (b n) (hs : P s) : P (s.setSyncCount b n) := h.berth _ _ _ rfl rfl rfl rfl hs

/-! ## Budget -/

theorem needService (h : KeptCalm P) (hs : P s) : P s.needService := h.budget _ _ rfl hs

theorem needTest (h : KeptCalm P) (hs : P s) : P s.needTest := h.budget _ _ rfl hs

theorem placeClaim (h : KeptCalm P) (c) (hs : P s) : P (s.placeClaim c) := h.needService (h.budget _ _ rfl hs)

theorem withdrawClaim (h : KeptCalm P) (b) (hs : P s) : P (s.withdrawClaim b) := by
  unfold State.withdrawClaim
  split
  · exact hs
  · exact h.needService (h.budget _ _ rfl hs)

theorem takeBase (h : KeptCalm P) (b) (hs : P s) : P (s.takeBase b) :=
  h.needTest (h.grantedChanged _ (h.berth _ _ _ rfl rfl rfl rfl hs))

theorem returnBase (h : KeptCalm P) (b) (hs : P s) : P (s.returnBase b) := by
  unfold State.returnBase
  split
  · exact hs
  · exact h.needTest (h.needService (h.grantedChanged _ (h.berth _ _ _ rfl rfl rfl rfl hs)))

theorem changeLevel (h : KeptCalm P) (b n) (hs : P s) : P (s.changeLevel b n) := by
  unfold State.changeLevel
  have h1 := h.berth s b { s.berth b with level := n, residency := 0, idle := 0 } rfl rfl rfl rfl hs
  refine h.needTest (h.budget _ _ rfl (h.seqWrite _ _ _ _ ?_))
  split
  · refine h.needService ?_
    split
    · exact h1
    · exact h.grantedChanged _ h1
  · split
    · exact h1
    · exact h.grantedChanged _ h1

theorem shoreLevelZero (h : KeptCalm P) (b) (hs : P s) : P (s.shoreLevelZero b) := h.changeLevel _ _ hs

theorem leaveShore (h : KeptCalm P) (b) (hs : P s) : P (s.leaveShore b) := h.withdrawClaim _ (h.changeLevel _ _ hs)

theorem recomputeClaim (h : KeptCalm P) (b) (hs : P s) : P (s.recomputeClaim b) := by
  unfold State.recomputeClaim
  split
  · exact hs
  · split
    · exact hs
    · dsimp only
      split
      · exact h.budget _ _ rfl hs
      · exact h.finalise _ _ (h.withdrawClaim _ hs)

theorem stepDown (h : KeptCalm P) (b t q) (hs : P s) : P (s.stepDown b t q) :=
  h.recomputeClaim _ (h.record _ _ _ _ _ _ (h.queueRsp _ _ (h.changeLevel _ _ hs)))

theorem shedStep (h : KeptCalm P) (c) (hs : P s) : P (s.shedStep c) := by
  unfold State.shedStep
  split
  · exact hs
  · exact h.stepDown _ _ _ hs

theorem setShedding (h : KeptCalm P) (on) (hs : P s) : P (s.setShedding on) := h.statusChanged _ (h.budget _ _ rfl hs)

theorem updateShedding (h : KeptCalm P) (load) (hs : P s) : P (s.updateShedding load) := by
  unfold State.updateShedding
  dsimp only
  split
  · split
    · exact h.setShedding _ (h.budget _ _ rfl hs)
    · exact h.budget _ _ rfl hs
  · split
    · exact h.needService (h.setShedding _ (h.budget _ _ rfl hs))
    · exact h.budget _ _ rfl hs

theorem countShore (h : KeptCalm P) (b r) (hs : P s) : P (s.countShore b r) := by
  unfold State.countShore
  dsimp only
  generalize (if r.load < (s.levelEntry (s.berth b).level).activity then min 255 ((s.berth b).idle + 1) else 0) = idle
  have h1 := h.berth s b
    { s.berth b with residency := min 255 ((s.berth b).residency + 1), idle := idle } rfl rfl rfl rfl hs
  split
  · exact h.stepDown _ _ _ h1
  · exact h1

theorem overcommitTest (h : KeptCalm P) (hs : P s) : P s.overcommitTest := by
  unfold State.overcommitTest
  split
  · split
    · exact h.record _ _ _ _ _ _ (h.statusChanged _ (h.budget _ _ rfl hs))
    · exact hs
  · split
    · exact h.record _ _ _ _ _ _ (h.statusChanged _ (h.budget _ _ rfl hs))
    · exact hs

/-! ## Hold Queue -/

theorem endHold (h : KeptCalm P) (t e) (hs : P s) : P (s.endHold t e) := h.record _ _ _ _ _ _ (h.holds _ _ hs)

theorem cancelList (h : KeptCalm P) (l : List Hold) (hs : P s) : P (s.cancelList l) := by
  induction l generalizing s with
  | nil => exact hs
  | cons e rest ih => exact ih (h.endHold _ _ hs)

theorem cancelHolds (h : KeptCalm P) (b) (hs : P s) : P (s.cancelHolds b) := h.cancelList _ hs

theorem placeHold (h : KeptCalm P) (b w d reason) (hs : P s) : P (s.placeHold b w d reason) := h.holds _ _ hs

theorem releaseHold (h : KeptCalm P) (e) (hs : P s) : P (s.releaseHold e) := h.seqWrite _ _ _ _ (h.holds _ _ hs)

theorem giveUpGrant (h : KeptCalm P) (b) (hs : P s) : P (s.giveUpGrant b) := h.returnBase _ (h.withdrawClaim _ hs)

/-! ## Supervision -/

theorem tripRecord (h : KeptCalm P) (b again left f) (hs : P s) : P (s.tripRecord b again left f) := h.record _ _ _ _ _ _ hs

theorem repeatFault (h : KeptCalm P) (b f) (hs : P s) : P (s.repeatFault b f) := by
  unfold State.repeatFault
  dsimp only
  split
  · exact hs
  · split
    · exact h.sup _ _ _ hs
    · exact h.tripRecord _ _ _ _ (h.tripWrite _ _ (h.sup _ _ _ hs))

theorem countQuiet (h : KeptCalm P) (b r) (hs : P s) : P (s.countQuiet b r) := h.sup _ _ _ hs

/-! ## Sequencer -/

theorem leaveIfShore (h : KeptCalm P) (b old) (hs : P s) : P (s.leaveIfShore b old) := by
  unfold State.leaveIfShore
  split
  · exact h.leaveShore _ hs
  · exact hs

theorem cancelSync (h : KeptCalm P) (b) (hs : P s) : P (s.cancelSync b) := h.cancelHolds _ hs

theorem countSyncHold (h : KeptCalm P) (b r) (hs : P s) : P (s.countSyncHold b r) := by
  unfold State.countSyncHold
  split
  · exact hs
  · dsimp only
    split
    · exact h.releaseHold _ (h.setSyncCount _ _ hs)
    · exact h.setSyncCount _ _ hs

theorem reportAdopted (h : KeptCalm P) (b st) (hs : P s) : P (s.reportAdopted b st) :=
  h.queueRsp _ _ (h.record _ _ _ _ _ _ hs)

/-! ## Events -/

theorem grantLevel (h : KeptCalm P) (c n) (hs : P s) : P (s.grantLevel c n) :=
  h.finalise _ _ (h.queueRsp _ _ (h.changeLevel _ _ (h.budget _ _ rfl hs)))

theorem clearMarks (h : KeptCalm P) (hs : P s) : P s.clearMarks := h.budget _ _ rfl hs

/-! ## Requests -/

theorem ownSetLevel (h : KeptCalm P) (b n) (hs : P s) : P (s.ownSetLevel b n).1 := by
  unfold State.ownSetLevel
  dsimp only
  split
  · split
    · exact hs
    · split
      · exact hs
      · split
        · exact h.changeLevel _ _ hs
        · split
          · exact hs
          · split
            · exact hs
            · exact h.placeClaim _ hs
  · exact hs

theorem changeMode (h : KeptCalm P) (b m) (hs : P s) : P (s.changeMode b m) := by
  unfold State.changeMode
  have h1 := h.berth s b { s.berth b with mode := m } rfl rfl rfl rfl hs
  dsimp only
  refine h.reportState _ _ _ ?_
  split
  · have h2 := h.cancelHolds b h1
    split
    · refine h.seqWrite _ _ _ _ ?_
      split
      · exact h.withdrawClaim _ h2
      · exact h2
    · split
      · exact h.withdrawClaim _ h2
      · exact h2
  · exact h1

theorem ownSetMode (h : KeptCalm P) (b op) (hs : P s) : P (s.ownSetMode b op).1 := by
  unfold State.ownSetMode
  split
  · split
    · exact hs
    · split
      · exact hs
      · exact h.changeMode _ _ hs
  · exact hs

theorem abortLevel (h : KeptCalm P) (b) (hs : P s) : P (s.abortLevel b) := h.finalise _ _ (h.withdrawClaim _ hs)

theorem answer (h : KeptCalm P) (b code toggle op a) (hs : P s) : P (s.answer b code toggle op a) := by
  unfold State.answer
  split
  · exact h.queueRsp _ _ (h.berth _ _ _ rfl rfl rfl rfl hs)
  · exact h.queueRsp _ _ (h.berth _ _ _ rfl rfl rfl rfl hs)

/-! ## Host writes -/

theorem sink (h : KeptCalm P) (reason b a d) (hs : P s) : P (s.sink reason b a d) := h.record _ _ _ _ _ _ hs

theorem supersede (h : KeptCalm P) (a d) (hs : P s) : P (s.supersede a d) := h.holds _ _ hs

/-! ## The end of an event -/

theorem grantEngage (h : KeptCalm P) (hn : ∀ s b, P s → P (s.grantNotice b)) (c) (hs : P s) : P (s.grantEngage c) :=
  hn _ _ (h.takeBase _ (h.budget _ _ rfl hs))

theorem serviceWalk (h : KeptCalm P) (hn : ∀ s b, P s → P (s.grantNotice b)) (l : List Claim) (hs : P s) : P (s.serviceWalk l) := by
  induction l generalizing s with
  | nil => exact hs
  | cons c rest ih =>
    unfold State.serviceWalk
    split
    · split
      · exact ih (h.grantEngage hn _ hs)
      · exact hs
    · split
      · exact ih (h.grantLevel _ _ hs)
      · exact ih hs

theorem servicePass (h : KeptCalm P) (hn : ∀ s b, P s → P (s.grantNotice b)) (hs : P s) : P s.servicePass := h.serviceWalk hn _ hs

theorem endEvent (h : KeptCalm P) (hn : ∀ s b, P s → P (s.grantNotice b)) (hs : P s) : P s.endEvent := by
  have h1 : P (if s.budget.serviceDue then s.servicePass else s) := by
    split
    · exact h.servicePass hn hs
    · exact hs
  unfold State.endEvent
  dsimp only
  generalize (if s.budget.serviceDue then s.servicePass else s) = u at h1 ⊢
  refine h.clearMarks ?_
  split
  · exact h.overcommitTest h1
  · exact h1

end KeptCalm

/-- `P` is kept by every primitive effect that an event is built from. -/
structure Kept (P : State → Prop) : Prop extends KeptCalm P where
  enters : ∀ s b st, P s → P (s.enter b st)
  toggle : ∀ s b x, P s → P (s.setBerth b { s.berth b with lastTaken := x, answered := x, phase := .final })
  loadStep : ∀ s b d, P s → P (s.loadStep b d)
  stopStep : ∀ s b, P s → P (s.stopStep b)
  loadSettle : ∀ s b, P s → P (s.loadSettle b)
  stopSettle : ∀ s b, P s → P (s.stopSettle b)
  stopChannels : ∀ s b, P s → P (s.stopChannels b)
  queueGroupRsp : ∀ s g d, P s → P (s.queueGroupRsp g d)
  groupTaken : ∀ s g x, P s → P (s.setGroupTaken g x)
  passWrite : ∀ s a d, P s → P (s.passWrite a d)

namespace Kept

variable {P : State → Prop} {s : State}

/-! ## Records, channels and reports -/

theorem enter (h : Kept P) (b st) (hs : P s) : P (s.enter b st) := h.enters _ _ _ hs

/-! ## Supervision -/

theorem enterLockout (h : Kept P) (b f) (hs : P s) : P (s.enterLockout b f) :=
  h.sup _ _ _ (h.setSyncCount _ _ (h.enter _ _ hs))

theorem tripAction (h : Kept P) (b f) (hs : P s) : P (s.tripAction b f) :=
  h.queueRsp _ _ (h.tripRecord _ _ _ _ (h.finalise _ _ (h.enterLockout _ _ (h.stopChannels _ _ (h.cancelHolds _
    (h.withdrawClaim _ (h.changeLevel _ _ (h.seqWrite _ _ _ _ (h.tripWrite _ _ hs)))))))))

theorem recover (h : Kept P) (b) (hs : P s) : P (s.recover b) :=
  h.queueRsp _ _ (h.record _ _ _ _ _ _ (h.enter _ _ (h.sup _ _ _ hs)))

/-! ## Sequencer -/

theorem toDisengaging (h : Kept P) (b) (hs : P s) : P (s.toDisengaging b) :=
  h.seqWrite _ _ _ _ (h.loadStep _ _ _ (h.stopChannels _ _ (h.enter _ _ hs)))

theorem toEnergizing (h : Kept P) (b) (hs : P s) : P (s.toEnergizing b) := h.loadStep _ _ _ (h.enter _ _ hs)

theorem toSeparating (h : Kept P) (b) (hs : P s) : P (s.toSeparating b) :=
  h.seqWrite _ _ _ _ (h.seqWrite _ _ _ _ (h.loadStep _ _ _ (h.enter _ _ hs)))

theorem toShore (h : Kept P) (b) (hs : P s) : P (s.toShore b) := by
  unfold State.toShore
  have h1 := h.shoreLevelZero b (h.stopStep _ b (h.enter b .shore hs))
  dsimp only
  split
  · exact h.seqWrite _ _ _ _ h1
  · exact h1

theorem toEnergized (h : Kept P) (b) (hs : P s) : P (s.toEnergized b) := h.stopStep _ _ (h.enter _ _ hs)

theorem followCable (h : Kept P) (b r) (hs : P s) : P (s.followCable b r) := by
  unfold State.followCable
  dsimp only
  split
  · split
    · exact h.reportState _ _ _ (h.enter _ _ hs)
    · exact hs
  · split
    · exact hs
    · exact h.reportState _ _ _ (h.enter _ _ hs)
  · exact hs

theorem connectReady (h : Kept P) (b) (hs : P s) : P (s.connectReady b) :=
  h.reportState _ _ _ (h.seqWrite _ _ _ _ (h.toEnergizing _ hs))

theorem leaveEngaging (h : Kept P) (b st res) (hs : P s) : P (s.leaveEngaging b st res) :=
  h.reportState _ _ _ (h.finalise _ _ (h.giveUpGrant _ (h.stopStep _ _ (h.enter _ _ hs))))

theorem leaveManualEngaging (h : Kept P) (b st) (hs : P s) : P (s.leaveManualEngaging b st) :=
  h.reportState _ _ _ (h.giveUpGrant _ (h.enter _ _ hs))

theorem engagingResult (h : Kept P) (b r) (hs : P s) : P (s.engagingResult b r) := by
  unfold State.engagingResult
  split
  · split
    · exact h.leaveEngaging _ _ _ hs
    · split
      · exact h.connectReady _ hs
      · exact hs
  · split
    · exact h.leaveManualEngaging _ _ (h.cancelHolds _ hs)
    · exact hs

theorem energizingCableLoss (h : Kept P) (b) (hs : P s) : P (s.energizingCableLoss b) :=
  h.reportState _ _ _ (h.finalise _ _ (h.toDisengaging _ hs))

theorem startSettle (h : Kept P) (b) (hs : P s) : P (s.startSettle b) :=
  h.berth _ _ _ rfl rfl rfl rfl (h.loadSettle _ _ (h.stopStep _ _ hs))

theorem lossOfSupply (h : Kept P) (b) (hs : P s) : P (s.lossOfSupply b) :=
  h.reportState _ _ _ (h.finalise _ _ (h.seqWrite _ _ _ _ (h.seqWrite _ _ _ _ (h.seqWrite _ _ _ _ (h.returnBase _
    (h.leaveIfShore _ _ (h.stopChannels _ _ (h.enter _ _ hs))))))))

theorem manualShoreOpen (h : Kept P) (b) (hs : P s) : P (s.manualShoreOpen b) :=
  h.reportState _ _ _ (h.finalise _ _ (h.returnBase _ (h.leaveIfShore _ _ (h.stopChannels _ _ (h.enter _ _
    (h.cancelSync _ hs))))))

theorem shoreOpened (h : Kept P) (b) (hs : P s) : P (s.shoreOpened b) := by
  unfold State.shoreOpened
  split
  · exact h.lossOfSupply _ hs
  · exact h.manualShoreOpen _ hs

theorem shipconClosed (h : Kept P) (b r) (hs : P s) : P (s.shipconClosed b r) := by
  unfold State.shipconClosed
  dsimp only
  cases hm : (s.berth b).mode
  · dsimp only
    split
    · exact h.reportState _ _ _ (h.finalise _ _ (h.toShore _ hs))
    · exact h.reportState _ _ _ (h.seqWrite _ _ _ _ (h.loadStep _ _ _ (h.enter _ _ hs)))
  · dsimp only
    have h0 := h.cancelSync b hs
    split
    · exact h.reportState _ _ _ (h.finalise _ _ (h.toShore _ h0))
    · exact h.reportState _ _ _ (h.loadStep _ _ _ (h.enter _ _ h0))

theorem issueClose (h : Kept P) (b) (hs : P s) : P (s.issueClose b) :=
  h.seqWrite _ _ _ _ (h.loadStep _ _ _ (h.berth _ _ _ rfl rfl rfl rfl hs))

theorem countSyncing (h : Kept P) (b r) (hs : P s) : P (s.countSyncing b r) := by
  unfold State.countSyncing
  dsimp only
  split
  · exact h.issueClose _ (h.setSyncCount _ _ hs)
  · exact h.setSyncCount _ _ hs

theorem energizingResult (h : Kept P) (b r) (hs : P s) : P (s.energizingResult b r) := by
  unfold State.energizingResult
  split
  · split
    · exact h.shoreOpened _ hs
    · exact hs
  · split
    · exact h.startSettle _ hs
    · split
      · exact h.energizingCableLoss _ hs
      · exact hs

theorem energizedResult (h : Kept P) (b r) (hs : P s) : P (s.energizedResult b r) := by
  unfold State.energizedResult
  split
  · exact h.shoreOpened _ hs
  · split
    · exact h.shipconClosed _ _ hs
    · split
      · exact hs
      · exact h.countSyncHold _ _ hs

theorem syncingResult (h : Kept P) (b r) (hs : P s) : P (s.syncingResult b r) := by
  unfold State.syncingResult
  split
  · exact h.shoreOpened _ hs
  · split
    · exact h.shipconClosed _ _ hs
    · split
      · exact hs
      · exact h.countSyncing _ _ hs

theorem deadbusResult (h : Kept P) (b r) (hs : P s) : P (s.deadbusResult b r) := by
  unfold State.deadbusResult
  split
  · exact h.shoreOpened _ hs
  · split
    · exact h.shipconClosed _ _ hs
    · split
      · exact hs
      · split
        · exact h.issueClose _ hs
        · exact hs

theorem shipconOpened (h : Kept P) (b) (hs : P s) : P (s.shipconOpened b) := by
  unfold State.shipconOpened
  have h1 := h.leaveIfShore b (s.berth b).state (h.toEnergized b hs)
  dsimp only
  refine h.reportState _ _ _ (h.finalise _ _ ?_)
  split
  · exact h.seqWrite _ _ _ _ (h.seqWrite _ _ _ _ h1)
  · exact h1

theorem parallelResult (h : Kept P) (b r) (hs : P s) : P (s.parallelResult b r) := by
  unfold State.parallelResult
  split
  · exact h.shoreOpened _ hs
  · split
    · exact h.shipconOpened _ hs
    · split
      · exact h.reportState _ _ _ (h.finalise _ _ (h.toShore _ hs))
      · exact hs

theorem shoreGensClosed (h : Kept P) (b) (hs : P s) : P (s.shoreGensClosed b) := by
  unfold State.shoreGensClosed
  have h1 := h.leaveShore b (h.loadStep _ b .overlap (h.enter b .unparallel hs))
  dsimp only
  refine h.reportState _ _ _ (h.finalise _ _ ?_)
  split
  · exact h.seqWrite _ _ _ _ (h.seqWrite _ _ _ _ h1)
  · exact h1

theorem shoreResult (h : Kept P) (b r) (hs : P s) : P (s.shoreResult b r) := by
  unfold State.shoreResult
  split
  · exact h.shoreOpened _ hs
  · split
    · exact h.shipconOpened _ hs
    · split
      · exact h.shoreGensClosed _ hs
      · exact hs

theorem resyncingResult (h : Kept P) (b r) (hs : P s) : P (s.resyncingResult b r) := by
  unfold State.resyncingResult
  split
  · exact h.shoreOpened _ hs
  · split
    · exact h.shipconOpened _ hs
    · split
      · exact h.reportState _ _ _ (h.seqWrite _ _ _ _ (h.loadStep _ _ _ (h.enter _ _ hs)))
      · exact hs

theorem returnDone (h : Kept P) (b) (hs : P s) : P (s.returnDone b) :=
  h.reportState _ _ _ (h.finalise _ _ (h.toEnergized _ hs))

theorem unparallelResult (h : Kept P) (b r) (hs : P s) : P (s.unparallelResult b r) := by
  unfold State.unparallelResult
  split
  · exact h.shoreOpened _ hs
  · split
    · exact h.returnDone _ hs
    · split
      · exact hs
      · split
        · exact h.reportState _ _ _ (h.toShore _ hs)
        · exact hs

theorem separatingResult (h : Kept P) (b r) (hs : P s) : P (s.separatingResult b r) := by
  unfold State.separatingResult
  split
  · exact h.shoreOpened _ hs
  · split
    · exact h.returnDone _ hs
    · exact hs

theorem disengagingResult (h : Kept P) (b r) (hs : P s) : P (s.disengagingResult b r) := by
  unfold State.disengagingResult
  split
  · exact h.reportState _ _ _ (h.finalise _ _ (h.returnBase _ (h.stopStep _ _ (h.enter _ _ hs))))
  · exact hs

theorem sequence (h : Kept P) (b r) (hs : P s) : P (s.sequence b r) := by
  unfold State.sequence
  split
  · exact hs
  · exact h.followCable _ _ hs
  · exact h.followCable _ _ hs
  · exact h.engagingResult _ _ hs
  · exact h.energizingResult _ _ hs
  · exact h.energizedResult _ _ hs
  · exact h.syncingResult _ _ hs
  · exact h.deadbusResult _ _ hs
  · exact h.parallelResult _ _ hs
  · exact h.shoreResult _ _ hs
  · exact h.resyncingResult _ _ hs
  · exact h.unparallelResult _ _ hs
  · exact h.separatingResult _ _ hs
  · exact h.disengagingResult _ _ hs
  · exact hs

theorem manualNoclose (h : Kept P) (b) (hs : P s) : P (s.manualNoclose b) :=
  h.record _ _ _ _ _ _ (h.reportState _ _ _ (h.seqWrite _ _ _ _ (h.returnBase _ (h.stopStep _ _ (h.enter _ _ hs)))))

theorem transferGivenUp (h : Kept P) (b res) (hs : P s) : P (s.transferGivenUp b res) := by
  unfold State.transferGivenUp
  have h1 := h.toEnergized b hs
  dsimp only
  refine h.reportState _ _ _ (h.finalise _ _ ?_)
  split
  · exact h.seqWrite _ _ _ _ h1
  · exact h1

theorem tripRequest (h : Kept P) (b f) (hs : P s) : P (s.tripRequest b f) := by
  unfold State.tripRequest
  split
  · exact h.repeatFault _ _ hs
  · exact h.tripAction _ _ hs

theorem stepExpired (h : Kept P) (b) (hs : P s) : P (s.stepExpired b) := by
  unfold State.stepExpired
  dsimp only
  have ht := h.tripRequest b FaultSet.onlyBkr hs
  split
  · exact h.leaveEngaging _ _ _ hs
  · split
    · exact hs
    · split
      · exact ht
      · exact h.manualNoclose _ hs
  · split
    · exact ht
    · exact h.transferGivenUp _ _ hs
  · split
    · exact ht
    · exact h.transferGivenUp _ _ hs
  · exact h.reportState _ _ _ (h.finalise _ _ (h.toSeparating _ hs))
  · exact h.reportState _ _ _ (h.finalise _ _ (h.toShore _ hs))
  · exact ht
  · exact ht
  · exact ht
  all_goals exact hs

theorem settleExpired (h : Kept P) (b) (hs : P s) : P (s.settleExpired b) := by
  unfold State.settleExpired
  split
  · dsimp only
    split
    · exact h.reportState _ _ _ (h.finalise _ _ (h.toEnergized _ hs))
    · exact h.tripRequest _ _ hs
  · exact hs

theorem grantNotice (h : Kept P) (b) (hs : P s) : P (s.grantNotice b) := by
  unfold State.grantNotice
  split
  · split
    · split
      · exact h.connectReady _ hs
      · exact hs
    · exact hs
  · dsimp only
    refine h.reportState _ _ _ ?_
    split
    · exact h.releaseHold _ (h.toEnergizing _ hs)
    · exact h.toEnergizing _ hs
  · exact hs

theorem adoptCabled (h : Kept P) (b r) (hs : P s) : P (s.adoptCabled b r) := by
  unfold State.adoptCabled
  have h1 := h.enter b .cabled hs
  dsimp only
  refine h.reportAdopted _ _ ?_
  split
  · refine h.seqWrite _ _ _ _ ?_
    split
    · exact h.seqWrite _ _ _ _ h1
    · exact h1
  · split
    · exact h.seqWrite _ _ _ _ h1
    · exact h1

theorem adopt (h : Kept P) (b r) (hs : P s) : P (s.adopt b r) := by
  unfold State.adopt
  have h0 := h.berth s b { s.berth b with mode := (s.static b).defaultMode } rfl rfl rfl rfl hs
  dsimp only
  split
  · exact h.tripAction _ _ (h.reportAdopted _ _ h0)
  · split
    · exact h.reportAdopted _ _ (h.enter _ _ h0)
    · split
      · exact h.adoptCabled _ _ h0
      · split
        · exact h.reportAdopted _ _ (h.takeBase _ (h.enter _ _ h0))
        · split
          · exact h.reportAdopted _ _ (h.takeBase _ (h.toShore _ h0))
          · exact h.reportAdopted _ _ (h.takeBase _ (h.loadStep _ _ _ (h.enter _ _ h0)))

/-! ## Requests -/

theorem ownConnect (h : Kept P) (b) (hs : P s) : P (s.ownConnect b).1 := by
  unfold State.ownConnect
  dsimp only
  split
  · have h1 := h.loadStep _ b .engage (h.enter b .engaging hs)
    split
    · exact h.reportState _ _ _ (h.placeClaim _ h1)
    · exact h.reportState _ _ _ (h.stopStep _ _ (h.enter _ _ (h.reportState _ _ _ h1)))
  · exact hs

theorem ownTransfer (h : Kept P) (b) (hs : P s) : P (s.ownTransfer b).1 := by
  unfold State.ownTransfer
  dsimp only
  split
  · split
    · exact h.reportState _ _ _ (h.loadStep _ _ _ (h.setSyncCount _ _ (h.enter _ _ hs)))
    · exact h.reportState _ _ _ (h.seqWrite _ _ _ _ (h.loadStep _ _ _ (h.enter _ _ hs)))
  · exact hs

theorem ownReturn (h : Kept P) (b) (hs : P s) : P (s.ownReturn b).1 := by
  unfold State.ownReturn
  dsimp only
  split
  · split
    · exact h.reportState _ _ _ (h.seqWrite _ _ _ _ (h.leaveShore _ (h.loadStep _ _ _ (h.enter _ _ hs))))
    · exact h.reportState _ _ _ (h.toSeparating _ (h.leaveShore _ hs))
  · exact hs

theorem ownDisconnect (h : Kept P) (b) (hs : P s) : P (s.ownDisconnect b).1 := by
  unfold State.ownDisconnect
  dsimp only
  split
  · exact h.reportState _ _ _ (h.toDisengaging _ hs)
  · exact hs

theorem abortAuto (h : Kept P) (b) (hs : P s) : P (s.abortAuto b).1 := by
  unfold State.abortAuto
  dsimp only
  split
  · exact h.leaveEngaging _ _ _ hs
  · exact h.reportState _ _ _ (h.finalise _ _ (h.toDisengaging _ hs))
  · exact h.reportState _ _ _ (h.finalise _ _ (h.toDisengaging _ hs))
  · split
    · exact hs
    · exact h.transferGivenUp _ _ hs
  · split
    · exact hs
    · exact h.transferGivenUp _ _ hs
  · exact h.reportState _ _ _ (h.finalise _ _ (h.toSeparating _ hs))
  · exact h.reportState _ _ _ (h.finalise _ _ (h.toShore _ hs))
  · split
    · exact h.abortLevel _ hs
    · exact hs
  all_goals exact hs

/-! ## Host writes -/

theorem manualEngage (h : Kept P) (b a d) (hs : P s) : P (s.manualEngage b a d) := by
  unfold State.manualEngage
  split
  · exact h.reportState _ _ _ (h.placeClaim _ (h.placeHold _ _ _ _ (h.enter _ _ hs)))
  · exact h.sink _ _ _ _ hs

end Kept

/-- `P` is kept by every move of a berth, whole: what the calm effects and these are composed of is kept with it. A property
that only the whole move keeps, such as one that ties a state to its channel, is proved by this structure. -/
structure KeptMoves (P : State → Prop) : Prop extends KeptCalm P where
  toggle : ∀ s b x, P s → P (s.setBerth b { s.berth b with lastTaken := x, answered := x, phase := .final })
  queueGroupRsp : ∀ s g d, P s → P (s.queueGroupRsp g d)
  groupTaken : ∀ s g x, P s → P (s.setGroupTaken g x)
  passWrite : ∀ s a d, P s → P (s.passWrite a d)
  tripAction : ∀ s b f, P s → P (s.tripAction b f)
  recover : ∀ s b, P s → P (s.recover b)
  sequence : ∀ s b r, P s → P (s.sequence b r)
  adopt : ∀ s b r, P s → P (s.adopt b r)
  stepExpired : ∀ s b, P s → P ((s.stopStep b).stepExpired b)
  settleExpired : ∀ s b, P s → P ((s.stopSettle b).settleExpired b)
  grantNotice : ∀ s b, P s → P (s.grantNotice b)
  leaveManualEngaging : ∀ s b, P s → P (s.leaveManualEngaging b .cabled)
  manualEngage : ∀ s b a d, P s → P (s.manualEngage b a d)
  ownConnect : ∀ s b, P s → P (s.ownConnect b).1
  ownTransfer : ∀ s b, P s → P (s.ownTransfer b).1
  ownReturn : ∀ s b, P s → P (s.ownReturn b).1
  ownDisconnect : ∀ s b, P s → P (s.ownDisconnect b).1
  abortAuto : ∀ s b, P s → P (s.abortAuto b).1

/-- What every primitive effect keeps is kept by every move. -/
theorem Kept.moves {P : State → Prop} (h : Kept P) : KeptMoves P :=
  { h with
    tripAction := fun _ b f hs => h.tripAction b f hs
    recover := fun _ b hs => h.recover b hs
    sequence := fun _ b r hs => h.sequence b r hs
    adopt := fun _ b r hs => h.adopt b r hs
    stepExpired := fun _ b hs => h.stepExpired b (h.stopStep _ b hs)
    settleExpired := fun _ b hs => h.settleExpired b (h.stopSettle _ b hs)
    grantNotice := fun _ b hs => h.grantNotice b hs
    leaveManualEngaging := fun _ b hs => h.leaveManualEngaging b _ hs
    manualEngage := fun _ b a d hs => h.manualEngage b a d hs
    ownConnect := fun _ b hs => h.ownConnect b hs
    ownTransfer := fun _ b hs => h.ownTransfer b hs
    ownReturn := fun _ b hs => h.ownReturn b hs
    ownDisconnect := fun _ b hs => h.ownDisconnect b hs
    abortAuto := fun _ b hs => h.abortAuto b hs }

namespace KeptMoves

variable {P : State → Prop} {s : State}

/-! ## Supervision -/

theorem tripRequest (h : KeptMoves P) (b f) (hs : P s) : P (s.tripRequest b f) := by
  unfold State.tripRequest
  split
  · exact h.repeatFault _ _ hs
  · exact h.tripAction _ _ _ hs

theorem staleCondition (h : KeptMoves P) (b) (hs : P s) : P (s.staleCondition b) := h.tripRequest _ _ hs

theorem tryRecover (h : KeptMoves P) (b) (hs : P s) : P (s.tryRecover b) := by
  unfold State.tryRecover
  split
  · exact h.recover _ _ hs
  · exact hs

theorem superviseLockout (h : KeptMoves P) (b r) (hs : P s) : P (s.superviseLockout b r) := by
  unfold State.superviseLockout
  refine h.tryRecover _ (h.countQuiet _ _ (h.repeatFault _ _ ?_))
  split
  · exact h.returnBase _ hs
  · exact hs

theorem superviseLive (h : KeptMoves P) (b r) (hs : P s) : P (s.superviseLive b r) := by
  unfold State.superviseLive
  dsimp only
  split
  · exact h.sup _ _ _ hs
  · exact h.tripAction _ _ _ (h.sup _ _ _ hs)

theorem supervise (h : KeptMoves P) (b r) (hs : P s) : P (s.supervise b r) := by
  unfold State.supervise
  split
  · exact h.superviseLockout _ _ hs
  · exact h.superviseLive _ _ hs

/-! ## Events -/

/-- The end of an event keeps `P`: a service pass and the OVERCOMMIT test are calm effects and grant notices. -/
theorem endEvent (h : KeptMoves P) (hs : P s) : P s.endEvent := h.toKeptCalm.endEvent h.grantNotice hs

/-- An event keeps `P` when its own effects keep it. -/
theorem event (h : KeptMoves P) {f : State → State} (hf : ∀ t, P t → P (f t)) (hs : P s) : P (s.event f) :=
  h.endEvent (hf _ (h.clearMarks hs))

/-! ## Requests -/

theorem ownRelease (h : KeptMoves P) (b) (hs : P s) : P (s.ownRelease b).1 := by
  unfold State.ownRelease
  split
  · exact h.tryRecover _ (h.sup _ _ _ hs)
  · exact hs

theorem abortManual (h : KeptMoves P) (b) (hs : P s) : P (s.abortManual b).1 := by
  unfold State.abortManual
  have h1 := h.cancelHolds b hs
  dsimp only
  split
  · exact h.leaveManualEngaging _ _ h1
  · split
    · exact h.abortLevel _ h1
    · exact h1
  · exact h1

theorem ownAbort (h : KeptMoves P) (b) (hs : P s) : P (s.ownAbort b).1 := by
  unfold State.ownAbort
  split
  · exact h.abortAuto _ _ hs
  · exact h.abortManual _ hs

theorem owner (h : KeptMoves P) (b c op) (hs : P s) : P (s.owner b c op).1 := by
  unfold State.owner
  split
  · exact hs
  · exact h.ownConnect _ _ hs
  · exact h.ownTransfer _ _ hs
  · exact h.ownReturn _ _ hs
  · exact h.ownDisconnect _ _ hs
  · exact h.ownSetLevel _ _ hs
  · exact h.ownSetMode _ _ hs
  · exact h.ownRelease _ hs
  · exact h.ownAbort _ hs

theorem judge (h : KeptMoves P) (b code op) (hs : P s) : P (s.judge b code op).1 := by
  unfold State.judge
  split
  · exact hs
  · split
    · exact hs
    · split
      · exact hs
      · split
        · exact hs
        · split
          · exact hs
          · exact h.owner _ _ _ hs

theorem takeRequest (h : KeptMoves P) (b code toggle op) (hs : P s) : P (s.takeRequest b code toggle op) :=
  h.answer _ _ _ _ _ (h.judge _ _ _ (h.toggle _ _ _ hs))

theorem examineReq (h : KeptMoves P) (b w) (hs : P s) : P (s.examineReq b w) := by
  unfold State.examineReq
  split
  · exact hs
  · exact h.takeRequest _ _ _ _ hs

theorem fanOne (h : KeptMoves P) (n e b code op) (hs : P s) : P (s.fanOne n e b code op).1 := by
  unfold State.fanOne
  split
  · exact hs
  · dsimp only
    have h1 := h.event (f := fun t => t.takeRequest b code (!(t.berth b).lastTaken) op)
      (fun t ht => h.takeRequest _ _ _ _ ht) hs
    split
    · exact h1
    · exact h1

theorem fanOut (h : KeptMoves P) (e code op) (l : List BerthId) (n) (hs : P s) : P (s.fanOut n e code op l).1 := by
  induction l generalizing s n with
  | nil => exact hs
  | cons b rest ih =>
    unfold State.fanOut
    split
    · exact ih _ (h.fanOne _ _ _ _ _ hs)
    · exact ih _ hs

theorem takeGroup (h : KeptMoves P) (g code toggle op) (hs : P s) : P (s.takeGroup g code toggle op) := by
  unfold State.takeGroup
  dsimp only
  split
  · exact h.queueGroupRsp _ _ _ (h.fanOut _ _ _ _ _ (h.groupTaken _ _ _ hs))
  · exact h.queueGroupRsp _ _ _ (h.groupTaken _ _ _ hs)

theorem examineGroup (h : KeptMoves P) (g w) (hs : P s) : P (s.examineGroup g w) := by
  unfold State.examineGroup
  split
  · exact hs
  · exact h.takeGroup _ _ _ _ hs

/-! ## Host writes -/

theorem manualShipcon (h : KeptMoves P) (b a d) (hs : P s) : P (s.manualShipcon b a d) := by
  unfold State.manualShipcon
  split
  · split
    · exact h.passWrite _ _ _ hs
    · exact h.setSyncCount _ _ (h.placeHold _ _ _ _ hs)
  · exact h.sink _ _ _ _ hs

theorem cancelByHost (h : KeptMoves P) (b e) (hs : P s) : P (s.cancelByHost b e) := by
  unfold State.cancelByHost
  have h1 := h.endHold .holdCancelled e hs
  dsimp only
  split
  · exact h.leaveManualEngaging _ _ h1
  · exact h1

theorem guardBreaker (h : KeptMoves P) (b w a d) (hs : P s) : P (s.guardBreaker b w a d) := by
  unfold State.guardBreaker
  split
  · split
    · exact h.passWrite _ _ _ (h.cancelByHost _ _ hs)
    · exact h.passWrite _ _ _ hs
  · split
    · split
      · exact h.supersede _ _ hs
      · split
        · exact h.manualEngage _ _ _ _ hs
        · exact h.manualShipcon _ _ _ hs
    · exact h.sink _ _ _ _ hs

theorem commandWrite (h : KeptMoves P) (b w a d) (hs : P s) : P (s.commandWrite b w a d) := by
  unfold State.commandWrite
  split
  · exact h.sink _ _ _ _ hs
  · exact h.sink _ _ _ _ hs
  · exact h.passWrite _ _ _ hs
  · exact h.guardBreaker _ _ _ _ hs
  · exact h.guardBreaker _ _ _ _ hs

/-- The outcome of a host write keeps `P` when an accepted CONSUMER value does. -/
theorem decideWrite (h : KeptMoves P) (hc : ∀ (t : State) v, t.log.acceptsConsumer v = true → P t → P (t.setLog (t.log.setConsumer v t.scan.passNumber)))
    (c a d) (hs : P s) : P (s.decideWrite c a d) := by
  unfold State.decideWrite
  split
  · exact h.passWrite _ _ _ hs
  · exact h.commandWrite _ _ _ _ hs
  · exact h.examineReq _ _ (h.passWrite _ _ _ hs)
  · exact h.sink _ _ _ _ hs
  · exact h.sink _ _ _ _ hs
  · exact h.examineGroup _ _ (h.passWrite _ _ _ hs)
  · exact h.sink _ _ _ _ hs
  · unfold State.writeConsumer
    split
    · rename_i hacc
      exact h.passWrite _ _ _ (hc _ _ hacc hs)
    · exact h.sink _ _ _ _ hs
  · exact h.sink _ _ _ _ hs
  · exact h.sink _ _ _ _ hs

/-! ## Results and expiries -/

/-- The delivery of a result keeps `P` once the replaced latest result meets it. -/
theorem deliverBerth (h : KeptMoves P) (b r) (h1 : P (s.setBerth b { s.berth b with latest := some r })) :
    P (s.deliverBerth b r) := by
  unfold State.deliverBerth
  dsimp only
  split
  · exact h.supervise _ _ (h.adopt _ _ _ h1)
  · have h2 := h.sequence _ b r (h.supervise b r h1)
    split
    · exact h.countShore _ _ h2
    · exact h2

theorem expireHold (h : KeptMoves P) (e) (hs : P s) : P (s.expireHold e) := by
  unfold State.expireHold
  have h1 := h.endHold .holdExpired e hs
  dsimp only
  split
  · exact h.leaveManualEngaging _ _ h1
  · exact h1

end KeptMoves

end Sys2Proof.Machine
end

