-- ==== Sys2Proof/Laws/Units.lean ====
section
/-! SUPPORT. What the operations with cases of their own do, field by field: withdrawal (R92), the base grant's return (R86), a
change of level (R94), the cancellation of holds (R127) and the end of a request (R109). A proof cites these and never splits
the cases again. -/

namespace Sys2Proof.Machine

/-- What no calm effect touches: everything but records, supervision, budget, holds, the Own Write Queue and the log. -/
structure CalmFrame (s t : State) : Prop where
  pending : t.pending = s.pending
  phase : t.phase = s.phase
  maintPin : t.maintPin = s.maintPin
  pim : t.pim = s.pim
  plant : t.plant = s.plant
  loader : t.loader = s.loader
  tables : t.tables = s.tables
  chans : t.chans = s.chans
  blocks : t.blocks = s.blocks
  timer : t.timer = s.timer
  scan : t.scan = s.scan
  groupTaken : t.groupTaken = s.groupTaken
  ports : t.ports = s.ports

theorem CalmFrame.refl (s : State) : CalmFrame s s := ⟨rfl, rfl, rfl, rfl, rfl, rfl, rfl, rfl, rfl, rfl, rfl, rfl, rfl⟩

/-- Every calm effect leaves the frame. -/
theorem CalmFrame.calm (s : State) : KeptCalm (CalmFrame s) where
  berth := fun _ _ _ _ _ _ _ h => { h with }
  sup := fun _ _ _ h => { h with }
  budget := fun _ _ _ h => { h with }
  holds := fun _ _ h => { h with }
  seqWrite := fun _ _ _ _ h => { h with }
  tripWrite := fun _ _ h => { h with }
  queueRsp := fun _ _ h => { h with }
  record := fun _ _ _ _ _ _ h => { h with }
  statusChanged := fun _ h => { h with }
  grantedChanged := fun _ h => { h with }

variable (s : State) (b : BerthId)


/-! ## Withdrawal of a claim (R92) -/

@[simp] theorem State.withdrawClaim_pending : (s.withdrawClaim b).pending = s.pending :=
  ((CalmFrame.calm s).withdrawClaim b (CalmFrame.refl s)).pending
@[simp] theorem State.withdrawClaim_phase : (s.withdrawClaim b).phase = s.phase :=
  ((CalmFrame.calm s).withdrawClaim b (CalmFrame.refl s)).phase
@[simp] theorem State.withdrawClaim_maintPin : (s.withdrawClaim b).maintPin = s.maintPin :=
  ((CalmFrame.calm s).withdrawClaim b (CalmFrame.refl s)).maintPin
@[simp] theorem State.withdrawClaim_pim : (s.withdrawClaim b).pim = s.pim :=
  ((CalmFrame.calm s).withdrawClaim b (CalmFrame.refl s)).pim
@[simp] theorem State.withdrawClaim_plant : (s.withdrawClaim b).plant = s.plant :=
  ((CalmFrame.calm s).withdrawClaim b (CalmFrame.refl s)).plant
@[simp] theorem State.withdrawClaim_loader : (s.withdrawClaim b).loader = s.loader :=
  ((CalmFrame.calm s).withdrawClaim b (CalmFrame.refl s)).loader
@[simp] theorem State.withdrawClaim_tables : (s.withdrawClaim b).tables = s.tables :=
  ((CalmFrame.calm s).withdrawClaim b (CalmFrame.refl s)).tables
@[simp] theorem State.withdrawClaim_sups : (s.withdrawClaim b).sups = s.sups := by
  unfold State.withdrawClaim
  split <;> rfl
@[simp] theorem State.withdrawClaim_chans : (s.withdrawClaim b).chans = s.chans :=
  ((CalmFrame.calm s).withdrawClaim b (CalmFrame.refl s)).chans
@[simp] theorem State.withdrawClaim_blocks : (s.withdrawClaim b).blocks = s.blocks :=
  ((CalmFrame.calm s).withdrawClaim b (CalmFrame.refl s)).blocks
@[simp] theorem State.withdrawClaim_timer : (s.withdrawClaim b).timer = s.timer :=
  ((CalmFrame.calm s).withdrawClaim b (CalmFrame.refl s)).timer
@[simp] theorem State.withdrawClaim_scan : (s.withdrawClaim b).scan = s.scan :=
  ((CalmFrame.calm s).withdrawClaim b (CalmFrame.refl s)).scan
@[simp] theorem State.withdrawClaim_groupTaken : (s.withdrawClaim b).groupTaken = s.groupTaken :=
  ((CalmFrame.calm s).withdrawClaim b (CalmFrame.refl s)).groupTaken
@[simp] theorem State.withdrawClaim_ports : (s.withdrawClaim b).ports = s.ports :=
  ((CalmFrame.calm s).withdrawClaim b (CalmFrame.refl s)).ports
@[simp] theorem State.withdrawClaim_berths : (s.withdrawClaim b).berths = s.berths := by
  unfold State.withdrawClaim
  split <;> rfl
@[simp] theorem State.withdrawClaim_holds : (s.withdrawClaim b).holds = s.holds := by
  unfold State.withdrawClaim
  split <;> rfl
@[simp] theorem State.withdrawClaim_owq : (s.withdrawClaim b).owq = s.owq := by
  unfold State.withdrawClaim
  split <;> rfl
@[simp] theorem State.withdrawClaim_log : (s.withdrawClaim b).log = s.log := by
  unfold State.withdrawClaim
  split <;> rfl
@[simp] theorem State.sup_withdrawClaim (c : BerthId) : (s.withdrawClaim b).sup c = s.sup c := by
  simp [State.sup]
@[simp] theorem State.chan_withdrawClaim (c : BerthId) : (s.withdrawClaim b).chan c = s.chan c := by
  simp [State.chan]
@[simp] theorem State.static_withdrawClaim (c : BerthId) : (s.withdrawClaim b).static c = s.static c := by
  simp [State.static]
@[simp] theorem State.threshold_withdrawClaim (k : Nat) : (s.withdrawClaim b).threshold k = s.threshold k := by
  simp [State.threshold]
@[simp] theorem State.levelEntry_withdrawClaim (k : Nat) : (s.withdrawClaim b).levelEntry k = s.levelEntry k := by
  simp [State.levelEntry]
@[simp] theorem State.levelCredits_withdrawClaim (k : Nat) : (s.withdrawClaim b).levelCredits k = s.levelCredits k := by
  simp [State.levelCredits, State.levelEntry]

@[simp] theorem State.berth_withdrawClaim (c : BerthId) : (s.withdrawClaim b).berth c = s.berth c := by
  simp [State.berth]

@[simp] theorem State.withdrawClaim_stack : (s.withdrawClaim b).budget.stack = s.budget.stack := by
  unfold State.withdrawClaim
  split <;> rfl

/-- After a withdrawal the berth has no claim. -/
theorem State.noClaim_withdrawClaim : (s.withdrawClaim b).noClaim b := by
  unfold State.withdrawClaim
  split
  · rename_i h
    unfold State.claimOf at h
    rw [List.find?_eq_none] at h
    intro c hc hb
    exact h c hc (by simpa using hb)
  · intro c hc
    simpa using (List.mem_filter.mp hc).2

variable {s b} in
/-- A withdrawal changes nothing for a berth with no claim (R92). -/
theorem State.withdrawClaim_of_noClaim (h : s.noClaim b) : s.withdrawClaim b = s := by
  have hn : s.claimOf b = none := by
    unfold State.claimOf
    rw [List.find?_eq_none]
    intro c hc
    simpa using h c hc
  unfold State.withdrawClaim
  rw [hn]


/-! ## The base grant's return (R86) -/

@[simp] theorem State.returnBase_pending : (s.returnBase b).pending = s.pending :=
  ((CalmFrame.calm s).returnBase b (CalmFrame.refl s)).pending
@[simp] theorem State.returnBase_phase : (s.returnBase b).phase = s.phase :=
  ((CalmFrame.calm s).returnBase b (CalmFrame.refl s)).phase
@[simp] theorem State.returnBase_maintPin : (s.returnBase b).maintPin = s.maintPin :=
  ((CalmFrame.calm s).returnBase b (CalmFrame.refl s)).maintPin
@[simp] theorem State.returnBase_pim : (s.returnBase b).pim = s.pim :=
  ((CalmFrame.calm s).returnBase b (CalmFrame.refl s)).pim
@[simp] theorem State.returnBase_plant : (s.returnBase b).plant = s.plant :=
  ((CalmFrame.calm s).returnBase b (CalmFrame.refl s)).plant
@[simp] theorem State.returnBase_loader : (s.returnBase b).loader = s.loader :=
  ((CalmFrame.calm s).returnBase b (CalmFrame.refl s)).loader
@[simp] theorem State.returnBase_tables : (s.returnBase b).tables = s.tables :=
  ((CalmFrame.calm s).returnBase b (CalmFrame.refl s)).tables
@[simp] theorem State.returnBase_sups : (s.returnBase b).sups = s.sups := by
  unfold State.returnBase
  split <;> rfl
@[simp] theorem State.returnBase_chans : (s.returnBase b).chans = s.chans :=
  ((CalmFrame.calm s).returnBase b (CalmFrame.refl s)).chans
@[simp] theorem State.returnBase_blocks : (s.returnBase b).blocks = s.blocks :=
  ((CalmFrame.calm s).returnBase b (CalmFrame.refl s)).blocks
@[simp] theorem State.returnBase_timer : (s.returnBase b).timer = s.timer :=
  ((CalmFrame.calm s).returnBase b (CalmFrame.refl s)).timer
@[simp] theorem State.returnBase_scan : (s.returnBase b).scan = s.scan :=
  ((CalmFrame.calm s).returnBase b (CalmFrame.refl s)).scan
@[simp] theorem State.returnBase_groupTaken : (s.returnBase b).groupTaken = s.groupTaken :=
  ((CalmFrame.calm s).returnBase b (CalmFrame.refl s)).groupTaken
@[simp] theorem State.returnBase_ports : (s.returnBase b).ports = s.ports :=
  ((CalmFrame.calm s).returnBase b (CalmFrame.refl s)).ports
@[simp] theorem State.returnBase_holds : (s.returnBase b).holds = s.holds := by
  unfold State.returnBase
  split <;> rfl
@[simp] theorem State.returnBase_owq : (s.returnBase b).owq = s.owq := by
  unfold State.returnBase
  split <;> rfl
@[simp] theorem State.sup_returnBase (c : BerthId) : (s.returnBase b).sup c = s.sup c := by
  simp [State.sup]
@[simp] theorem State.chan_returnBase (c : BerthId) : (s.returnBase b).chan c = s.chan c := by
  simp [State.chan]
@[simp] theorem State.static_returnBase (c : BerthId) : (s.returnBase b).static c = s.static c := by
  simp [State.static]
@[simp] theorem State.threshold_returnBase (k : Nat) : (s.returnBase b).threshold k = s.threshold k := by
  simp [State.threshold]
@[simp] theorem State.levelEntry_returnBase (k : Nat) : (s.returnBase b).levelEntry k = s.levelEntry k := by
  simp [State.levelEntry]
@[simp] theorem State.levelCredits_returnBase (k : Nat) : (s.returnBase b).levelCredits k = s.levelCredits k := by
  simp [State.levelCredits, State.levelEntry]

@[simp] theorem State.berth_returnBase_same : (s.returnBase b).berth b = { s.berth b with baseGrant := 0 } := by
  unfold State.returnBase
  split
  · rename_i h
    cases hb : s.berth b
    rw [hb] at h
    simp only at h
    rw [h]
  · exact State.berth_setBerth_same _ _ _

@[simp] theorem State.berth_returnBase_of_ne {b c : BerthId} (h : c ≠ b) : (s.returnBase b).berth c = s.berth c := by
  unfold State.returnBase
  split
  · rfl
  · exact State.berth_setBerth_of_ne _ _ h

@[simp] theorem State.returnBase_claims : (s.returnBase b).budget.claims = s.budget.claims := by
  unfold State.returnBase
  split <;> rfl

@[simp] theorem State.returnBase_stack : (s.returnBase b).budget.stack = s.budget.stack := by
  unfold State.returnBase
  split <;> rfl

@[simp] theorem State.returnBase_staging : (s.returnBase b).log.staging = s.log.staging := by
  unfold State.returnBase
  split <;> rfl


/-! ## A change of level (R94) -/

@[simp] theorem State.changeLevel_pending (n : Nat) : (s.changeLevel b n).pending = s.pending :=
  ((CalmFrame.calm s).changeLevel b n (CalmFrame.refl s)).pending
@[simp] theorem State.changeLevel_phase (n : Nat) : (s.changeLevel b n).phase = s.phase :=
  ((CalmFrame.calm s).changeLevel b n (CalmFrame.refl s)).phase
@[simp] theorem State.changeLevel_maintPin (n : Nat) : (s.changeLevel b n).maintPin = s.maintPin :=
  ((CalmFrame.calm s).changeLevel b n (CalmFrame.refl s)).maintPin
@[simp] theorem State.changeLevel_pim (n : Nat) : (s.changeLevel b n).pim = s.pim :=
  ((CalmFrame.calm s).changeLevel b n (CalmFrame.refl s)).pim
@[simp] theorem State.changeLevel_plant (n : Nat) : (s.changeLevel b n).plant = s.plant :=
  ((CalmFrame.calm s).changeLevel b n (CalmFrame.refl s)).plant
@[simp] theorem State.changeLevel_loader (n : Nat) : (s.changeLevel b n).loader = s.loader :=
  ((CalmFrame.calm s).changeLevel b n (CalmFrame.refl s)).loader
@[simp] theorem State.changeLevel_tables (n : Nat) : (s.changeLevel b n).tables = s.tables :=
  ((CalmFrame.calm s).changeLevel b n (CalmFrame.refl s)).tables
@[simp] theorem State.changeLevel_sups (n : Nat) : (s.changeLevel b n).sups = s.sups := by
  unfold State.changeLevel
  dsimp only
  repeat' split
  all_goals rfl
@[simp] theorem State.changeLevel_chans (n : Nat) : (s.changeLevel b n).chans = s.chans :=
  ((CalmFrame.calm s).changeLevel b n (CalmFrame.refl s)).chans
@[simp] theorem State.changeLevel_blocks (n : Nat) : (s.changeLevel b n).blocks = s.blocks :=
  ((CalmFrame.calm s).changeLevel b n (CalmFrame.refl s)).blocks
@[simp] theorem State.changeLevel_timer (n : Nat) : (s.changeLevel b n).timer = s.timer :=
  ((CalmFrame.calm s).changeLevel b n (CalmFrame.refl s)).timer
@[simp] theorem State.changeLevel_scan (n : Nat) : (s.changeLevel b n).scan = s.scan :=
  ((CalmFrame.calm s).changeLevel b n (CalmFrame.refl s)).scan
@[simp] theorem State.changeLevel_groupTaken (n : Nat) : (s.changeLevel b n).groupTaken = s.groupTaken :=
  ((CalmFrame.calm s).changeLevel b n (CalmFrame.refl s)).groupTaken
@[simp] theorem State.changeLevel_ports (n : Nat) : (s.changeLevel b n).ports = s.ports :=
  ((CalmFrame.calm s).changeLevel b n (CalmFrame.refl s)).ports
@[simp] theorem State.changeLevel_holds (n : Nat) : (s.changeLevel b n).holds = s.holds := by
  unfold State.changeLevel
  dsimp only
  repeat' split
  all_goals rfl
@[simp] theorem State.sup_changeLevel (n : Nat) (c : BerthId) : (s.changeLevel b n).sup c = s.sup c := by
  simp [State.sup]
@[simp] theorem State.chan_changeLevel (n : Nat) (c : BerthId) : (s.changeLevel b n).chan c = s.chan c := by
  simp [State.chan]
@[simp] theorem State.static_changeLevel (n : Nat) (c : BerthId) : (s.changeLevel b n).static c = s.static c := by
  simp [State.static]
@[simp] theorem State.threshold_changeLevel (n : Nat) (k : Nat) : (s.changeLevel b n).threshold k = s.threshold k := by
  simp [State.threshold]
@[simp] theorem State.levelEntry_changeLevel (n : Nat) (k : Nat) : (s.changeLevel b n).levelEntry k = s.levelEntry k := by
  simp [State.levelEntry]
@[simp] theorem State.levelCredits_changeLevel (n : Nat) (k : Nat) : (s.changeLevel b n).levelCredits k = s.levelCredits k := by
  simp [State.levelCredits, State.levelEntry]

@[simp] theorem State.berth_changeLevel_same (n : Nat) :
    (s.changeLevel b n).berth b = { s.berth b with level := n, residency := 0, idle := 0 } := by
  unfold State.changeLevel
  dsimp only
  repeat' split
  all_goals exact State.berth_setBerth_same _ _ _

@[simp] theorem State.berth_changeLevel_of_ne {b c : BerthId} (n : Nat) (h : c ≠ b) :
    (s.changeLevel b n).berth c = s.berth c := by
  unfold State.changeLevel
  dsimp only
  repeat' split
  all_goals exact State.berth_setBerth_of_ne _ _ h

/-- CHARGE_LIMIT is queued with the new level's limit. -/
@[simp] theorem State.changeLevel_owq (n : Nat) :
    (s.changeLevel b n).owq = placeWrite s.owq (s.seqEntry b .chargeLimit (s.levelEntry n).limit) := by
  unfold State.changeLevel
  dsimp only
  repeat' split
  all_goals rfl

@[simp] theorem State.changeLevel_claims (n : Nat) : (s.changeLevel b n).budget.claims = s.budget.claims := by
  unfold State.changeLevel
  dsimp only
  repeat' split
  all_goals rfl

@[simp] theorem State.changeLevel_stack (n : Nat) :
    (s.changeLevel b n).budget.stack = stackAfter s.budget.stack b (s.berth b).level n := by
  unfold State.changeLevel
  dsimp only
  repeat' split
  all_goals rfl

@[simp] theorem State.changeLevel_staging (n : Nat) : (s.changeLevel b n).log.staging = s.log.staging := by
  unfold State.changeLevel
  dsimp only
  repeat' split
  all_goals rfl

variable {b} in
/-- A berth brought to level 0 is not on the Level Stack (R99). -/
theorem stackAfter_zero_not_mem (l : List BerthId) (old : Nat) : b ∉ stackAfter l b old 0 := by
  unfold stackAfter
  simp


/-! ## Cancellation of holds (R127) -/

/-- The Hold Queue and the log apart, nothing is touched. -/
theorem State.cancelList_field {α : Type} (f : State → α) (hf : ∀ (u : State) l g, f ((u.setHolds l).setLog g) = f u)
    (l : List Hold) (u : State) : f (u.cancelList l) = f u := by
  induction l generalizing u with
  | nil => rfl
  | cons e rest ih =>
    rw [State.cancelList, ih]
    exact hf _ _ _

@[simp] theorem State.cancelHolds_pending : (s.cancelHolds b).pending = s.pending :=
  State.cancelList_field State.pending (fun _ _ _ => rfl) _ _
@[simp] theorem State.cancelHolds_phase : (s.cancelHolds b).phase = s.phase :=
  State.cancelList_field State.phase (fun _ _ _ => rfl) _ _
@[simp] theorem State.cancelHolds_maintPin : (s.cancelHolds b).maintPin = s.maintPin :=
  State.cancelList_field State.maintPin (fun _ _ _ => rfl) _ _
@[simp] theorem State.cancelHolds_pim : (s.cancelHolds b).pim = s.pim :=
  State.cancelList_field State.pim (fun _ _ _ => rfl) _ _
@[simp] theorem State.cancelHolds_plant : (s.cancelHolds b).plant = s.plant :=
  State.cancelList_field State.plant (fun _ _ _ => rfl) _ _
@[simp] theorem State.cancelHolds_loader : (s.cancelHolds b).loader = s.loader :=
  State.cancelList_field State.loader (fun _ _ _ => rfl) _ _
@[simp] theorem State.cancelHolds_tables : (s.cancelHolds b).tables = s.tables :=
  State.cancelList_field State.tables (fun _ _ _ => rfl) _ _
@[simp] theorem State.cancelHolds_sups : (s.cancelHolds b).sups = s.sups :=
  State.cancelList_field State.sups (fun _ _ _ => rfl) _ _
@[simp] theorem State.cancelHolds_chans : (s.cancelHolds b).chans = s.chans :=
  State.cancelList_field State.chans (fun _ _ _ => rfl) _ _
@[simp] theorem State.cancelHolds_blocks : (s.cancelHolds b).blocks = s.blocks :=
  State.cancelList_field State.blocks (fun _ _ _ => rfl) _ _
@[simp] theorem State.cancelHolds_timer : (s.cancelHolds b).timer = s.timer :=
  State.cancelList_field State.timer (fun _ _ _ => rfl) _ _
@[simp] theorem State.cancelHolds_scan : (s.cancelHolds b).scan = s.scan :=
  State.cancelList_field State.scan (fun _ _ _ => rfl) _ _
@[simp] theorem State.cancelHolds_groupTaken : (s.cancelHolds b).groupTaken = s.groupTaken :=
  State.cancelList_field State.groupTaken (fun _ _ _ => rfl) _ _
@[simp] theorem State.cancelHolds_ports : (s.cancelHolds b).ports = s.ports :=
  State.cancelList_field State.ports (fun _ _ _ => rfl) _ _
@[simp] theorem State.cancelHolds_berths : (s.cancelHolds b).berths = s.berths :=
  State.cancelList_field State.berths (fun _ _ _ => rfl) _ _
@[simp] theorem State.cancelHolds_owq : (s.cancelHolds b).owq = s.owq :=
  State.cancelList_field State.owq (fun _ _ _ => rfl) _ _
@[simp] theorem State.cancelHolds_budget : (s.cancelHolds b).budget = s.budget :=
  State.cancelList_field State.budget (fun _ _ _ => rfl) _ _
@[simp] theorem State.berth_cancelHolds (c : BerthId) : (s.cancelHolds b).berth c = s.berth c :=
  State.cancelList_field (fun u => u.berth c) (fun _ _ _ => rfl) _ _
@[simp] theorem State.sup_cancelHolds (c : BerthId) : (s.cancelHolds b).sup c = s.sup c :=
  State.cancelList_field (fun u => u.sup c) (fun _ _ _ => rfl) _ _
@[simp] theorem State.chan_cancelHolds (c : BerthId) : (s.cancelHolds b).chan c = s.chan c :=
  State.cancelList_field (fun u => u.chan c) (fun _ _ _ => rfl) _ _
@[simp] theorem State.static_cancelHolds (c : BerthId) : (s.cancelHolds b).static c = s.static c :=
  State.cancelList_field (fun u => u.static c) (fun _ _ _ => rfl) _ _
@[simp] theorem State.threshold_cancelHolds (k : Nat) : (s.cancelHolds b).threshold k = s.threshold k :=
  State.cancelList_field (fun u => u.threshold k) (fun _ _ _ => rfl) _ _
@[simp] theorem State.levelEntry_cancelHolds (k : Nat) : (s.cancelHolds b).levelEntry k = s.levelEntry k :=
  State.cancelList_field (fun u => u.levelEntry k) (fun _ _ _ => rfl) _ _
@[simp] theorem State.levelCredits_cancelHolds (k : Nat) : (s.cancelHolds b).levelCredits k = s.levelCredits k :=
  State.cancelList_field (fun u => u.levelCredits k) (fun _ _ _ => rfl) _ _

/-- What a cancellation leaves stood before it, and none of it at an address cancelled. -/
theorem State.mem_cancelList {l : List Hold} {u : State} {h : Hold} (hm : h ∈ (u.cancelList l).holds) :
    h ∈ u.holds ∧ ∀ e ∈ l, h.address ≠ e.address := by
  induction l generalizing u with
  | nil => exact ⟨hm, fun _ he => by cases he⟩
  | cons e rest ih =>
    obtain ⟨h1, h2⟩ := ih hm
    obtain ⟨h3, h4⟩ := List.mem_filter.mp h1
    refine ⟨h3, fun x hx => ?_⟩
    rcases List.mem_cons.mp hx with rfl | hx
    · simpa using h4
    · exact h2 x hx

variable {s b} in
/-- After a cancellation no entry of the berth is held (R127). -/
theorem State.no_hold_of_cancelHolds {h : Hold} (hm : h ∈ (s.cancelHolds b).holds) : h ∈ s.holds ∧ h.berth ≠ b := by
  obtain ⟨h1, h2⟩ := State.mem_cancelList hm
  refine ⟨h1, fun hb => h2 h ?_ rfl⟩
  unfold State.holdsOf
  exact List.mem_filter.mpr ⟨h1, by simpa using hb⟩

variable {s b} in
/-- A berth that holds nothing has nothing to cancel. -/
theorem State.cancelHolds_of_none (h : s.holdsOf b = []) : s.cancelHolds b = s := by
  unfold State.cancelHolds
  rw [h]
  rfl

variable {s b} in
/-- The one entry of a berth leaves with its record. -/
theorem State.cancelHolds_of_one {e : Hold} (h : s.holdsOf b = [e]) : s.cancelHolds b = s.endHold .holdCancelled e := by
  unfold State.cancelHolds
  rw [h]
  rfl


/-! ## The end of a request (R109) -/

@[simp] theorem State.finalise_pending (res : Result) : (s.finalise b res).pending = s.pending :=
  ((CalmFrame.calm s).finalise b res (CalmFrame.refl s)).pending
@[simp] theorem State.finalise_phase (res : Result) : (s.finalise b res).phase = s.phase :=
  ((CalmFrame.calm s).finalise b res (CalmFrame.refl s)).phase
@[simp] theorem State.finalise_maintPin (res : Result) : (s.finalise b res).maintPin = s.maintPin :=
  ((CalmFrame.calm s).finalise b res (CalmFrame.refl s)).maintPin
@[simp] theorem State.finalise_pim (res : Result) : (s.finalise b res).pim = s.pim :=
  ((CalmFrame.calm s).finalise b res (CalmFrame.refl s)).pim
@[simp] theorem State.finalise_plant (res : Result) : (s.finalise b res).plant = s.plant :=
  ((CalmFrame.calm s).finalise b res (CalmFrame.refl s)).plant
@[simp] theorem State.finalise_loader (res : Result) : (s.finalise b res).loader = s.loader :=
  ((CalmFrame.calm s).finalise b res (CalmFrame.refl s)).loader
@[simp] theorem State.finalise_tables (res : Result) : (s.finalise b res).tables = s.tables :=
  ((CalmFrame.calm s).finalise b res (CalmFrame.refl s)).tables
@[simp] theorem State.finalise_sups (res : Result) : (s.finalise b res).sups = s.sups := by
  unfold State.finalise
  repeat' split
  all_goals rfl
@[simp] theorem State.finalise_chans (res : Result) : (s.finalise b res).chans = s.chans :=
  ((CalmFrame.calm s).finalise b res (CalmFrame.refl s)).chans
@[simp] theorem State.finalise_blocks (res : Result) : (s.finalise b res).blocks = s.blocks :=
  ((CalmFrame.calm s).finalise b res (CalmFrame.refl s)).blocks
@[simp] theorem State.finalise_timer (res : Result) : (s.finalise b res).timer = s.timer :=
  ((CalmFrame.calm s).finalise b res (CalmFrame.refl s)).timer
@[simp] theorem State.finalise_scan (res : Result) : (s.finalise b res).scan = s.scan :=
  ((CalmFrame.calm s).finalise b res (CalmFrame.refl s)).scan
@[simp] theorem State.finalise_groupTaken (res : Result) : (s.finalise b res).groupTaken = s.groupTaken :=
  ((CalmFrame.calm s).finalise b res (CalmFrame.refl s)).groupTaken
@[simp] theorem State.finalise_ports (res : Result) : (s.finalise b res).ports = s.ports :=
  ((CalmFrame.calm s).finalise b res (CalmFrame.refl s)).ports
@[simp] theorem State.finalise_holds (res : Result) : (s.finalise b res).holds = s.holds := by
  unfold State.finalise
  repeat' split
  all_goals rfl
@[simp] theorem State.finalise_budget (res : Result) : (s.finalise b res).budget = s.budget := by
  unfold State.finalise
  repeat' split
  all_goals rfl
@[simp] theorem State.sup_finalise (res : Result) (c : BerthId) : (s.finalise b res).sup c = s.sup c := by
  simp [State.sup]
@[simp] theorem State.chan_finalise (res : Result) (c : BerthId) : (s.finalise b res).chan c = s.chan c := by
  simp [State.chan]
@[simp] theorem State.static_finalise (res : Result) (c : BerthId) : (s.finalise b res).static c = s.static c := by
  simp [State.static]
@[simp] theorem State.threshold_finalise (res : Result) (k : Nat) : (s.finalise b res).threshold k = s.threshold k := by
  simp [State.threshold]
@[simp] theorem State.levelEntry_finalise (res : Result) (k : Nat) : (s.finalise b res).levelEntry k = s.levelEntry k := by
  simp [State.levelEntry]
@[simp] theorem State.levelCredits_finalise (res : Result) (k : Nat) : (s.finalise b res).levelCredits k = s.levelCredits k := by
  simp [State.levelCredits, State.levelEntry]

@[simp] theorem State.berth_finalise_same (res : Result) : (s.finalise b res).berth b = (s.berth b).finalised res := by
  unfold State.finalise Berth.finalised
  split
  · rename_i h
    rw [h]
  · rename_i h
    rw [h]
    split
    · rename_i hp
      refine (State.berth_setBerth_same _ _ _).trans ?_
      simp [hp]
    · rename_i hp
      refine (State.berth_setBerth_same _ _ _).trans ?_
      simp [hp]

@[simp] theorem State.berth_finalise_of_ne {b c : BerthId} (res : Result) (h : c ≠ b) :
    (s.finalise b res).berth c = s.berth c := by
  unfold State.finalise
  split
  · rfl
  · split
    · exact State.berth_setBerth_of_ne _ _ h
    · exact State.berth_setBerth_of_ne _ _ h

variable {s b} in
/-- A final while RSP answers the request is queued with RSP (R109). -/
theorem State.finalise_of_pending {rq : InProgress} (res : Result) (h : (s.berth b).request = some rq)
    (hp : (s.berth b).phase = .pending) :
    s.finalise b res = (s.setBerth b { s.berth b with request := none, phase := .final, result := res }).queueRsp b := by
  unfold State.finalise
  rw [h, hp]

variable {s b} in
/-- A final after RSP answers another request goes to the log (R109). -/
theorem State.finalise_of_final {rq : InProgress} (res : Result) (h : (s.berth b).request = some rq)
    (hp : (s.berth b).phase = .final) :
    s.finalise b res =
      (s.setBerth b { s.berth b with request := none }).record .requestFinal (some b) 0 rq.word
        (BitVec.ofNat 16 res.code) := by
  unfold State.finalise
  rw [h, hp]

variable {s b} in
/-- With no request in progress there is nothing to end. -/
theorem State.finalise_of_none (res : Result) (h : (s.berth b).request = none) : s.finalise b res = s := by
  unfold State.finalise
  rw [h]

/-- The RSP write that follows the end of a request makes the request's own RSP write nothing of its own: only TRIP entries and
other addresses tell. -/
theorem State.finalise_queueRsp_owq (res : Result) :
    ((s.finalise b res).queueRsp b).owq = placeWrite s.owq (s.rspEntry b ((s.berth b).finalised res)) := by
  have hb : (s.finalise b res).berth b = (s.berth b).finalised res := State.berth_finalise_same s b res
  have ht : (s.finalise b res).tables = s.tables := State.finalise_tables s b res
  unfold State.queueRsp State.rspEntry
  rw [hb, ht]
  unfold State.finalise
  split
  · rfl
  · rename_i h
    split
    · rename_i hp
      show placeWrite (placeWrite s.owq _) _ = _
      exact placeWrite_placeWrite_same _ _ _ rfl rfl rfl (fun hc => by cases hc)
    · rfl


end Sys2Proof.Machine
end

