-- ==== Sys2Proof/Laws/Outcomes.lean ====
section
/-! SUPPORT. How an event leaves a berth: the log after each operation with cases of its own, the Own Write Queue and the holds at the
end of an event, and `State.leaves` from what stands before that end. -/

namespace Sys2Proof.Machine

variable {s u v : State} {b : BerthId}

/-! ## The log after each operation -/

theorem State.changeLevel_log (s : State) (b : BerthId) (n : Nat) : s.log.Alike (s.changeLevel b n).log := by
  unfold State.changeLevel
  dsimp only
  repeat' split
  all_goals exact ⟨rfl, rfl, rfl, rfl⟩

theorem State.returnBase_log (s : State) (b : BerthId) : s.log.Alike (s.returnBase b).log := by
  unfold State.returnBase
  split <;> exact ⟨rfl, rfl, rfl, rfl⟩

theorem State.takeBase_log (s : State) (b : BerthId) : s.log.Alike (s.takeBase b).log := ⟨rfl, rfl, rfl, rfl⟩

theorem State.reportState_log (s : State) (b : BerthId) (old : BState) (m : Mode) :
    (s.reportState b old m).log = s.log.stage (s.stateRecord b old m (s.berth b).state (s.berth b).mode) := rfl

/-- A request's end stages its record where RSP answers another request (R109). -/
theorem State.finalise_log (s : State) (b : BerthId) (res : Result) :
    (s.finalise b res).log = s.log.stageAll (s.finalRecords b res) := by
  unfold State.finalise State.finalRecords
  split
  · rename_i h
    rw [h]
    rfl
  · rename_i h
    split
    · rename_i hp
      rw [h, hp]
      rfl
    · rename_i hp
      rw [h, hp]
      rfl

theorem State.cancelList_log (l : List Hold) (s : State) :
    (s.cancelList l).log = s.log.stageAll (l.map fun h => s.holdRecord .holdCancelled h) := by
  induction l generalizing s with
  | nil => rfl
  | cons h rest ih => exact ih _

/-- Each cancelled entry stages its record (R127). -/
theorem State.cancelHolds_log (s : State) (b : BerthId) :
    (s.cancelHolds b).log = s.log.stageAll ((s.holdsOf b).map fun h => s.holdRecord .holdCancelled h) :=
  State.cancelList_log _ _

theorem State.cancelList_holds (l : List Hold) (s : State) :
    (s.cancelList l).holds = s.holds.filter fun h => l.all fun x => decide (x.address ≠ h.address) := by
  induction l generalizing s with
  | nil => exact (List.filter_eq_self.mpr (by simp)).symm
  | cons h rest ih =>
    rw [State.cancelList, ih]
    show (dropHold s.holds h.address).filter _ = _
    unfold dropHold
    rw [List.filter_filter]
    refine List.filter_congr fun x _ => ?_
    rw [List.all_cons, Bool.and_comm]
    congr 1
    simp [eq_comm]

/-- What a cancellation leaves of the Hold Queue (R127). -/
theorem State.cancelHolds_holds (s : State) (b : BerthId) :
    (s.cancelHolds b).holds = s.holds.filter fun h => (s.holdsOf b).all fun x => decide (x.address ≠ h.address) :=
  State.cancelList_holds _ _

/-! ## The end of an event -/

theorem State.overcommitTest_shows (s : State) :
    s.overcommitTest.owq = s.owq ∧ s.overcommitTest.holds = s.holds ∧ s.overcommitTest.budget.claims = s.budget.claims
      ∧ s.overcommitTest.budget.stack = s.budget.stack ∧ s.overcommitTest.berths = s.berths
      ∧ ∃ more : List Record, (∀ x ∈ more, x.type = .overcommit) ∧ s.overcommitTest.log.staging = s.log.staging ++ more := by
  have h : ∀ (u : State) q d e, u.log.staging = s.log.staging →
      ∃ more : List Record, (∀ x ∈ more, x.type = .overcommit)
        ∧ (u.record .overcommit none q d e).log.staging = s.log.staging ++ more := by
    intro u q d e hu
    unfold State.record State.setLog Log.stage
    dsimp only
    split
    · refine ⟨[_], ?_, congrArg (· ++ _) hu⟩
      simp
    · exact ⟨[], by simp, by simpa using hu⟩
  unfold State.overcommitTest
  repeat' split
  all_goals first
    | exact ⟨rfl, rfl, rfl, rfl, rfl, h _ _ _ _ rfl⟩
    | exact ⟨rfl, rfl, rfl, rfl, rfl, [], by simp, by simp⟩

/-- With no claim waiting an event ends with the OVERCOMMIT test at most (R91, R103). -/
theorem State.endEvent_shows (h : s.budget.claims = []) :
    s.endEvent.owq = s.owq ∧ s.endEvent.holds = s.holds ∧ s.endEvent.budget.claims = []
      ∧ s.endEvent.budget.stack = s.budget.stack ∧ s.endEvent.berths = s.berths
      ∧ ∃ more : List Record, (∀ x ∈ more, x.type = .overcommit) ∧ s.endEvent.log.staging = s.log.staging ++ more := by
  have h1 : (if s.budget.serviceDue then s.servicePass else s) = s := by
    rw [State.servicePass_of_nil h]
    split <;> rfl
  unfold State.endEvent
  rw [h1]
  dsimp only
  split
  · obtain ⟨a1, a2, a3, a4, a5, a6⟩ := s.overcommitTest_shows
    exact ⟨a1, a2, a3.trans h, a4, a5, a6⟩
  · exact ⟨rfl, rfl, h, rfl, rfl, [], by simp, (List.append_nil _).symm⟩

/-- What stands of a berth before the end of an event stands after it, and where no other claim waits so do the Own Write Queue, the
holds and the log but for an OVERCOMMIT record (R91, R103). -/
theorem State.leaves_endEvent {r : Berth} {c : Channels} {q : List OwnWrite} {rs : List Record} (hn : v.noClaim b)
    (hsub : ∀ x ∈ v.budget.claims, x ∈ u.budget.claims) (hb : v.berth b = r) (hc : v.chan b = c) (hh : v.holds = u.holds)
    (hq : v.owq = q) (hl : (u.log.stageAll rs).Alike v.log) : u.leaves v.endEvent b r c q rs := by
  have ha := Apart.endEvent hn
  refine ⟨ha.berth.trans hb, ha.chan.trans hc, fun ho => ?_⟩
  have hnil : v.budget.claims = [] := by
    rw [List.eq_nil_iff_forall_not_mem]
    exact fun x hx => hn x hx (ho x (hsub x hx))
  obtain ⟨h1, h2, _, _, _, more, h5, h6⟩ := State.endEvent_shows hnil
  exact ⟨h2.trans hh, h1.trans hq, more, h5, by rw [h6, hl.staging]⟩

/-- The same without a service pass or test due, whatever claims wait. -/
theorem State.leaves_quiet {r : Berth} {c : Channels} {q : List OwnWrite} {rs : List Record}
    (h1 : v.budget.serviceDue = false) (h2 : v.budget.testDue = false) (hb : v.berth b = r) (hc : v.chan b = c)
    (hh : v.holds = u.holds) (hq : v.owq = q) (hl : (u.log.stageAll rs).Alike v.log) : u.leaves v.endEvent b r c q rs := by
  rw [State.endEvent_of_quiet h1 h2]
  exact ⟨hb, hc, fun _ => ⟨hh, hq, [], by simp, hl.staging.trans (List.append_nil _).symm⟩⟩

/-! ## Moves of a berth -/

/-- A state within an event of `u`'s: the tables, the pass number and the holds are `u`'s, and either no service pass and no test is
due, or the berth has no claim and no claim was added. -/
structure Within (u y : State) (b : BerthId) : Prop where
  tables : y.tables = u.tables
  pass : y.scan.passNumber = u.scan.passNumber
  holds : y.holds = u.holds
  claims : y.budget.serviceDue = false ∧ y.budget.testDue = false
    ∨ y.noClaim b ∧ ∀ x ∈ y.budget.claims, x ∈ u.budget.claims

/-- What stands of a berth before the end of an event stands after it (R91, R103). -/
theorem Within.leaves {r : Berth} {c : Channels} {q : List OwnWrite} {rs : List Record} (h : Within u v b) (hb : v.berth b = r)
    (hc : v.chan b = c) (hq : v.owq = q) (hl : (u.log.stageAll rs).Alike v.log) : u.leaves v.endEvent b r c q rs := by
  rcases h.claims with ⟨h1, h2⟩ | ⟨h1, h2⟩
  · exact State.leaves_quiet h1 h2 hb hc h.holds hq hl
  · exact State.leaves_endEvent h1 h2 hb hc h.holds hq hl

/-- A move that ends with the RSP write and the STATE record (R24 step 6). -/
theorem Within.reported {y : State} {c : Channels} {ws : List (CmdWord × Word)} {rs : List Record} {old : BState} {m : Mode}
    (h : Within u y b) (hc : y.chan b = c) (hq : y.owq = placeAll u.owq (u.seqEntries b ws))
    (hl : (u.log.stageAll rs).Alike y.log) :
    u.movesTo (y.reportState b old m).endEvent b (y.berth b) c ws
      (rs ++ [u.stateRecord b old m (y.berth b).state (y.berth b).mode]) := by
  have hw : Within u (y.reportState b old m) b := ⟨h.tables, h.pass, h.holds, h.claims⟩
  refine hw.leaves rfl hc ?_ ?_
  · rw [placeAll_append, ← hq]
    show placeWrite y.owq _ = placeWrite y.owq _
    unfold State.rspEntry
    rw [h.tables]
  · rw [Log.stageAll_append, State.reportState_log]
    have : y.stateRecord b old m (y.berth b).state (y.berth b).mode
        = u.stateRecord b old m (y.berth b).state (y.berth b).mode := by
      unfold State.stateRecord
      rw [h.pass]
    rw [this]
    exact hl.stage _

/-- A move that also ends the request in progress (R24 step 5, R109). -/
theorem Within.finalReported {y : State} {c : Channels} {ws : List (CmdWord × Word)} {rs : List Record} {old : BState} {m : Mode}
    {res : Result} (h : Within u y b) (hc : y.chan b = c) (hq : y.owq = placeAll u.owq (u.seqEntries b ws))
    (hl : (u.log.stageAll rs).Alike y.log) (hr : (y.berth b).request = (u.berth b).request)
    (hp : (y.berth b).phase = (u.berth b).phase) :
    u.movesTo ((y.finalise b res).reportState b old m).endEvent b ((y.berth b).finalised res) c ws
      (rs ++ u.finalRecords b res ++ [u.stateRecord b old m (y.berth b).state (y.berth b).mode]) := by
  have hw : Within u ((y.finalise b res).reportState b old m) b := by
    refine ⟨?_, ?_, ?_, ?_⟩
    · exact (State.finalise_tables y b res).trans h.tables
    · exact (congrArg ScanEngine.passNumber (State.finalise_scan y b res)).trans h.pass
    · exact (State.finalise_holds y b res).trans h.holds
    · have hb : ((y.finalise b res).reportState b old m).budget = y.budget := State.finalise_budget y b res
      unfold State.noClaim
      rw [hb]
      exact h.claims
  have hs : ((y.berth b).finalised res).state = (y.berth b).state ∧ ((y.berth b).finalised res).mode = (y.berth b).mode := by
    unfold Berth.finalised
    split <;> exact ⟨rfl, rfl⟩
  have hf : y.finalRecords b res = u.finalRecords b res := by
    unfold State.finalRecords State.finalRecord
    rw [hr, hp, h.pass]
  refine hw.leaves ?_ ?_ ?_ ?_
  · exact State.berth_finalise_same y b res
  · exact (State.chan_finalise y b res b).trans hc
  · rw [placeAll_append, ← hq]
    show ((y.finalise b res).queueRsp b).owq = _
    rw [State.finalise_queueRsp_owq]
    show placeWrite y.owq _ = placeWrite y.owq _
    unfold State.rspEntry
    rw [h.tables]
  · rw [Log.stageAll_append, Log.stageAll_append, State.reportState_log, State.berth_finalise_same, hs.1, hs.2,
      State.finalise_log, hf]
    have : (y.finalise b res).stateRecord b old m (y.berth b).state (y.berth b).mode
        = u.stateRecord b old m (y.berth b).state (y.berth b).mode := by
      unfold State.stateRecord
      rw [State.finalise_scan, h.pass]
    rw [this]
    exact (hl.stageAll _).stage _

end Sys2Proof.Machine
end

