-- ==== Sys2Proof/Laws/Sequencer.lean ====
section
/-! SUPPORT. What the Sequencer does with an accepted result by state and mode (02, 07): the record, channels, commands, records and claims that each transition leaves at the end of its event. -/

namespace Sys2Proof.Machine

section Cable

variable {w : State} {b : BerthId} {r : ScanResult}

def State.begun (w : State) : Prop := w.budget.serviceDue = false ∧ w.budget.testDue = false

theorem Within.refl (h : w.begun) : Within w w b := ⟨rfl, rfl, rfl, .inl h⟩

theorem unmoved_endEvent (hm : w.begun) : w.unmoved w.endEvent := by
  rw [State.endEvent_of_quiet hm.1 hm.2]
  exact ⟨rfl, rfl, rfl, rfl, rfl, rfl⟩

@[simp] theorem berth_enter (st) : (w.enter b st).berth b = (w.berth b).entered st := by
  unfold State.enter; rw [State.berth_setBerth_same]; rfl

@[simp] theorem entered_state (x : Berth) (st) : (x.entered st).state = st := rfl
@[simp] theorem entered_mode (x : Berth) (st) : (x.entered st).mode = x.mode := rfl
@[simp] theorem entered_request (x : Berth) (st) : (x.entered st).request = x.request := rfl
@[simp] theorem entered_phase (x : Berth) (st) : (x.entered st).phase = x.phase := rfl

theorem issues_endEvent {y : State} {x c ws} (hm : y.begun) (hb : y.berths = w.berths.set b x)
    (hc : y.chans = w.chans.set b c) (hh : y.holds = w.holds)
    (hq : y.owq = placeAll w.owq (w.seqEntries b ws)) (hl : y.log = w.log) (hbu : y.budget = w.budget) : w.issues y.endEvent b x c ws := by
  rw [State.endEvent_of_quiet hm.1 hm.2]
  refine ⟨hb, hc, hh, hq, hl, ?_⟩
  show State.budget (State.clearMarks y) = _
  unfold State.clearMarks State.setBudget; simp [hbu]

/-- A result in VACANT or CABLED (R27). -/
theorem sequence_cable (hm : w.begun) : w.cableFollowed (w.sequence b r).endEvent b r := by
  constructor
  · intro hs
    have e : w.sequence b r = w.followCable b r := by unfold State.sequence; rw [hs]
    rw [e]; unfold State.followCable; rw [hs]; dsimp only
    constructor
    · intro h1 h2
      simp only [h1, h2, Bool.and_self, if_true]
      have := Within.reported (u := w) (y := w.enter b .cabled) (b := b) (c := w.chan b) (ws := []) (rs := []) (old := .vacant) (m := (w.berth b).mode) ⟨rfl, rfl, rfl, .inl hm⟩ rfl rfl (Log.Alike.refl _)
      rw [berth_enter] at this
      simpa [State.moveRecord, hs, Berth.entered] using this
    · intro h
      have : (r.pilot && r.earth) = false := by rcases h with h | h <;> simp [h]
      simp only [this, Bool.false_eq_true, if_false]
      exact unmoved_endEvent hm
  · intro hs
    have e : w.sequence b r = w.followCable b r := by unfold State.sequence; rw [hs]
    rw [e]; unfold State.followCable; rw [hs]; dsimp only
    constructor
    · intro h1
      simp only [h1, Bool.false_eq_true, if_false]
      have := Within.reported (u := w) (y := w.enter b .vacant) (b := b) (c := w.chan b) (ws := []) (rs := []) (old := .cabled) (m := (w.berth b).mode) ⟨rfl, rfl, rfl, .inl hm⟩ rfl rfl (Log.Alike.refl _)
      rw [berth_enter] at this
      simpa [State.moveRecord, hs, Berth.entered] using this
    · intro h
      simp only [h, if_true]
      exact unmoved_endEvent hm

theorem unheld_cancel (w : State) (b) : (w.cancelHolds b).holds = (w.unheld b).holds ∧ (w.cancelHolds b).log =
    (w.unheld b).log :=
  ⟨State.cancelHolds_holds w b, State.cancelHolds_log w b⟩

theorem withdraw_sub (s : State) (b) : ∀ x ∈ (s.withdrawClaim b).budget.claims, x ∈ s.budget.claims := by
  intro x hx; unfold State.withdrawClaim at hx
  split at hx
  · exact hx
  · exact (List.mem_filter.mp hx).1

theorem giveUp_noClaim (s : State) (b) : (s.giveUpGrant b).noClaim b ∧ ∀ x ∈
    (s.giveUpGrant b).budget.claims, x ∈ s.budget.claims := by
  unfold State.giveUpGrant State.noClaim
  rw [State.returnBase_claims]
  exact ⟨State.noClaim_withdrawClaim s b, withdraw_sub s b⟩

/-- A berth without a claim has none after the end of the event. -/
theorem noClaim_end {y : State} (h : y.noClaim b) : y.endEvent.noClaim b := (Apart.endEvent h).noClaim h

theorem finalise_noClaim {y : State} {c} (res) (h : y.noClaim c) : (y.finalise b res).noClaim c := by
  unfold State.noClaim; rw [State.finalise_budget]; exact h

theorem giveUp_log (s : State) (b) : s.log.Alike (s.giveUpGrant b).log := by
  have := State.returnBase_log (s.withdrawClaim b) b
  rw [State.withdrawClaim_log] at this
  exact this

@[simp] theorem stateRecord_unheld (a c d e f) : (w.unheld b).stateRecord a c d e f = w.stateRecord a c d e f := rfl
@[simp] theorem berth_unheld (c) : (w.unheld b).berth c = w.berth c := rfl

/-- A result in ENGAGING (R29, R31; in MANUAL R120). -/
theorem sequence_engaging (hm : w.begun) : w.engagingFollowed (w.sequence b r).endEvent b r := by
  intro hs
  have e : w.sequence b r = w.engagingResult b r := by unfold State.sequence; rw [hs]
  rw [e]; unfold State.engagingResult
  constructor
  · intro hmo
    rw [hmo]; dsimp only
    refine ⟨?_, ?_, ?_⟩
    · intro h1
      simp only [h1, Bool.not_false, if_true]
      unfold State.leaveEngaging
      have hg := giveUp_noClaim ((w.enter b .vacant).stopStep b) b
      have hx := Within.finalReported (u := w) (y := ((w.enter b .vacant).stopStep b).giveUpGrant b) (b := b) (c := { w.chan b with step := Channel.idle }) (ws := []) (rs := []) (old := .engaging) (m := (w.berth b).mode) (res := .cable)
        ⟨by simp [State.giveUpGrant]; rfl, by simp [State.giveUpGrant]; rfl, by simp [State.giveUpGrant]; rfl, .inr hg⟩
        (by simp [State.giveUpGrant, State.stopStep, State.enter]) (by simp [State.giveUpGrant, State.seqEntries]; rfl)
        (giveUp_log ((w.enter b .vacant).stopStep b) b)
        (by simp [State.giveUpGrant, State.stopStep, Berth.entered]) (by simp [State.giveUpGrant, State.stopStep, Berth.entered])
      refine ⟨?_, ?_⟩
      · simpa [State.giveUpGrant, State.stopStep, State.moveRecord, hs, Berth.entered, hmo] using hx
      · exact noClaim_end (finalise_noClaim _ hg.1)
    · intro h1 h2 h3
      simp only [h1, h2, h3, Bool.not_true, Bool.false_eq_true, if_false, Bool.true_and, ne_eq, not_false_eq_true,
          decide_true, if_true]
      unfold State.connectReady
      have hx := Within.reported (u := w) (y := (w.toEnergizing b).seqWrite b .shoreBkr cmdClose) (b := b) (c := { w.chan b with step := w.confirmLoaded b }) (ws := [(.shoreBkr, cmdClose)]) (rs := []) (old := .engaging) (m := (w.berth b).mode)
        ⟨rfl, rfl, rfl, .inl hm⟩ (by simp [State.toEnergizing, State.loadStep, State.seqWrite, State.enter]; rfl) rfl (Log.Alike.refl _)
      simpa [State.moveRecord, hs, Berth.entered, State.toEnergizing, State.loadStep, State.seqWrite] using hx
    · intro h1 h2
      have : (r.ready && decide ((w.berth b).baseGrant ≠ 0)) = false := by rcases h2 with h | h <;> simp [h]
      simp only [h1, this, Bool.not_true, Bool.false_eq_true, if_false]
      exact unmoved_endEvent hm
  · intro hmo
    rw [hmo]; dsimp only
    refine ⟨?_, ?_⟩
    · intro h1
      simp only [h1, Bool.not_false, if_true]
      unfold State.leaveManualEngaging
      have hg := giveUp_noClaim ((w.cancelHolds b).enter b .vacant) b
      have hx := Within.reported (u := w.unheld b) (y := ((w.cancelHolds b).enter b .vacant).giveUpGrant b) (b := b) (c := w.chan b) (ws := []) (rs := []) (old := .engaging) (m := (w.berth b).mode)
        ⟨by simp [State.giveUpGrant, State.enter]; rfl, by simp [State.giveUpGrant, State.enter]; rfl, by simp [State.giveUpGrant, State.enter, (unheld_cancel w b).1], .inr ⟨hg.1, fun x hx => by
          have := hg.2 x hx
          rw [show ((w.cancelHolds b).enter b .vacant).budget = w.budget from State.cancelHolds_budget w b] at this
          exact this⟩⟩
        (by simp [State.giveUpGrant, State.enter]) (by simp [State.giveUpGrant, State.seqEntries, State.enter]; rfl)
        (by
          have h1 := State.returnBase_log (((w.cancelHolds b).enter b .vacant).withdrawClaim b) b
          rw [State.withdrawClaim_log] at h1
          have h2 := (unheld_cancel w b).2
          rw [Log.stageAll_nil, ← h2]; exact h1)
      refine ⟨?_, ?_⟩
      · have h2 : (w.cancelHolds b).berth b = w.berth b := State.berth_cancelHolds w b b
        simpa [State.giveUpGrant, State.moveRecord, hs, Berth.entered, hmo, h2] using hx
      · exact noClaim_end hg.1
    · intro h1
      simp only [h1, Bool.not_true, Bool.false_eq_true, if_false]
      exact unmoved_endEvent hm

end Cable

section Supply

variable {w : State} {b : BerthId} {r : ScanResult}

/-- What leaving SHORE leaves, field by field (R39). -/
structure LeftShore (x y : State) (b : BerthId) (old : BState) : Prop where
  berth : y.berth b = (x.berth b).leftShore old
  chan : y.chan b = x.chan b
  tables : y.tables = x.tables
  scan : y.scan = x.scan
  holds : y.holds = x.holds
  owq : y.owq = placeAll x.owq (x.seqEntries b (if old = .shore then [x.chargeZero] else []))
  log : x.log.Alike y.log
  noClaim : (old ≠ .shore → x.noClaim b) → y.noClaim b
  sub : ∀ c ∈ y.budget.claims, c ∈ x.budget.claims
  stack : old = .shore → b ∉ y.budget.stack
  quiet : old ≠ .shore → y.budget = x.budget

theorem leaveShore_fields (x : State) (b) : LeftShore x (x.leaveShore b) b .shore where
  berth := by simp [State.leaveShore, Berth.leftShore, Berth.levelZero]
  chan := by simp [State.leaveShore]
  tables := by simp [State.leaveShore]
  scan := by simp [State.leaveShore]
  holds := by simp [State.leaveShore]
  owq := by simp [State.leaveShore, State.seqEntries, State.chargeZero]
  log := by unfold State.leaveShore; rw [State.withdrawClaim_log]; exact State.changeLevel_log _ _ _
  noClaim := fun _ => State.noClaim_withdrawClaim _ _
  sub := fun c hc => by simpa [State.leaveShore] using withdraw_sub _ _ c hc
  stack := fun _ => by simp only [State.leaveShore, State.withdrawClaim_stack, State.changeLevel_stack]; exact stackAfter_zero_not_mem _ _
  quiet := fun h => absurd rfl h

theorem leaveIfShore_fields (x : State) (b) (old) : LeftShore x (x.leaveIfShore b old) b old := by
  unfold State.leaveIfShore
  split
  · rename_i h; subst h; exact leaveShore_fields x b
  · rename_i h
    exact ⟨by simp [Berth.leftShore, h], rfl, rfl, rfl, rfl, by simp [h, State.seqEntries], Log.Alike.refl _, fun hn => hn h, fun _ hc => hc, fun h' => absurd h' h, fun _ => rfl⟩

/-- A berth that leaves by loss of supply, before the commands. -/
theorem supplyLost_fields (x : State) (b) (old) (hn : old ≠ .shore → x.noClaim b) :
    let z := (((x.enter b .cabled).stopChannels b).leaveIfShore b old).returnBase b
    z.berth b = { ((x.berth b).entered .cabled).leftShore old with baseGrant := 0 } ∧ z.chan b = Channels.blank
        ∧ z.tables = x.tables ∧ z.scan = x.scan
      ∧ z.holds = x.holds ∧ z.owq = placeAll x.owq (x.seqEntries b (if old = .shore then [x.chargeZero] else []))
          ∧ x.log.Alike z.log
      ∧ z.noClaim b ∧ (∀ c ∈ z.budget.claims, c ∈ x.budget.claims) ∧ (old = .shore → b ∉ z.budget.stack) := by
  intro z
  have h := leaveIfShore_fields ((x.enter b .cabled).stopChannels b) b old
  refine ⟨?_, ?_, ?_, ?_, ?_, ?_, ?_, ?_, ?_, ?_⟩
  · simp only [z, State.berth_returnBase_same, h.berth]
    rw [show ((x.enter b .cabled).stopChannels b).berth b = (x.berth b).entered .cabled from berth_enter _]
  · simp only [z, State.chan_returnBase, h.chan]; exact State.chan_setChan_same _ _ _
  · simp only [z, State.returnBase_tables, h.tables]; rfl
  · simp only [z, State.returnBase_scan, h.scan]; rfl
  · simp only [z, State.returnBase_holds, h.holds]; rfl
  · simp only [z, State.returnBase_owq, h.owq]; rfl
  · exact h.log.trans (State.returnBase_log _ _)
  · simp only [z, State.noClaim, State.returnBase_claims]; exact h.noClaim hn
  · simp only [z, State.returnBase_claims]; exact h.sub
  · simp only [z, State.returnBase_stack]; exact h.stack

theorem Berth.leftShore_fields (x : Berth) (old) : (x.leftShore old).request = x.request ∧ (x.leftShore old).phase = x.phase
    ∧ (x.leftShore old).state = x.state ∧ (x.leftShore old).mode = x.mode := by
  unfold Berth.leftShore Berth.levelZero; split <;> exact ⟨rfl, rfl, rfl, rfl⟩

theorem endEvent_stack {y : State} (h : y.noClaim b) (hs : b ∉ y.budget.stack) : b ∉ y.endEvent.budget.stack := fun hm => hs
    ((Apart.endEvent h).stack hm)

/-- The loss of supply, with its records and commands (R49, R130). -/
theorem shoreOpened_moves (hn : (w.berth b).state ≠ .shore → w.noClaim b) :
    (w.unheldManual b).movesTo (w.shoreOpened b).endEvent b
        (({ ((w.berth b).entered .cabled).leftShore (w.berth b).state with baseGrant := 0 } : Berth).finalised .aborted)
        Channels.blank
        ((if (w.berth b).state = .shore then [w.chargeZero] else [])
          ++ autoOnly (w.berth b).mode [(.shoreBkr, cmdOpen), (.shipconBkr, cmdOpen), (.genRelease, genHold)])
        (w.finalRecords b .aborted ++ [w.moveRecord b .cabled])
      ∧ (w.shoreOpened b).endEvent.noClaim b ∧ ((w.berth b).state = .shore → b ∉ (w.shoreOpened b).endEvent.budget.stack) := by
  cases hm : (w.berth b).mode
  · have e1 : w.shoreOpened b = w.lossOfSupply b := by unfold State.shoreOpened; rw [hm]
    have e2 : w.unheldManual b = w := by unfold State.unheldManual; rw [hm]
    rw [e1, e2]
    unfold State.lossOfSupply
    dsimp only
    obtain ⟨h1, h2, h3, h4, h5, h6, h7, h8, h9, h10⟩ := supplyLost_fields w b (w.berth b).state hn
    have hf := Berth.leftShore_fields ((w.berth b).entered .cabled) (w.berth b).state
    generalize (((w.enter b .cabled).stopChannels b).leaveIfShore b (w.berth b).state).returnBase b = z at h1 h2 h3 h4 h5 h6 h7 h8 h9 h10
    have hb : (((z.seqWrite b .shoreBkr cmdOpen).seqWrite b .shipconBkr cmdOpen).seqWrite b .genRelease genHold).berth b = z.berth b := rfl
    have hx := Within.finalReported (u := w) (y := ((z.seqWrite b .shoreBkr cmdOpen).seqWrite b .shipconBkr cmdOpen).seqWrite b .genRelease genHold) (b := b) (c := Channels.blank) (ws := ((if (w.berth b).state = .shore then [w.chargeZero] else [])
          ++ [(.shoreBkr, cmdOpen), (.shipconBkr, cmdOpen), (.genRelease,
              genHold)])) (rs := []) (old := (w.berth b).state) (m := (w.berth b).mode) (res := .aborted)
        ⟨h3, congrArg ScanEngine.passNumber h4, h5, .inr ⟨h8, h9⟩⟩ h2
        (by
          unfold State.seqEntries
          rw [List.map_append, placeAll_append]
          unfold State.seqEntries at h6
          rw [← h6]
          simp [State.seqWrite, State.seqEntry, h3])
        h7 (by rw [hb, h1]; exact hf.1) (by rw [hb, h1]; exact hf.2.1)
    rw [hb, h1] at hx
    refine ⟨?_, ?_, ?_⟩
    · simpa [hm, autoOnly, State.moveRecord, hf] using hx
    · exact noClaim_end (finalise_noClaim _ h8)
    · intro hs
      refine endEvent_stack (finalise_noClaim _ h8) ?_
      show b ∉ (State.finalise _ b _).budget.stack
      rw [State.finalise_budget]
      exact h10 hs
  · have e1 : w.shoreOpened b = w.manualShoreOpen b := by unfold State.shoreOpened; rw [hm]
    have e2 : w.unheldManual b = w.unheld b := by unfold State.unheldManual; rw [hm]
    rw [e1, e2]
    unfold State.manualShoreOpen State.cancelSync
    dsimp only
    have hcb : (w.cancelHolds b).berth b = w.berth b := State.berth_cancelHolds w b b
    obtain ⟨h1, h2, h3, h4, h5, h6, h7, h8, h9, h10⟩ := supplyLost_fields (w.cancelHolds b) b (w.berth b).state (fun h => by unfold State.noClaim; rw [State.cancelHolds_budget]; exact hn h)
    have hf := Berth.leftShore_fields ((w.berth b).entered .cabled) (w.berth b).state
    rw [hcb] at h1
    generalize ((((w.cancelHolds b).enter b .cabled).stopChannels b).leaveIfShore b (w.berth b).state).returnBase b = z at h1 h2 h3 h4 h5 h6 h7 h8 h9 h10
    have hx := Within.finalReported (u := w.unheld b) (y := z) (b := b) (c := Channels.blank) (ws := ((if (w.berth b).state = .shore then [w.chargeZero] else []))) (rs := []) (old := (w.berth b).state) (m := (w.berth b).mode) (res := .aborted)
        ⟨h3.trans (State.cancelHolds_tables w b), (congrArg ScanEngine.passNumber h4).trans (by simp; rfl), h5.trans (unheld_cancel w b).1, .inr ⟨h8, fun x hx => by have := h9 x hx; rw [State.cancelHolds_budget] at this; exact this⟩⟩ h2
        (by rw [h6]; simp [State.seqEntries, State.chargeZero, State.seqEntry]; rfl)
        (by rw [Log.stageAll_nil, ← (unheld_cancel w b).2]; exact h7) (by rw [h1]; exact hf.1) (by rw [h1]; exact hf.2.1)
    rw [h1] at hx
    refine ⟨?_, ?_, ?_⟩
    · have e : (w.unheld b).finalRecords b .aborted = w.finalRecords b .aborted := rfl
      rw [e] at hx
      simpa [hm, autoOnly, State.moveRecord, hf] using hx
    · exact noClaim_end (finalise_noClaim _ h8)
    · intro hs
      refine endEvent_stack (finalise_noClaim _ h8) ?_
      show b ∉ (State.finalise _ b _).budget.stack
      rw [State.finalise_budget]
      exact h10 hs

/-- A result with the shore breaker OPEN out of turn (R49; in MANUAL R130). -/
theorem sequence_supplyLoss (w : State) (b) (r) : w.supplyLossFollowed (w.sequence b r).endEvent b r := by
  intro h1 h2 h3
  have e : w.sequence b r = w.shoreOpened b := by
    unfold State.sequence
    rcases h3 with ⟨h, h'⟩ | h | h | h | h | h | ⟨hm, h | h | h⟩ <;> rw [h] <;> dsimp only
    · unfold State.energizingResult; simp [h', h1]
    · unfold State.energizedResult; simp [h1]
    · unfold State.parallelResult; simp [h1]
    · unfold State.shoreResult; simp [h1]
    · unfold State.unparallelResult; simp [h1]
    · unfold State.separatingResult; simp [h1]
    · unfold State.syncingResult; simp [h1]
    · unfold State.deadbusResult; simp [h1]
    · unfold State.resyncingResult; simp [h1]
  rw [e]
  exact shoreOpened_moves h2

end Supply

section Shipcon

variable {w : State} {b : BerthId} {r : ScanResult}

/-- A result in ENERGIZING (R32, R33, R121). -/
theorem sequence_energizing (hm : w.begun) : w.energizingFollowed (w.sequence b r).endEvent b r := by
  intro hs
  have e : w.sequence b r = w.energizingResult b r := by unfold State.sequence; rw [hs]
  rw [e]; unfold State.energizingResult
  refine ⟨fun h0 => ⟨?_, ?_, ?_⟩, ?_⟩
  · intro h1
    simp only [h0, h1, Bool.false_eq_true, if_false, if_true]
    have hb : ((w.stopStep b).loadSettle b).berth b = w.berth b := rfl
    refine issues_endEvent (y := w.startSettle b) hm ?_ ?_ rfl rfl rfl rfl
    · rfl
    · show ((w.stopStep b).loadSettle b).chans = _
      unfold State.loadSettle State.stopStep State.setChan
      cases b <;> rfl
  · intro h1 h2
    simp only [h0, h1, h2, Bool.false_eq_true, if_false, Bool.not_false, if_true]
    unfold State.energizingCableLoss
    have hx := Within.finalReported (u := w) (y := w.toDisengaging b) (b := b) (c := { step := w.confirmLoaded b, settle := Channel.idle }) (ws := [(.shoreBkr, cmdOpen)]) (rs := []) (old := .energizing) (m := (w.berth b).mode) (res := .cable)
      ⟨rfl, rfl, rfl, .inl hm⟩ (by simp [State.toDisengaging, State.loadStep, State.seqWrite, State.stopChannels]; exact ⟨rfl, rfl⟩) rfl (Log.Alike.refl _)
      (by simp [State.toDisengaging, State.loadStep, State.seqWrite, State.stopChannels]) (by simp [State.toDisengaging, State.loadStep, State.seqWrite, State.stopChannels])
    have hb : (w.toDisengaging b).berth b = (w.berth b).entered .disengaging := berth_enter _
    rw [hb] at hx
    simpa [State.moveRecord, hs] using hx
  · intro h1 h2
    simp only [h0, h1, h2, Bool.false_eq_true, if_false, Bool.not_true]
    exact unmoved_endEvent hm
  · intro h0 h1
    simp only [h0, h1, if_true, if_false]
    exact unmoved_endEvent hm

theorem toShore_fields (x : State) (b) :
    (x.toShore b).berth b = ((x.berth b).entered .shore).levelZero
        ∧ (x.toShore b).chan b = { x.chan b with step := Channel.idle } ∧ (x.toShore b).tables = x.tables
     ∧ (x.toShore b).scan = x.scan ∧ (x.toShore b).holds = x.holds
         ∧ (x.toShore b).owq = placeAll x.owq (x.seqEntries b (x.chargeZero :: autoOnly (x.berth b).mode [(.genRelease,
             genRelease)]))
     ∧ x.log.Alike (x.toShore b).log ∧ (x.toShore b).budget.claims = x.budget.claims := by
  have hb : (((x.enter b .shore).stopStep b).changeLevel b 0).berth b = ((x.berth b).entered .shore).levelZero := by
    rw [State.berth_changeLevel_same, show ((x.enter b .shore).stopStep b).berth b = _ from berth_enter _]; rfl
  have hl : x.log.Alike (((x.enter b .shore).stopStep b).changeLevel b 0).log := State.changeLevel_log ((x.enter b .shore).stopStep b) b 0
  have hc : (((x.enter b .shore).stopStep b).changeLevel b 0).chan b = { x.chan b with step := Channel.idle } := by
    rw [State.chan_changeLevel]; exact State.chan_setChan_same _ _ _
  have ht : (((x.enter b .shore).stopStep b).changeLevel b 0).tables = x.tables := State.changeLevel_tables _ _ _
  have hs : (((x.enter b .shore).stopStep b).changeLevel b 0).scan = x.scan := State.changeLevel_scan _ _ _
  have hh : (((x.enter b .shore).stopStep b).changeLevel b 0).holds = x.holds := State.changeLevel_holds _ _ _
  have hq : (((x.enter b .shore).stopStep b).changeLevel b 0).owq = placeAll x.owq (x.seqEntries b [x.chargeZero]) := State.changeLevel_owq _ _ _
  have hk : (((x.enter b .shore).stopStep b).changeLevel b 0).budget.claims = x.budget.claims := State.changeLevel_claims _ _ _
  unfold State.toShore State.shoreLevelZero
  generalize ((x.enter b .shore).stopStep b).changeLevel b 0 = z at *
  dsimp only
  have hm : (z.berth b).mode = (x.berth b).mode := by rw [hb]; rfl
  cases h : (z.berth b).mode
  · rw [← hm, h]
    refine ⟨hb, hc, ht, hs, hh, ?_, hl, hk⟩
    show placeWrite z.owq _ = _
    rw [hq]
    unfold State.seqEntries placeAll autoOnly State.seqEntry
    simp [ht]
  · rw [← hm, h]
    refine ⟨hb, hc, ht, hs, hh, ?_, hl, hk⟩
    rw [hq]; rfl

theorem unheldManual_cases (w : State) (b) : ((w.berth b).mode = .auto ∧ w.unheldManual b = w) ∨ ((w.berth b).mode = .manual
    ∧ w.unheldManual b = w.unheld b) := by
  unfold State.unheldManual
  cases h : (w.berth b).mode
  · exact .inl ⟨rfl, rfl⟩
  · exact .inr ⟨rfl, rfl⟩

/-- The state in which the position is followed. -/
def State.startOf (w : State) (b : BerthId) : State :=
  match (w.berth b).mode with
  | .auto => w
  | .manual => w.cancelSync b

def autoWrite (z : State) (b : BerthId) (m : Mode) : State :=
  match m with
  | .auto => z.seqWrite b .genRelease genRelease
  | .manual => z

theorem shipconClosed_eq (w : State) (b r) : w.shipconClosed b r =
   if r.gens = .open then (((w.startOf b).toShore b).finalise b .done).reportState b (w.berth b).state (w.berth b).mode
   else (autoWrite (((w.startOf b).enter b .parallel).loadStep b .overlap) b (w.berth b).mode).reportState b (w.berth b).state (w.berth b).mode := rfl

theorem start_fields (w : State) (b) : ∃ x : State, w.startOf b = x ∧ x.berth b = w.berth b ∧ x.chan b = w.chan b
   ∧ x.tables = w.tables ∧ x.scan = w.scan ∧ x.timer = w.timer ∧ x.holds = (w.unheldManual b).holds
       ∧ x.log = (w.unheldManual b).log ∧ x.owq = w.owq ∧ x.budget = w.budget ∧ (w.unheldManual b).owq = w.owq
   ∧ (w.unheldManual b).tables = w.tables ∧ (w.unheldManual b).scan = w.scan ∧ (w.unheldManual b).budget = w.budget ∧ (w.unheldManual b).berth b = w.berth b := by
  refine ⟨_, rfl, ?_⟩
  unfold State.startOf
  rcases unheldManual_cases w b with ⟨hm, e⟩ | ⟨hm, e⟩
  · rw [e, hm]; exact ⟨rfl, rfl, rfl, rfl, rfl, rfl, rfl, rfl, rfl, rfl, rfl, rfl, rfl, rfl⟩
  · rw [e, hm]; dsimp only
    unfold State.cancelSync
    exact ⟨by simp, by simp, by simp, by simp, by simp, (unheld_cancel w b).1, (unheld_cancel w b).2, by simp, by simp, rfl, rfl, rfl, rfl, rfl⟩

theorem seqEntries_congr {x y : State} (h : x.tables = y.tables) (b ws) : x.seqEntries b ws = y.seqEntries b ws := by
  unfold State.seqEntries State.seqEntry; rw [h]

theorem chargeZero_congr {x y : State} (h : x.tables = y.tables) : x.chargeZero = y.chargeZero := by
  unfold State.chargeZero State.levelEntry; rw [h]

theorem finalRecords_congr {x y : State} (h : x.berth b = y.berth b) (h' : x.scan = y.scan) (res) :
    x.finalRecords b res = y.finalRecords b res := by
  unfold State.finalRecords State.finalRecord; rw [h, h']

theorem stateRecord_congr {x y : State} (h' : x.scan = y.scan) (a c d e f) :
    x.stateRecord a c d e f = y.stateRecord a c d e f := by
  unfold State.stateRecord; rw [h']

/-- The ship connection CLOSED is followed (R37, R129). -/
theorem shipconClosed_moves (hm : w.begun)
   :
    (r.gens = .open → w.noClaim b →
        (w.unheldManual b).movesTo (w.shipconClosed b r).endEvent b (((w.berth b).entered .shore).levelZero.finalised .done)
          { w.chan b with step := Channel.idle }
          (w.chargeZero :: autoOnly (w.berth b).mode [(.genRelease, genRelease)])
          (w.finalRecords b .done ++ [w.moveRecord b .shore]))
      ∧ (r.gens ≠ .open →
        (w.unheldManual b).movesTo (w.shipconClosed b r).endEvent b ((w.berth b).entered .parallel) { w.chan b with step := w.overlapLoaded b }
          (autoOnly (w.berth b).mode [(.genRelease, genRelease)]) [w.moveRecord b .parallel]) := by
  obtain ⟨x, hx0, x1, x2, x3, x4, x5, x6, x7, x8, x9, x10, x11, x12, x13, x14⟩ := start_fields w b
  rw [shipconClosed_eq, hx0]
  constructor
  · intro hg hn
    simp only [hg, if_true]
    obtain ⟨h1, h2, h3, h4, h5, h6, h7, h8⟩ := toShore_fields x b
    rw [x1] at h1 h6
    rw [x2] at h2
    have hx := Within.finalReported (u := w.unheldManual b) (y := x.toShore b) (b := b) (c := { w.chan b with step := Channel.idle }) (ws := (w.chargeZero :: autoOnly (w.berth b).mode [(.genRelease, genRelease)])) (rs := []) (old := (w.berth b).state) (m := (w.berth b).mode) (res := .done)
      ⟨h3.trans (x3.trans x11.symm), congrArg ScanEngine.passNumber (h4.trans (x4.trans x12.symm)), h5.trans x6, .inr ⟨by unfold State.noClaim; rw [h8, x9]; exact hn, by rw [h8, x9, x13]; exact fun _ h => h⟩⟩
      h2 (by rw [h6, x8, x10, seqEntries_congr (x3.trans x11.symm), chargeZero_congr x3]) (by rw [Log.stageAll_nil, ← x7]; exact h7) (by rw [h1, x14]; rfl) (by rw [h1, x14]; rfl)
    rw [h1, finalRecords_congr x14 x12, stateRecord_congr x12] at hx
    exact hx
  · intro hg
    simp only [hg, if_false]
    have e : (autoWrite ((x.enter b .parallel).loadStep b .overlap) b (w.berth b).mode).berth b = (w.berth b).entered .parallel := by
      have : ((x.enter b .parallel).loadStep b .overlap).berth b = (w.berth b).entered .parallel := (berth_enter _).trans (by rw [x1])
      cases (w.berth b).mode <;> exact this
    have hc : ((x.enter b .parallel).loadStep b .overlap).chan b = { w.chan b with step := w.overlapLoaded b } := by
      refine (State.chan_setChan_same _ _ _).trans ?_
      show ({ x.chan b with step := Channel.loaded .overlap (x.static b).overlapLimit x.timer.maint } : Channels) = _
      rw [x2, x5]
      unfold State.static
      rw [x3]; rfl
    have hx := Within.reported (u := w.unheldManual b) (y := autoWrite ((x.enter b .parallel).loadStep b .overlap) b (w.berth b).mode) (b := b) (c := { w.chan b with step := w.overlapLoaded b }) (ws := (autoOnly (w.berth b).mode [(.genRelease, genRelease)])) (rs := []) (old := (w.berth b).state) (m := (w.berth b).mode)
      ⟨by cases (w.berth b).mode <;> exact (x3.trans x11.symm), by cases (w.berth b).mode <;> exact congrArg ScanEngine.passNumber (x4.trans x12.symm), by cases (w.berth b).mode <;> exact x6,
       .inl (by have : x.begun := by unfold State.begun; rw [x9]; exact hm
                cases (w.berth b).mode <;> exact this)⟩
      (by cases (w.berth b).mode <;> exact hc)
      (by
        cases (w.berth b).mode
        · show placeWrite x.owq _ = _
          rw [x8, x10]
          simp only [autoOnly, State.seqEntries, List.map, placeAll_cons, placeAll_nil, State.seqEntry]
          show placeWrite _ { address := x.tables.cmdAddress b .genRelease, data := genRelease, cls := .seq, berth := some b } = _
          rw [x3, x11]
        · show x.owq = _
          rw [x8, x10]; rfl)
      (by
        rw [Log.stageAll_nil, ← x7]
        cases (w.berth b).mode <;> exact Log.Alike.refl _)
    rw [e, stateRecord_congr x12] at hx
    exact hx

/-- A result with the ship connection CLOSED (R37; in MANUAL R129). -/
theorem sequence_closing (hm : w.begun) : w.closingFollowed (w.sequence b r).endEvent b r := by
  intro h1 h2 h3
  have e : w.sequence b r = w.shipconClosed b r := by
    unfold State.sequence
    rcases h3 with h | ⟨_, h | h⟩ <;> rw [h] <;> dsimp only
    · unfold State.energizedResult; simp [h1, h2]
    · unfold State.syncingResult; simp [h1, h2]
    · unfold State.deadbusResult; simp [h1, h2]
  rw [e]
  exact shipconClosed_moves hm

end Shipcon

section Sync

variable {w : State} {b : BerthId} {r : ScanResult}

theorem inWindow_iff : w.inWindow b r = true ↔ w.insideWindow b r := by
  unfold State.inWindow State.insideWindow
  simp [Bool.and_eq_true, and_assoc]

theorem syncAfter_out (h : ¬ w.insideWindow b r) : w.syncAfter b r = 0 ∧ w.syncReached b r = false := by
  have : w.inWindow b r = false := by
    cases e : w.inWindow b r
    · rfl
    · exact absurd (inWindow_iff.mp e) h
  unfold State.syncReached State.syncAfter
  simp [this]

theorem syncAfter_below (h : w.insideWindow b r) (h2 : (w.berth b).syncCount + 1 < (w.static b).syncPersistence) :
    w.syncAfter b r = (w.berth b).syncCount + 1 ∧ w.syncReached b r = false := by
  have := inWindow_iff.mpr h
  unfold State.syncReached State.syncAfter
  simp only [this, if_true, Bool.true_and, decide_eq_false_iff_not]
  omega

theorem syncAfter_reached (h : w.insideWindow b r) (h2 : (w.static b).syncPersistence ≤ (w.berth b).syncCount + 1) :
    w.syncAfter b r = (w.static b).syncPersistence ∧ w.syncReached b r = true := by
  have := inWindow_iff.mpr h
  unfold State.syncReached State.syncAfter
  simp only [this, if_true, Bool.true_and, decide_eq_true_eq]
  omega

theorem chans_self (w : State) (b) : w.chans = w.chans.set b (w.chan b) := by
  unfold State.chan; rw [Eight.set_get_self]

/-- A result in SYNCING, DEADBUS or ENERGIZED with the ship connection not CLOSED (R7, R35, R36, R123). -/
theorem sequence_sync (hm : w.begun) : w.syncFollowed (w.sequence b r).endEvent b r := by
  intro h1 h2
  refine ⟨?_, ?_, ?_⟩
  · intro hs
    have e : w.sequence b r = if (w.berth b).closeIssued then w else w.countSyncing b r := by
      unfold State.sequence; rw [hs]; dsimp only; unfold State.syncingResult; simp [h1, h2]
    rw [e]
    refine ⟨fun hc => ?_, fun hc => ?_⟩
    · rw [if_pos hc]; exact unmoved_endEvent hm
    · rw [if_neg (by simp [hc])]
      unfold State.countSyncing
      dsimp only
      refine ⟨fun h => ?_, fun h h' => ?_, fun h h' => ?_⟩
      · obtain ⟨a, c⟩ := syncAfter_out h
        rw [a, c]
        exact issues_endEvent hm rfl (chans_self w b) rfl rfl rfl rfl
      · obtain ⟨a, c⟩ := syncAfter_below h h'
        rw [a, c]
        exact issues_endEvent hm rfl (chans_self w b) rfl rfl rfl rfl
      · obtain ⟨a, c⟩ := syncAfter_reached h h'
        rw [a, c]
        refine issues_endEvent (y := (w.setSyncCount b _).issueClose b) hm ?_ rfl rfl rfl rfl rfl
        unfold State.issueClose
        show ((w.berths.set b _).set b _) = _
        rw [Eight.set_set]
        unfold State.setSyncCount
        rw [State.berth_setBerth_same]
  · intro hs
    have e : w.sequence b r = if (w.berth b).closeIssued then w else if r.gens = .open ∧ w.deadBus b r.vShip then w.issueClose b else w := by
      unfold State.sequence; rw [hs]; dsimp only; unfold State.deadbusResult; simp [h1, h2]
    rw [e]
    refine ⟨fun hc hg hv => ?_, fun h => ?_⟩
    · rw [if_neg (by simp [hc]), if_pos ⟨hg, by simpa [State.deadBus] using hv⟩]
      exact issues_endEvent hm rfl rfl rfl rfl rfl rfl
    · have : (if (w.berth b).closeIssued then w else if r.gens = .open ∧ w.deadBus b r.vShip then w.issueClose b else w) = w := by
        rcases h with h | h | h
        · rw [if_pos h]
        · rw [if_neg (c := r.gens = .open ∧ _) (fun x => h x.1)]; split <;> rfl
        · rw [if_neg (c := r.gens = .open ∧ _) (fun x => by have := x.2; simp [State.deadBus] at this; omega)]; split <;> rfl
      rw [this]; exact unmoved_endEvent hm
  · intro hs
    have e : w.sequence b r = match (w.berth b).mode with | .auto => w | .manual => w.countSyncHold b r := by
      unfold State.sequence; rw [hs]; dsimp only; unfold State.energizedResult; rw [if_neg h1,
          if_neg h2] <;> cases (w.berth b).mode <;> rfl
    refine ⟨fun h => ?_, fun h hmo hh hb hr hu => ?_⟩
    · have : w.sequence b r = w := by
        rw [e]
        rcases h with h | h
        · rw [h]
        · have : w.holdFor b .sync = none := by
            unfold State.holdFor
            rw [List.find?_eq_none]
            intro x hx
            simp only [Bool.and_eq_true, decide_eq_true_eq, not_and]
            exact h x hx
          unfold State.countSyncHold
          rw [this]; split <;> rfl
      rw [this]; exact unmoved_endEvent hm
    · have hf : w.holdFor b .sync = some h := by
        cases e : w.holdFor b .sync with
        | none =>
          unfold State.holdFor at e
          have := List.find?_eq_none.mp e h hh
          simp [hb, hr] at this
        | some x =>
          have h1 := List.mem_of_find?_eq_some e
          have h2 := List.find?_some e
          simp only [Bool.and_eq_true, decide_eq_true_eq] at h2
          rw [hu x h1 h2.1 h2.2]
      have e2 : w.sequence b r = if w.syncReached b r then (w.setSyncCount b (w.syncAfter b r)).releaseHold h else w.setSyncCount b (w.syncAfter b r) := by
        rw [e, hmo]; unfold State.countSyncHold; rw [hf]
      rw [e2]
      refine ⟨fun h => ?_, fun h h' => ?_, fun h h' => ?_⟩
      · obtain ⟨a, c⟩ := syncAfter_out h
        rw [a, c]
        exact issues_endEvent hm rfl (chans_self w b) rfl rfl rfl rfl
      · obtain ⟨a, c⟩ := syncAfter_below h h'
        rw [a, c]
        exact issues_endEvent hm rfl (chans_self w b) rfl rfl rfl rfl
      · obtain ⟨a, c⟩ := syncAfter_reached h h'
        rw [a, c, if_pos rfl]
        refine issues_endEvent (y := (w.setSyncCount b _).releaseHold _) hm rfl (chans_self w b) rfl ?_ rfl rfl
        unfold State.releaseHold State.seqWrite
        rw [hb]; rfl

end Sync

section Opening

variable {w : State} {b : BerthId} {r : ScanResult}

/-- The two commands of an opening, in AUTO. -/
def openWrites (z : State) (b : BerthId) (m : Mode) : State :=
  match m with
  | .auto => (z.seqWrite b .shipconBkr cmdOpen).seqWrite b .genRelease genHold
  | .manual => z

theorem openWrites_fields (z : State) (b m) : (openWrites z b m).berths = z.berths ∧ (openWrites z b m).chans = z.chans ∧
    (openWrites z b m).tables = z.tables ∧ (openWrites z b m).scan = z.scan
   ∧ (openWrites z b m).holds = z.holds ∧ (openWrites z b m).log = z.log ∧ (openWrites z b m).budget = z.budget
   ∧ (openWrites z b m).owq = placeAll z.owq (z.seqEntries b (autoOnly m [(.shipconBkr, cmdOpen), (.genRelease, genHold)])) := by
  cases m <;> exact ⟨rfl, rfl, rfl, rfl, rfl, rfl, rfl, rfl⟩

theorem shipconOpened_eq (w : State) (b) : w.shipconOpened b =
  ((openWrites ((w.toEnergized b).leaveIfShore b (w.berth b).state) b (w.berth b).mode).finalise b .aborted).reportState b (w.berth b).state (w.berth b).mode := rfl

/-- A departure that follows `leaveIfShore`, ends the request and reports. -/
theorem departs (hm : w.begun) {x : State} {old : BState} {c} {r0 : Berth} {dest : BState} {m : Mode} {ws} {res}
    (hb : x.berth b = r0) (hc : x.chan b = c) (ht : x.tables = w.tables) (hs : x.scan = w.scan) (hh : x.holds = w.holds) (hq : x.owq = w.owq) (hl : x.log = w.log) (hbu : x.budget = w.budget)
    {y : State} (hy : y.berths = (x.leaveIfShore b old).berths ∧ y.chans = (x.leaveIfShore b old).chans
        ∧ y.tables = (x.leaveIfShore b old).tables ∧ y.scan = (x.leaveIfShore b old).scan
      ∧ y.holds = (x.leaveIfShore b old).holds ∧ y.log = (x.leaveIfShore b old).log ∧ y.budget = (x.leaveIfShore b old).budget
      ∧ y.owq = placeAll (x.leaveIfShore b old).owq ((x.leaveIfShore b old).seqEntries b ws))
    (hr : r0.request = (w.berth b).request) (hp : r0.phase = (w.berth b).phase) (hst : r0.state = dest) (hmo : r0.mode = m) :
    w.movesTo ((y.finalise b res).reportState b old m).endEvent b ((r0.leftShore old).finalised res) c
        ((if old = .shore then [w.chargeZero] else []) ++ ws) (w.finalRecords b res ++ [w.stateRecord b old m dest m])
      ∧ (old = .shore → ((y.finalise b res).reportState b old m).endEvent.noClaim b ∧ b ∉ ((y.finalise b res).reportState b old m).endEvent.budget.stack) := by
  have h := leaveIfShore_fields x b old
  obtain ⟨y1, y2, y3, y4, y5, y6, y7, y8⟩ := hy
  have yb : y.berth b = r0.leftShore old := by
    have : y.berth b = (x.leaveIfShore b old).berth b := by unfold State.berth; rw [y1]
    rw [this, h.berth, hb]
  have yc : y.chan b = c := by
    have : y.chan b = (x.leaveIfShore b old).chan b := by unfold State.chan; rw [y2]
    rw [this, h.chan, hc]
  have hf := Berth.leftShore_fields r0 old
  have hcl : old = .shore → y.noClaim b ∧ b ∉ y.budget.stack := fun ho => by
    unfold State.noClaim
    rw [y7]
    exact ⟨h.noClaim (fun hn => absurd ho hn), h.stack ho⟩
  have hx := Within.finalReported (u := w) (y := y) (b := b) (c := c) (ws := (if old = .shore then [w.chargeZero] else []) ++ ws) (rs := []) (old := old) (m := m) (res := res)
    ⟨y3.trans (h.tables.trans ht), congrArg ScanEngine.passNumber (y4.trans (h.scan.trans hs)), y5.trans (h.holds.trans hh), by
      by_cases ho : old = .shore
      · exact .inr ⟨(hcl ho).1, by rw [y7]; intro z hz; have := h.sub z hz; rw [hbu] at this; exact this⟩
      · exact .inl (by rw [y7, h.quiet ho, hbu]; exact hm)⟩
    yc
    (by
      rw [y8, h.owq, hq, ← placeAll_append]
      unfold State.seqEntries
      rw [List.map_append]
      have e1 : ∀ p, (x.leaveIfShore b old).seqEntry b p = w.seqEntry b p := fun p => by unfold State.seqEntry; rw [h.tables, ht]
      have e2 : ∀ p, x.seqEntry b p = w.seqEntry b p := fun p => by unfold State.seqEntry; rw [ht]
      simp only [e1, e2, chargeZero_congr ht])
    (by rw [Log.stageAll_nil, y6, ← hl]; exact h.log) (by rw [yb, hf.1]; exact hr) (by rw [yb, hf.2.1]; exact hp)
  rw [yb, hf.2.2.1, hf.2.2.2, hst, hmo] at hx
  refine ⟨hx, fun ho => ?_⟩
  obtain ⟨k1, k2⟩ := hcl ho
  have k3 : ((y.finalise b res).reportState b old m).noClaim b := finalise_noClaim _ k1
  refine ⟨noClaim_end k3, endEvent_stack k3 ?_⟩
  show b ∉ (State.finalise y b res).budget.stack
  rw [State.finalise_budget]; exact k2

/-- The ship connection OPEN out of turn is followed (R50, R129). -/
theorem shipconOpened_moves (hm : w.begun) : 
        w.movesTo (w.shipconOpened b).endEvent b ((((w.berth b).entered .energized).leftShore (w.berth b).state).finalised .aborted)
            { w.chan b with step := Channel.idle }
            ((if (w.berth b).state = .shore then [w.chargeZero] else [])
              ++ autoOnly (w.berth b).mode [(.shipconBkr, cmdOpen), (.genRelease, genHold)])
            (w.finalRecords b .aborted ++ [w.moveRecord b .energized])
          ∧ ((w.berth b).state = .shore → (w.shipconOpened b).endEvent.noClaim b ∧ b ∉ (w.shipconOpened b).endEvent.budget.stack) := by
  rw [shipconOpened_eq]
  exact departs hm (x := w.toEnergized b) (dest := .energized) (berth_enter _) (State.chan_setChan_same _ _ _) rfl rfl rfl rfl rfl rfl (openWrites_fields _ _ _) rfl rfl rfl rfl

/-- The ship connection OPEN as awaited ends the return (R42, R43). -/
theorem returnDone_moves (hm : w.begun) :
   w.movesTo (w.returnDone b).endEvent b (((w.berth b).entered .energized).finalised .done) { w.chan b with step := Channel.idle } []
          (w.finalRecords b .done ++ [w.moveRecord b .energized]) := by
  have hb : (w.toEnergized b).berth b = (w.berth b).entered .energized := berth_enter _
  have hx := Within.finalReported (u := w) (y := w.toEnergized b) (b := b) (c := { w.chan b with step := Channel.idle }) (ws := []) (rs := []) (old := (w.berth b).state) (m := (w.berth b).mode) (res := .done)
    ⟨rfl, rfl, rfl, .inl hm⟩ (State.chan_setChan_same _ _ _) rfl (Log.Alike.refl _) (by rw [hb]; rfl) (by rw [hb]; rfl)
  rw [hb] at hx
  exact hx

/-- A result with the ship connection OPEN (R42, R43, R50; in MANUAL R129). -/
theorem sequence_opening (hm : w.begun) : w.openingFollowed (w.sequence b r).endEvent b r := by
  intro h1 h2
  refine ⟨fun h => ?_, fun h => ?_⟩
  · have e : w.sequence b r = w.shipconOpened b := by
      unfold State.sequence
      rcases h with h | h | ⟨_, h⟩ <;> rw [h] <;> dsimp only
      · unfold State.parallelResult; rw [if_neg h1, if_pos h2]
      · unfold State.shoreResult; rw [if_neg h1, if_pos h2]
      · unfold State.resyncingResult; rw [if_neg h1, if_pos h2]
    rw [e]
    exact shipconOpened_moves hm
  · have e : w.sequence b r = w.returnDone b := by
      unfold State.sequence
      rcases h with h | h <;> rw [h] <;> dsimp only
      · unfold State.unparallelResult; rw [if_neg h1, if_pos h2]
      · unfold State.separatingResult; rw [if_neg h1, if_pos h2]
    rw [e]
    exact returnDone_moves hm

end Opening

section Generators

variable {w : State} {b : BerthId} {r : ScanResult}

theorem toShore_finalised (hn : w.noClaim b) (res) :
   w.movesTo (((w.toShore b).finalise b res).reportState b (w.berth b).state (w.berth b).mode).endEvent b (((w.berth b).entered .shore).levelZero.finalised res) { w.chan b with step := Channel.idle }
                (w.chargeZero :: autoOnly (w.berth b).mode [(.genRelease, genRelease)])
                (w.finalRecords b res ++ [w.moveRecord b .shore]) := by
  obtain ⟨h1, h2, h3, h4, h5, h6, h7, h8⟩ := toShore_fields w b
  have hx := Within.finalReported (u := w) (y := w.toShore b) (b := b) (c := { w.chan b with step := Channel.idle }) (ws := (w.chargeZero :: autoOnly (w.berth b).mode [(.genRelease, genRelease)])) (rs := []) (old := (w.berth b).state) (m := (w.berth b).mode) (res := res)
      ⟨h3, congrArg ScanEngine.passNumber h4, h5, .inr ⟨by unfold State.noClaim; rw [h8]; exact hn, by rw [h8]; exact fun _ h => h⟩⟩
      h2 h6 (by rw [Log.stageAll_nil]; exact h7) (by rw [h1]; rfl) (by rw [h1]; rfl)
  rw [h1] at hx
  exact hx

theorem toShore_reported (hn : w.noClaim b) :
   w.movesTo ((w.toShore b).reportState b (w.berth b).state (w.berth b).mode).endEvent b ((w.berth b).entered .shore).levelZero { w.chan b with step := Channel.idle }
                (w.chargeZero :: autoOnly (w.berth b).mode [(.genRelease, genRelease)])
                [w.moveRecord b .shore] := by
  obtain ⟨h1, h2, h3, h4, h5, h6, h7, h8⟩ := toShore_fields w b
  have hx := Within.reported (u := w) (y := w.toShore b) (b := b) (c := { w.chan b with step := Channel.idle }) (ws := (w.chargeZero :: autoOnly (w.berth b).mode [(.genRelease, genRelease)])) (rs := []) (old := (w.berth b).state) (m := (w.berth b).mode)
      ⟨h3, congrArg ScanEngine.passNumber h4, h5, .inr ⟨by unfold State.noClaim; rw [h8]; exact hn, by rw [h8]; exact fun _ h => h⟩⟩
      h2 h6 (by rw [Log.stageAll_nil]; exact h7)
  rw [h1] at hx
  exact hx

/-- A result by the generators, the ship connection not OPEN (R38, R41 to R43; in MANUAL R129), and in DISENGAGING (R45). -/
theorem sequence_generators (hm : w.begun) : w.generatorsFollowed (w.sequence b r).endEvent b r := by
  refine ⟨fun h1 h2 => ⟨?_, ?_, ?_, ?_⟩, ?_⟩
  · intro hs
    have e : w.sequence b r = if r.gens = .open then ((w.toShore b).finalise b .done).reportState b .parallel (w.berth b).mode else w := by
      unfold State.sequence; rw [hs]; dsimp only; unfold State.parallelResult; rw [if_neg h1, if_neg h2]
    rw [e]
    refine ⟨fun hg hn => ?_, fun hg => ?_⟩
    · rw [if_pos hg, ← hs]; exact toShore_finalised hn .done
    · rw [if_neg hg]; exact unmoved_endEvent hm
  · intro hs hmo
    have e : w.sequence b r = if r.gens = .closed then (((w.enter b .unparallel).loadStep b .overlap).seqWrite b .shipconBkr cmdOpen).reportState b .resyncing (w.berth b).mode else w := by
      unfold State.sequence; rw [hs]; dsimp only; unfold State.resyncingResult; rw [if_neg h1, if_neg h2]
    rw [e]
    refine ⟨fun hg => ?_, fun hg => ?_⟩
    · rw [if_pos hg, ← hs]
      have hb : (((w.enter b .unparallel).loadStep b .overlap).seqWrite b .shipconBkr cmdOpen).berth b = (w.berth b).entered .unparallel := berth_enter _
      have hx := Within.reported (u := w) (y := ((w.enter b .unparallel).loadStep b .overlap).seqWrite b .shipconBkr cmdOpen) (b := b) (c := { w.chan b with step := w.overlapLoaded b }) (ws := [(.shipconBkr, cmdOpen)]) (rs := []) (old := (w.berth b).state) (m := (w.berth b).mode)
        ⟨rfl, rfl, rfl, .inl hm⟩ (State.chan_setChan_same _ _ _) rfl (Log.Alike.refl _)
      rw [hb] at hx
      exact hx
    · rw [if_neg hg]; exact unmoved_endEvent hm
  · intro hs
    have e : w.sequence b r = match (w.berth b).mode with | .auto => w | .manual => if r.gens = .open then (w.toShore b).reportState b .unparallel .manual else w := by
      unfold State.sequence; rw [hs]; dsimp only; unfold State.unparallelResult; rw [if_neg h1,
          if_neg h2] <;> cases (w.berth b).mode <;> rfl
    rw [e]
    refine ⟨fun hg hmo hn => ?_, fun hg => ?_⟩
    · rw [hmo]; dsimp only
      rw [if_pos hg, ← hs]
      have := toShore_reported hn
      rw [hmo] at this
      exact this
    · have : (match (w.berth b).mode with | .auto => w | .manual => if r.gens = .open then (w.toShore b).reportState b .unparallel .manual else w) = w := by
        rcases hg with h | h
        · rw [if_neg h]; cases (w.berth b).mode <;> rfl
        · rw [h]
      rw [this]; exact unmoved_endEvent hm
  · intro hs
    have e : w.sequence b r = w := by
      unfold State.sequence; rw [hs]; dsimp only; unfold State.separatingResult; rw [if_neg h1, if_neg h2]
    rw [e]; exact unmoved_endEvent hm
  · intro hs
    have e : w.sequence b r = w.disengagingResult b r := by
      unfold State.sequence; rw [hs]
    rw [e]; unfold State.disengagingResult
    refine ⟨fun h hn => ?_, fun h => ?_⟩
    · rw [if_pos h, ← hs]
      have hb : ((((w.enter b .cabled).stopStep b).returnBase b)).berth b = { (w.berth b).entered .cabled with baseGrant := 0 } := by
        rw [State.berth_returnBase_same, show ((w.enter b .cabled).stopStep b).berth b = _ from berth_enter _]
      have hx := Within.finalReported (u := w) (y := ((w.enter b .cabled).stopStep b).returnBase b) (b := b) (c := { w.chan b with step := Channel.idle }) (ws := []) (rs := []) (old := (w.berth b).state) (m := (w.berth b).mode) (res := .done)
        ⟨State.returnBase_tables _ _, congrArg ScanEngine.passNumber (State.returnBase_scan _ _), State.returnBase_holds _ _, .inr ⟨by unfold State.noClaim; rw [State.returnBase_claims]; exact hn, by rw [State.returnBase_claims]; exact fun _ h => h⟩⟩
        ((State.chan_returnBase _ _ _).trans (State.chan_setChan_same _ _ _)) (State.returnBase_owq _ _) (State.returnBase_log ((w.enter b .cabled).stopStep b) b) (by rw [hb]; rfl) (by rw [hb]; rfl)
      rw [hb] at hx
      exact hx
    · rw [if_neg h]; exact unmoved_endEvent hm

end Generators

end Sys2Proof.Machine
end

