-- ==== Sys2Proof/Laws/Stepping.lean ====
section
/-! SUPPORT. What a level grant, a step-down and a recomputed claim leave (R88 to R91, R94 to R98, R101). -/

namespace Sys2Proof.Machine

section Sum

theorem BerthId.all_eq : BerthId.all = [.b0, .b1, .b2, .b3, .b4, .b5, .b6, .b7] := rfl

theorem sum_set (e : Eight Berth) (f : Berth → Nat) (b : BerthId) (x : Berth) :
    (BerthId.all.map fun c => f ((e.set b x).get c)).sum + f (e.get b) = (BerthId.all.map fun c => f (e.get c)).sum + f x := by
  rw [BerthId.all_eq]
  cases b <;> simp [List.sum_cons, Eight.set, Eight.get] <;> omega

theorem State.granted_of {s t : State} {b : BerthId} {x : Berth} (ht : t.tables = s.tables)
    (hb : t.berths = s.berths.set b x) :
    t.granted + s.held b = s.granted + (x.baseGrant + s.levelCredits x.level) := by
  have h := sum_set s.berths (fun y => y.baseGrant + s.levelCredits y.level) b x
  have e : ∀ c, t.held c = ((s.berths.set b x).get c).baseGrant + s.levelCredits ((s.berths.set b x).get c).level := by
    intro c
    unfold State.held State.berth State.levelCredits State.levelEntry
    rw [hb, ht]
  unfold State.granted
  rw [List.map_congr_left (fun c _ => e c)]
  exact h

end Sum

section Grants

variable {w : State} {b : BerthId} {r : ScanResult}

theorem rsp_twice (s : State) (b) (x y : Berth) (q) : placeWrite (placeWrite q (s.rspEntry b x))
    (s.rspEntry b y) = placeWrite q (s.rspEntry b y) :=
  placeWrite_placeWrite_same _ _ _ rfl rfl rfl (fun hc => by cases hc)

theorem rspEntry_congr {x y : State} (h : x.tables = y.tables) (b r) : x.rspEntry b r = y.rspEntry b r := by
  unfold State.rspEntry; rw [h]

theorem seqEntry_congr {x y : State} (h : x.tables = y.tables) (b p d) : x.seqEntry b p d = y.seqEntry b p d := by
  unfold State.seqEntry; rw [h]

theorem Berth.finalised_none {x : Berth} (res) (h : x.request = none) : x.finalised res = x := by
  unfold Berth.finalised; rw [h]

theorem Berth.finalised_pending {x : Berth} {rq} (res) (h : x.request = some rq) (hp : x.phase = .pending) :
    x.finalised res = { x with request := none, phase := .final, result := res } := by
  unfold Berth.finalised; simp only [h, hp]

theorem Berth.finalised_final {x : Berth} {rq} (res) (h : x.request = some rq) (hp : x.phase = .final) :
    x.finalised res = { x with request := none } := by
  cases x
  simp only at h hp
  subst h hp
  rfl

theorem rspEntry_request (z : State) (b) (x : Berth) : z.rspEntry b { x with request := none } = z.rspEntry b x := by
  unfold State.rspEntry rspWord; rfl

/-- A request that ends after an RSP write. -/
theorem finalise_owq_after {z : State} {q} (res) (h : z.owq = placeWrite q (z.rspEntry b (z.berth b))) :
    (z.finalise b res).owq = placeWrite q (z.rspEntry b ((z.berth b).finalised res)) := by
  cases hr : (z.berth b).request with
  | none => rw [State.finalise_of_none _ hr, Berth.finalised_none _ hr]; exact h
  | some rq =>
    cases hp : (z.berth b).phase with
    | pending =>
      rw [Berth.finalised_pending _ hr hp, State.finalise_of_pending _ hr hp]
      have : ∀ x : Berth, ((z.setBerth b x).queueRsp b).owq = placeWrite z.owq (z.rspEntry b x) := fun x => by
        unfold State.queueRsp; rw [State.berth_setBerth_same]; rfl
      rw [this, h]
      exact rsp_twice _ _ _ _ _
    | final =>
      rw [Berth.finalised_final _ hr hp, State.finalise_of_final _ hr hp, rspEntry_request]
      exact h

structure LevelGranted (z v : State) (c : Claim) (n : Nat) : Prop where
  berths : v.berths = z.berths.set c.berth (({ z.berth c.berth with level := n, residency := 0, idle := 0 } : Berth).finalised .done)
  chans : v.chans = z.chans
  sups : v.sups = z.sups
  tables : v.tables = z.tables
  scan : v.scan = z.scan
  holds : v.holds = z.holds
  owq : v.owq = placeAll z.owq [z.seqEntry c.berth .chargeLimit (z.levelEntry n).limit,
      z.rspEntry c.berth (({ z.berth c.berth with level := n, residency := 0, idle := 0 } : Berth).finalised .done)]
  log : (z.log.stageAll (z.finalRecords c.berth .done)).Alike v.log
  claims : v.budget.claims = dropClaim z.budget.claims c.berth
  stack : v.budget.stack = stackAfter z.budget.stack c.berth (z.berth c.berth).level n
  capacity : v.budget.capacity = z.budget.capacity
  shedding : v.budget.shedding = z.budget.shedding

theorem finalise_berths (s : State) (b) (res) : (s.finalise b res).berths = s.berths.set b ((s.berth b).finalised res) := by
  have e : s.berths = s.berths.set b (s.berth b) := by unfold State.berth; rw [Eight.set_get_self]
  cases hr : (s.berth b).request with
  | none => rw [State.finalise_of_none _ hr, Berth.finalised_none _ hr]; exact e
  | some rq =>
    cases hp : (s.berth b).phase with
    | pending => rw [Berth.finalised_pending _ hr hp, State.finalise_of_pending _ hr hp]; rfl
    | final => rw [Berth.finalised_final _ hr hp, State.finalise_of_final _ hr hp]; rfl

theorem changeLevel_berths (s : State) (b n) :
    (s.changeLevel b n).berths = s.berths.set b { s.berth b with level := n, residency := 0, idle := 0 } := by
  unfold State.changeLevel; dsimp only
  repeat' split
  all_goals rfl

theorem changeLevel_budget (s : State) (b n) : (s.changeLevel b n).budget.capacity = s.budget.capacity ∧
    (s.changeLevel b n).budget.shedding = s.budget.shedding := by
  unfold State.changeLevel; dsimp only
  repeat' split
  all_goals exact ⟨rfl, rfl⟩

theorem queueRsp_owq_entry (y : State) (b) : (y.queueRsp b).owq = placeWrite y.owq (y.rspEntry b (y.berth b)) := rfl

theorem grantLevel_granted (z : State) (c : Claim) (n : Nat) : LevelGranted z (z.grantLevel c n) c n := by
  have hx := changeLevel_berths (z.setBudget { z.budget with claims := dropClaim z.budget.claims c.berth }) c.berth n
  have hl := State.changeLevel_log (z.setBudget { z.budget with claims := dropClaim z.budget.claims c.berth }) c.berth n
  have hq := State.changeLevel_owq (z.setBudget { z.budget with claims := dropClaim z.budget.claims c.berth }) c.berth n
  have hc := State.changeLevel_chans (z.setBudget { z.budget with claims := dropClaim z.budget.claims c.berth }) c.berth n
  have hu := State.changeLevel_sups (z.setBudget { z.budget with claims := dropClaim z.budget.claims c.berth }) c.berth n
  have ht := State.changeLevel_tables (z.setBudget { z.budget with claims := dropClaim z.budget.claims c.berth }) c.berth n
  have hs := State.changeLevel_scan (z.setBudget { z.budget with claims := dropClaim z.budget.claims c.berth }) c.berth n
  have hh := State.changeLevel_holds (z.setBudget { z.budget with claims := dropClaim z.budget.claims c.berth }) c.berth n
  have hm := State.changeLevel_claims (z.setBudget { z.budget with claims := dropClaim z.budget.claims c.berth }) c.berth n
  have hk := State.changeLevel_stack (z.setBudget { z.budget with claims := dropClaim z.budget.claims c.berth }) c.berth n
  have hb := changeLevel_budget (z.setBudget { z.budget with claims := dropClaim z.budget.claims c.berth }) c.berth n
  unfold State.grantLevel
  dsimp only
  generalize (z.setBudget { z.budget with claims := dropClaim z.budget.claims c.berth }).changeLevel c.berth n = y at *
  have yb : y.berth c.berth = { z.berth c.berth with level := n, residency := 0, idle := 0 } := by
    unfold State.berth; rw [hx, Eight.get_set_same]; rfl
  have yt : (y.queueRsp c.berth).tables = z.tables := ht
  have ys : (y.queueRsp c.berth).scan = z.scan := hs
  have yb' : (y.queueRsp c.berth).berth c.berth = { z.berth c.berth with level := n, residency := 0, idle := 0 } := yb
  refine ⟨?_, ?_, ?_, ?_, ?_, ?_, ?_, ?_, ?_, ?_, ?_, ?_⟩
  · rw [finalise_berths, yb']
    show y.berths.set _ _ = _
    rw [hx, Eight.set_set]; rfl
  · rw [State.finalise_chans]; exact hc
  · rw [State.finalise_sups]; exact hu
  · rw [State.finalise_tables]; exact ht
  · rw [State.finalise_scan]; exact hs
  · rw [State.finalise_holds]; exact hh
  · have hz := queueRsp_owq_entry y c.berth
    generalize y.queueRsp c.berth = v at *
    rw [rspEntry_congr (ht.trans yt.symm : y.tables = v.tables)] at hz
    rw [show y.berth c.berth = v.berth c.berth from yb.trans yb'.symm] at hz
    rw [finalise_owq_after .done hz, yb', rspEntry_congr yt, hq]
    rfl
  · rw [State.finalise_log]
    have e : (y.queueRsp c.berth).finalRecords c.berth .done = z.finalRecords c.berth .done := by
      unfold State.finalRecords State.finalRecord
      rw [yb', ys]
    rw [e]
    exact Log.Alike.stageAll hl _
  · rw [State.finalise_budget]; exact hm
  · rw [State.finalise_budget]; exact hk
  · rw [State.finalise_budget]; exact hb.1
  · rw [State.finalise_budget]; exact hb.2

/-- After the service pass an event leaves things as they stand but for an OVERCOMMIT record. -/
structure Tested (z v : State) : Prop where
  berths : v.berths = z.berths
  chans : v.chans = z.chans
  sups : v.sups = z.sups
  tables : v.tables = z.tables
  scan : v.scan = z.scan
  holds : v.holds = z.holds
  owq : v.owq = z.owq
  claims : v.budget.claims = z.budget.claims
  stack : v.budget.stack = z.budget.stack
  capacity : v.budget.capacity = z.budget.capacity
  shedding : v.budget.shedding = z.budget.shedding
  staging : ∃ more : List Record, (∀ x ∈ more, x.type = .overcommit) ∧ v.log.staging = z.log.staging ++ more

theorem tested (z : State) : Tested z (State.clearMarks (if z.budget.testDue then z.overcommitTest else z)) := by
  split
  · obtain ⟨a1, a2, a3, a4, a5, a6⟩ := z.overcommitTest_shows
    have a : z.overcommitTest.chans = z.chans ∧ z.overcommitTest.sups = z.sups ∧ z.overcommitTest.tables = z.tables ∧ z.overcommitTest.scan = z.scan ∧ z.overcommitTest.budget.capacity = z.budget.capacity ∧ z.overcommitTest.budget.shedding = z.budget.shedding := by
      unfold State.overcommitTest; repeat' split
      all_goals exact ⟨rfl, rfl, rfl, rfl, rfl, rfl⟩
    exact ⟨a5, a.1, a.2.1, a.2.2.1, a.2.2.2.1, a2, a1, a3, a4, a.2.2.2.2.1, a.2.2.2.2.2, a6⟩
  · exact ⟨rfl, rfl, rfl, rfl, rfl, rfl, rfl, rfl, rfl, rfl, rfl, [], by simp, (List.append_nil _).symm⟩

theorem endEvent_of_pass {s z : State} (h : (if s.budget.serviceDue then s.servicePass else s) = z) :
    Tested z s.endEvent := by
  unfold State.endEvent
  rw [h]
  exact tested z

theorem Tested.leaves {u z v : State} {x c q rs} (h : Tested z v) (hb : z.berth b = x) (hc : z.chan b = c)
    (hh : z.holds = u.holds) (hq : z.owq = q) (hl : (u.log.stageAll rs).Alike z.log) :
    u.leaves v b x c q rs := by
  obtain ⟨more, h1, h2⟩ := h.staging
  refine ⟨?_, ?_, fun _ => ⟨h.holds.trans hh, h.owq.trans hq, more, h1, by rw [h2, hl.staging]⟩⟩
  · unfold State.berth; rw [h.berths]; exact hb
  · unfold State.chan; rw [h.chans]; exact hc

end Grants

section Steps

variable {w u y : State} {b : BerthId} {r : ScanResult}

/-- A state within an event of `u` in which a berth stands as given, with its writes and records. -/
structure Stands (u y : State) (b : BerthId) (x : Berth) (q : List OwnWrite) (rs : List Record) : Prop where
  berths : y.berths = u.berths.set b x
  chans : y.chans = u.chans
  tables : y.tables = u.tables
  pass : y.scan.passNumber = u.scan.passNumber
  holds : y.holds = u.holds
  owq : y.owq = q
  log : (u.log.stageAll rs).Alike y.log
  capacity : y.budget.capacity = u.budget.capacity
  shedding : y.budget.shedding = u.budget.shedding
  claims : y.budget.claims = u.budget.claims

theorem Stands.berth {x q rs} (h : Stands u y b x q rs) : y.berth b = x := by unfold State.berth; rw [h.berths,
    Eight.get_set_same]
theorem Stands.chan {x q rs} (h : Stands u y b x q rs) (c) : y.chan c = u.chan c := by unfold State.chan; rw [h.chans]
theorem Stands.berth_of_ne {x q rs} (h : Stands u y b x q rs) {c} (hc : c ≠ b) : y.berth c = u.berth c := by
    unfold State.berth; rw [h.berths, Eight.get_set_of_ne _ _ hc]

/-- The record of a step down. -/
def stepRecord (x : State) (b : BerthId) (ty : RecType) (q : BitVec 3) : Record :=
  { type := ty, berth := some b, qualifier := q, detailA := BitVec.ofNat 16 (x.berth b).level, detailB := BitVec.ofNat 16 ((x.berth b).level - 1), stamp := x.scan.passNumber }

/-- A step down before the recomputation. -/
theorem stepDown_stands (x : State) (b ty q) :
   ∃ y : State, x.stepDown b ty q = y.recomputeClaim b ∧ Stands x y b (x.berth b).stepped
        (placeAll x.owq [x.seqEntry b .chargeLimit (x.levelEntry ((x.berth b).level - 1)).limit,
            x.rspEntry b (x.berth b).stepped]) [stepRecord x b ty q]
    ∧ y.budget.stack = stackAfter x.budget.stack b (x.berth b).level ((x.berth b).level - 1)
    ∧ (x.levelCredits ((x.berth b).level - 1) < x.levelCredits (x.berth b).level → y.budget.serviceDue = true) := by
  refine ⟨_, rfl, ?_⟩
  have h1 := State.berth_changeLevel_same x b ((x.berth b).level - 1)
  have h1' := changeLevel_berths x b ((x.berth b).level - 1)
  have h2 := State.changeLevel_log x b ((x.berth b).level - 1)
  have h3 := State.changeLevel_owq x b ((x.berth b).level - 1)
  have h4 := State.changeLevel_chans x b ((x.berth b).level - 1)
  have h5 := State.changeLevel_tables x b ((x.berth b).level - 1)
  have h6 := State.changeLevel_scan x b ((x.berth b).level - 1)
  have h7 := State.changeLevel_holds x b ((x.berth b).level - 1)
  have h8 := State.changeLevel_claims x b ((x.berth b).level - 1)
  have h9 := State.changeLevel_stack x b ((x.berth b).level - 1)
  have h10 := changeLevel_budget x b ((x.berth b).level - 1)
  have h11 : (x.levelCredits ((x.berth b).level - 1) < x.levelCredits (x.berth b).level → (x.changeLevel b ((x.berth b).level - 1)).budget.serviceDue = true) := by
    unfold State.changeLevel
    dsimp only
    repeat' split
    all_goals intro h
    all_goals first | rfl | omega
  generalize x.changeLevel b ((x.berth b).level - 1) = z at *
  have q1 : (z.queueRsp b).owq = placeWrite z.owq (z.rspEntry b (z.berth b)) := rfl
  have q2 : (z.queueRsp b).scan = z.scan := rfl
  have q3 : (z.queueRsp b).log = z.log := rfl
  refine ⟨⟨h1', h4, h5, congrArg ScanEngine.passNumber h6, h7, ?_, ?_, h10.1, h10.2, h8⟩, h9, h11⟩
  · show (z.queueRsp b).owq = _
    rw [q1, h3, h1, rspEntry_congr h5]; rfl
  · show Log.Alike _ ((z.queueRsp b).log.stage { type := ty, berth := some b, qualifier := q, detailA := BitVec.ofNat 16 (x.berth b).level, detailB := BitVec.ofNat 16 ((x.berth b).level - 1), stamp := (z.queueRsp b).scan.passNumber })
    rw [q2, q3, h6]
    exact h2.stage _

theorem claimOf_none {y : State} (h : y.noClaim b) : y.claimOf b = none := by
  unfold State.claimOf
  rw [List.find?_eq_none]
  intro c hc
  simpa using h c hc

theorem claimOf_single {y : State} {c : Claim} (hb : c.berth = b) (h : y.budget.claims = [c]) : y.claimOf b = some c := by
  unfold State.claimOf
  rw [h]; simp [hb]

theorem Berth.finalised_fields (x : Berth) (res) : (x.finalised res).level = x.level ∧
    (x.finalised res).baseGrant = x.baseGrant := by
  unfold Berth.finalised
  split <;> exact ⟨rfl, rfl⟩

/-- A state with other marks of its event. -/
def remark (y : State) (a d : Bool) : State := y.setBudget { y.budget with serviceDue := a, testDue := d }

theorem recompute_of_noClaim (h : y.noClaim b) : y.recomputeClaim b = y := by unfold State.recomputeClaim; rw [claimOf_none h]

theorem stands_ends {x q rs} {v : State} (h : Stands u y b x q rs)
    (hq : q = placeAll u.owq (u.seqEntries b [u.chargeWrite ((u.berth b).level - 1)] ++ [u.rspEntry b x])) (hv : Tested y v) :
   u.movesTo v b x (u.chan b) [u.chargeWrite ((u.berth b).level - 1)] rs := by
  exact hv.leaves h.berth (h.chan b) h.holds (h.owq.trans hq) h.log

/-- A step down's end, the one claim waiting being the berth's (R97). -/
theorem recomputeClaim_answers {R : Record} {n k : Nat} (a d : Bool)
    (h : Stands u y b (u.berth b).stepped (placeAll u.owq [u.seqEntry b .chargeLimit (u.levelEntry ((u.berth b).level - 1)).limit, u.rspEntry b (u.berth b).stepped]) [R])
    (hk : u.budget.claims = [{ berth := b, kind := ClaimKind.level n, credits := k }])
    (ha : u.levelCredits ((u.berth b).level - 1) < u.levelCredits (u.berth b).level → a = true) :
    u.claimRecomputed (remark (y.recomputeClaim b) a d).endEvent b n (u.levelCredits n - u.levelCredits ((u.berth b).level - 1)) R := by
  have hg : y.granted + u.levelCredits (u.berth b).level = u.granted + u.levelCredits ((u.berth b).level - 1) := by
    have := State.granted_of h.tables h.berths
    unfold State.held Berth.stepped at this
    dsimp only at this
    omega
  have hlc : ∀ k, y.levelCredits k = u.levelCredits k := fun k => by unfold State.levelCredits State.levelEntry; rw [h.tables]
  have hc : y.claimOf b = some { berth := b, kind := ClaimKind.level n, credits := k } := claimOf_single rfl (by rw [h.claims, hk])
  have er : y.recomputeClaim b = if u.levelCredits n - u.levelCredits ((u.berth b).level - 1) ≤ u.tables.ccfg - u.tables.reserve then
      y.setBudget { y.budget with claims := [{ berth := b, kind := ClaimKind.level n, credits := u.levelCredits n - u.levelCredits ((u.berth b).level - 1) }] }
      else (y.withdrawClaim b).finalise b .nobudget := by
    unfold State.recomputeClaim
    rw [hc]; dsimp only
    rw [h.claims, hk, hlc, hlc, h.berth]
    unfold State.levelLimit
    rw [h.tables]
    unfold Berth.stepped
    simp
  rw [er]
  have hfr : ∀ res, y.finalRecords b res = u.finalRecords b res := by
    intro res
    unfold State.finalRecords State.finalRecord
    rw [h.berth, h.pass]; rfl
  generalize u.levelCredits n - u.levelCredits ((u.berth b).level - 1) = kk
  refine ⟨fun hlim => ?_, fun hlim => ⟨fun hw => ?_, fun hsh hlt hfit => ?_⟩⟩
  · rw [if_neg (by omega)]
    have hcl : (remark ((y.withdrawClaim b).finalise b .nobudget) a d).budget.claims = [] := by
      show ((y.withdrawClaim b).finalise b .nobudget).budget.claims = []
      rw [State.finalise_budget]
      unfold State.withdrawClaim; rw [hc]
      show dropClaim y.budget.claims b = []
      rw [h.claims, hk]; unfold dropClaim; simp
    have hE := State.endEvent_shows hcl
    refine ⟨?_, hE.2.2.1⟩
    have hq : (y.withdrawClaim b).owq = placeWrite (placeAll u.owq (u.seqEntries b [u.chargeWrite ((u.berth b).level - 1)])) ((y.withdrawClaim b).rspEntry b ((y.withdrawClaim b).berth b)) := by
      rw [State.withdrawClaim_owq, h.owq, State.berth_withdrawClaim, h.berth,
          rspEntry_congr ((State.withdrawClaim_tables y b).trans h.tables)]
      rfl
    refine State.leaves_endEvent (fun c h => by rw [hcl] at h; cases h) (by rw [hcl]; intro _ h; cases h) ?_ ?_ ?_ ?_ ?_
    · show ((y.withdrawClaim b).finalise b .nobudget).berth b = _
      rw [State.berth_finalise_same, State.berth_withdrawClaim, h.berth]
    · show ((y.withdrawClaim b).finalise b .nobudget).chan b = _
      rw [State.chan_finalise, State.chan_withdrawClaim, h.chan]
    · show ((y.withdrawClaim b).finalise b .nobudget).holds = _
      rw [State.finalise_holds, State.withdrawClaim_holds, h.holds]
    · show ((y.withdrawClaim b).finalise b .nobudget).owq = _
      rw [finalise_owq_after .nobudget hq, State.berth_withdrawClaim, h.berth,
          rspEntry_congr ((State.withdrawClaim_tables y b).trans h.tables), placeAll_append]
      rfl
    · show Log.Alike _ ((y.withdrawClaim b).finalise b .nobudget).log
      rw [Log.stageAll_cons, State.finalise_log, State.withdrawClaim_log]
      have : (y.withdrawClaim b).finalRecords b .nobudget = u.finalRecords b .nobudget := by
        rw [← hfr]
        unfold State.finalRecords State.finalRecord
        rw [State.berth_withdrawClaim, State.withdrawClaim_scan]
      rw [this]
      exact h.log.stageAll _
  · rw [if_pos hlim]
    generalize hz : remark (y.setBudget { y.budget with claims := [{ berth := b, kind := ClaimKind.level n, credits := kk }] }) a d = z
    have z1 : z.budget.claims = [{ berth := b, kind := ClaimKind.level n, credits := kk }] := by rw [← hz]; rfl
    have z2 : z.budget.shedding = true ∨ z.budget.capacity < kk + z.tables.reserve + z.granted := by
      rw [← hz]
      rcases hw with h' | h'
      · exact .inl (h.shedding.trans h')
      · refine .inr ?_
        show y.budget.capacity < kk + y.tables.reserve + y.granted
        rw [h.capacity, h.tables]; omega
    have hsp : (if z.budget.serviceDue then z.servicePass else z) = z := by
      unfold State.servicePass
      rw [z1]
      unfold State.serviceWalk
      dsimp only
      have : (!z.budget.shedding && z.fits { berth := b, kind := ClaimKind.level n, credits := kk }) = false := by
        rcases z2 with h | h
        · simp [h]
        · have : z.fits { berth := b, kind := ClaimKind.level n, credits := kk } = false := by
            unfold State.fits; dsimp only
            rw [decide_eq_false_iff_not]; omega
          simp [this]
      rw [this]
      simp [State.serviceWalk]
    have ht := endEvent_of_pass hsp
    refine ⟨ht.leaves ?_ ?_ ?_ ?_ ?_, ht.claims.trans z1⟩
    · rw [← hz]; exact h.berth
    · rw [← hz]; exact h.chan b
    · rw [← hz]; exact h.holds
    · rw [← hz]; exact h.owq
    · rw [← hz]; exact h.log
  · rw [if_pos hlim]
    generalize hz : remark (y.setBudget { y.budget with claims := [{ berth := b, kind := ClaimKind.level n, credits := kk }] }) a d = z
    have zd : z.budget.serviceDue = true := by rw [← hz]; exact ha hlt
    have z1 : z.budget.claims = [{ berth := b, kind := ClaimKind.level n, credits := kk }] := by rw [← hz]; rfl
    have zb : z.berth b = (u.berth b).stepped := by rw [← hz]; exact h.berth
    have zc : z.chan b = u.chan b := by rw [← hz]; exact h.chan b
    have zh : z.holds = u.holds := by rw [← hz]; exact h.holds
    have zq : z.owq = placeAll u.owq [u.seqEntry b .chargeLimit (u.levelEntry ((u.berth b).level - 1)).limit, u.rspEntry b (u.berth b).stepped] := by rw [← hz]; exact h.owq
    have zl : (u.log.stage R).Alike z.log := by rw [← hz]; exact h.log
    have zt : z.tables = u.tables := by rw [← hz]; exact h.tables
    have zf : (!z.budget.shedding && z.fits { berth := b, kind := ClaimKind.level n, credits := kk }) = true := by
      have a : z.budget.shedding = false := by rw [← hz]; exact h.shedding.trans hsh
      have : z.fits { berth := b, kind := ClaimKind.level n, credits := kk } = true := by
        unfold State.fits; dsimp only
        rw [decide_eq_true_eq]
        have : z.budget.capacity = u.budget.capacity := by rw [← hz]; exact h.capacity
        have hzg : z.granted = y.granted := by rw [← hz]; rfl
        rw [this, zt, hzg]; omega
      simp [a, this]
    have hsp : z.servicePass = z.grantLevel { berth := b, kind := ClaimKind.level n, credits := kk } n := by
      unfold State.servicePass
      rw [z1]
      unfold State.serviceWalk
      dsimp only
      rw [if_pos zf]; rfl
    have ht := endEvent_of_pass (s := z) (z := z.grantLevel { berth := b, kind := ClaimKind.level n, credits := kk } n) (by rw [if_pos zd]; exact hsp)
    have hg' := grantLevel_granted z { berth := b, kind := ClaimKind.level n, credits := kk } n
    have zfr : z.finalRecords b .done = u.finalRecords b .done := by
      rw [← hfr, ← hz]; rfl
    refine ⟨ht.leaves ?_ ?_ ?_ ?_ ?_, ?_⟩
    · show (State.berths _).get b = _
      rw [hg'.berths, Eight.get_set_same, zb]; rfl
    · unfold State.chan; rw [hg'.chans]; exact zc
    · exact hg'.holds.trans zh
    · rw [hg'.owq, zq, zb, seqEntry_congr zt, rspEntry_congr zt, ← placeAll_append]
      unfold State.levelEntry
      rw [zt]
      rfl
    · rw [Log.stageAll_cons]
      have := hg'.log
      rw [zfr] at this
      exact (zl.stageAll _).trans this
    · rw [ht.claims, hg'.claims, z1]; unfold dropClaim; simp

end Steps

end Sys2Proof.Machine
end

