-- ==== Sys2Proof/Laws/Shore.lean ====
section
/-! SUPPORT. What a result does to a berth in SHORE: residency, idle count and the idle step-down (R60, R98). -/

namespace Sys2Proof.Machine

section Shore

variable {w : State} {b : BerthId} {r : ScanResult}

/-- A fresh result's hand-over to the Sequencer and the Budget Unit. -/
def State.handed (w : State) (b : BerthId) (r : ScanResult) : State :=
  if (w.berth b).state = .shore ∧ ((w.sequence b r).berth b).state = .shore then (w.sequence b r).countShore b r else w.sequence b r

theorem shoreGensClosed_eq (w : State) (b) : w.shoreGensClosed b =
  ((openWrites ((((w.enter b .unparallel).loadStep b .overlap)).leaveIfShore b .shore) b (w.berth b).mode).finalise b .aborted).reportState b .shore (w.berth b).mode := rfl

/-- A result in SHORE, with the Budget Unit's counts (R50, R60, R98). -/
theorem handed_shore (hm : w.begun) : w.shoreFollowed (w.handed b r).endEvent b r := by
  intro hs h1 h2
  refine ⟨fun hg hk => ?_, fun hg => ?_⟩
  · have e : w.sequence b r = w.shoreGensClosed b := by
      unfold State.sequence; rw [hs]; dsimp only; unfold State.shoreResult; rw [if_neg h1, if_neg h2, if_pos ⟨hg, hk⟩]
    have hd := departs hm (x := (w.enter b .unparallel).loadStep b .overlap) (old := .shore) (res := .aborted) (dest := .unparallel) (m := (w.berth b).mode) (r0 := (w.berth b).entered .unparallel) (c := { w.chan b with step := w.overlapLoaded b })
      (berth_enter _) (State.chan_setChan_same _ _ _) rfl rfl rfl rfl rfl rfl (openWrites_fields _ b (w.berth b).mode) rfl rfl rfl rfl
    rw [← shoreGensClosed_eq] at hd
    have e2 : w.handed b r = w.shoreGensClosed b := by
      unfold State.handed
      rw [e, if_neg]
      rintro ⟨-, h⟩
      rw [shoreGensClosed_eq] at h
      have : ((((openWrites ((((w.enter b .unparallel).loadStep b .overlap)).leaveIfShore b .shore) b (w.berth b).mode).finalise b .aborted).reportState b .shore (w.berth b).mode).berth b).state = .unparallel := by
        show ((State.finalise _ b _).berth b).state = _
        rw [State.berth_finalise_same]
        have hl := leaveIfShore_fields ((w.enter b .unparallel).loadStep b .overlap) b .shore
        have : (openWrites (((w.enter b .unparallel).loadStep b .overlap).leaveIfShore b .shore) b (w.berth b).mode).berth b = ((w.berth b).entered .unparallel).leftShore .shore := by
          have h3 := (openWrites_fields (((w.enter b .unparallel).loadStep b .overlap).leaveIfShore b .shore) b (w.berth b).mode).1
          have h4 := hl.berth
          rw [show ((w.enter b .unparallel).loadStep b .overlap).berth b = _ from berth_enter _] at h4
          rw [← h4]
          show (State.berths _).get b = _
          rw [h3]; rfl
        rw [this]
        unfold Berth.finalised
        split <;> rfl
      rw [this] at h; cases h
    rw [e2]
    refine ⟨?_, hd.2 rfl⟩
    have := hd.1
    rw [if_pos rfl] at this
    unfold State.moveRecord
    rw [hs]
    exact this
  · have e : w.sequence b r = w := by
      unfold State.sequence; rw [hs]; dsimp only; unfold State.shoreResult; rw [if_neg h1, if_neg h2, if_neg]
      rintro ⟨a, c⟩
      rcases hg with h | h
      · exact h a
      · exact h c
    have e2 : w.handed b r = w.countShore b r := by
      unfold State.handed; rw [e, if_pos ⟨hs, hs⟩]
    rw [e2]
    unfold State.countShore
    dsimp only
    have ei : (if r.load < (w.levelEntry (w.berth b).level).activity then min 255 ((w.berth b).idle + 1) else 0) = w.idleAfter b r := rfl
    rw [ei]
    refine ⟨fun h => ?_, fun h0 h => ?_⟩
    · rw [if_neg (by omega)]
      exact issues_endEvent hm rfl (chans_self w b) rfl rfl rfl rfl
    · rw [if_pos ⟨h0, h⟩]
      generalize hx : w.setBerth b { w.berth b with residency := min 255 ((w.berth b).residency + 1), idle := w.idleAfter b r } = x
      have xb : x.berth b = { w.berth b with residency := min 255 ((w.berth b).residency + 1), idle := w.idleAfter b r } := by rw [← hx]; exact State.berth_setBerth_same _ _ _
      have xs : (x.berth b).stepped = (w.berth b).stepped := by rw [xb]; rfl
      have xl : (x.berth b).level = (w.berth b).level := by rw [xb]
      have xbs : x.berths.set b (w.berth b).stepped = w.berths.set b (w.berth b).stepped := by rw [← hx]; exact Eight.set_set _ _ _ _
      obtain ⟨y, hy, hst, hk, hsv⟩ := stepDown_stands x b .levelIdle 0
      rw [hy]
      rw [xs, xl] at hst
      rw [xl] at hk hsv
      have hrec : stepRecord x b .levelIdle 0 = w.idleRecord b := by unfold stepRecord State.idleRecord; rw [xl, ← hx]; rfl
      have h : Stands w y b (w.berth b).stepped (placeAll w.owq [w.seqEntry b .chargeLimit (w.levelEntry ((w.berth b).level - 1)).limit, w.rspEntry b (w.berth b).stepped]) [w.idleRecord b] := by
        obtain ⟨a1, a2, a3, a4, a5, a6, a7, a8, a9, a10⟩ := hst
        rw [hrec] at a7
        rw [xbs] at a1
        rw [← hx] at a2 a3 a4 a5 a6 a7 a8 a9 a10
        exact ⟨a1, a2, a3, a4, a5, a6, a7, a8, a9, a10⟩
      have hk : y.budget.stack = stackAfter w.budget.stack b (w.berth b).level ((w.berth b).level - 1) := by rw [hk, ← hx]; rfl
      have hsv : w.levelCredits ((w.berth b).level - 1) < w.levelCredits (w.berth b).level → y.budget.serviceDue = true := by
        rw [← hx] at hsv; exact hsv
      clear hst hrec xbs xl xs xb hx hy
      refine ⟨fun hn => ?_, fun n k hk => ?_⟩
      · have hyn : y.noClaim b := by unfold State.noClaim; rw [h.claims]; exact hn
        rw [recompute_of_noClaim hyn]
        refine ⟨State.leaves_endEvent hyn (by rw [h.claims]; exact fun _ h => h) h.berth (h.chan b) h.holds h.owq h.log, fun h1 => endEvent_stack hyn ?_⟩
        rw [hk, h1]; exact stackAfter_zero_not_mem _ _
      · have hsd : (y.recomputeClaim b).budget.serviceDue = true ∨ (y.recomputeClaim b).budget.serviceDue = y.budget.serviceDue := by
          unfold State.recomputeClaim
          split
          · exact .inr rfl
          · split
            · exact .inr rfl
            · dsimp only
              split
              · exact .inr rfl
              · left
                rw [State.finalise_budget]
                rename_i hc _ _ _ _
                unfold State.withdrawClaim; rw [hc]; rfl
        exact recomputeClaim_answers (y.recomputeClaim b).budget.serviceDue (y.recomputeClaim b).budget.testDue h hk (fun hl => hsd.elim id (fun h => h.trans (hsv hl)))

end Shore

end Sys2Proof.Machine
end

