-- ==== Sys2Proof/Laws/Lockout.lean ====
section
/-! SUPPORT. What the Supervision Unit does: a result in LOCKOUT (R77 to R81), the trip action (R73 to R75), and counters without a trip (R69). -/

namespace Sys2Proof.Machine

section InLockout

variable {w : State} {b : BerthId} {r : ScanResult}

theorem lockoutFlags_eq (r : ScanResult) : conditionFlags .lockout r = r.lockoutFlags := by
  unfold conditionFlags ScanResult.lockoutFlags ScanResult.anyFault
  cases r.pilot <;> cases r.earth <;> cases r.shore <;> cases r.shipcon <;> cases r.gens <;> rfl

theorem clean_iff : r.clean = true ↔ r.isClean := by
  unfold ScanResult.clean ScanResult.isClean ScanResult.anyFault
  cases r.pilot <;> cases r.shore <;> cases r.shipcon <;> cases r.gens <;> cases r.earth <;> simp

theorem lockoutFlags_of_clean (h : r.isClean) : r.lockoutFlags = FaultSet.empty := by
  obtain ⟨h1, h2, h3, h4⟩ := h
  unfold ScanResult.lockoutFlags
  simp [h1, h2, h3, FaultSet.empty]
  exact h4

theorem not_clean_of_flags (h : r.lockoutFlags.isEmpty = false) : r.clean = false := by
  cases hc : r.clean
  · rfl
  · rw [lockoutFlags_of_clean (clean_iff.mp hc)] at h; cases h

theorem minus_empty (f g : FaultSet) (h : f.isEmpty = true) : (f.minus g).isEmpty = true := by
  unfold FaultSet.isEmpty FaultSet.minus at *
  simp at *
  simp [h]

theorem union_fresh (f g : FaultSet) : g.union (f.minus g) = g.union f := by
  unfold FaultSet.union FaultSet.minus
  simp only [FaultSet.mk.injEq]
  refine ⟨?_, ?_, ?_, ?_, ?_, ?_⟩ <;> simp [Bool.or_and_distrib_left]

/-- A result in LOCKOUT (R77 to R81). -/
theorem superviseLockout_follows (hl : (w.berth b).latest = some r) : w.lockoutFollowed
    ((w.superviseLockout b r).sequence b r).endEvent b r := by
  intro hs hn hq
  -- the state after the base grant's return
  obtain ⟨x, hx, x1, x2, x3, x4, x5, x6, x7, x8, x9, x10⟩ : ∃ x : State, (if r.shore = .open then w.returnBase b else w) = x
      ∧ x.berth b = { w.berth b with baseGrant := if r.shore = .open then 0 else (w.berth b).baseGrant }
      ∧ x.chan b = w.chan b ∧ x.sup b = w.sup b ∧ x.holds = w.holds ∧ x.owq = w.owq ∧ w.log.Alike x.log ∧ x.noClaim b ∧ (∀ c ∈ x.budget.claims, c ∈ w.budget.claims) ∧ x.tables = w.tables ∧ x.scan = w.scan := by
    refine ⟨_, rfl, ?_⟩
    split
    · exact ⟨State.berth_returnBase_same _ _, State.chan_returnBase _ _ _, State.sup_returnBase _ _ _,
          State.returnBase_holds _ _, State.returnBase_owq _ _, State.returnBase_log _ _,
        by unfold State.noClaim; rw [State.returnBase_claims]; exact hn, by rw [State.returnBase_claims]; exact fun _ h => h, State.returnBase_tables _ _, State.returnBase_scan _ _⟩
    · exact ⟨rfl, rfl, rfl, rfl, rfl, Log.Alike.refl _, hn, fun _ h => h, rfl, rfl⟩
  have e0 : w.superviseLockout b r = ((x.repeatFault b r.lockoutFlags).countQuiet b r).tryRecover b := by
    unfold State.superviseLockout
    rw [hx, lockoutFlags_eq]
  have xst : (x.berth b).state = .lockout := by rw [x1]; exact hs
  have hstat : x.static b = w.static b := by unfold State.static; rw [x9]
  have ev : ∀ v : State, (v.berth b).state = .lockout → v.sequence b r = v := fun v h => by unfold State.sequence; rw [h]
  rw [e0]
  refine ⟨fun hc he => ?_, fun hf => ?_, fun hc => ?_⟩
  · have hcl : r.clean = false := by
      cases h : r.clean
      · rfl
      · exact absurd (clean_iff.mp h) hc
    -- the repeat fault at most clears the quiet count
    have e1 : (x.repeatFault b r.lockoutFlags).countQuiet b r = x.setSup b { w.sup b with quiet := 0 } := by
      unfold State.repeatFault
      dsimp only
      rw [x3]
      split
      · unfold State.countQuiet; rw [x3, hcl]; rfl
      · unfold State.countQuiet
        rw [hcl, State.sup_setSup_same]
        unfold State.setSup
        simp
    have e2 : (x.setSup b { w.sup b with quiet := 0 }).mayRecover b = false := by
      unfold State.mayRecover
      rw [State.sup_setSup_same]
      have : ¬ (w.static b).quietRequired ≤ 0 := by omega
      simp [State.static_setSup, hstat, this]
    unfold State.tryRecover
    rw [e1, e2, if_neg (by simp), ev _ (by exact xst)]
    have ha := Apart.endEvent (b := b) (s := x.setSup b { w.sup b with quiet := 0 }) x7
    exact ⟨State.leaves_endEvent x7 x8 x1 x2 x4 x5 x6, ha.sup.trans (State.sup_setSup_same _ _ _)⟩
  · have hne : r.lockoutFlags.isEmpty = false := by
      cases h : r.lockoutFlags.isEmpty
      · rfl
      · rw [minus_empty _ _ h] at hf; cases hf
    have hcl := not_clean_of_flags hne
    have e1 : (x.repeatFault b r.lockoutFlags).countQuiet b r =
        (((x.setSup b { w.sup b with sticky := (w.sup b).sticky.union (r.lockoutFlags.minus (w.sup b).sticky), quiet := 0, release := (w.static b).autoRelease }).tripWrite b).tripRecord b 1 .lockout (r.lockoutFlags.minus (w.sup b).sticky)).setSup b
         { w.sup b with sticky := (w.sup b).sticky.union r.lockoutFlags, quiet := 0, release := (w.static b).autoRelease } := by
      unfold State.repeatFault
      dsimp only
      rw [x3, hne, hf, hstat]
      simp only [Bool.false_eq_true, if_false]
      unfold State.countQuiet
      rw [hcl]
      have : (((x.setSup b { w.sup b with sticky := (w.sup b).sticky.union (r.lockoutFlags.minus (w.sup b).sticky), quiet := 0, release := (w.static b).autoRelease }).tripWrite b).tripRecord b 1 .lockout (r.lockoutFlags.minus (w.sup b).sticky)).sup b
        = { w.sup b with sticky := (w.sup b).sticky.union (r.lockoutFlags.minus (w.sup b).sticky), quiet := 0, release := (w.static b).autoRelease } := State.sup_setSup_same x b _
      rw [this, union_fresh]
      simp
    rw [e1]
    generalize hy : (((x.setSup b { w.sup b with sticky := (w.sup b).sticky.union (r.lockoutFlags.minus (w.sup b).sticky), quiet := 0, release := (w.static b).autoRelease }).tripWrite b).tripRecord b 1 .lockout (r.lockoutFlags.minus (w.sup b).sticky)) = y
    have y1 : y.berth b = x.berth b := by rw [← hy]; rfl
    have y2 : y.chan b = x.chan b := by rw [← hy]; rfl
    have y4 : y.holds = x.holds := by rw [← hy]; rfl
    have y5 : y.owq = placeTrip w.owq (w.tripEntry b) := by
      rw [← hy]
      show placeTrip x.owq { address := x.tables.cmdAddress b .shoreBkr, data := cmdOpen, cls := .trip, berth := some b } = _
      rw [x5, x9]; rfl
    have y6 : (w.log.stage (w.tripRecordOf b 1 .lockout (r.lockoutFlags.minus (w.sup b).sticky))).Alike y.log := by
      rw [← hy]
      have : w.tripRecordOf b 1 .lockout (r.lockoutFlags.minus (w.sup b).sticky) = x.tripRecordOf b 1 .lockout (r.lockoutFlags.minus (w.sup b).sticky) := by
        unfold State.tripRecordOf; rw [x10]
      rw [this]
      exact x6.stage _
    have y7 : y.budget = x.budget := by rw [← hy]; rfl
    have y9 : y.static b = w.static b := by rw [← hstat, ← hy]; rfl
    clear hy
    have e2 : (y.setSup b { w.sup b with sticky := (w.sup b).sticky.union r.lockoutFlags, quiet := 0, release := (w.static b).autoRelease }).mayRecover b = false := by
      unfold State.mayRecover
      rw [State.sup_setSup_same]
      have : ¬ (w.static b).quietRequired ≤ 0 := by omega
      simp [State.static_setSup, y9, this]
    unfold State.tryRecover
    rw [e2, if_neg (by simp), ev _ (by show (y.berth b).state = _; rw [y1]; exact xst)]
    have yn : (y.setSup b { w.sup b with sticky := (w.sup b).sticky.union r.lockoutFlags, quiet := 0, release := (w.static b).autoRelease }).noClaim b := by
      unfold State.noClaim; show ∀ c ∈ y.budget.claims, _
      rw [y7]; exact x7
    have ha := Apart.endEvent (b := b) yn
    refine ⟨State.leaves_endEvent yn (by show ∀ c ∈ y.budget.claims, _; rw [y7]; exact x8) (y1.trans x1) (y2.trans x2) (y4.trans x4) y5 y6, ?_, ha.sup.trans (State.sup_setSup_same _ _ _)⟩
    refine ha.trips _ ?_ rfl
    show _ ∈ y.owq
    rw [y5]; exact mem_placeTrip_self _ _
  · have e1 : (x.repeatFault b r.lockoutFlags).countQuiet b r = x.setSup b { w.sup b with quiet := min 255 ((w.sup b).quiet + 1) } := by
      rw [lockoutFlags_of_clean hc]
      unfold State.repeatFault
      dsimp only
      rw [if_pos (show FaultSet.empty.isEmpty = true from rfl)]
      unfold State.countQuiet
      rw [x3, clean_iff.mpr hc]; rfl
    have ho : r.shore = .open := hc.1
    rw [if_pos ho] at x1
    rw [e1]
    have em : (x.setSup b { w.sup b with quiet := min 255 ((w.sup b).quiet + 1) }).mayRecover b = (decide ((w.static b).quietRequired ≤ min 255 ((w.sup b).quiet + 1)) && (w.sup b).release) := by
      unfold State.mayRecover
      rw [State.sup_setSup_same, State.static_setSup, hstat]
    refine ⟨fun h => ?_, fun h h' => ?_⟩
    · have : (x.setSup b { w.sup b with quiet := min 255 ((w.sup b).quiet + 1) }).mayRecover b = false := by
        rw [em]
        rcases h with h | h
        · simp [h]
        · have : ¬ (w.static b).quietRequired ≤ min 255 ((w.sup b).quiet + 1) := by omega
          simp only [this, decide_false, Bool.false_and]
      unfold State.tryRecover
      rw [this, if_neg (by simp), ev _ (by exact xst)]
      have ha := Apart.endEvent (b := b) (s := x.setSup b { w.sup b with quiet := min 255 ((w.sup b).quiet + 1) }) x7
      exact ⟨State.leaves_endEvent x7 x8 x1 x2 x4 x5 x6, ha.sup.trans (State.sup_setSup_same _ _ _)⟩
    · have : (x.setSup b { w.sup b with quiet := min 255 ((w.sup b).quiet + 1) }).mayRecover b = true := by
        rw [em, h]; simp only [Bool.and_true, decide_eq_true_eq]; exact h'
      unfold State.tryRecover
      rw [this, if_pos rfl]
      unfold State.recover
      have hst : recoveredState ((x.setSup b { w.sup b with quiet := min 255 ((w.sup b).quiet + 1) }).berth b).latest = if r.pilot then .cabled else .vacant := by
        show recoveredState (x.berth b).latest = _
        rw [x1]; dsimp only; rw [hl]; rfl
      dsimp only
      rw [hst]
      generalize hst' : (if r.pilot then BState.cabled else .vacant) = st
      generalize hy : ((((x.setSup b { w.sup b with quiet := min 255 ((w.sup b).quiet + 1) }).setSup b Supervision.blank).enter b st).record .recovered (some b) 0 (BitVec.ofNat 16 st.code) 0) = y
      have y1 : y.berth b = { (w.berth b).entered st with baseGrant := 0 } := by
        rw [← hy]
        refine (berth_enter (w := (x.setSup b { w.sup b with quiet := min 255 ((w.sup b).quiet + 1) }).setSup b Supervision.blank) st).trans ?_
        show (x.berth b).entered st = _
        rw [x1]; rfl
      have y2 : y.chan b = x.chan b := by rw [← hy]; rfl
      have y3 : y.sup b = { uvCount := 0, ovCount := 0, sticky := FaultSet.empty, quiet := 0, release := false } := by
        rw [← hy]
        exact State.sup_setSup_same _ _ _
      have y4 : y.holds = x.holds := by rw [← hy]; rfl
      have y5 : y.owq = w.owq := by rw [← hy]; exact x5
      have y6 : (w.log.stage { type := .recovered, berth := some b, qualifier := 0, detailA := BitVec.ofNat 16 st.code, detailB := 0, stamp := w.scan.passNumber }).Alike y.log := by
        rw [← hy, ← x10]
        exact x6.stage _
      have y7 : y.budget = x.budget := by rw [← hy]; rfl
      have y8 : y.tables = w.tables := by rw [← x9, ← hy]; rfl
      clear hy
      have ev2 : (y.queueRsp b).sequence b r = y.queueRsp b := by
        have hb : (State.queueRsp y b).berth b = { (w.berth b).entered st with baseGrant := 0 } := y1
        have hs' : ((State.queueRsp y b).berth b).state = st := by rw [hb]; rfl
        unfold State.sequence
        rw [hs', ← hst']
        cases hp : r.pilot
        · show State.followCable _ b r = _
          unfold State.followCable
          rw [hs', ← hst', hp]; rfl
        · show State.followCable _ b r = _
          unfold State.followCable
          rw [hs', ← hst', hp]; rfl
      rw [ev2]
      have yn : (y.queueRsp b).noClaim b := by
        unfold State.noClaim; show ∀ c ∈ y.budget.claims, _
        rw [y7]; exact x7
      have ha := Apart.endEvent (b := b) yn
      refine ⟨State.leaves_endEvent yn (by show ∀ c ∈ y.budget.claims, _; rw [y7]; exact x8) y1 (y2.trans x2) (y4.trans x4) ?_ y6, ha.sup.trans y3⟩
      show placeWrite y.owq (y.rspEntry b (y.berth b)) = _
      rw [y5, y1, rspEntry_congr y8]; rfl

end InLockout

section Around

variable {b : BerthId} {r : ScanResult}

/-- A state with what the clauses about a result do not look at replaced by another state's. -/
def State.around (u w : State) : State :=
  { w with
    tables := u.tables, berths := u.berths, chans := u.chans, holds := u.holds, owq := u.owq, log := u.log
    scan := { w.scan with passNumber := u.scan.passNumber }
    timer := { w.timer with maint := u.timer.maint }
    budget := { u.budget with serviceDue := w.budget.serviceDue, testDue := w.budget.testDue } }

theorem cable_around {u w t : State} : (u.around w).cableFollowed t b r ↔ u.cableFollowed t b r := Iff.rfl
theorem engaging_around {u w t : State} : (u.around w).engagingFollowed t b r ↔ u.engagingFollowed t b r := Iff.rfl
theorem energizing_around {u w t : State} : (u.around w).energizingFollowed t b r ↔ u.energizingFollowed t b r := Iff.rfl
theorem unheldManual_around {u w t : State} (x c ws rs) : ((u.around w).unheldManual b).movesTo t b x c ws rs ↔
    (u.unheldManual b).movesTo t b x c ws rs := by
  rcases unheldManual_cases u b with ⟨hm, e⟩ | ⟨hm, e⟩
  · rw [e]
    have : (u.around w).unheldManual b = u.around w := by unfold State.unheldManual; rw [show ((u.around w).berth b).mode = _ from hm]
    rw [this]; exact Iff.rfl
  · rw [e]
    have : (u.around w).unheldManual b = (u.around w).unheld b := by unfold State.unheldManual; rw [show ((u.around w).berth b).mode = _ from hm]
    rw [this]; exact Iff.rfl
theorem supply_around {u w t : State} : (u.around w).supplyLossFollowed t b r ↔ u.supplyLossFollowed t b r := by
  unfold State.supplyLossFollowed
  simp only [unheldManual_around]
  exact Iff.rfl
theorem closing_around {u w t : State} : (u.around w).closingFollowed t b r ↔ u.closingFollowed t b r := by
  unfold State.closingFollowed
  simp only [unheldManual_around]
  exact Iff.rfl
theorem sync_around {u w t : State} : (u.around w).syncFollowed t b r ↔ u.syncFollowed t b r := Iff.rfl
theorem opening_around {u w t : State} : (u.around w).openingFollowed t b r ↔ u.openingFollowed t b r := Iff.rfl
theorem generators_around {u w t : State} : (u.around w).generatorsFollowed t b r ↔ u.generatorsFollowed t b r := Iff.rfl
theorem shore_around {u w t : State} : (u.around w).shoreFollowed t b r ↔ u.shoreFollowed t b r := Iff.rfl

end Around

section Trip

variable {w : State} {b : BerthId} {r : ScanResult} {f : FaultSet}

/-- The record of a berth in LOCKOUT. -/
def trippedBerth (w : State) (b : BerthId) : Berth :=
  ({ (w.berth b).entered .lockout with level := 0, residency := 0, idle := 0, syncCount := 0 } : Berth).finalised .tripped

/-- What a trip leaves before the end of its event. -/
structure PreTrip (w z : State) (b : BerthId) (f g : FaultSet) (q : List OwnWrite → List OwnWrite) (rs : List Record) :
    Prop where
  berth : z.berth b = trippedBerth w b
  sup : z.sup b = { uvCount := 0, ovCount := 0, sticky := g, quiet := 0, release := (w.static b).autoRelease }
  chan : z.chan b = Channels.blank
  holds : ∀ h ∈ z.holds, h.berth ≠ b
  owq : z.owq = q (placeAll (placeTrip w.owq (w.tripEntry b))
          (w.seqEntries b [(.genRelease, genHold), (.chargeLimit,
              (w.levelEntry 0).limit)] ++ [w.rspEntry b (trippedBerth w b)]))
  trip : w.tripEntry b ∈ z.owq
  log : (w.log.stageAll (((w.holdsOf b).map fun h => w.holdRecord .holdCancelled h) ++ w.finalRecords b .tripped ++ [w.tripRecordOf b 0 (w.berth b).state f] ++ rs)).Alike z.log
  noClaim : z.noClaim b
  sub : ∀ c ∈ z.budget.claims, c ∈ w.budget.claims
  stack : b ∉ z.budget.stack
  phase : z.phase = w.phase
  tables : z.tables = w.tables
  scan : z.scan = w.scan

theorem trippedBerth_state (w : State) (b) : (trippedBerth w b).state = .lockout := by
  unfold trippedBerth Berth.finalised; split <;> rfl

theorem PreTrip.lockedOut {z : State} {g q rs} (hp : w.phase = .running) (h : PreTrip w z b f g q rs) :
    w.lockedOut z.endEvent b f g q rs := by
  have ha := Apart.endEvent h.noClaim
  have hst : (z.berths.get b).state = .lockout := (congrArg Berth.state h.berth).trans (trippedBerth_state w b)
  have hlines := ha.lines
  refine ⟨ha.berth.trans h.berth, ha.sup.trans h.sup, ha.chan.trans h.chan, ha.noClaim h.noClaim, ?_, fun hs => h.stack (ha.stack hs), ha.trips _ h.trip rfl, ?_, ?_, ?_⟩
  · intro x hx hb
    exact h.holds x (ha.holds x hx hb) hb
  · intro ho
    have hnil : z.budget.claims = [] := by
      rw [List.eq_nil_iff_forall_not_mem]
      intro c hc
      exact h.noClaim c hc (ho c (h.sub c hc))
    obtain ⟨h1, h2, _, _, _, more, h5, h6⟩ := State.endEvent_shows hnil
    refine ⟨?_, more, h5, by rw [h6, h.log.staging]⟩
    rw [h1, h.owq, ha.berth, h.berth]
  · rw [hlines.2]
    unfold State.trip
    rw [hst, h.phase, hp]
    unfold State.configured
    rw [h.tables]; simp
  · rw [hlines.1]
    unfold State.perm
    rw [hst]; simp [BState.permits]

/-- The trip action before the end of its event (R73 to R75). -/
theorem preTrip (w : State) (b f) : PreTrip w (w.tripAction b f) b f f id [] := by
  -- after the two commands, the level, the claim, the holds
  generalize hx : ((((w.tripWrite b).seqWrite b .genRelease genHold).changeLevel b 0).withdrawClaim b) = x
  have x1 : x.berth b = (w.berth b).levelZero := by
    rw [← hx, State.berth_withdrawClaim, State.berth_changeLevel_same]; rfl
  have x2 : x.tables = w.tables := by rw [← hx, State.withdrawClaim_tables, State.changeLevel_tables]; rfl
  have x3 : x.scan = w.scan := by rw [← hx, State.withdrawClaim_scan, State.changeLevel_scan]; rfl
  have x4 : x.holds = w.holds := by rw [← hx, State.withdrawClaim_holds, State.changeLevel_holds]; rfl
  have x5 : x.owq = placeAll (placeTrip w.owq (w.tripEntry b)) (w.seqEntries b [(.genRelease, genHold), w.chargeZero]) := by
    rw [← hx, State.withdrawClaim_owq, State.changeLevel_owq]; rfl
  have x6 : w.log.Alike x.log := by
    rw [← hx, State.withdrawClaim_log]
    exact State.changeLevel_log ((w.tripWrite b).seqWrite b .genRelease genHold) b 0
  have x7 : x.noClaim b := by rw [← hx]; exact State.noClaim_withdrawClaim _ _
  have x8 : ∀ c ∈ x.budget.claims, c ∈ w.budget.claims := by
    rw [← hx]; intro c hc
    have := withdraw_sub _ _ c hc
    rw [State.changeLevel_claims] at this; exact this
  have x9 : b ∉ x.budget.stack := by
    rw [← hx, State.withdrawClaim_stack, State.changeLevel_stack]; exact stackAfter_zero_not_mem _ _
  have x10 : x.phase = w.phase := by rw [← hx, State.withdrawClaim_phase, State.changeLevel_phase]; rfl
  have e : w.tripAction b f = ((((((x.cancelHolds b).stopChannels b).enterLockout b f).finalise b .tripped).tripRecord b 0 (w.berth b).state f).queueRsp b) := by
    unfold State.tripAction; dsimp only; rw [hx]
  rw [e]
  clear hx e
  generalize hy : ((x.cancelHolds b).stopChannels b).enterLockout b f = y
  have y1 : y.berth b = { (w.berth b).entered .lockout with level := 0, residency := 0, idle := 0, syncCount := 0 } := by
    rw [← hy]
    unfold State.enterLockout State.setSyncCount
    show (State.setBerth _ b _).berth b = _
    rw [State.berth_setBerth_same, berth_enter]
    show ({ ((x.cancelHolds b).berth b).entered .lockout with syncCount := 0 } : Berth) = _
    rw [State.berth_cancelHolds, x1]; rfl
  have y2 : y.tables = w.tables := by rw [← hy, ← x2]; exact State.cancelHolds_tables x b
  have y3 : y.scan = w.scan := by rw [← hy, ← x3]; exact State.cancelHolds_scan x b
  have y4 : ∀ h ∈ y.holds, h.berth ≠ b := by rw [← hy]; intro h hh; exact (State.no_hold_of_cancelHolds (s := x) hh).2
  have y4' : y.holds = (w.unheld b).holds := by
    rw [← hy]
    refine (State.cancelHolds_holds x b).trans ?_
    unfold State.holdsOf; rw [x4]; rfl
  have y5 : y.owq = x.owq := by rw [← hy]; exact State.cancelHolds_owq x b
  have y6 : (w.log.stageAll ((w.holdsOf b).map fun h => w.holdRecord .holdCancelled h)).Alike y.log := by
    rw [← hy]
    show Log.Alike _ (x.cancelHolds b).log
    rw [State.cancelHolds_log]
    have : (x.holdsOf b).map (fun h => x.holdRecord .holdCancelled h) = (w.holdsOf b).map fun h => w.holdRecord .holdCancelled h := by
      unfold State.holdsOf State.holdRecord; rw [x4, x3]
    rw [this]
    exact x6.stageAll _
  have y7 : y.budget = x.budget := by rw [← hy]; exact State.cancelHolds_budget x b
  have y8 : y.sup b = { uvCount := 0, ovCount := 0, sticky := f, quiet := 0, release := (w.static b).autoRelease } := by
    rw [← hy]
    refine (State.sup_setSup_same _ _ _).trans ?_
    show ({ uvCount := 0, ovCount := 0, sticky := f, quiet := 0, release := ((x.cancelHolds b).static b).autoRelease } : Supervision) = _
    rw [State.static_cancelHolds]; unfold State.static; rw [x2]
  have y9 : y.chan b = Channels.blank := by rw [← hy]; exact State.chan_setChan_same _ _ _
  have y10 : y.phase = w.phase := by rw [← hy, ← x10]; exact State.cancelHolds_phase x b
  clear hy
  generalize hz : (((y.finalise b .tripped).tripRecord b 0 (w.berth b).state f).queueRsp b) = z
  have z1 : z.berth b = ({ (w.berth b).entered .lockout with level := 0, residency := 0, idle := 0, syncCount := 0 } : Berth).finalised .tripped := by
    rw [← hz]
    refine (State.berth_finalise_same y b .tripped).trans ?_
    rw [y1]
  have z2 : z.sup b = y.sup b := by rw [← hz]; exact State.sup_finalise y b .tripped b
  have z3 : z.chan b = y.chan b := by rw [← hz]; exact State.chan_finalise y b .tripped b
  have z4 : z.holds = y.holds := by rw [← hz]; exact State.finalise_holds y b .tripped
  have z5 : z.owq = placeWrite y.owq (w.rspEntry b (({ (w.berth b).entered .lockout with level := 0, residency := 0, idle := 0, syncCount := 0 } : Berth).finalised .tripped)) := by
    rw [← hz]
    have := State.finalise_queueRsp_owq y b .tripped
    rw [y1, rspEntry_congr y2] at this
    exact this
  have z6 : z.budget = y.budget := by rw [← hz]; exact State.finalise_budget y b .tripped
  have z7 : (w.log.stageAll (((w.holdsOf b).map fun h => w.holdRecord .holdCancelled h) ++ w.finalRecords b .tripped ++ [w.tripRecordOf b 0 (w.berth b).state f])).Alike z.log := by
    have e1 : z.log = (y.log.stageAll (y.finalRecords b .tripped)).stage (w.tripRecordOf b 0 (w.berth b).state f) := by
      rw [← hz, ← State.finalise_log]
      show (y.finalise b .tripped).log.stage _ = _
      have : (State.finalise y b .tripped).scan = w.scan := (State.finalise_scan y b .tripped).trans y3
      unfold State.tripRecordOf
      rw [← this]
    have e2 : y.finalRecords b .tripped = w.finalRecords b .tripped := by
      unfold State.finalRecords State.finalRecord
      rw [y1, y3]; rfl
    rw [e1, e2, Log.stageAll_append, Log.stageAll_append]
    exact (y6.stageAll _).stage _
  have z8 : z.phase = w.phase := by rw [← hz, ← y10]; exact State.finalise_phase y b .tripped
  have z9 : z.tables = w.tables := by rw [← hz, ← y2]; exact State.finalise_tables y b .tripped
  have zs : z.scan = w.scan := by rw [← hz, ← y3]; exact State.finalise_scan y b .tripped
  clear hz
  have zn : z.noClaim b := by unfold State.noClaim; rw [z6, y7]; exact x7
  refine ⟨z1, z2.trans y8, z3.trans y9, by rw [z4]; exact y4, ?_, ?_, by rw [List.append_nil]; exact z7, zn, by rw [z6, y7]; exact x8, by rw [z6, y7]; exact x9, z8, z9, zs⟩
  · rw [z5, y5, x5, placeAll_append]; rfl
  · rw [z5, y5, x5]
    exact trip_mem_placeWrite (trip_mem_placeAll (mem_placeTrip_self _ _) rfl) rfl

/-- The trip action at the end of its event (R73 to R76). -/
theorem tripAction_tripped (hp : w.phase = .running) : w.tripped (w.tripAction b f).endEvent b f :=
    (preTrip w b f).lockedOut hp

end Trip

section Live

variable {w : State} {b : BerthId} {r : ScanResult} {f : FaultSet}

/-- Supervision outside LOCKOUT (R67 to R72). -/
theorem superviseLive_eq (hst : (w.berth b).state ≠ .adopting) (h : w.meets b r f) :
    w.superviseLive b r = if f.isEmpty then w.setSup b (w.supervisedOnly b r) else (w.setSup b (w.supervisedOnly b r)).tripAction b f := by
  obtain ⟨h1, h2, h3, h4, h5, h6⟩ := h
  unfold State.superviseLive
  dsimp only
  have hu : countRun ((w.berth b).state.voltageWatched && decide (r.shore = .closed) && w.underVoltage b r.vShore) (w.sup b).uvCount
      = (w.supervisedOnly b r).uvCount := by
    unfold countRun State.supervisedOnly State.underVoltage
    dsimp only
    simp only [Bool.and_eq_true, decide_eq_true_eq, and_assoc]
  have ho : countRun ((w.berth b).state.voltageWatched && decide (r.shore = .closed) && w.overVoltage b r.vShore) (w.sup b).ovCount
      = (w.supervisedOnly b r).ovCount := by
    unfold countRun State.supervisedOnly State.overVoltage
    dsimp only
    simp only [Bool.and_eq_true, decide_eq_true_eq, and_assoc]
  rw [hu, ho]
  have hf : ({ conditionFlags (w.berth b).state r with
      uv := decide (0 < (w.supervisedOnly b r).uvCount) && decide ((w.static b).uvOvPersistence ≤ (w.supervisedOnly b r).uvCount)
      ov := decide (0 < (w.supervisedOnly b r).ovCount) && decide ((w.static b).uvOvPersistence ≤ (w.supervisedOnly b r).ovCount) } : FaultSet) = f := by
    cases f
    simp only at h1 h2 h3 h4 h5 h6
    unfold conditionFlags
    simp only [FaultSet.mk.injEq]
    refine ⟨?_, ?_, ?_, ?_, ?_, h6.symm⟩
    · rw [Bool.eq_iff_iff, h1]
      unfold State.supervisedOnly
      dsimp only
      simp only [Bool.and_eq_true, decide_eq_true_eq]
      split <;> rename_i hh
      · simp [hh]
      · simp; intro a b c; exact absurd ⟨a, b, c⟩ hh
    · rw [Bool.eq_iff_iff, h2]
      unfold State.supervisedOnly
      dsimp only
      simp only [Bool.and_eq_true, decide_eq_true_eq]
      split <;> rename_i hh
      · simp [hh]
      · simp; intro a b c; exact absurd ⟨a, b, c⟩ hh
    · rw [Bool.eq_iff_iff, h3]
      simp [hst, and_assoc]
    · rw [Bool.eq_iff_iff, h4]
      simp [hst]
    · rw [Bool.eq_iff_iff, h5]
      unfold ScanResult.anyFault
      simp [hst, or_assoc]
  rw [hf]
  rfl

end Live

end Sys2Proof.Machine
end

