-- ==== Sys2Proof/Laws/Adoption.lean ====
section
/-! SUPPORT. What adoption leaves, row by row (R61, R166, R167). -/

namespace Sys2Proof.Machine

section Rows

variable {w u : State} {b : BerthId} {r : ScanResult} {f : FaultSet}

/-- Two states alike in what a trip of the berth looks at. -/
structure AlikeAt (v w : State) (b : BerthId) : Prop where
  berth : w.berth b = v.berth b
  chan : w.chan b = v.chan b
  tables : w.tables = v.tables
  scan : w.scan = v.scan
  holds : w.holds = v.holds
  owq : w.owq = v.owq
  log : v.log.Alike w.log
  claims : w.budget.claims = v.budget.claims
  phase : w.phase = v.phase

theorem lockedOut_congr {v w t : State} {g q rs} (h : AlikeAt v w b) (hl : w.lockedOut t b f g q rs) :
    v.lockedOut t b f g q rs := by
  obtain ⟨a1, a2, a3, a4, a5, a6, a7, a8, a9, a10⟩ := hl
  have ht : w.tripEntry b = v.tripEntry b := by unfold State.tripEntry; rw [h.tables]
  refine ⟨by rw [← h.berth]; exact a1, ?_, a3, a4, a5, a6, by rw [← ht]; exact a7, fun ho => ?_, ?_, a10⟩
  · have : w.static b = v.static b := by unfold State.static; rw [h.tables]
    rw [← this]; exact a2
  · obtain ⟨b1, more, b2, b3⟩ := a8 (by unfold State.noOtherClaim; rw [h.claims]; exact ho)
    refine ⟨?_, more, b2, ?_⟩
    · rw [b1, ht, h.owq, seqEntries_congr h.tables, rspEntry_congr h.tables]
      unfold State.levelEntry; rw [h.tables]
    · rw [b3]
      have e1 : (w.holdsOf b).map (fun h => w.holdRecord .holdCancelled h) = (v.holdsOf b).map fun h => v.holdRecord .holdCancelled h := by
        unfold State.holdsOf State.holdRecord; rw [h.holds, h.scan]
      have e2 : w.finalRecords b .tripped = v.finalRecords b .tripped := finalRecords_congr h.berth h.scan _
      have e3 : w.tripRecordOf b 0 (w.berth b).state f = v.tripRecordOf b 0 (v.berth b).state f := by
        unfold State.tripRecordOf; rw [h.berth, h.scan]
      rw [e1, e2, e3]
      congr 1
      exact (h.log.stageAll _).staging
  · rw [a9]; unfold State.configured; rw [h.tables]

theorem meets_congr {v w : State} (h : AlikeAt v w b) (hs : w.sup b = v.sup b) (hm : v.meets b r f) : w.meets b r f := by
  unfold State.meets State.threshold State.static at *
  rw [h.berth, hs, h.tables]; exact hm

theorem supervisedOnly_congr {v w : State} (h : AlikeAt v w b) (hs : w.sup b = v.sup b) :
    w.supervisedOnly b r = v.supervisedOnly b r := by
  unfold State.supervisedOnly State.threshold State.static
  rw [h.berth, hs, h.tables]

/-- Once the adopted state stands, its supervision ends the event. -/
theorem adoptsAs_of {x c ws} {w : State} (hp : w.phase = .running) (ha : x.state ≠ .adopting) (hlo : x.state ≠ .lockout)
    (hn : w.noClaim b)
    (h : AlikeAt (u.adopted b x.state x c ws) w b) (hu : w.sup b = u.sup b) : u.adoptsAs (w.supervise b r).endEvent b r x c ws := by
  rintro v f rfl hm
  have hb : (u.adopted b x.state x c ws).berth b = x := Eight.get_set_same _ _ _
  have hs : w.supervise b r = w.superviseLive b r := by
    unfold State.supervise
    rw [h.berth, hb, if_neg hlo]
  rw [hs, superviseLive_eq (by rw [h.berth, hb]; exact ha) (meets_congr h hu hm)]
  refine ⟨fun hf => ?_, fun hf => ?_⟩
  · rw [if_pos hf]
    have hn' : (w.setSup b (w.supervisedOnly b r)).noClaim b := hn
    have hap := Apart.endEvent hn'
    refine ⟨State.leaves_endEvent hn' (by show ∀ z ∈ w.budget.claims, _; rw [h.claims]; exact fun _ z => z) (h.berth.trans hb) ?_ h.holds h.owq h.log, ?_⟩
    · exact h.chan.trans (Eight.get_set_same _ _ _)
    · rw [hap.sup, State.sup_setSup_same, supervisedOnly_congr h hu]
  · rw [if_neg (by simp [hf])]
    refine lockedOut_congr (w := w.setSup b (w.supervisedOnly b r)) (b := b) ?_ ?_
    · exact ⟨h.berth, h.chan, h.tables, h.scan, h.holds, h.owq, h.log, h.claims, h.phase⟩
    · exact tripAction_tripped (w := w.setSup b (w.supervisedOnly b r)) hp

/-- What every adopted row shares: the record, the channels and the commands stand, and the report follows. -/
theorem adopted_report {x : Berth} {c ws} {y : State} (hb : y.berth b = x) (hc : y.chan b = c) (ht : y.tables = u.tables)
    (hs : y.scan = u.scan) (hh : y.holds = u.holds)
    (hq : y.owq = placeAll u.owq (u.seqEntries b ws)) (hl : u.log.Alike y.log) (hk : y.budget.claims = u.budget.claims) (hp : y.phase = u.phase) :
    AlikeAt (u.adopted b x.state x c ws) (y.reportAdopted b x.state) b where
  berth := hb.trans (Eight.get_set_same _ _ _).symm
  chan := hc.trans (Eight.get_set_same _ _ _).symm
  tables := ht
  scan := hs
  holds := hh
  owq := by
    show placeWrite y.owq (y.rspEntry b (y.berth b)) = placeAll u.owq (u.seqEntries b ws ++ [u.rspEntry b x])
    rw [hq, hb, rspEntry_congr ht, placeAll_append]; rfl
  log := by
    show (u.log.stage _).Alike (y.log.stage { type := .adopted, berth := some b, qualifier := 0, detailA := stateModeDetail x.state (y.berth b).mode, detailB := 0, stamp := y.scan.passNumber })
    rw [hb, hs]
    exact hl.stage _
  claims := hk
  phase := hp

theorem takeBase_berth (y : State) (b) :
    (y.takeBase b).berth b = { y.berth b with baseGrant := (y.static b).baseCredits } := State.berth_setBerth_same _ _ _

/-- The rows that take the base grant. -/
theorem adopted_taken {x : Berth} {c ws} {y : State} (hb : { y.berth b with baseGrant := (u.static b).baseCredits } = x)
    (hc : y.chan b = c) (ht : y.tables = u.tables) (hs : y.scan = u.scan) (hh : y.holds = u.holds)
    (hq : y.owq = placeAll u.owq (u.seqEntries b ws)) (hl : u.log.Alike y.log) (hk : y.budget.claims = u.budget.claims) (hp : y.phase = u.phase) (hu : y.sup b = u.sup b) (hn : u.noClaim b) (hrun : u.phase = .running)
    (ha : x.state ≠ .adopting) (hlo : x.state ≠ .lockout) :
    u.adoptsAs (((y.takeBase b).reportAdopted b x.state).supervise b r).endEvent b r x c ws := by
  refine adoptsAs_of (w := (y.takeBase b).reportAdopted b x.state) (hp.trans hrun) ha hlo (by show ∀ c ∈ y.budget.claims, _; rw [hk]; exact hn) (adopted_report ?_ hc ht hs hh hq (hl.trans (State.takeBase_log y b)) hk hp) hu
  rw [takeBase_berth, ← hb]
  have : y.static b = u.static b := by unfold State.static; rw [ht]
  rw [this]

def withDefault (u : State) (b : BerthId) : State := u.setBerth b { u.berth b with mode := (u.static b).defaultMode }

theorem adopt_eq (u : State) (b r) : u.adopt b r =
  if !(adoptionFlags r).isEmpty then ((withDefault u b).reportAdopted b .lockout).tripAction b (adoptionFlags r)
  else if !r.pilot then ((withDefault u b).enter b .vacant).reportAdopted b .vacant
  else if r.shore ≠ .closed then (withDefault u b).adoptCabled b r
  else if r.shipcon ≠ .closed then (((withDefault u b).enter b .energized).takeBase b).reportAdopted b .energized
  else if r.gens = .open then (((withDefault u b).toShore b).takeBase b).reportAdopted b .shore
  else ((((withDefault u b).enter b .parallel).loadStep b .overlap).takeBase b).reportAdopted b .parallel := rfl

theorem withDefault_berth : (withDefault u b).berth b = { u.berth b with mode := (u.static b).defaultMode } := State.berth_setBerth_same _ _ _

theorem adoptionFlags_none (h1 : r.shore ≠ .fault) (h2 : r.shipcon ≠ .fault) (h3 : r.gens ≠ .fault) (h4 : ¬ (r.pilot = false
    ∧ r.shore = .closed)) : (adoptionFlags r).isEmpty = true := by
  unfold adoptionFlags ScanResult.anyFault FaultSet.isEmpty
  cases hp : r.pilot <;> simp [h1, h2, h3, FaultSet.empty]
  intro h; exact h4 ⟨hp, h⟩

/-- Rows 2 to 6 of R166. -/
def State.rowsFollowed (u t : State) (b : BerthId) (r : ScanResult) : Prop :=
    (r.pilot = false → r.shore ≠ .closed → u.adoptsAs t b r (u.adoptedBerth b .vacant (u.berth b).baseGrant) (u.chan b) [])
    ∧ (r.pilot = true → r.shore ≠ .closed →
        u.adoptsAs t b r (u.adoptedBerth b .cabled (u.berth b).baseGrant) (u.chan b)
          ((if r.shipcon = .closed then [(.shipconBkr, cmdOpen)] else []) ++ if r.shore = .moving then [(.shoreBkr,
              cmdOpen)] else []))
    ∧ (r.pilot = true → r.shore = .closed →
       (r.shipcon ≠ .closed → u.adoptsAs t b r (u.adoptedBerth b .energized (u.static b).baseCredits) (u.chan b) [])
       ∧ (r.shipcon = .closed → r.gens = .open →
          u.adoptsAs t b r (u.adoptedBerth b .shore (u.static b).baseCredits).levelZero { u.chan b with step := Channel.idle }
            (u.chargeZero :: autoOnly (u.static b).defaultMode [(.genRelease, genRelease)]))
       ∧ (r.shipcon = .closed → r.gens ≠ .open →
          u.adoptsAs t b r (u.adoptedBerth b .parallel (u.static b).baseCredits) { u.chan b with step := u.overlapLoaded b } []))

theorem cabled_fields (u : State) (b r) : ∃ y : State, (withDefault u b).adoptCabled b r = y.reportAdopted b .cabled
    ∧ y.berth b = u.adoptedBerth b .cabled (u.berth b).baseGrant
   ∧ y.chan b = u.chan b ∧ y.tables = u.tables ∧ y.scan = u.scan ∧ y.holds = u.holds
   ∧ y.owq = placeAll u.owq (u.seqEntries b ((if r.shipcon = .closed then [(.shipconBkr,
       cmdOpen)] else []) ++ if r.shore = .moving then [(.shoreBkr, cmdOpen)] else []))
   ∧ y.log = u.log ∧ y.budget.claims = u.budget.claims ∧ y.phase = u.phase ∧ y.sup b = u.sup b := by
  have h0 : ((withDefault u b).enter b .cabled).berth b = u.adoptedBerth b .cabled (u.berth b).baseGrant := by rw [berth_enter, withDefault_berth]; rfl
  refine ⟨_, rfl, ?_⟩
  generalize hz : (withDefault u b).enter b .cabled = z at *
  have z2 : z.chan b = u.chan b := by rw [← hz]; rfl
  have z3 : z.tables = u.tables := by rw [← hz]; rfl
  have z4 : z.scan = u.scan := by rw [← hz]; rfl
  have z5 : z.holds = u.holds := by rw [← hz]; rfl
  have z6 : z.owq = u.owq := by rw [← hz]; rfl
  have z7 : z.log = u.log := by rw [← hz]; rfl
  have z8 : z.budget.claims = u.budget.claims := by rw [← hz]; rfl
  have z9 : z.phase = u.phase := by rw [← hz]; rfl
  have z10 : z.sup b = u.sup b := by rw [← hz]; rfl
  rw [← seqEntries_congr z3, ← z6]
  by_cases h1 : r.shipcon = .closed <;> by_cases h2 : r.shore = .moving <;>
    simp only [h1, h2, if_true, if_false]
  all_goals exact ⟨h0, z2, z3, z4, z5, rfl, z7, z8, z9, z10⟩

theorem toShore_rest (x : State) (b) : (x.toShore b).phase = x.phase ∧ (x.toShore b).sup b = x.sup b := by
  have h1 : (((x.enter b .shore).stopStep b).changeLevel b 0).phase = x.phase := State.changeLevel_phase _ _ _
  have h2 : (((x.enter b .shore).stopStep b).changeLevel b 0).sup b = x.sup b := State.sup_changeLevel _ _ _ _
  unfold State.toShore State.shoreLevelZero
  generalize ((x.enter b .shore).stopStep b).changeLevel b 0 = y at *
  dsimp only
  split
  · exact ⟨h1, h2⟩
  · exact ⟨h1, h2⟩

/-- Adoption by rows 2 to 6 (R166). -/
theorem adopt_rows (hp : u.phase = .running) (hn : u.noClaim b) (h1 : r.shore ≠ .fault) (h2 : r.shipcon ≠ .fault)
    (h3 : r.gens ≠ .fault) :
    u.rowsFollowed ((u.adopt b r).supervise b r).endEvent b r := by
  refine ⟨fun hpi hs => ?_, fun hpi hs => ?_, fun hpi hs => ⟨fun hk => ?_, fun hk hg => ?_, fun hk hg => ?_⟩⟩
  · have e : u.adopt b r = ((withDefault u b).enter b .vacant).reportAdopted b .vacant := by
      rw [adopt_eq, adoptionFlags_none h1 h2 h3 (fun h => hs h.2), hpi]; rfl
    rw [e]
    refine adoptsAs_of hp (by simp [State.adoptedBerth]) (by simp [State.adoptedBerth]) hn (adopted_report (x := u.adoptedBerth b .vacant (u.berth b).baseGrant) (ws := []) ?_ rfl rfl rfl rfl rfl (Log.Alike.refl _) rfl rfl) rfl
    rw [berth_enter, withDefault_berth]; rfl
  · have e : u.adopt b r = (withDefault u b).adoptCabled b r := by
      rw [adopt_eq, adoptionFlags_none h1 h2 h3 (fun h => hs h.2), hpi]; simp [hs]
    rw [e]
    obtain ⟨y, e2, y1, y2, y3, y4, y5, y6, y7, y8, y9, y10⟩ := cabled_fields u b r
    rw [e2]
    exact adoptsAs_of (y9.trans hp) (by simp [State.adoptedBerth]) (by simp [State.adoptedBerth]) (by show ∀ c ∈ y.budget.claims, _; rw [y8]; exact hn)
      (adopted_report (x := u.adoptedBerth b .cabled (u.berth b).baseGrant) (ws := ((if r.shipcon = .closed then [(.shipconBkr, cmdOpen)] else []) ++ if r.shore = .moving then [(.shoreBkr, cmdOpen)] else [])) y1 y2 y3 y4 y5 y6 (by rw [y7]; exact Log.Alike.refl _) y8 y9) y10
  · have e : u.adopt b r = (((withDefault u b).enter b .energized).takeBase b).reportAdopted b .energized := by
      rw [adopt_eq, adoptionFlags_none h1 h2 h3 (fun h => by rw [h.1] at hpi; cases hpi), hpi]; simp [hs, hk]
    rw [e]
    refine adopted_taken (x := u.adoptedBerth b .energized (u.static b).baseCredits) (ws := []) ?_ rfl rfl rfl rfl rfl (Log.Alike.refl _) rfl rfl rfl hn hp (by simp [State.adoptedBerth]) (by simp [State.adoptedBerth])
    rw [berth_enter, withDefault_berth]; rfl
  · have e : u.adopt b r = (((withDefault u b).toShore b).takeBase b).reportAdopted b .shore := by
      rw [adopt_eq, adoptionFlags_none h1 h2 h3 (fun h => by rw [h.1] at hpi; cases hpi), hpi]; simp [hs, hk, hg]
    rw [e]
    obtain ⟨a1, a2, a3, a4, a5, a6, a7, a8⟩ := toShore_fields (withDefault u b) b
    obtain ⟨a9, a10⟩ := toShore_rest (withDefault u b) b
    rw [withDefault_berth] at a1 a6
    generalize (withDefault u b).toShore b = y at *
    generalize hz : withDefault u b = z at *
    have z2 : z.chan b = u.chan b := by rw [← hz]; rfl
    have z3 : z.tables = u.tables := by rw [← hz]; rfl
    have z4 : z.scan = u.scan := by rw [← hz]; rfl
    have z5 : z.holds = u.holds := by rw [← hz]; rfl
    have z6 : z.owq = u.owq := by rw [← hz]; rfl
    have z7 : z.log = u.log := by rw [← hz]; rfl
    have z8 : z.budget.claims = u.budget.claims := by rw [← hz]; rfl
    have z9 : z.phase = u.phase := by rw [← hz]; rfl
    have z10 : z.sup b = u.sup b := by rw [← hz]; rfl
    rw [seqEntries_congr z3, chargeZero_congr z3, z6] at a6
    rw [z2] at a2
    rw [z7] at a7
    refine adopted_taken (x := (u.adoptedBerth b .shore (u.static b).baseCredits).levelZero) ?_ a2 (a3.trans z3) (a4.trans z4) (a5.trans z5) a6 a7 (a8.trans z8) (a9.trans z9) (a10.trans z10) hn hp
      (by simp [State.adoptedBerth, Berth.levelZero]) (by simp [State.adoptedBerth, Berth.levelZero])
    rw [a1]; rfl
  · have e : u.adopt b r = ((((withDefault u b).enter b .parallel).loadStep b .overlap).takeBase b).reportAdopted b .parallel := by
      rw [adopt_eq, adoptionFlags_none h1 h2 h3 (fun h => by rw [h.1] at hpi; cases hpi), hpi]; simp [hs, hk, hg]
    rw [e]
    refine adopted_taken (x := u.adoptedBerth b .parallel (u.static b).baseCredits) (ws := []) ?_ (State.chan_setChan_same _ _ _) rfl rfl rfl rfl (Log.Alike.refl _) rfl rfl rfl hn hp (by simp [State.adoptedBerth]) (by simp [State.adoptedBerth])
    rw [show (((withDefault u b).enter b .parallel).loadStep b .overlap).berth b = _ from berth_enter _,
        withDefault_berth]; rfl

end Rows

section Trips

variable {w u : State} {b : BerthId} {r : ScanResult} {f : FaultSet}

theorem alike_adoptedLockout (u : State) (b) :
    AlikeAt (u.adopted b .lockout { u.berth b with mode := (u.static b).defaultMode } (u.chan b) []) ((withDefault u b).reportAdopted b .lockout) b where
  berth := withDefault_berth.trans (Eight.get_set_same _ _ _).symm
  chan := (Eight.get_set_same u.chans b (u.chan b)).symm
  tables := rfl
  scan := rfl
  holds := rfl
  owq := by
    show placeWrite u.owq ((withDefault u b).rspEntry b ((withDefault u b).berth b)) = _
    rw [withDefault_berth]; rfl
  log := by
    show (u.log.stage _).Alike (u.log.stage { type := .adopted, berth := some b, qualifier := 0, detailA := stateModeDetail .lockout ((withDefault u b).berth b).mode, detailB := 0, stamp := u.scan.passNumber })
    rw [withDefault_berth]
    exact Log.Alike.refl _
  claims := rfl
  phase := rfl

/-- Adoption that trips: row 1 and a fault of the adopted state (R61, R166). -/
theorem adopt_trips (hp : u.phase = .running) (hg : (u.berth b).baseGrant = 0) (hq : 0 < (u.static b).quietRequired)
    (hf : f = adoptionFlags r) (hne : f.isEmpty = false) :
    u.adoptionTrips ((u.adopt b r).supervise b r).endEvent b r f := by
  rintro v rfl
  have e : u.adopt b r = ((withDefault u b).reportAdopted b .lockout).tripAction b f := by
    rw [adopt_eq, ← hf, hne]; rfl
  rw [e]
  generalize hy : (withDefault u b).reportAdopted b .lockout = y
  have ya : AlikeAt (u.adopted b .lockout { u.berth b with mode := (u.static b).defaultMode } (u.chan b) []) y b := by rw [← hy]; exact alike_adoptedLockout u b
  have yp : y.phase = .running := by rw [← hy]; exact hp
  have yg : (y.berth b).baseGrant = 0 := by
    rw [← hy, show ((withDefault u b).reportAdopted b .lockout).berth b = _ from withDefault_berth]; exact hg
  have ys : y.static b = u.static b := by rw [← hy]; rfl
  clear hy e
  have hz := preTrip y b f
  generalize y.tripAction b f = z at *
  have zst : (z.berth b).state = .lockout := by rw [hz.berth]; exact trippedBerth_state y b
  have zg : (z.berth b).baseGrant = 0 := by
    rw [hz.berth]; unfold trippedBerth
    rw [(Berth.finalised_fields _ _).2]; exact yg
  have hret : (if r.shore = .open then z.returnBase b else z) = z := by
    split
    · unfold State.returnBase; rw [if_pos zg]
    · rfl
  have e1 : z.supervise b r = ((z.repeatFault b r.lockoutFlags).countQuiet b r).tryRecover b := by
    unfold State.supervise
    rw [if_pos zst]
    unfold State.superviseLockout
    dsimp only
    rw [hret, lockoutFlags_eq]
  have hcl : r.clean = false := by
    cases hc : r.clean
    · rfl
    · have := clean_iff.mp hc
      obtain ⟨a, b', c, d⟩ := this
      rw [hf] at hne
      unfold adoptionFlags ScanResult.anyFault FaultSet.isEmpty at hne
      simp [a, b', c, FaultSet.empty] at hne
  have hst : z.static b = u.static b := by unfold State.static at *; rw [hz.tables, ys]
  have norec : ∀ x : State, x.tables = z.tables → (x.sup b).quiet = 0 → x.tryRecover b = x := by
    intro x x1 x2
    unfold State.tryRecover State.mayRecover
    rw [x2]
    have : ¬ (x.static b).quietRequired ≤ 0 := by
      have : x.static b = u.static b := by rw [← hst]; unfold State.static; rw [x1]
      rw [this]; omega
    simp [this]
  refine ⟨fun he => ?_, fun h1 h2 => ?_⟩
  · have hfl : r.lockoutFlags = f := by
      rw [hf]
      unfold ScanResult.lockoutFlags adoptionFlags ScanResult.anyFault
      simp only [FaultSet.mk.injEq]
      refine ⟨trivial, trivial, ?_, ?_, ?_, trivial⟩
      · simpa [FaultSet.empty] using he
      · cases r.pilot <;> simp
      · simp [Bool.or_assoc]
    have e2 : (z.repeatFault b r.lockoutFlags).countQuiet b r = z := by
      have hm : (f.minus f).isEmpty = true := by unfold FaultSet.minus FaultSet.isEmpty; simp
      unfold State.repeatFault
      dsimp only
      rw [hfl, hz.sup, hne]
      dsimp only
      rw [hm]
      simp only [Bool.false_eq_true, if_false, if_true]
      unfold State.countQuiet
      rw [hcl, State.sup_setSup_same]
      have : z.sups.set b { uvCount := 0, ovCount := 0, sticky := f, quiet := 0, release := (y.static b).autoRelease } = z.sups := by
        rw [← hz.sup]; exact Eight.set_get_self _ _
      unfold State.setSup
      simp only [Eight.set_set, Bool.false_eq_true, if_false]
      rw [this]
    rw [e1, e2, norec z rfl (by rw [hz.sup])]
    exact lockedOut_congr ya (hz.lockedOut yp)
  · have hfl : r.lockoutFlags = { f with earth := true } ∧ f.earth = false := by
      rw [hf]
      unfold ScanResult.lockoutFlags adoptionFlags ScanResult.anyFault
      simp [h1, h2, FaultSet.empty, Bool.or_assoc]
    have hmin : ({ f with earth := true } : FaultSet).minus f = { FaultSet.empty with earth := true } := by
      unfold FaultSet.minus FaultSet.empty
      simp [hfl.2]
    have hun : f.union { FaultSet.empty with earth := true } = { f with earth := true } := by
      unfold FaultSet.union FaultSet.empty
      simp
    have e2 : (z.repeatFault b r.lockoutFlags).countQuiet b r =
       (((z.setSup b { uvCount := 0, ovCount := 0, sticky := { f with earth := true }, quiet := 0, release := (u.static b).autoRelease }).tripWrite b).tripRecord b 1 .lockout { FaultSet.empty with earth := true }).setSup b
         { uvCount := 0, ovCount := 0, sticky := { f with earth := true }, quiet := 0, release := (u.static b).autoRelease } := by
      have hm : ({ f with earth := true } : FaultSet).isEmpty = false := by unfold FaultSet.isEmpty; simp
      have hm2 : ({ FaultSet.empty with earth := true } : FaultSet).isEmpty = false := rfl
      unfold State.repeatFault
      dsimp only
      rw [hfl.1, hz.sup, hm]
      dsimp only
      rw [hmin, hm2, hun, hst]
      simp only [Bool.false_eq_true, if_false]
      unfold State.countQuiet
      rw [hcl]
      have : ∀ x k g, ((((z.setSup b x).tripWrite b).tripRecord b k .lockout g).sup b) = x := fun x k g => State.sup_setSup_same _ _ _
      rw [this]; simp
    have e6 := norec ((z.repeatFault b r.lockoutFlags).countQuiet b r) (by rw [e2]; rfl) (by rw [e2, State.sup_setSup_same])
    rw [e1, e6, e2]
    refine lockedOut_congr ya ?_
    have e3 : (fun q => placeTrip q ((u.adopted b .lockout { u.berth b with mode := (u.static b).defaultMode } (u.chan b) []).tripEntry b)) = fun q => placeTrip q (y.tripEntry b) := by
      unfold State.tripEntry; rw [ya.tables]
    have e4 : (u.adopted b .lockout { u.berth b with mode := (u.static b).defaultMode } (u.chan b) []).tripRecordOf b 1 .lockout { FaultSet.empty with earth := true } = z.tripRecordOf b 1 .lockout { FaultSet.empty with earth := true } := by
      unfold State.tripRecordOf; rw [hz.scan, ya.scan]
    rw [e3, e4]
    have e5 : y.tripEntry b = z.tripEntry b := by unfold State.tripEntry; rw [hz.tables]
    refine PreTrip.lockedOut yp ⟨hz.berth, ?_, hz.chan, hz.holds, ?_, ?_, ?_, hz.noClaim, hz.sub, hz.stack, hz.phase,
        hz.tables, hz.scan⟩
    · rw [State.sup_setSup_same, ys]
    · show placeTrip z.owq (z.tripEntry b) = _
      rw [hz.owq, e5]; rfl
    · show _ ∈ placeTrip z.owq (z.tripEntry b)
      rw [e5]; exact mem_placeTrip_self _ _
    · rw [Log.stageAll_append]
      have := hz.log
      rw [List.append_nil] at this
      exact this.stage _

end Trips

end Sys2Proof.Machine
end

