-- ==== Sys2Proof/Laws/Exec.lean ====
section
/-! SUPPORT. What each command answers: the next state, as the one operation that makes it. -/

namespace Sys2Proof.Machine

@[simp] theorem exec_resetAssert (landed : Bool) (s : State) :
    exec (.resetAssert landed) s = .next (s.assertReset landed) := rfl
@[simp] theorem exec_resetRelease (s : State) : exec .resetRelease s = .next (s.releaseReset) := rfl
@[simp] theorem exec_imageWordRead (word : Word) (s : State) :
    exec (.imageWordRead word) s = .next (s.imageWord word) := rfl
@[simp] theorem exec_startupReqRead (w : Option Word) (s : State) : exec (.startupReqRead w) s = .next s.startReadDone := rfl
@[simp] theorem exec_reqConnect (b : BerthId) (q : ReqBits) (s : State) :
    exec (.reqConnect b q) s = .next (s.writesReq b ReqCode.connect.code q) := rfl
@[simp] theorem exec_reqTransfer (b : BerthId) (q : ReqBits) (s : State) :
    exec (.reqTransfer b q) s = .next (s.writesReq b ReqCode.transfer.code q) := rfl
@[simp] theorem exec_reqReturn (b : BerthId) (q : ReqBits) (s : State) :
    exec (.reqReturn b q) s = .next (s.writesReq b ReqCode.return.code q) := rfl
@[simp] theorem exec_reqDisconnect (b : BerthId) (q : ReqBits) (s : State) :
    exec (.reqDisconnect b q) s = .next (s.writesReq b ReqCode.disconnect.code q) := rfl
@[simp] theorem exec_reqSetLevel (b : BerthId) (q : ReqBits) (s : State) :
    exec (.reqSetLevel b q) s = .next (s.writesReq b ReqCode.setLevel.code q) := rfl
@[simp] theorem exec_reqSetMode (b : BerthId) (q : ReqBits) (s : State) :
    exec (.reqSetMode b q) s = .next (s.writesReq b ReqCode.setMode.code q) := rfl
@[simp] theorem exec_reqRelease (b : BerthId) (q : ReqBits) (s : State) :
    exec (.reqRelease b q) s = .next (s.writesReq b ReqCode.release.code q) := rfl
@[simp] theorem exec_reqAbort (b : BerthId) (q : ReqBits) (s : State) :
    exec (.reqAbort b q) s = .next (s.writesReq b ReqCode.abort.code q) := rfl
@[simp] theorem exec_reqNone (b : BerthId) (q : ReqBits) (s : State) :
    exec (.reqNone b q) s = .next (s.writesReq b ReqCode.none.code q) := rfl
@[simp] theorem exec_reqInvalidCode (b : BerthId) (code : BitVec 4) (q : ReqBits) (s : State) :
    exec (.reqInvalidCode b code q) s = .next (s.writesReq b code q) := rfl
@[simp] theorem exec_groupConnect (g : GroupId) (q : ReqBits) (s : State) :
    exec (.groupConnect g q) s = .next (s.writesGroup g ReqCode.connect.code q) := rfl
@[simp] theorem exec_groupTransfer (g : GroupId) (q : ReqBits) (s : State) :
    exec (.groupTransfer g q) s = .next (s.writesGroup g ReqCode.transfer.code q) := rfl
@[simp] theorem exec_groupReturn (g : GroupId) (q : ReqBits) (s : State) :
    exec (.groupReturn g q) s = .next (s.writesGroup g ReqCode.return.code q) := rfl
@[simp] theorem exec_groupDisconnect (g : GroupId) (q : ReqBits) (s : State) :
    exec (.groupDisconnect g q) s = .next (s.writesGroup g ReqCode.disconnect.code q) := rfl
@[simp] theorem exec_groupSetLevel (g : GroupId) (q : ReqBits) (s : State) :
    exec (.groupSetLevel g q) s = .next (s.writesGroup g ReqCode.setLevel.code q) := rfl
@[simp] theorem exec_groupAbort (g : GroupId) (q : ReqBits) (s : State) :
    exec (.groupAbort g q) s = .next (s.writesGroup g ReqCode.abort.code q) := rfl
@[simp] theorem exec_groupInvalid (g : GroupId) (code : BitVec 4) (q : ReqBits) (s : State) :
    exec (.groupInvalid g code q) s = .next (s.writesGroup g code q) := rfl
@[simp] theorem exec_shoreBkrClose (b : BerthId) (s : State) :
    exec (.shoreBkrClose b) s = .next (s.writesCommand b .shoreBkr cmdClose) := rfl
@[simp] theorem exec_shipconBkrClose (b : BerthId) (s : State) :
    exec (.shipconBkrClose b) s = .next (s.writesCommand b .shipconBkr cmdClose) := rfl
@[simp] theorem exec_bkrWriteOpen (b : BerthId) (w : BreakerWord) (s : State) :
    exec (.bkrWriteOpen b w) s = .next (s.writesCommand b w.cmd cmdOpen) := rfl
@[simp] theorem exec_bkrWriteNone (b : BerthId) (w : BreakerWord) (s : State) :
    exec (.bkrWriteNone b w) s = .next (s.writesCommand b w.cmd cmdNone) := rfl
@[simp] theorem exec_bkrWriteInvalidValue (b : BerthId) (w : BreakerWord) (value : Word) (s : State) :
    exec (.bkrWriteInvalidValue b w value) s = .next (s.writesCommand b w.cmd value) := rfl
@[simp] theorem exec_genReleaseWrite (b : BerthId) (value : Word) (s : State) :
    exec (.genReleaseWrite b value) s = .next (s.writesCommand b .genRelease value) := rfl
@[simp] theorem exec_consumerWrite (value : Word) (s : State) :
    exec (.consumerWrite value) s = .next (s.hostWrites .consumer (s.tables.logAddress HeaderWord.consumer.offset) value) := rfl
@[simp] theorem exec_hostWrite (address value : Word) (s : State) :
    exec (.hostWrite address value) s = .next (s.hostWrites (s.tables.classify address) address value) := rfl
@[simp] theorem exec_portGrant (read station : Option Word) (readFirst : Bool) (s : State) :
    exec (.portGrant read station readFirst) s = .next (s.portGrant read station readFirst) := rfl
@[simp] theorem exec_ownWriteCarried (s : State) : exec .ownWriteCarried s = .next (s.ownCarried) := rfl
@[simp] theorem exec_hostWriteCarried (s : State) : exec .hostWriteCarried s = .next (s.hostCarried) := rfl
@[simp] theorem exec_baseFTick (s : State) : exec .baseFTick s = .next s.baseFTick := rfl
@[simp] theorem exec_baseSTick (s : State) : exec .baseSTick s = .next s.baseSTick := rfl
@[simp] theorem exec_scanTick (s : State) : exec .scanTick s = .next (s.scanTick) := rfl
@[simp] theorem exec_stepExpiry (b : BerthId) (s : State) : exec (.stepExpiry b) s = .next (s.stepExpiry b) := rfl
@[simp] theorem exec_settleExpiry (b : BerthId) (s : State) :
    exec (.settleExpiry b) s = .next (s.settleExpiry b) := rfl
@[simp] theorem exec_holdExpiry (b : BerthId) (s : State) : exec (.holdExpiry b) s = .next (s.holdExpiry b) := rfl
@[simp] theorem exec_scanReadComplete (station : Option Word) (s : State) :
    exec (.scanReadComplete station) s = .next (s.scanReadDone station) := rfl
@[simp] theorem exec_logWriteComplete (s : State) : exec .logWriteComplete s = .next (s.logCarried) := rfl
@[simp] theorem exec_maintAssert (s : State) : exec .maintAssert s = .next (s.assertMaint) := rfl
@[simp] theorem exec_maintRelease (s : State) : exec .maintRelease s = .next (s.releaseMaint) := rfl

/-! ## Commands named by their code or word -/

/-- A REQ command by its code. -/
@[simp] theorem exec_reqCommand (k : ReqCode) (b : BerthId) (q : ReqBits) (s : State) :
    exec (reqCommand k b q) s = .next (s.writesReq b k.code q) := by
  cases k <;> rfl

/-- A CLOSE by its word. -/
@[simp] theorem exec_closeCommand (w : BreakerWord) (b : BerthId) (s : State) :
    exec (closeCommand w b) s = .next (s.writesCommand b w.cmd cmdClose) := by
  cases w <;> rfl

/-- A group command that fans out, by its code. -/
theorem exec_groupCommands {g : GroupId} {q : ReqBits} {p : ReqCode × Instr} (h : p ∈ groupCommands g q) (s : State) :
    exec p.2 s = .next (s.writesGroup g p.1.code q) ∧ p.1.fansOut = true := by
  simp only [groupCommands, List.mem_cons, List.not_mem_nil, or_false] at h
  rcases h with rfl | rfl | rfl | rfl | rfl | rfl <;> exact ⟨rfl, rfl⟩

/-- Every host write is one of the four ways of writing a word. -/
theorem exec_hostWrite_cases {c : Instr} (h : c.isHostWrite = true) (s : State) :
    (∃ b code q, exec c s = .next (s.writesReq b code q)) ∨ (∃ g code q, exec c s = .next (s.writesGroup g code q))
      ∨ (∃ b w d, exec c s = .next (s.writesCommand b w d)) ∨ ∃ k a d, exec c s = .next (s.hostWrites k a d) := by
  cases c
  case reqConnect => exact .inl ⟨_, _, _, exec_reqConnect _ _ s⟩
  case reqTransfer => exact .inl ⟨_, _, _, exec_reqTransfer _ _ s⟩
  case reqReturn => exact .inl ⟨_, _, _, exec_reqReturn _ _ s⟩
  case reqDisconnect => exact .inl ⟨_, _, _, exec_reqDisconnect _ _ s⟩
  case reqSetLevel => exact .inl ⟨_, _, _, exec_reqSetLevel _ _ s⟩
  case reqSetMode => exact .inl ⟨_, _, _, exec_reqSetMode _ _ s⟩
  case reqRelease => exact .inl ⟨_, _, _, exec_reqRelease _ _ s⟩
  case reqAbort => exact .inl ⟨_, _, _, exec_reqAbort _ _ s⟩
  case reqNone => exact .inl ⟨_, _, _, exec_reqNone _ _ s⟩
  case reqInvalidCode => exact .inl ⟨_, _, _, exec_reqInvalidCode _ _ _ s⟩
  case groupConnect => exact .inr (.inl ⟨_, _, _, exec_groupConnect _ _ s⟩)
  case groupTransfer => exact .inr (.inl ⟨_, _, _, exec_groupTransfer _ _ s⟩)
  case groupReturn => exact .inr (.inl ⟨_, _, _, exec_groupReturn _ _ s⟩)
  case groupDisconnect => exact .inr (.inl ⟨_, _, _, exec_groupDisconnect _ _ s⟩)
  case groupSetLevel => exact .inr (.inl ⟨_, _, _, exec_groupSetLevel _ _ s⟩)
  case groupAbort => exact .inr (.inl ⟨_, _, _, exec_groupAbort _ _ s⟩)
  case groupInvalid => exact .inr (.inl ⟨_, _, _, exec_groupInvalid _ _ _ s⟩)
  case shoreBkrClose => exact .inr (.inr (.inl ⟨_, _, _, exec_shoreBkrClose _ s⟩))
  case shipconBkrClose => exact .inr (.inr (.inl ⟨_, _, _, exec_shipconBkrClose _ s⟩))
  case bkrWriteOpen => exact .inr (.inr (.inl ⟨_, _, _, exec_bkrWriteOpen _ _ s⟩))
  case bkrWriteNone => exact .inr (.inr (.inl ⟨_, _, _, exec_bkrWriteNone _ _ s⟩))
  case bkrWriteInvalidValue => exact .inr (.inr (.inl ⟨_, _, _, exec_bkrWriteInvalidValue _ _ _ s⟩))
  case genReleaseWrite => exact .inr (.inr (.inl ⟨_, _, _, exec_genReleaseWrite _ _ s⟩))
  case consumerWrite => exact .inr (.inr (.inr ⟨_, _, _, exec_consumerWrite _ s⟩))
  case hostWrite => exact .inr (.inr (.inr ⟨_, _, _, exec_hostWrite _ _ s⟩))
  all_goals exact absurd h (by simp [Instr.isHostWrite])

end Sys2Proof.Machine
end

