-- ==== Sys2Proof/Laws/Memory.lean ====
section
/-! SUPPORT. The PIM: what a read finds after a write, and that a write keeps the canonical form. -/

namespace Sys2Proof.Machine

/-- A canonical list keyed from `low` up has nothing below `low`. -/
theorem Memory.wfFrom_mono {m : Memory} {low low' : Nat} (h : Memory.wfFrom low m = true) (hl : low' ≤ low) :
    Memory.wfFrom low' m = true := by
  cases m with
  | nil => rfl
  | cons p rest =>
    obtain ⟨a, w⟩ := p
    simp only [Memory.wfFrom, Bool.and_eq_true, decide_eq_true_eq] at h ⊢
    exact ⟨⟨⟨by omega, h.1.1.2⟩, h.1.2⟩, h.2⟩

/-- An address below every key reads as an unlisted one. -/
theorem Memory.read_of_lt {m : Memory} {low a : Nat} (h : Memory.wfFrom low m = true) (ha : a < low) :
    Memory.read m a = Memory.unlisted := by
  induction m generalizing low with
  | nil => rfl
  | cons p rest ih =>
    obtain ⟨k, w⟩ := p
    simp only [Memory.wfFrom, Bool.and_eq_true, decide_eq_true_eq] at h
    have hk : k ≠ a := by omega
    simp only [Memory.read, if_neg hk]
    exact ih h.2 (by omega)

/-- A write keeps the canonical form. -/
theorem Memory.wfFrom_write {m : Memory} {low a : Nat} (w : Word) (h : Memory.wfFrom low m = true) (hl : low ≤ a)
    (ha : a < 65536) : Memory.wfFrom low (Memory.write m a w) = true := by
  induction m generalizing low with
  | nil =>
    unfold Memory.write
    split
    · rfl
    · rename_i hw
      simp [Memory.wfFrom, hl, ha, hw]
  | cons p rest ih =>
    obtain ⟨k, v⟩ := p
    have h' := h
    simp only [Memory.wfFrom, Bool.and_eq_true, decide_eq_true_eq] at h'
    unfold Memory.write
    split
    · rename_i hlt
      split
      · exact h
      · rename_i hw
        simp only [Memory.wfFrom, Bool.and_eq_true, decide_eq_true_eq]
        exact ⟨⟨⟨hl, ha⟩, hw⟩, ⟨⟨by omega, h'.1.1.2⟩, h'.1.2⟩, h'.2⟩
    · split
      · rename_i heq
        split
        · exact Memory.wfFrom_mono h'.2 (by omega)
        · rename_i hw
          simp only [Memory.wfFrom, Bool.and_eq_true, decide_eq_true_eq]
          exact ⟨⟨⟨hl, ha⟩, hw⟩, by subst heq; exact h'.2⟩
      · simp only [Memory.wfFrom, Bool.and_eq_true, decide_eq_true_eq]
        exact ⟨⟨h'.1.1, h'.1.2⟩, ih h'.2 (by omega)⟩

/-- A write keeps the canonical form. -/
theorem Memory.wf_write {m : Memory} {a : Nat} (w : Word) (h : Memory.wf m = true) (ha : a < 65536) :
    Memory.wf (Memory.write m a w) = true :=
  Memory.wfFrom_write w h (Nat.zero_le _) ha

/-- A write changes no other address, canonical or not. -/
theorem Memory.read_write_of_ne (m : Memory) {a x : Nat} (w : Word) (h : x ≠ a) :
    Memory.read (Memory.write m a w) x = Memory.read m x := by
  induction m with
  | nil =>
    unfold Memory.write
    split
    · rfl
    · simp [Memory.read, Ne.symm h]
  | cons p rest ih =>
    obtain ⟨k, v⟩ := p
    unfold Memory.write
    split
    · split
      · rfl
      · simp [Memory.read, Ne.symm h]
    · split
      · rename_i heq
        subst heq
        split
        · simp [Memory.read, Ne.symm h]
        · simp [Memory.read, Ne.symm h]
      · simp only [Memory.read]
        split
        · rfl
        · exact ih

/-- What was written is read back from a canonical memory. -/
theorem Memory.read_write_same {m : Memory} {low : Nat} (a : Nat) (w : Word) (h : Memory.wfFrom low m = true) :
    Memory.read (Memory.write m a w) a = w := by
  induction m generalizing low with
  | nil =>
    unfold Memory.write
    split
    · rename_i hw
      rw [hw]
      rfl
    · simp [Memory.read]
  | cons p rest ih =>
    obtain ⟨k, v⟩ := p
    simp only [Memory.wfFrom, Bool.and_eq_true, decide_eq_true_eq] at h
    unfold Memory.write
    split
    · rename_i hlt
      split
      · rename_i hw
        have hk : k ≠ a := by omega
        rw [hw]
        simp only [Memory.read, if_neg hk]
        exact Memory.read_of_lt h.2 (by omega)
      · simp [Memory.read]
    · split
      · rename_i heq
        split
        · rename_i hw
          rw [hw]
          exact Memory.read_of_lt h.2 (by omega)
        · simp [Memory.read]
      · rename_i h1 h2
        have hk : k ≠ a := fun e => h2 e.symm
        simp only [Memory.read, if_neg hk]
        exact ih h.2

/-- Equal reads make equal canonical memories: the form is unique. -/
theorem Memory.ext_read {m n : Memory} {low : Nat} (hm : Memory.wfFrom low m = true) (hn : Memory.wfFrom low n = true)
    (h : ∀ a, Memory.read m a = Memory.read n a) : m = n := by
  induction m generalizing n low with
  | nil =>
    cases n with
    | nil => rfl
    | cons p rest =>
      obtain ⟨k, v⟩ := p
      simp only [Memory.wfFrom, Bool.and_eq_true, decide_eq_true_eq] at hn
      have := h k
      simp only [Memory.read, if_true] at this
      exact absurd this.symm hn.1.2
  | cons p rest ih =>
    obtain ⟨k, v⟩ := p
    have hm' := hm
    simp only [Memory.wfFrom, Bool.and_eq_true, decide_eq_true_eq] at hm'
    cases n with
    | nil =>
      have := h k
      simp only [Memory.read, if_true] at this
      exact absurd this hm'.1.2
    | cons p' rest' =>
      obtain ⟨k', v'⟩ := p'
      have hn' := hn
      simp only [Memory.wfFrom, Bool.and_eq_true, decide_eq_true_eq] at hn'
      have hk : k = k' := by
        rcases Nat.lt_trichotomy k k' with hlt | heq | hlt
        · have := h k
          rw [Memory.read, if_pos rfl, Memory.read, if_neg (by omega), Memory.read_of_lt hn'.2 (by omega)] at this
          exact absurd this hm'.1.2
        · exact heq
        · have := h k'
          rw [Memory.read, if_neg (by omega), Memory.read_of_lt hm'.2 (by omega), Memory.read, if_pos rfl] at this
          exact absurd this.symm hn'.1.2
      subst hk
      have hv : v = v' := by
        have := h k
        simpa only [Memory.read, if_true] using this
      subst hv
      have hr : rest = rest' := by
        refine ih hm'.2 hn'.2 fun a => ?_
        by_cases ha : k = a
        · subst ha
          rw [Memory.read_of_lt hm'.2 (by omega), Memory.read_of_lt hn'.2 (by omega)]
        · have := h a
          simpa only [Memory.read, if_neg ha] using this
      rw [hr]

/-- A write leaves every other word as it was. -/
theorem State.pimRead_pimWrite_of_ne (s : State) {a x : Word} (w : Word) (h : x ≠ a) :
    (s.pimWrite a w).pimRead x = s.pimRead x :=
  Memory.read_write_of_ne _ _ fun e => h (BitVec.eq_of_toNat_eq e)

/-- A written word is read back where the PIM is canonical. -/
theorem State.pimRead_pimWrite_same {s : State} (a w : Word) (h : Memory.wf s.pim = true) :
    (s.pimWrite a w).pimRead a = w :=
  Memory.read_write_same _ _ h

/-- A write of the PIM keeps the canonical form. -/
theorem State.wf_pimWrite {s : State} (a w : Word) (h : Memory.wf s.pim = true) :
    Memory.wf (s.pimWrite a w).pim = true :=
  Memory.wf_write w h a.isLt

/-- A station's write keeps the canonical form. -/
theorem State.wf_stationWrote {s : State} (a : Word) (w : Option Word) (h : Memory.wf s.pim = true) :
    Memory.wf (s.stationWrote a w).pim = true := by
  cases w with
  | none => exact h
  | some w => exact State.wf_pimWrite a w h

/-- What a station wrote before a read is what the read finds. -/
theorem State.pimRead_stationWrote {s : State} (a : Word) (w : Option Word) (h : Memory.wf s.pim = true) :
    (s.stationWrote a w).pimRead a = w.getD (s.pimRead a) := by
  cases w with
  | none => rfl
  | some w => exact State.pimRead_pimWrite_same a w h

end Sys2Proof.Machine
end

