-- ==== Sys2Proof/Laws/KeptByStep.lean ====
section
/-! SUPPORT. What survives a step. `KeptByScan` adds the Scan Engine's and the host port's own effects to `Kept`;
`KeptByCommand` adds the effects of the commands that are no events of the berths, but for RESET_ASSERT and
IMAGE_WORD_READ, and `KeptByStep` adds these and the queue. `KeptByCommand.exec` and `KeptByStep.step` turn the lists of primitive effects into a property kept
by every command and by every step. -/

namespace Sys2Proof.Machine

/-- `P` is also kept by the Scan Engine's own effects, by discarded writes and by accepted CONSUMER values. -/
structure KeptByScan (P : State → Prop) : Prop extends KeptMoves P where
  consumer : ∀ (s : State) v, s.log.acceptsConsumer v = true → P s → P (s.setLog (s.log.setConsumer v s.scan.passNumber))
  discard : ∀ s, P s → P s.discardWrite
  block : ∀ s b k, P s → P (s.setBlock b k)
  latest : ∀ s b r, P s → P (s.setBerth b { s.berth b with latest := some r })
  scan : ∀ s e, e.feederStale = s.scan.feederStale → P s → P (s.setScan e)
  setFeederStale : ∀ s, P s → P s.setFeederStale
  feeder : ∀ s load cap conv, P s → P (s.clearFeederStale.feederResult load cap conv)

/-- A feeder result keeps what a change of C keeps (R102). -/
theorem KeptCalm.feederResult {P : State → Prop} {s : State} (h : KeptCalm P) (hc : ∀ (t : State) c, P t → P (t.setCapacity c))
    (load cap conv) (hs : P s) : P (s.feederResult load cap conv) := by
  have h2 := h.updateShedding load (hc _ (feederCapacity s.tables.ccfg conv cap) hs)
  have h3 : P (if ((s.setCapacity (feederCapacity s.tables.ccfg conv cap)).updateShedding load).budget.shedding
      then ((s.setCapacity (feederCapacity s.tables.ccfg conv cap)).updateShedding load).shedStep .load
      else (s.setCapacity (feederCapacity s.tables.ccfg conv cap)).updateShedding load) := by
    split
    · exact h.shedStep _ h2
    · exact h2
  unfold State.feederResult
  dsimp only
  generalize (if ((s.setCapacity (feederCapacity s.tables.ccfg conv cap)).updateShedding load).budget.shedding
      then ((s.setCapacity (feederCapacity s.tables.ccfg conv cap)).updateShedding load).shedStep .load
      else (s.setCapacity (feederCapacity s.tables.ccfg conv cap)).updateShedding load) = u at h3 ⊢
  refine h.needTest (h.needService ?_)
  split
  · exact h.shedStep _ h3
  · exact h3

/-- What every change of C and of the Scan Engine keeps is kept by the feeder's effects. -/
theorem KeptMoves.byScan {P : State → Prop} (h : KeptMoves P)
    (consumer : ∀ (s : State) v, s.log.acceptsConsumer v = true → P s → P (s.setLog (s.log.setConsumer v s.scan.passNumber)))
    (discard : ∀ s : State, P s → P s.discardWrite) (block : ∀ (s : State) b k, P s → P (s.setBlock b k))
    (latest : ∀ (s : State) b r, P s → P (s.setBerth b { s.berth b with latest := some r }))
    (scan : ∀ (s : State) e, P s → P (s.setScan e)) (capacity : ∀ (s : State) c, P s → P (s.setCapacity c)) :
    KeptByScan P :=
  { h with
    consumer := consumer
    discard := discard
    block := block
    latest := latest
    scan := fun s e _ hs => scan s e hs
    setFeederStale := fun _ hs => h.needTest (h.record _ _ _ _ _ _ (h.statusChanged _ (capacity _ _ (scan _ _ hs))))
    feeder := by
      intro s load cap conv hs
      refine h.feederResult capacity _ _ _ ?_
      unfold State.clearFeederStale
      split
      · exact h.record _ _ _ _ _ _ (h.statusChanged _ (scan _ _ hs))
      · exact hs }

namespace KeptByScan

variable {P : State → Prop} {s : State}

theorem judgeFeeder (h : KeptByScan P) (ws) (hs : P s) : P (s.judgeFeeder ws) := by
  unfold State.judgeFeeder
  have h1 := h.scan s { s.scan with feeder := (s.scan.feeder.judge feederStaleLimit (ws.getD 0 0) (ws.getD 4 0)).1 } rfl hs
  dsimp only
  split
  · exact h1
  · exact h1
  · exact h.feeder _ _ _ _ h1
  · split
    · exact h.setFeederStale _ h1
    · exact h1

theorem judgeBerth (h : KeptByScan P) (b ws) (hs : P s) : P (s.judgeBerth b ws) := by
  unfold State.judgeBerth
  have h1 := h.block s b ((s.block b).judge (s.static b).staleLimit (ws.getD 0 0) (ws.getD 8 0)).1 hs
  dsimp only
  split
  · exact h1
  · exact h1
  · exact h.toKeptMoves.deliverBerth _ _ (h.latest _ _ _ h1)
  · split
    · exact h.toKeptMoves.staleCondition _ h1
    · exact h1

theorem judgeBlock (h : KeptByScan P) (k ws) (hs : P s) : P (s.judgeBlock k ws) := by
  unfold State.judgeBlock
  split
  · exact h.judgeFeeder _ hs
  · exact h.judgeBerth _ _ hs

theorem passOn (h : KeptByScan P) (k) (hs : P s) : P (s.passOn k) := by
  unfold State.passOn
  split
  · exact h.scan _ _ rfl hs
  · exact h.scan _ _ rfl hs

theorem scanWord (h : KeptByScan P) (p w) (hs : P s) : P (s.scanWord p w) := by
  unfold State.scanWord
  dsimp only
  split
  · exact h.scan _ _ rfl hs
  · exact h.passOn _ (h.toKeptMoves.event (fun t ht => h.judgeBlock _ _ ht) hs)

theorem scanTick (h : KeptByScan P) (hs : P s) : P s.scanTick := by
  unfold State.scanTick
  split
  · dsimp only
    split
    · exact h.scan _ _ rfl hs
    · split
      · exact h.scan _ _ rfl hs
      · exact h.record _ _ _ _ _ _ (h.scan _ _ rfl hs)
  · exact hs

theorem hostWrites (h : KeptByScan P) (c a d) (hs : P s) : P (s.hostWrites c a d) := by
  unfold State.hostWrites
  split
  · exact hs
  · split
    · exact hs
    · exact h.discard _ hs
    · exact h.discard _ hs
    · exact h.toKeptMoves.event (fun t ht => h.toKeptMoves.decideWrite h.consumer _ _ _ ht) hs

theorem berthWrites (h : KeptByScan P) (b c a d) (hs : P s) : P (s.berthWrites b c a d) := by
  unfold State.berthWrites
  split
  · exact hs
  · exact h.hostWrites _ _ _ hs

theorem writesReq (h : KeptByScan P) (b code q) (hs : P s) : P (s.writesReq b code q) := h.berthWrites _ _ _ _ hs

theorem writesCommand (h : KeptByScan P) (b w d) (hs : P s) : P (s.writesCommand b w d) := h.berthWrites _ _ _ _ hs

theorem writesGroup (h : KeptByScan P) (g code q) (hs : P s) : P (s.writesGroup g code q) := by
  unfold State.writesGroup
  split
  · exact hs
  · exact h.hostWrites _ _ _ hs

end KeptByScan

/-- `P` is kept by the effects of every command that is no event of the berths, too; RESET_ASSERT and IMAGE_WORD_READ apart. -/
structure KeptByCommand (P : State → Prop) : Prop extends KeptByScan P where
  releaseReset : ∀ s, P s → P s.releaseReset
  startReadDone : ∀ s, P s → P s.startReadDone
  portGrant : ∀ s r w f, P s → P (s.portGrant r w f)
  ownCarried : ∀ s, P s → P s.ownCarried
  hostCarried : ∀ s, P s → P s.hostCarried
  logCarried : ∀ s, P s → P s.logCarried
  station : ∀ s a w, P s → P (s.stationWrote a w)
  portFree : ∀ s, P s → P s.portFree
  owed : ∀ s b o, P s → P (s.setOwed b o)
  reload : ∀ s, P s → P s.reload
  tickFalls : ∀ s, P s → P s.tickFalls
  tickStep : ∀ s b base, P s → P (s.setChan b { s.chan b with step := (s.chan b).step.tick base })
  tickSettle : ∀ s b, P s → P (s.setChan b { s.chan b with settle := (s.chan b).settle.tick .f })
  assertMaint : ∀ s, P s → P s.assertMaint
  releaseMaint : ∀ s, P s → P s.releaseMaint

/-- `P` is kept by a reset, by an image word and by the queue's moving on, too. -/
structure KeptByStep (P : State → Prop) : Prop extends KeptByCommand P where
  queue : ∀ (s : State) q, P s → P { s with pending := q }
  assertReset : ∀ s l, P s → P (s.assertReset l)
  imageWord : ∀ s w, P s → P (s.imageWord w)

namespace KeptByCommand

variable {P : State → Prop} {s : State}

theorem scanReadDone (h : KeptByCommand P) (w) (hs : P s) : P (s.scanReadDone w) := by
  unfold State.scanReadDone
  split
  · exact h.toKeptByScan.scanWord _ _ (h.portFree _ (h.station _ _ _ hs))
  · exact hs

/-! ## Ticks -/

theorem reachStep (h : KeptByCommand P) (b base) (hs : P s) : P (s.reachStep b base) := by
  unfold State.reachStep
  split
  · exact h.owed _ _ _ (h.tickStep _ _ _ hs)
  · exact hs

theorem reachSettle (h : KeptByCommand P) (b) (hs : P s) : P (s.reachSettle b) := by
  unfold State.reachSettle
  split
  · exact h.owed _ _ _ (h.tickSettle _ _ hs)
  · exact hs

theorem reachHolds (h : KeptByCommand P) (b) (hs : P s) : P (s.reachHolds b) := by
  unfold State.reachHolds
  split
  · split
    · exact h.owed _ _ _ hs
    · split
      · exact hs
      · exact h.owed _ _ _ (h.holds _ _ hs)
  · exact hs

theorem stepExpiry (h : KeptByCommand P) (b) (hs : P s) : P (s.stepExpiry b) := by
  unfold State.stepExpiry
  split
  · exact h.toKeptMoves.event (fun t ht => h.toKeptMoves.stepExpired _ _ ht) (h.owed _ _ _ hs)
  · exact h.reachStep _ _ (h.reachStep _ _ hs)

theorem settleExpiry (h : KeptByCommand P) (b) (hs : P s) : P (s.settleExpiry b) := by
  unfold State.settleExpiry
  split
  · exact h.toKeptMoves.event (fun t ht => h.toKeptMoves.settleExpired _ _ ht) (h.owed _ _ _ hs)
  · exact h.reachSettle _ hs

theorem holdExpiry (h : KeptByCommand P) (b) (hs : P s) : P (s.holdExpiry b) := by
  unfold State.holdExpiry
  split
  · exact h.toKeptMoves.event (fun t ht => h.toKeptMoves.expireHold _ ht) (h.owed _ _ _ hs)
  · exact h.reachHolds _ hs

theorem reachBerths (h : KeptByCommand P) (l : List BerthId) (hs : P s) : P (s.reachBerths l) := by
  induction l generalizing s with
  | nil => exact hs
  | cons b rest ih => exact ih (h.reachHolds _ (h.reachStep _ _ hs))

theorem takeOwedBy (h : KeptByCommand P) (b) (hs : P s) : P (s.takeOwedBy b) :=
  h.holdExpiry _ (h.settleExpiry _ (h.stepExpiry _ hs))

theorem takeOwedByAll (h : KeptByCommand P) (l : List BerthId) (hs : P s) : P (s.takeOwedByAll l) := by
  induction l generalizing s with
  | nil => exact hs
  | cons b rest ih => exact ih (h.takeOwedBy _ hs)

theorem takeOwed (h : KeptByCommand P) (hs : P s) : P s.takeOwed :=
  h.takeOwedByAll _ (h.toKeptByScan.scanTick (h.reload _ hs))

theorem baseFTick (h : KeptByCommand P) (hs : P s) : P s.baseFTick := by
  unfold State.baseFTick
  split
  · exact h.tickFalls _ (h.takeOwed hs)
  · exact hs

theorem baseSTick (h : KeptByCommand P) (hs : P s) : P s.baseSTick := by
  unfold State.baseSTick
  split
  · exact h.reachBerths _ (h.reload _ hs)
  · exact hs

/-- Every command keeps `P`, RESET_ASSERT and IMAGE_WORD_READ if their effects do. -/
theorem exec (h : KeptByCommand P) (c : Instr) (hr : ∀ l, c = .resetAssert l → P (s.assertReset l))
    (hi : ∀ w, c = .imageWordRead w → P (s.imageWord w)) (hs : P s) {t : State} (ht : Machine.exec c s = .next t) : P t := by
  have key : ∀ u, Host.Outcome.next (φ := Fault) (ρ := Refusal) u = .next t → P u → P t := by
    intro u hu hp
    cases hu
    exact hp
  have hq := h.toKeptByScan.writesReq (s := s)
  have hg := h.toKeptByScan.writesGroup (s := s)
  have hw := h.toKeptByScan.writesCommand (s := s)
  cases c
  · exact key _ ht (hr _ rfl)
  · exact key _ ht (h.releaseReset _ hs)
  · exact key _ ht (hi _ rfl)
  · exact key _ ht (h.startReadDone _ hs)
  · exact key _ ht (hq _ _ _ hs)
  · exact key _ ht (hq _ _ _ hs)
  · exact key _ ht (hq _ _ _ hs)
  · exact key _ ht (hq _ _ _ hs)
  · exact key _ ht (hq _ _ _ hs)
  · exact key _ ht (hq _ _ _ hs)
  · exact key _ ht (hq _ _ _ hs)
  · exact key _ ht (hq _ _ _ hs)
  · exact key _ ht (hq _ _ _ hs)
  · exact key _ ht (hq _ _ _ hs)
  · exact key _ ht (hg _ _ _ hs)
  · exact key _ ht (hg _ _ _ hs)
  · exact key _ ht (hg _ _ _ hs)
  · exact key _ ht (hg _ _ _ hs)
  · exact key _ ht (hg _ _ _ hs)
  · exact key _ ht (hg _ _ _ hs)
  · exact key _ ht (hg _ _ _ hs)
  · exact key _ ht (hw _ _ _ hs)
  · exact key _ ht (hw _ _ _ hs)
  · exact key _ ht (hw _ _ _ hs)
  · exact key _ ht (hw _ _ _ hs)
  · exact key _ ht (hw _ _ _ hs)
  · exact key _ ht (hw _ _ _ hs)
  · exact key _ ht (h.toKeptByScan.hostWrites _ _ _ hs)
  · exact key _ ht (h.toKeptByScan.hostWrites _ _ _ hs)
  · exact key _ ht (h.portGrant _ _ _ _ hs)
  · exact key _ ht (h.ownCarried _ hs)
  · exact key _ ht (h.hostCarried _ hs)
  · exact key _ ht (h.baseFTick hs)
  · exact key _ ht (h.baseSTick hs)
  · exact key _ ht (h.toKeptByScan.scanTick hs)
  · exact key _ ht (h.stepExpiry _ hs)
  · exact key _ ht (h.settleExpiry _ hs)
  · exact key _ ht (h.holdExpiry _ hs)
  · exact key _ ht (h.scanReadDone _ hs)
  · exact key _ ht (h.logCarried _ hs)
  · exact key _ ht (h.assertMaint _ hs)
  · exact key _ ht (h.releaseMaint _ hs)

end KeptByCommand

namespace KeptByStep

variable {P : State → Prop} {s : State}

/-- Every command keeps `P`. -/
theorem exec (h : KeptByStep P) (c : Instr) (hs : P s) {t : State} (ht : Machine.exec c s = .next t) : P t :=
  h.toKeptByCommand.exec c (fun _ _ => h.assertReset _ _ hs) (fun _ _ => h.imageWord _ _ hs) hs ht

/-- Every step keeps `P`. -/
theorem step (h : KeptByStep P) (hs : P s) {t : State} (ht : Machine.step s = .next t) : P t := by
  unfold Machine.step at ht
  split at ht
  · cases ht
    exact hs
  · exact h.exec _ (h.queue _ _ hs) ht

end KeptByStep

/-! ## Answers -/

/-- Every command answers a next state. -/
theorem exec_answers_next (c : Instr) (s : State) : ∃ t, exec c s = .next t := by
  cases c <;> exact ⟨_, rfl⟩

end Sys2Proof.Machine
end

