-- ==== Sys2Proof/Laws/Port.lean ====
section
/-! SUPPORT. The memory port, start-up and reset: what survives their commands, from their primitive effects. -/

namespace Sys2Proof.Machine

/-! ## What a station's write and the entry to RUNNING leave alone -/

@[simp] theorem State.stationWrote_none (s : State) (a : Word) : s.stationWrote a none = s := rfl
@[simp] theorem State.stationWrote_some (s : State) (a w : Word) : s.stationWrote a (some w) = s.pimWrite a w := rfl

/-- A field that is not the PIM is not touched by a station's write. -/
theorem State.stationWrote_field {α : Type} (f : State → α) (hf : ∀ (s : State) m, f { s with pim := m } = f s) (s : State)
    (a : Word) (w : Option Word) : f (s.stationWrote a w) = f s := by
  cases w with
  | none => rfl
  | some w => exact hf s _

/-- The removals' reports write the Own Write Queue alone. -/
theorem State.removalReports_field {α : Type} (f : State → α) (hf : ∀ (s : State) q, f (s.setOwq q) = f s)
    (l : List OwnWrite) (s : State) : f (s.removalReports l) = f s := by
  induction l generalizing s with
  | nil => rfl
  | cons w rest ih =>
    rw [State.removalReports, ih]
    unfold State.removalReport
    split
    · rfl
    · split
      · exact hf _ _
      · rfl

/-! ## What survives the commands of the port and of start-up -/

/-- What the three outcomes of an image word keep is kept by it (R160, R164, R165). -/
theorem imageWord_of (P : State → Prop) {s : State} (w : Word)
    (loader : ∀ (s : State) l, P s → P (s.setLoader l))
    (blocked : ∀ (s : State) ws e, s.phase = .loading → P s → P (s.enterBlocked ws e))
    (install : ∀ (s : State) ws, s.phase = .loading → lateChecks ws = .none → P s → P (s.install ws)) (hs : P s) :
    P (s.imageWord w) := by
  unfold State.imageWord
  split
  · rename_i hp
    dsimp only
    split
    · exact blocked _ _ _ hp.1 hs
    · rename_i he
      split
      · rename_i hl
        refine install _ _ hp.1 ?_ hs
        have : checkDue (s.loader.words ++ [w]) = lateChecks (s.loader.words ++ [w]) := by
          unfold checkDue
          rw [hl]
          simp [imageLength]
        rw [← this]
        simpa using he
      · exact loader _ _ hs
  · exact hs

namespace KeptByScan

variable {P : State → Prop}

/-- What SEQ writes keep is kept by the removals' reports. -/
theorem removalReports (h : KeptByScan P) (l : List OwnWrite) {s : State} (hs : P s) : P (s.removalReports l) := by
  induction l generalizing s with
  | nil => exact hs
  | cons w rest ih =>
    refine ih ?_
    unfold State.removalReport
    split
    · exact hs
    · split
      · exact h.seqWrite _ _ _ _ hs
      · exact hs

/-- What a station's write keeps is kept. -/
theorem stationWrote (pim : ∀ (s : State) a w, P s → P (s.pimWrite a w)) {s : State} (a w) (hs : P s) :
    P (s.stationWrote a w) := by
  cases w with
  | none => exact hs
  | some w => exact pim _ _ _ hs

/-- A property that the primitive effects of start-up, of the port, of the ticks and of MAINT keep is kept by every command but
RESET_ASSERT and IMAGE_WORD_READ. -/
theorem byCommand (h : KeptByScan P)
    (releaseReset : ∀ s : State, P s → P s.releaseReset)
    (loader : ∀ (s : State) l, P s → P (s.setLoader l))
    (toggles : ∀ (s : State) b x, P s → P (s.setBerth b { s.berth b with lastTaken := x, answered := x }))
    (running : ∀ s : State, s.phase = .loading → P s → P s.enterRunning)
    (pim : ∀ (s : State) a w, P s → P (s.pimWrite a w))
    (ports : ∀ (s : State) p, P s → P (s.setPorts p))
    (owqTail : ∀ s : State, P s → P (s.setOwq s.owq.tail))
    (owqRemove : ∀ (s : State) a, P s → P (s.setOwq (removeAt s.owq a)))
    (logGranted : ∀ (s : State) k, P s → P (s.setLog (s.log.granted k)))
    (logCompleted : ∀ (s : State) k x, P s → P (s.setLog (s.log.completed k x)))
    (owed : ∀ (s : State) b o, P s → P (s.setOwed b o))
    (reload : ∀ s : State, P s → P s.reload)
    (tickFalls : ∀ s : State, P s → P s.tickFalls)
    (tickStep : ∀ (s : State) b base, P s → P (s.setChan b { s.chan b with step := (s.chan b).step.tick base }))
    (tickSettle : ∀ (s : State) b, P s → P (s.setChan b { s.chan b with settle := (s.chan b).settle.tick .f }))
    (assertMaint : ∀ s : State, P s → P s.assertMaint)
    (releaseMaint : ∀ s : State, P s → P s.releaseMaint) : KeptByCommand P := by
  have tryRunning : ∀ s : State, P s → P s.tryEnterRunning := by
    intro s hs
    unfold State.tryEnterRunning
    split
    · rename_i hc
      exact running _ hc.1 hs
    · exact hs
  refine { h with
    releaseReset := releaseReset, startReadDone := ?_, portGrant := ?_, ownCarried := ?_,
    hostCarried := ?_, logCarried := ?_, station := fun s a w hs => stationWrote pim a w hs,
    portFree := fun s hs => ports _ _ hs, owed := owed, reload := reload, tickFalls := tickFalls,
    tickStep := tickStep, tickSettle := tickSettle, assertMaint := assertMaint,
    releaseMaint := releaseMaint }
  · intro s hs
    unfold State.startReadDone
    split
    · rename_i r _
      dsimp only
      refine tryRunning _ ?_
      have h1 := loader _ { s.loader with reads := s.loader.reads.tail } (ports _ { s.ports with busy := none } hs)
      unfold State.takeOverToggle
      split
      · exact h.queueRsp _ _ (toggles _ _ _ h1)
      · exact h.queueGroupRsp _ _ _ (h.groupTaken _ _ _ h1)
    · exact hs
  · intro s r w f hs
    have h1 : P (s.readArrives r) := by
      unfold State.readArrives
      split
      · exact ports _ _ hs
      · exact hs
    unfold State.portGrant
    dsimp only
    split
    · exact h1
    · split
      · unfold State.grantTo
        split
        · unfold State.grantHost
          split
          · exact ports _ _ h1
          · dsimp only
            split
            · exact ports _ _ (stationWrote pim _ _ h1)
            · exact ports _ _ h1
        · exact ports _ _ (owqTail _ h1)
        · exact ports _ _ (loader _ _ (pim _ _ _ h1))
        · exact ports _ _ h1
        · exact ports _ _ h1
        · exact ports _ _ (logGranted _ _ h1)
      · exact h1
  · intro s hs
    unfold State.ownCarried
    split
    · rename_i x _
      have h1 := ports _ { (s.pimWrite x.address x.data).ports with busy := none } (pim _ x.address x.data hs)
      unfold State.carriageReport
      split
      · exact h1
      · split
        · exact h.berth _ _ _ rfl rfl rfl rfl h1
        · exact h1
    · exact hs
  · intro s hs
    unfold State.hostCarried
    split
    · dsimp only
      exact h.removalReports _ (ports _ _ (owqRemove _ _ (pim _ _ _ hs)))
    · exact hs
  · intro s hs
    unfold State.logCarried
    split
    · exact tryRunning _ (logCompleted _ _ _ (ports _ _ (pim _ _ _ hs)))
    · exact hs

end KeptByScan

end Sys2Proof.Machine
end

