-- ==== Sys2Proof/Laws/Service.lean ====
section
/-! SUPPORT. What a service pass leaves: the claims granted in arrival order, each as its rule says (R89 to R91, R96, R97). -/

namespace Sys2Proof.Machine

section One

variable {s t : State} {b : BerthId} {c : Claim}

theorem eq_of_key_eq {α β : Type} {f : α → β} {l : List α} (h : (l.map f).Nodup) {x y : α} (hx : x ∈ l) (hy : y ∈ l)
    (he : f x = f y) : x = y := by
  induction l with
  | nil => cases hx
  | cons a rest ih =>
    rw [List.map_cons, List.nodup_cons] at h
    rcases List.mem_cons.mp hx with h1 | h1 <;> rcases List.mem_cons.mp hy with h2 | h2
    · rw [h1, h2]
    · exact absurd (by rw [← h1, he]; exact List.mem_map_of_mem h2) h.1
    · exact absurd (by rw [← h2, ← he]; exact List.mem_map_of_mem h1) h.1
    · exact ih h.2 h1 h2

structure Granted (s t : State) (c : Claim) : Prop where
  berths : t.berths = s.berths.set c.berth (s.grantedBerth c)
  chans : t.chans = s.chans.set c.berth (s.grantedChannels c)
  tables : t.tables = s.tables
  scan : t.scan = s.scan
  maint : t.timer.maint = s.timer.maint
  holds : t.holds = s.holds.filter fun h => decide (h ∉ s.grantedHolds c)
  owq : t.owq = placeAll s.owq (s.grantedWrites c)
  log : (s.log.stageAll (s.grantedRecords c)).Alike t.log
  claims : t.budget.claims = dropClaim s.budget.claims c.berth
  stack : t.budget.stack = s.grantedStack s.budget.stack c
  capacity : t.budget.capacity = s.budget.capacity
  shedding : t.budget.shedding = s.budget.shedding

theorem filter_true (l : List Hold) : l.filter (fun h => decide (h ∉ ([] : List Hold))) = l := by
  rw [List.filter_eq_self]; intro a _; simp

theorem levelGranted_granted {n : Nat} (hk : c.kind = .level n) : Granted s (s.grantLevel c n) c := by
  have h := grantLevel_granted s c n
  have hm : (s.grantLevel c n).timer = s.timer := by
    unfold State.grantLevel; dsimp only
    rw [State.finalise_timer]
    show ((s.setBudget _).changeLevel c.berth n).timer = _
    rw [State.changeLevel_timer]; rfl
  refine ⟨?_, ?_, h.tables, h.scan, by rw [hm], ?_, ?_, ?_, h.claims, ?_, h.capacity, h.shedding⟩
  · rw [h.berths]; unfold State.grantedBerth; rw [hk]
  · rw [h.chans]; unfold State.grantedChannels; rw [hk]; exact chans_self s c.berth
  · rw [h.holds]; unfold State.grantedHolds; rw [hk]; exact (filter_true _).symm
  · rw [h.owq]; unfold State.grantedWrites State.grantedBerth; rw [hk]
  · unfold State.grantedRecords; rw [hk]; exact h.log
  · rw [h.stack]; unfold State.grantedStack; rw [hk]

theorem engageGranted_granted (hk : c.kind = .engage) (hs : s.claimSound c) (ha : (s.holds.map fun h => h.address).Nodup) :
    Granted s (s.grantEngage c) c := by
  unfold State.claimSound at hs
  rw [hk] at hs
  obtain ⟨h1, h2, h3, h4⟩ := hs
  unfold State.grantEngage
  generalize hy : State.takeBase (s.setBudget { s.budget with claims := dropClaim s.budget.claims c.berth }) c.berth = y
  have y1 : y.berth c.berth = { s.berth c.berth with baseGrant := (s.static c.berth).baseCredits } := by rw [← hy, takeBase_berth]; rfl
  have y1' : y.berths = s.berths.set c.berth { s.berth c.berth with baseGrant := (s.static c.berth).baseCredits } := by rw [← hy]; rfl
  have y2 : y.chans = s.chans := by rw [← hy]; rfl
  have y3 : y.tables = s.tables := by rw [← hy]; rfl
  have y4 : y.scan = s.scan := by rw [← hy]; rfl
  have y5 : y.holds = s.holds := by rw [← hy]; rfl
  have y6 : y.owq = s.owq := by rw [← hy]; rfl
  have y7 : s.log.Alike y.log := by rw [← hy]; exact State.takeBase_log (s.setBudget { s.budget with claims := dropClaim s.budget.claims c.berth }) c.berth
  have y8 : y.budget.claims = dropClaim s.budget.claims c.berth := by rw [← hy]; rfl
  have y9 : y.budget.stack = s.budget.stack := by rw [← hy]; rfl
  have y10 : y.budget.capacity = s.budget.capacity := by rw [← hy]; rfl
  have y11 : y.budget.shedding = s.budget.shedding := by rw [← hy]; rfl
  have y12 : y.timer = s.timer := by rw [← hy]; rfl
  clear hy
  have yst : (y.berth c.berth).state = .engaging := by rw [y1]; exact h1
  have ylat : (y.berth c.berth).latest = (s.berth c.berth).latest := by rw [y1]
  have ych : y.chan c.berth = s.chan c.berth := by unfold State.chan; rw [y2]
  have ystat : y.static c.berth = s.static c.berth := by unfold State.static; rw [y3]
  have stk : s.grantedStack s.budget.stack c = s.budget.stack := by unfold State.grantedStack; rw [hk]
  -- the state after entering ENERGIZING
  have e1 : (y.toEnergizing c.berth).berths = s.berths.set c.berth { (s.berth c.berth).entered .energizing with baseGrant := (s.static c.berth).baseCredits } := by
    show (y.berths.set c.berth _) = _
    rw [y1, y1', Eight.set_set]; rfl
  have e2 : (y.toEnergizing c.berth).chans = s.chans.set c.berth { s.chan c.berth with step := s.confirmLoaded c.berth } := by
    show (y.chans.set c.berth { y.chan c.berth with step := Channel.loaded .confirm (y.static c.berth).breakerConfirm y.timer.maint }) = _
    rw [ych, ystat, y12, y2]; rfl
  cases hm : (s.berth c.berth).mode with
  | auto =>
    have ymode : (y.berth c.berth).mode = .auto := by rw [y1]; exact hm
    cases hr : s.goesOn c.berth with
    | false =>
      have e : y.grantNotice c.berth = y := by
        unfold State.grantNotice
        rw [yst, ymode]; dsimp only
        rw [ylat]
        unfold State.goesOn at hr
        rw [hm] at hr
        cases hl : (s.berth c.berth).latest with
        | none => rfl
        | some r => rw [hl] at hr; dsimp only at hr ⊢; rw [hr]; rfl
      rw [e]
      refine ⟨?_, ?_, y3, y4, by rw [y12], ?_, ?_, ?_, y8, y9.trans stk.symm, y10, y11⟩
      · rw [y1']; unfold State.grantedBerth; rw [hk]; simp [hr]
      · rw [y2]; unfold State.grantedChannels; rw [hk]; simp only [hr]; exact chans_self s c.berth
      · rw [y5]; unfold State.grantedHolds; rw [hk, hm]; exact (filter_true _).symm
      · rw [y6]; unfold State.grantedWrites; rw [hk]; simp [hr]
      · unfold State.grantedRecords; rw [hk]; simp only [hr]; exact y7
    | true =>
      have e : y.grantNotice c.berth = y.connectReady c.berth := by
        unfold State.grantNotice
        rw [yst, ymode]; dsimp only
        rw [ylat]
        unfold State.goesOn at hr
        rw [hm] at hr
        cases hl : (s.berth c.berth).latest with
        | none => rw [hl] at hr; cases hr
        | some r => rw [hl] at hr; dsimp only at hr ⊢; rw [hr]; rfl
      rw [e]
      unfold State.connectReady
      rw [ymode]
      have gb : s.grantedBerth c = { (s.berth c.berth).entered .energizing with baseGrant := (s.static c.berth).baseCredits } := by
        unfold State.grantedBerth; rw [hk]; simp [hr]
      have zb : (State.seqWrite (y.toEnergizing c.berth) c.berth .shoreBkr cmdClose).berth c.berth = s.grantedBerth c := by
        show (y.toEnergizing c.berth).berths.get c.berth = _
        rw [e1, gb, Eight.get_set_same]
      refine ⟨?_, ?_, y3, y4, by show y.timer.maint = _; rw [y12], ?_, ?_, ?_, y8, y9.trans stk.symm, y10, y11⟩
      · rw [gb]; exact e1
      · unfold State.grantedChannels; rw [hk]; simp only [hr, if_true]; exact e2
      · unfold State.grantedHolds; rw [hk, hm]; exact y5.trans (filter_true _).symm
      · unfold State.grantedWrites; rw [hk, hm]; simp only [hr, if_true]
        show placeWrite (placeWrite y.owq (y.seqEntry c.berth .shoreBkr cmdClose)) (y.rspEntry c.berth ((State.seqWrite (y.toEnergizing c.berth) c.berth .shoreBkr cmdClose).berth c.berth)) = _
        rw [zb, y6, seqEntry_congr y3, rspEntry_congr y3]; rfl
      · unfold State.grantedRecords; rw [hk]; simp only [hr, if_true]
        show Log.Alike _ (y.log.stage ((State.seqWrite (y.toEnergizing c.berth) c.berth .shoreBkr cmdClose).stateRecord c.berth .engaging .auto
          ((State.seqWrite (y.toEnergizing c.berth) c.berth .shoreBkr cmdClose).berth c.berth).state ((State.seqWrite (y.toEnergizing c.berth) c.berth .shoreBkr cmdClose).berth c.berth).mode))
        rw [zb, gb, stateRecord_congr (show (State.seqWrite (y.toEnergizing c.berth) c.berth .shoreBkr cmdClose).scan = s.scan from y4)]
        show (s.log.stage (s.moveRecord c.berth .energizing)).Alike _
        unfold State.moveRecord
        rw [h1]
        show Log.Alike _ (y.log.stage (s.stateRecord c.berth .engaging .auto .energizing (s.berth c.berth).mode))
        rw [hm]
        exact y7.stage _
  | manual =>
    have ymode : (y.berth c.berth).mode = .manual := by rw [y1]; exact hm
    obtain ⟨h, hh, hre⟩ := h4 hm
    have hr : s.goesOn c.berth = true := by unfold State.goesOn; rw [hm]
    have hmem : h ∈ s.holds ∧ h.berth = c.berth := by
      have : h ∈ s.holdsOf c.berth := by rw [hh]; simp
      unfold State.holdsOf at this
      rw [List.mem_filter] at this
      exact ⟨this.1, by simpa using this.2⟩
    have hfor : y.holdFor c.berth .budget = some h := by
      unfold State.holdFor
      rw [y5]
      cases e : s.holds.find? (fun x => decide (x.berth = c.berth) && decide (x.reason = .budget)) with
      | none =>
        have := List.find?_eq_none.mp e h hmem.1
        simp [hmem.2, hre] at this
      | some x =>
        have a1 := List.mem_of_find?_eq_some e
        have a2 := List.find?_some e
        simp only [Bool.and_eq_true, decide_eq_true_eq] at a2
        have : x ∈ s.holdsOf c.berth := by unfold State.holdsOf; rw [List.mem_filter]; exact ⟨a1, by simpa using a2.1⟩
        rw [hh] at this
        simp at this; rw [this]
    have e : y.grantNotice c.berth = ((y.toEnergizing c.berth).releaseHold h).reportState c.berth .engaging .manual := by
      unfold State.grantNotice
      rw [yst, ymode]; dsimp only
      rw [hfor]
    rw [e]
    have gb : s.grantedBerth c = { (s.berth c.berth).entered .energizing with baseGrant := (s.static c.berth).baseCredits } := by
      unfold State.grantedBerth; rw [hk]; simp [hr]
    have hdrop : dropHold s.holds h.address = s.holds.filter fun x => decide (x ∉ [h]) := by
      unfold dropHold
      refine List.filter_congr fun x hx => ?_
      have : x.address = h.address ↔ x = h := by
        refine ⟨fun hax => ?_, fun hx => by rw [hx]⟩
        exact eq_of_key_eq ha hx hmem.1 hax
      simp [this]
    generalize hv : (y.toEnergizing c.berth).releaseHold h = v
    have v1 : v.berths = s.berths.set c.berth (s.grantedBerth c) := by rw [gb, ← e1, ← hv]; rfl
    have v2 : v.chans = s.chans.set c.berth { s.chan c.berth with step := s.confirmLoaded c.berth } := by rw [← e2, ← hv]; rfl
    have v3 : v.tables = s.tables := by rw [← hv]; exact y3
    have v4 : v.scan = s.scan := by rw [← hv]; exact y4
    have v5 : v.holds = dropHold s.holds h.address := by rw [← hv, ← y5]; rfl
    have v6 : v.owq = placeWrite s.owq (s.seqEntry c.berth h.word.cmd h.data) := by
      rw [← hv, ← y6, ← seqEntry_congr y3, ← hmem.2]; rfl
    have v7 : v.log = y.log := by rw [← hv]; rfl
    have v8 : v.budget = y.budget := by rw [← hv]; rfl
    have v9 : v.timer = y.timer := by rw [← hv]; rfl
    have vb : v.berth c.berth = s.grantedBerth c := by unfold State.berth; rw [v1, Eight.get_set_same]
    clear hv e1 e2
    have w3 : (v.reportState c.berth .engaging .manual).tables = s.tables := v3
    have w4 : (v.reportState c.berth .engaging .manual).scan = s.scan := v4
    have w5 : (v.reportState c.berth .engaging .manual).holds = v.holds := rfl
    have w6 : (v.reportState c.berth .engaging .manual).owq = placeWrite v.owq (v.rspEntry c.berth (v.berth c.berth)) := rfl
    have w8 : (v.reportState c.berth .engaging .manual).budget = v.budget := rfl
    have w9 : (v.reportState c.berth .engaging .manual).timer = v.timer := rfl
    refine ⟨v1, ?_, w3, w4, by rw [w9, v9, y12], ?_, ?_, ?_, by rw [w8, v8, y8], by rw [w8, v8, y9, stk], by rw [w8, v8, y10], by rw [w8, v8, y11]⟩
    · unfold State.grantedChannels; rw [hk]; simp only [hr, if_true]; exact v2
    · unfold State.grantedHolds; rw [hk, hm]; dsimp only; rw [hh, ← hdrop, w5, v5]
    · unfold State.grantedWrites; rw [hk, hm]; simp only [hr, if_true]
      rw [hh, w6, vb, v6, rspEntry_congr v3]; rfl
    · unfold State.grantedRecords; rw [hk]; simp only [hr, if_true]
      rw [State.reportState_log, vb, stateRecord_congr v4, v7, gb]
      show (s.log.stage (s.moveRecord c.berth .energizing)).Alike _
      unfold State.moveRecord
      rw [h1]
      show Log.Alike _ (y.log.stage (s.stateRecord c.berth .engaging .manual .energizing (s.berth c.berth).mode))
      rw [hm]
      exact y7.stage _

end One

section Walk

variable {s t : State} {b : BerthId} {c x : Claim}

theorem Granted.berth_of_ne (h : Granted s t c) (hne : b ≠ c.berth) : t.berth b = s.berth b := by
  unfold State.berth; rw [h.berths, Eight.get_set_of_ne _ _ hne]

theorem Granted.chan_of_ne (h : Granted s t c) (hne : b ≠ c.berth) : t.chan b = s.chan b := by
  unfold State.chan; rw [h.chans, Eight.get_set_of_ne _ _ hne]

theorem Granted.static (h : Granted s t c) (b) : t.static b = s.static b := by unfold State.static; rw [h.tables]

theorem Granted.levelCredits (h : Granted s t c) (n) : t.levelCredits n = s.levelCredits n := by
    unfold State.levelCredits State.levelEntry; rw [h.tables]

theorem grantedHolds_berth (s : State) (c) : ∀ h ∈ s.grantedHolds c, h.berth = c.berth := by
  intro h hh
  unfold State.grantedHolds at hh
  split at hh
  · unfold State.holdsOf at hh; rw [List.mem_filter] at hh; simpa using hh.2
  · cases hh

theorem Granted.holdsOf_of_ne (h : Granted s t c) (hne : b ≠ c.berth) : t.holdsOf b = s.holdsOf b := by
  unfold State.holdsOf
  rw [h.holds, List.filter_filter]
  refine List.filter_congr fun x _ => ?_
  by_cases hx : x.berth = b
  · have : x ∉ s.grantedHolds c := fun hm => hne (hx ▸ grantedHolds_berth s c x hm)
    simp [hx, this]
  · simp [hx]

theorem Granted.same_of_ne (h : Granted s t c) (hne : x.berth ≠ c.berth) :
    t.goesOn x.berth = s.goesOn x.berth ∧ t.grantedBerth x = s.grantedBerth x ∧ t.grantedChannels x = s.grantedChannels x
        ∧ t.grantedHolds x = s.grantedHolds x ∧ t.grantedWrites x = s.grantedWrites x
      ∧ t.grantedRecords x = s.grantedRecords x ∧ ∀ st, t.grantedStack st x = s.grantedStack st x := by
  have hb := h.berth_of_ne hne
  have hc := h.chan_of_ne hne
  have hg : t.goesOn x.berth = s.goesOn x.berth := by unfold State.goesOn; rw [hb]
  have hB : t.grantedBerth x = s.grantedBerth x := by unfold State.grantedBerth; rw [hg, hb, h.static]
  have hh := h.holdsOf_of_ne hne
  refine ⟨hg, hB, ?_, ?_, ?_, ?_, ?_⟩
  · unfold State.grantedChannels State.confirmLoaded; rw [hg, hc, h.static, h.maint]
  · unfold State.grantedHolds; rw [hb, hh]
  · unfold State.grantedWrites; rw [hg, hB, hb, hh]
    unfold State.seqEntry State.rspEntry State.levelEntry; rw [h.tables]
  · unfold State.grantedRecords State.finalRecords State.finalRecord State.moveRecord State.stateRecord; rw [hg, hb, h.scan]
  · intro st; unfold State.grantedStack; rw [hb]

theorem Granted.sound_of_ne (h : Granted s t c) (hne : x.berth ≠ c.berth) (hx : s.claimSound x) : t.claimSound x := by
  unfold State.claimSound at *
  rw [h.berth_of_ne hne, h.static, h.holdsOf_of_ne hne]
  split
  · rename_i hk; rw [hk] at hx; exact hx
  · rename_i hk; rw [hk] at hx
    rw [h.levelCredits, h.levelCredits]; exact hx

/-- A grant raises G by the claim's credits (R87). -/
theorem Granted.granted (h : Granted s t c) (hs : s.claimSound c) : t.granted = s.granted + c.credits := by
  have hg := State.granted_of h.tables h.berths
  unfold State.claimSound at hs
  unfold State.held State.grantedBerth at hg
  cases hk : c.kind with
  | engage =>
    rw [hk] at hs hg
    dsimp only at hs hg
    obtain ⟨_, h2, h3, _⟩ := hs
    have : (if s.goesOn c.berth = true then (s.berth c.berth).entered .energizing else s.berth c.berth).level = (s.berth c.berth).level := by split <;> rfl
    rw [this] at hg
    omega
  | level n =>
    rw [hk] at hs hg
    dsimp only at hs hg
    rw [(Berth.finalised_fields _ _).1, (Berth.finalised_fields _ _).2] at hg
    dsimp only at hg
    omega

structure Served (s t : State) (g : List Claim) : Prop where
  claims : t.budget.claims = s.budget.claims.filter fun c => decide (c ∉ g)
  at' : ∀ c ∈ g, t.berth c.berth = s.grantedBerth c ∧ t.chan c.berth = s.grantedChannels c
  others : ∀ b, (∀ c ∈ g, c.berth ≠ b) → t.berth b = s.berth b ∧ t.chan b = s.chan b
  holds : t.holds = s.holds.filter fun h => g.all fun c => decide (h ∉ s.grantedHolds c)
  owq : t.owq = placeAll s.owq (g.flatMap s.grantedWrites)
  log : (s.log.stageAll (g.flatMap s.grantedRecords)).Alike t.log
  stack : t.budget.stack = g.foldl s.grantedStack s.budget.stack

theorem Served.none (s : State) : Served s s [] :=
  ⟨by rw [List.filter_eq_self.mpr]; simp, by simp, by simp, by rw [List.filter_eq_self.mpr]; simp, rfl, Log.Alike.refl _, rfl⟩

theorem Served.cons {u : State} {g} (h1 : Granted s t c) (h2 : Served t u g) (hne : ∀ x ∈ g, x.berth ≠ c.berth)
    (hq : ∀ y ∈ s.budget.claims, y.berth = c.berth → y = c) : Served s u (c :: g) where
  claims := by
    rw [h2.claims, h1.claims]
    unfold dropClaim
    rw [List.filter_filter]
    refine List.filter_congr fun y hy => ?_
    by_cases hc : y = c
    · simp [hc]
    · have : y.berth ≠ c.berth := fun e => hc (hq y hy e)
      simp [hc, this]
  at' := by
    intro y hy
    rcases List.mem_cons.mp hy with rfl | hy
    · have := h2.others y.berth (fun z hz => hne z hz)
      rw [this.1, this.2]
      exact ⟨by unfold State.berth; rw [h1.berths, Eight.get_set_same], by unfold State.chan; rw [h1.chans, Eight.get_set_same]⟩
    · have := h2.at' y hy
      have k := h1.same_of_ne (hne y hy)
      rw [this.1, this.2, k.2.1, k.2.2.1]
      exact ⟨rfl, rfl⟩
  others := by
    intro b hb
    have := h2.others b (fun z hz => hb z (List.mem_cons_of_mem _ hz))
    have hn : b ≠ c.berth := fun e => hb c (List.mem_cons_self ..) e.symm
    rw [this.1, this.2]
    exact ⟨h1.berth_of_ne hn, h1.chan_of_ne hn⟩
  holds := by
    rw [h2.holds, h1.holds, List.filter_filter]
    refine List.filter_congr fun y _ => ?_
    rw [List.all_cons, Bool.and_comm]
    congr 1
    rw [Bool.eq_iff_iff, List.all_eq_true, List.all_eq_true]
    refine forall_congr' fun z => forall_congr' fun hz => ?_
    rw [(h1.same_of_ne (hne z hz)).2.2.2.1]
  owq := by
    rw [h2.owq, h1.owq, List.flatMap_cons, placeAll_append]
    congr 1
    have : ∀ l : List Claim, (∀ z ∈ l, z.berth ≠ c.berth) → l.flatMap t.grantedWrites = l.flatMap s.grantedWrites := by
      intro l hl
      induction l with
      | nil => rfl
      | cons a r ih => rw [List.flatMap_cons, List.flatMap_cons, (h1.same_of_ne (hl a (List.mem_cons_self ..))).2.2.2.2.1, ih (fun z hz => hl z (List.mem_cons_of_mem _ hz))]
    exact this g hne
  log := by
    rw [List.flatMap_cons, Log.stageAll_append]
    have : ∀ l : List Claim, (∀ z ∈ l, z.berth ≠ c.berth) → l.flatMap t.grantedRecords = l.flatMap s.grantedRecords := by
      intro l hl
      induction l with
      | nil => rfl
      | cons a r ih => rw [List.flatMap_cons, List.flatMap_cons, (h1.same_of_ne (hl a (List.mem_cons_self ..))).2.2.2.2.2.1, ih (fun z hz => hl z (List.mem_cons_of_mem _ hz))]
    rw [← this g hne]
    exact (h1.log.stageAll _).trans h2.log
  stack := by
    rw [h2.stack, h1.stack, List.foldl_cons]
    have : ∀ (l : List Claim) st, (∀ z ∈ l, z.berth ≠ c.berth) → l.foldl t.grantedStack st = l.foldl s.grantedStack st := by
      intro l
      induction l with
      | nil => intro st _; rfl
      | cons a r ih =>
        intro st hl
        rw [List.foldl_cons, List.foldl_cons, (h1.same_of_ne (hl a (List.mem_cons_self ..))).2.2.2.2.2.2, ih _ (fun z hz => hl z (List.mem_cons_of_mem _ hz))]
    exact this g _ hne

theorem served_mem {sh rs} : ∀ (l : List Claim) (f : Int), ∀ c ∈ served sh rs f l, c ∈ l := by
  intro l
  induction l with
  | nil => intro f c hc; cases hc
  | cons a r ih =>
    intro f c hc
    unfold served at hc
    split at hc
    · split at hc
      · rcases List.mem_cons.mp hc with h | h
        · rw [h]; exact List.mem_cons_self ..
        · exact List.mem_cons_of_mem _ (ih _ _ h)
      · cases hc
    · split at hc
      · rcases List.mem_cons.mp hc with h | h
        · rw [h]; exact List.mem_cons_self ..
        · exact List.mem_cons_of_mem _ (ih _ _ h)
      · exact List.mem_cons_of_mem _ (ih _ _ hc)

/-- A service pass grants what `served` says (R89, R96). -/
theorem serviceWalk_served : ∀ (l : List Claim) (s : State), (l.map fun c => c.berth).Nodup → (∀ c ∈ l, s.claimSound c) →
    (s.holds.map fun h => h.address).Nodup →
    (∀ y ∈ s.budget.claims, ∀ c ∈ l, y.berth = c.berth → y = c) →
    Served s (s.serviceWalk l) (served s.budget.shedding s.tables.reserve ((s.budget.capacity : Int) - s.granted) l) := by
  intro l
  induction l with
  | nil => intro s _ _ _ _; exact Served.none s
  | cons c rest ih =>
    intro s hn hsd hh hq
    rw [List.map_cons, List.nodup_cons] at hn
    have hne : ∀ x ∈ rest, x.berth ≠ c.berth := fun x hx e => hn.1 (e ▸ List.mem_map_of_mem hx)
    have step : ∀ t, Granted s t c → Served s (t.serviceWalk rest) (c :: served s.budget.shedding s.tables.reserve ((s.budget.capacity : Int) - s.granted - c.credits) rest) := by
      intro t ht
      have := ih t hn.2 (fun x hx => ht.sound_of_ne (hne x hx) (hsd x (List.mem_cons_of_mem _ hx)))
        (by rw [ht.holds]; exact hh.sublist (List.Sublist.map _ List.filter_sublist))
        (fun y hy x hx e => hq y (by rw [ht.claims] at hy; exact (List.mem_filter.mp hy).1) x (List.mem_cons_of_mem _ hx) e)
      rw [ht.shedding, ht.tables, ht.capacity, ht.granted (hsd c (List.mem_cons_self ..))] at this
      have e : (s.budget.capacity : Int) - ((s.granted + c.credits : Nat) : Int) = (s.budget.capacity : Int) - s.granted - c.credits := by omega
      rw [e] at this
      exact Served.cons ht this (fun x hx => hne x (served_mem _ _ x hx)) (fun y hy e => hq y hy c (List.mem_cons_self ..) e)
    unfold State.serviceWalk served
    cases hk : c.kind with
    | engage =>
      dsimp only
      unfold State.fits
      rw [hk]
      dsimp only
      by_cases hf : (c.credits : Int) ≤ (s.budget.capacity : Int) - s.granted
      · rw [if_pos hf, if_pos (by simpa using hf)]
        exact step _ (engageGranted_granted hk (hsd c (List.mem_cons_self ..)) hh)
      · rw [if_neg hf, if_neg (by simpa using hf)]
        exact Served.none s
    | level n =>
      dsimp only
      unfold State.fits
      rw [hk]
      dsimp only
      by_cases hf : s.budget.shedding = false ∧ (c.credits : Int) ≤ (s.budget.capacity : Int) - s.granted - s.tables.reserve
      · rw [if_pos hf, if_pos (by simp [hf.1]; omega)]
        exact step _ (levelGranted_granted hk)
      · rw [if_neg hf, if_neg (by
          intro h
          simp only [Bool.and_eq_true, Bool.not_eq_true', decide_eq_true_eq] at h
          exact hf ⟨h.1, by omega⟩)]
        exact ih s hn.2 (fun x hx => hsd x (List.mem_cons_of_mem _ hx)) hh (fun y hy x hx e => hq y hy x (List.mem_cons_of_mem _ hx) e)

end Walk

end Sys2Proof.Machine
end

