-- ==== Sys2Proof/Laws/Shedding.lean ====
section
/-! SUPPORT. What the shedding steps of a feeder event leave (R100 to R102). -/

namespace Sys2Proof.Machine

section Steps

variable {u x y v : State} {b c : BerthId}

/-- The state of a feeder event after its steps 1 and 2. -/
structure Fed (u x : State) : Prop where
  berths : x.berths = u.berths
  chans : x.chans = u.chans
  tables : x.tables = u.tables
  pass : x.scan.passNumber = u.scan.passNumber
  maint : x.timer.maint = u.timer.maint
  holds : x.holds = u.holds
  owq : x.owq = u.owq
  log : u.log.Alike x.log
  capacity : x.budget.capacity = u.budget.capacity
  shedding : x.budget.shedding = u.budget.shedding
  claims : x.budget.claims = u.budget.claims
  stack : x.budget.stack = u.budget.stack

theorem Fed.berth (h : Fed u x) (b) : x.berth b = u.berth b := by unfold State.berth; rw [h.berths]
theorem Fed.chan (h : Fed u x) (b) : x.chan b = u.chan b := by unfold State.chan; rw [h.chans]
theorem Fed.static (h : Fed u x) (b) : x.static b = u.static b := by unfold State.static; rw [h.tables]
theorem Fed.levelEntry (h : Fed u x) (n) : x.levelEntry n = u.levelEntry n := by unfold State.levelEntry; rw [h.tables]
theorem Fed.levelCredits (h : Fed u x) (n) : x.levelCredits n = u.levelCredits n := by
    unfold State.levelCredits; rw [h.levelEntry]
theorem Fed.granted (h : Fed u x) : x.granted = u.granted := by
  unfold State.granted
  have : ∀ c, x.held c = u.held c := fun c => by unfold State.held; rw [h.berth, h.levelCredits]
  rw [List.map_congr_left (fun c _ => this c)]

theorem Fed.stands (h : Fed u x) {y : State} {z q R} (hs : Stands x y b z q [R]) : Stands u y b z q [R] where
  berths := by rw [hs.berths, h.berths]
  chans := hs.chans.trans h.chans
  tables := hs.tables.trans h.tables
  pass := hs.pass.trans h.pass
  holds := hs.holds.trans h.holds
  owq := hs.owq
  log := (h.log.stageAll _).trans hs.log
  capacity := hs.capacity.trans h.capacity
  shedding := hs.shedding.trans h.shedding
  claims := hs.claims.trans h.claims

/-- Steps 3 and 4 of R102 and the marks of steps 5 and 6. -/
def shedSteps (x : State) : State :=
  let s3 := if x.budget.shedding then x.shedStep .load else x
  let s4 := if s3.budget.capacity < s3.granted then s3.shedStep .capacity else s3
  remark s4 true true

theorem recompute_keeps (y : State) (b) : (y.recomputeClaim b).granted = y.granted ∧
    (y.recomputeClaim b).budget.capacity = y.budget.capacity ∧ (y.recomputeClaim b).budget.stack = y.budget.stack := by
  unfold State.recomputeClaim
  split
  · exact ⟨rfl, rfl, rfl⟩
  · split
    · exact ⟨rfl, rfl, rfl⟩
    · dsimp only
      split
      · exact ⟨rfl, rfl, rfl⟩
      · refine ⟨?_, ?_, ?_⟩
        · have ht : ((y.withdrawClaim b).finalise b .nobudget).tables = y.tables := by rw [State.finalise_tables, State.withdrawClaim_tables]
          have hb : ((y.withdrawClaim b).finalise b .nobudget).berths = y.berths.set b ((y.berth b).finalised .nobudget) := by
            rw [finalise_berths, State.berth_withdrawClaim, State.withdrawClaim_berths]
          have := State.granted_of ht hb
          unfold State.held at this
          rw [(Berth.finalised_fields _ _).1, (Berth.finalised_fields _ _).2] at this
          omega
        · rw [State.finalise_budget]; unfold State.withdrawClaim; split <;> rfl
        · rw [State.finalise_budget, State.withdrawClaim_stack]

theorem shedStep_cons {rest} (h : x.budget.stack = b :: rest) (k) : x.shedStep k = x.stepDown b .shed k.code := by
  unfold State.shedStep; rw [h]

theorem shedStep_nil (h : x.budget.stack = []) (k) : x.shedStep k = x := by
  unfold State.shedStep; rw [h]

theorem end_of_nil {z : State} (h : z.budget.claims = []) : Tested z z.endEvent :=
  endEvent_of_pass (by rw [State.servicePass_of_nil h]; split <;> rfl)

/-- What one step of the berth on top leaves, with C and the rest of the stack. -/
theorem shedStep_stands (h : Fed u x) {rest} (hst : u.budget.stack = b :: rest) (hnr : b ∉ rest) (k : ShedCause) :
    ∃ y : State, x.shedStep k = y.recomputeClaim b
        ∧ Stands u y b (u.berth b).stepped (placeAll u.owq [u.seqEntry b .chargeLimit (u.levelEntry ((u.berth b).level - 1)).limit, u.rspEntry b (u.berth b).stepped]) [u.shedRecord b k.code (u.berth b).level]
      ∧ ((u.berth b).level ≤ 1 → y.budget.stack = rest) ∧ (1 < (u.berth b).level → y.budget.stack = b :: rest)
      ∧ y.granted + u.levelCredits (u.berth b).level = u.granted + u.levelCredits ((u.berth b).level - 1) := by
  obtain ⟨y, hy, hs, hk, -⟩ := stepDown_stands x b .shed k.code
  refine ⟨y, (shedStep_cons (h.stack.trans hst) k).trans hy, ?_, ?_, ?_, ?_⟩
  · have := h.stands hs
    have e : stepRecord x b .shed k.code = u.shedRecord b k.code (u.berth b).level := by
      unfold stepRecord State.shedRecord; rw [h.berth, h.pass]
    rw [e, h.berth, h.owq, seqEntry_congr h.tables, rspEntry_congr h.tables, h.levelEntry] at this
    exact this
  · intro hl
    rw [hk, h.berth, h.stack, hst]
    unfold stackAfter
    rw [if_neg (by omega), if_pos (by omega)]
    simp only [List.filter_cons, ne_eq, not_true_eq_false, decide_false, Bool.false_eq_true, if_false]
    rw [List.filter_eq_self]
    intro a ha
    simp only [decide_not, Bool.not_eq_true', decide_eq_false_iff_not]
    intro e; rw [e] at ha; exact hnr ha
  · intro hl
    rw [hk, h.berth, h.stack, hst]
    unfold stackAfter
    rw [if_neg (by omega), if_neg (by omega)]
  · have hs' := h.stands hs
    have := State.granted_of hs'.tables hs'.berths
    unfold State.held at this
    rw [h.berth] at this
    unfold Berth.stepped at this
    dsimp only at this
    omega

theorem Fed.granteds (h : Fed u x) (c : Claim) : x.grantedBerth c = u.grantedBerth c
    ∧ x.grantedChannels c = u.grantedChannels c ∧ x.grantedHolds c = u.grantedHolds c ∧ x.grantedWrites c = u.grantedWrites c
      ∧ x.grantedRecords c = u.grantedRecords c ∧ ∀ st, x.grantedStack st c = u.grantedStack st c := by
  have hg : ∀ b, x.goesOn b = u.goesOn b := fun b => by unfold State.goesOn; rw [h.berth]
  have hB : x.grantedBerth c = u.grantedBerth c := by unfold State.grantedBerth; rw [hg, h.berth, h.static]
  have hh : ∀ b, x.holdsOf b = u.holdsOf b := fun b => by unfold State.holdsOf; rw [h.holds]
  refine ⟨hB, ?_, ?_, ?_, ?_, ?_⟩
  · unfold State.grantedChannels State.confirmLoaded; rw [hg, h.chan, h.static, h.maint]
  · unfold State.grantedHolds; rw [h.berth, hh]
  · unfold State.grantedWrites; rw [hg, hB, h.berth, hh]
    unfold State.seqEntry State.rspEntry State.levelEntry; rw [h.tables]
  · unfold State.grantedRecords State.finalRecords State.finalRecord State.moveRecord State.stateRecord; rw [hg, h.berth,
        h.pass]
  · intro st; unfold State.grantedStack; rw [h.berth]

theorem Fed.claimsSound (h : Fed u x) (hs : u.claimsSound) : x.claimsSound := by
  obtain ⟨h1, h2, h3⟩ := hs
  refine ⟨by rw [h.claims]; exact h1, ?_, by rw [h.holds]; exact h3⟩
  rw [h.claims]
  intro c hc
  have := h2 c hc
  unfold State.claimSound at *
  have hh : ∀ b, x.holdsOf b = u.holdsOf b := fun b => by unfold State.holdsOf; rw [h.holds]
  rw [h.berth, h.static, hh]
  split
  · rename_i hk; rw [hk] at this; exact this
  · rename_i hk; rw [hk] at this
    rw [h.levelCredits, h.levelCredits]; exact this

/-- A service pass at an event's end. -/
theorem servicePass_grants (h : Fed u x) (hd : x.budget.serviceDue = true) (hs : u.claimsSound) {rs}
    (hl : (u.log.stageAll rs).Alike x.log) :
    u.grantsMade x.endEvent (served u.budget.shedding u.tables.reserve ((u.budget.capacity : Int) - u.granted) u.budget.claims) rs := by
  obtain ⟨h1, h2, h3⟩ := h.claimsSound hs
  have hw := serviceWalk_served x.budget.claims x h1 h2 h3 (fun y hy c hc e => eq_of_key_eq h1 hy hc e)
  rw [h.shedding, h.tables, h.capacity, h.granted, h.claims] at hw
  have ht := endEvent_of_pass (s := x) (z := x.serviceWalk u.budget.claims) (by rw [hd]; unfold State.servicePass; rw [h.claims]; rfl)
  generalize served u.budget.shedding u.tables.reserve ((u.budget.capacity : Int) - u.granted) u.budget.claims = g at *
  have hwr : ∀ l : List Claim, l.flatMap x.grantedWrites = l.flatMap u.grantedWrites := by
    intro l; induction l with
    | nil => rfl
    | cons a r ih => rw [List.flatMap_cons, List.flatMap_cons, (h.granteds a).2.2.2.1, ih]
  have hre : ∀ l : List Claim, l.flatMap x.grantedRecords = l.flatMap u.grantedRecords := by
    intro l; induction l with
    | nil => rfl
    | cons a r ih => rw [List.flatMap_cons, List.flatMap_cons, (h.granteds a).2.2.2.2.1, ih]
  have hsk : ∀ (l : List Claim) st, l.foldl x.grantedStack st = l.foldl u.grantedStack st := by
    intro l; induction l with
    | nil => intro st; rfl
    | cons a r ih => intro st; rw [List.foldl_cons, List.foldl_cons, (h.granteds a).2.2.2.2.2, ih]
  refine ⟨?_, ?_, ?_, ?_, ?_, ?_, ?_⟩
  · rw [ht.claims, hw.claims, h.claims]
  · intro c hc
    have := hw.at' c hc
    rw [(h.granteds c).1, (h.granteds c).2.1] at this
    exact ⟨by unfold State.berth at *; rw [ht.berths]; exact this.1, by unfold State.chan at *; rw [ht.chans]; exact this.2⟩
  · intro b hb
    have := hw.others b hb
    rw [h.berth, h.chan] at this
    exact ⟨by unfold State.berth at *; rw [ht.berths]; exact this.1, by unfold State.chan at *; rw [ht.chans]; exact this.2⟩
  · rw [ht.holds, hw.holds, h.holds]
    refine List.filter_congr fun z _ => ?_
    congr 1
    funext c
    rw [(h.granteds c).2.2.1]
  · rw [ht.owq, hw.owq, h.owq, hwr]
  · rw [ht.stack, hw.stack, h.stack, hsk]
  · obtain ⟨more, m1, m2⟩ := ht.staging
    refine ⟨more, m1, ?_⟩
    rw [m2, Log.stageAll_append]
    congr 1
    rw [← hre]
    exact ((hl.stageAll _).trans hw.log).staging

/-- What the shedding steps of a feeder event leave (R101, R102). -/
theorem shedSteps_follows (h : Fed u x) : u.shedFollowed (shedSteps x).endEvent := by
  refine ⟨fun hno hs => ?_, fun b rest hst hnr => ⟨fun q hq => ?_, fun hsh hcl hlow => ⟨fun hl => ?_, fun c rest' hl hrest => ?_⟩⟩⟩
  · have e : shedSteps x = remark x true true := by
      unfold shedSteps
      dsimp only
      rcases hno with hno | ⟨h1, h2⟩
      · rw [shedStep_nil (h.stack.trans hno), shedStep_nil (x := if x.budget.shedding = true then x else x) (by split <;> exact h.stack.trans hno)]
        simp
      · rw [h.shedding, h1]
        simp only [Bool.false_eq_true, if_false]
        rw [if_neg (by rw [h.capacity, h.granted]; omega)]
    rw [e]
    have h' : Fed u (remark x true true) := ⟨h.berths, h.chans, h.tables, h.pass, h.maint, h.holds, h.owq, h.log, h.capacity,
        h.shedding, h.claims, h.stack⟩
    exact servicePass_grants h' rfl hs h.log
  · obtain ⟨k, hk⟩ : ∃ k : ShedCause, k.code = q := by
      rcases hq with ⟨_, h, _⟩ | ⟨_, h, _⟩
      · exact ⟨.load, h.symm⟩
      · exact ⟨.capacity, h.symm⟩
    obtain ⟨y, y1, y2, y3, y4, y5⟩ := shedStep_stands h hst hnr k
    rw [hk] at y2
    have e : shedSteps x = remark (y.recomputeClaim b) true true := by
      obtain ⟨r1, r2, r3⟩ := recompute_keeps y b
      unfold shedSteps
      dsimp only
      rcases hq with ⟨hon, hq0, hc⟩ | ⟨hoff, hq1, hc⟩
      · have hkl : k = .load := by
          cases k
          · rfl
          · rw [hq0] at hk; cases hk
        rw [hkl] at y1
        rw [h.shedding, hon, if_pos rfl, y1]
        rcases hc with hc | ⟨hr, hl⟩
        · rw [if_neg (by rw [r1, r2, y2.capacity]; omega)]
        · have : (y.recomputeClaim b).budget.stack = [] := by rw [r3, y3 hl, hr]
          rw [shedStep_nil this]; simp
      · have hkl : k = .capacity := by
          cases k
          · rw [hq1] at hk; cases hk
          · rfl
        rw [hkl] at y1
        rw [h.shedding, hoff]
        simp only [Bool.false_eq_true, if_false]
        rw [if_pos (by rw [h.capacity, h.granted]; exact hc), y1]
    rw [e]
    refine ⟨fun hcl => ?_, fun n k' hk' => ?_⟩
    · have hyn : y.noClaim b := by unfold State.noClaim; rw [y2.claims, hcl]; intro c hc; cases hc
      rw [recompute_of_noClaim hyn]
      have ht : Tested (remark y true true) (remark y true true).endEvent := end_of_nil (y2.claims.trans hcl)
      have ht' : Tested y (remark y true true).endEvent := ⟨ht.berths, ht.chans, ht.sups, ht.tables, ht.scan, ht.holds,
          ht.owq, ht.claims, ht.stack, ht.capacity, ht.shedding, ht.staging⟩
      refine ⟨stands_ends y2 rfl ht', fun c hc => ?_, fun hl => ht'.stack.trans (y3 hl), fun hl => by rw [ht'.stack, y4 hl, hst]⟩
      have : ((remark y true true).endEvent.berths.get c) = u.berth c := by rw [ht'.berths]; exact y2.berth_of_ne hc
      exact this
    · exact recomputeClaim_answers true true y2 hk' (fun _ => rfl)
  all_goals
    obtain ⟨y, y1, y2, y3, y4, y5⟩ := shedStep_stands h hst hnr .load
    have hyn : y.noClaim b := by unfold State.noClaim; rw [y2.claims, hcl]; intro c hc; cases hc
    rw [recompute_of_noClaim hyn] at y1
    have e : shedSteps x = remark (y.shedStep .capacity) true true := by
      unfold shedSteps
      dsimp only
      rw [h.shedding, hsh, if_pos rfl, y1, if_pos (by rw [y2.capacity]; omega)]
    rw [e]
  · obtain ⟨z, z1, z2, z3, -⟩ := stepDown_stands y b .shed 1
    rw [shedStep_cons (y4 (by omega)) .capacity]
    have hzn : z.noClaim b := by unfold State.noClaim; rw [z2.claims, y2.claims, hcl]; intro c hc; cases hc
    rw [show ShedCause.capacity.code = (1 : BitVec 3) from rfl, z1, recompute_of_noClaim hzn]
    have ht : Tested (remark z true true) (remark z true true).endEvent := end_of_nil (z2.claims.trans (y2.claims.trans hcl))
    have lc : (y.berth b).level = (u.berth b).level - 1 := by rw [y2.berth]; rfl
    refine ⟨ht.leaves ?_ ?_ ?_ ?_ ?_, fun c hc => ?_⟩
    · refine z2.berth.trans ?_; rw [y2.berth]
    · exact (z2.chan b).trans (y2.chan b)
    · exact z2.holds.trans y2.holds
    · refine z2.owq.trans ?_
      rw [y2.owq, seqEntry_congr y2.tables, rspEntry_congr y2.tables, lc, y2.berth, ← placeAll_append]
      unfold State.levelEntry
      rw [y2.tables]; rfl
    · have hr : stepRecord y b .shed 1 = u.shedRecord b 1 ((u.berth b).level - 1) := by
        unfold stepRecord State.shedRecord; rw [lc, y2.pass]
      have := z2.log
      rw [hr] at this
      exact (y2.log.stageAll _).trans this
    · have : ((remark z true true).endEvent.berths.get c) = u.berth c := by
        rw [ht.berths]; exact (z2.berth_of_ne hc).trans (y2.berth_of_ne hc)
      exact this
  · have hcb : c ≠ b := fun e => hnr (by rw [hrest, e]; exact List.mem_cons_self ..)
    obtain ⟨z, z1, z2, z3, -⟩ := stepDown_stands y c .shed 1
    rw [shedStep_cons ((y3 hl).trans hrest) .capacity]
    have hzn : z.noClaim c := by unfold State.noClaim; rw [z2.claims, y2.claims, hcl]; intro c hc; cases hc
    rw [show ShedCause.capacity.code = (1 : BitVec 3) from rfl, z1, recompute_of_noClaim hzn]
    have ht : Tested (remark z true true) (remark z true true).endEvent := end_of_nil (z2.claims.trans (y2.claims.trans hcl))
    have hyc : y.berth c = u.berth c := y2.berth_of_ne hcb
    refine ⟨?_, ht.leaves ?_ ?_ ?_ ?_ ?_, fun x hx hx' => ?_⟩
    · have : ((remark z true true).endEvent.berths.get b) = (u.berth b).stepped := by
        rw [ht.berths]; exact (z2.berth_of_ne hcb.symm).trans y2.berth
      exact this
    · refine z2.berth.trans ?_; rw [hyc]
    · exact (z2.chan c).trans (y2.chan c)
    · exact z2.holds.trans y2.holds
    · refine z2.owq.trans ?_
      rw [y2.owq, seqEntry_congr y2.tables, rspEntry_congr y2.tables, hyc, ← placeAll_append]
      unfold State.levelEntry
      rw [y2.tables]; rfl
    · have hr : stepRecord y c .shed 1 = u.shedRecord c 1 (u.berth c).level := by
        unfold stepRecord State.shedRecord; rw [hyc, y2.pass]
      have := z2.log
      rw [hr] at this
      exact (y2.log.stageAll _).trans this
    · have : ((remark z true true).endEvent.berths.get x) = u.berth x := by
        rw [ht.berths]; exact (z2.berth_of_ne hx').trans (y2.berth_of_ne hx)
      exact this

end Steps

end Sys2Proof.Machine
end

