-- ==== Sys2Proof/Laws/Results.lean ====
section
/-! SUPPORT. A read of the last word of a berth block that gives a fresh result: what reaches Supervision, Sequencer and adoption (03, 04, 11). -/

namespace Sys2Proof.Machine

section Sups

variable {s w u t : State} {b : BerthId} {r : ScanResult}

theorem giveUpGrant_sups (s : State) (b) : (s.giveUpGrant b).sups = s.sups := by
  unfold State.giveUpGrant; simp
theorem toShore_sups (s : State) (b) : (s.toShore b).sups = s.sups := by
  unfold State.toShore State.shoreLevelZero
  have : (((s.enter b .shore).stopStep b).changeLevel b 0).sups = s.sups := by rw [State.changeLevel_sups]; rfl
  dsimp only
  split
  · exact this
  · exact this
theorem leaveIfShore_sups (s : State) (b o) : (s.leaveIfShore b o).sups = s.sups := by
  unfold State.leaveIfShore State.leaveShore
  split
  · simp
  · rfl
theorem openWrites_sups (z : State) (b m) : (openWrites z b m).sups = z.sups := by cases m <;> rfl
theorem report_sups (s : State) (b o m) : (s.reportState b o m).sups = s.sups := rfl
theorem finalReport_sups (s : State) (b o m x) : ((s.finalise b x).reportState b o m).sups = s.sups := by
  rw [report_sups, State.finalise_sups]
theorem shoreOpened_sups (s : State) (b) : (s.shoreOpened b).sups = s.sups := by
  have key : ∀ x o, ((((State.enter x b .cabled).stopChannels b).leaveIfShore b o).returnBase b).sups = x.sups := by
    intro x o; rw [State.returnBase_sups, leaveIfShore_sups]; rfl
  unfold State.shoreOpened
  split
  · unfold State.lossOfSupply; dsimp only; rw [finalReport_sups]; exact key _ _
  · unfold State.manualShoreOpen; dsimp only; rw [finalReport_sups, key]; exact State.cancelHolds_sups _ _
theorem shipconOpened_sups (s : State) (b) : (s.shipconOpened b).sups = s.sups := by
  rw [shipconOpened_eq, finalReport_sups, openWrites_sups, leaveIfShore_sups]; rfl
theorem startOf_sups (s : State) (b) : (s.startOf b).sups = s.sups := by
  unfold State.startOf; split
  · rfl
  · exact State.cancelHolds_sups _ _
theorem autoWrite_sups (s : State) (b m) : (autoWrite s b m).sups = s.sups := by cases m <;> rfl
theorem shipconClosed_sups (s : State) (b r) : (s.shipconClosed b r).sups = s.sups := by
  rw [shipconClosed_eq]
  split
  · rw [finalReport_sups, toShore_sups, startOf_sups]
  · rw [report_sups, autoWrite_sups]; exact startOf_sups s b
theorem releaseHold_sups (s : State) (h) : (s.releaseHold h).sups = s.sups := rfl
theorem returnDone_sups (s : State) (b) : (s.returnDone b).sups = s.sups := by
  unfold State.returnDone; rw [finalReport_sups]; rfl

theorem sequence_sups (w : State) (b r) : (w.sequence b r).sups = w.sups := by
  unfold State.sequence State.followCable State.engagingResult State.energizingResult State.energizedResult State.syncingResult State.deadbusResult
    State.parallelResult State.shoreResult State.resyncingResult State.unparallelResult State.separatingResult State.disengagingResult
    State.leaveEngaging State.leaveManualEngaging State.energizingCableLoss State.countSyncHold State.countSyncing State.shoreGensClosed
  dsimp only
  repeat' split
  all_goals first
    | rfl
    | (simp [shoreOpened_sups, shipconOpened_sups, shipconClosed_sups, giveUpGrant_sups, toShore_sups, returnDone_sups,
        State.reportState, State.queueRsp,
        State.record, State.enter, State.stopStep, State.toDisengaging, State.loadStep, State.stopChannels, State.seqWrite,
        State.leaveShore])

theorem serviceWalk_sups (l : List Claim) : ∀ s : State, (s.serviceWalk l).sups = s.sups := by
  have key : ∀ x : State, ∀ c, (x.grantNotice c).sups = x.sups := by
    intro x c; unfold State.grantNotice; repeat' split
    all_goals rfl
  induction l with
  | nil => intro s; rfl
  | cons c rest ih =>
    intro s
    unfold State.serviceWalk
    repeat' split
    · rw [ih]; unfold State.grantEngage; rw [key]; rfl
    · rfl
    · rw [ih]; unfold State.grantLevel; simp [State.queueRsp]
    · exact ih s

theorem endEvent_sups (s : State) : s.endEvent.sups = s.sups := by
  have h1 : ∀ x : State, x.overcommitTest.sups = x.sups := by
    intro x; unfold State.overcommitTest; repeat' split
    all_goals rfl
  unfold State.endEvent
  dsimp only
  show State.sups (if _ then _ else _) = _
  have h2 : (if s.budget.serviceDue = true then s.servicePass else s).sups = s.sups := by
    split
    · exact serviceWalk_sups _ _
    · rfl
  generalize (if s.budget.serviceDue = true then s.servicePass else s) = x at *
  split
  · rw [h1, h2]
  · exact h2

theorem recomputeClaim_sups (y : State) (b) : (y.recomputeClaim b).sups = y.sups := by
  unfold State.recomputeClaim; repeat' split
  · rfl
  · rfl
  · dsimp only; split
    · rfl
    · simp

theorem stepDown_sups (s : State) (b t q) : (s.stepDown b t q).sups = s.sups := by
  unfold State.stepDown; dsimp only
  rw [recomputeClaim_sups]; simp [State.record, State.queueRsp]

theorem handed_sups (w : State) (b r) : (w.handed b r).sups = w.sups := by
  have h1 : ∀ x : State, (x.countShore b r).sups = x.sups := by
    intro x; unfold State.countShore
    dsimp only
    generalize (if r.load < _ then _ else _) = k
    split
    · rw [stepDown_sups]; rfl
    · rfl
  unfold State.handed
  split
  · rw [h1, sequence_sups]
  · exact sequence_sups _ _ _

end Sups

section Fresh

variable {s w u t : State} {b : BerthId} {r : ScanResult}

/-- The event of a block's last read begins here. -/
def State.readBegun (s : State) (a : Word) (station : Option Word) : State := ((s.stationWrote a station).portFree).clearMarks

theorem readBegun_shape (s : State) (a) (st) :
    s.readBegun a st = { s with pim := (s.stationWrote a st).pim, ports := { s.ports with busy := none }, budget := { s.budget with serviceDue := false, testDue := false } } := by
  cases st <;> rfl

/-- The last read of a berth block is judged, and the event ends (R54). -/
theorem lastRead_eq {station ws last} (hm : Memory.wf s.pim = true) (h : s.lastBerthRead b station ws last) :
    ∃ a, s.ports.busy = some (.scanRead a) ∧ s.scanReadDone station = (((s.readBegun a station).judgeBerth b (ws ++ [last])).endEvent).passOn (.berth b) := by
  obtain ⟨h1, h2, a, h3, h4⟩ := h
  refine ⟨a, h3, ?_⟩
  unfold State.scanReadDone
  rw [h3, h2]
  dsimp only
  have e : (s.stationWrote a station).portFree.pimRead a = last := by
    rw [h4]; exact State.pimRead_stationWrote a station hm
  rw [e]
  unfold State.scanWord
  simp only [List.length_append, h1, List.length_singleton]
  rw [if_neg (by simp [Block.reads])]
  rfl

/-- A fresh result is accepted and handed over (R57). -/
theorem fresh_eq {station ws last} (hm : Memory.wf s.pim = true) (h : s.lastBerthRead b station ws last)
    (he : last = ws.getD 0 0)
    (hs : (s.block b).status ≠ .unseen) (hr : (s.block b).reference ≠ some last) :
    ∃ a, s.scanReadDone station = (((((s.readBegun a station).setBlock b { status := .accepting, reference := some last, stale := 0 }).deliverBerth b (resultOf ws))).endEvent).passOn (.berth b) := by
  obtain ⟨a, -, e⟩ := lastRead_eq hm h
  refine ⟨a, ?_⟩
  rw [e]
  obtain ⟨h1, -⟩ := h
  have hb : (s.readBegun a station).block b = s.block b := by rw [readBegun_shape]; rfl
  have g : ∀ i, i < 8 → (ws ++ [last]).getD i 0 = ws.getD i 0 := by
    intro i hi
    simp [List.getD, List.getElem?_append_left (by omega : i < ws.length)]
  have g8 : (ws ++ [last]).getD 8 0 = last := by
    simp [List.getD, h1]
  unfold State.judgeBerth
  have hj : ((s.readBegun a station).block b).judge ((s.readBegun a station).static b).staleLimit ((ws ++ [last]).getD 0 0) ((ws ++ [last]).getD 8 0) = ({ status := .accepting, reference := some last, stale := 0 }, .fresh) := by
    rw [g 0 (by omega), g8, hb, ← he]
    unfold BlockScan.judge BlockScan.judgeSeen
    simp only [ne_eq, not_true_eq_false, if_false]
    cases hst : (s.block b).status
    · exact absurd hst hs
    · simp [hr]
    · simp [hr]
  rw [hj]
  dsimp only
  rw [g 1 (by omega), g 2 (by omega), g 3 (by omega), g 4 (by omega), g 5 (by omega), g 6 (by omega), g 7 (by omega)]
  rfl

theorem passOn_shape (s : State) (k) : ∃ e, s.passOn k = { s with scan := e } := by
  unfold State.passOn
  split <;> exact ⟨_, rfl⟩

theorem handed_eq (h : (w.berth b).state ≠ .shore) : w.handed b r = w.sequence b r := by
  unfold State.handed; rw [if_neg (fun x => h x.1)]

theorem shoreOpened_state (w : State) (b) : ((w.shoreOpened b).berth b).state = .cabled := by
  have key : ∀ (x z : State) (o : BState) (m : Mode), z.berths = ((((x.enter b .cabled).stopChannels b).leaveIfShore b o).returnBase b).berths →
      (((z.finalise b .aborted).reportState b o m).berth b).state = .cabled := by
    intro x z o m hz
    show ((State.finalise _ b _).berth b).state = _
    rw [State.berth_finalise_same, show ∀ x : Berth, ∀ y, (x.finalised y).state = x.state from fun x y => by unfold Berth.finalised; split <;> rfl]
    unfold State.berth
    rw [hz]
    show (State.berth _ b).state = _
    rw [State.berth_returnBase_same]
    show (State.berth _ b).state = _
    rw [(leaveIfShore_fields _ b o).berth, (Berth.leftShore_fields _ _).2.2.1]
    exact congrArg Berth.state (berth_enter .cabled)
  unfold State.shoreOpened
  split
  · exact key w _ _ _ rfl
  · exact key _ _ _ _ rfl

theorem shipconOpened_state (w : State) (b) : ((w.shipconOpened b).berth b).state = .energized := by
  rw [shipconOpened_eq]
  show ((State.finalise _ b _).berth b).state = _
  rw [State.berth_finalise_same, show ∀ x : Berth, ∀ y, (x.finalised y).state = x.state from fun x y => by unfold Berth.finalised; split <;> rfl]
  unfold State.berth
  rw [(openWrites_fields _ b _).1]
  show (State.berth _ b).state = _
  rw [(leaveIfShore_fields _ b _).berth, (Berth.leftShore_fields _ _).2.2.1]
  exact congrArg Berth.state (berth_enter .energized)

theorem handed_open (ho : r.shore = .open ∨ r.shipcon = .open) : w.handed b r = w.sequence b r := by
  by_cases h : (w.berth b).state = .shore
  · have : ((w.sequence b r).berth b).state ≠ .shore := by
      unfold State.sequence; rw [h]; dsimp only; unfold State.shoreResult
      split
      · rw [shoreOpened_state]; simp
      · rename_i hn
        rw [if_pos (ho.resolve_left hn), shipconOpened_state]; simp
    unfold State.handed; rw [if_neg (fun x => this x.2)]
  · exact handed_eq h

/-- What a result without a fault does to its berth. -/
structure Followed (u t : State) (b : BerthId) (r : ScanResult) : Prop where
  cable : u.cableFollowed t b r
  engaging : u.engagingFollowed t b r
  energizing : u.energizingFollowed t b r
  supply : u.supplyLossFollowed t b r
  closing : u.closingFollowed t b r
  sync : u.syncFollowed t b r
  opening : u.openingFollowed t b r
  generators : u.generatorsFollowed t b r
  shore : u.shoreFollowed t b r

/-- A fresh result handed over without a fault. -/
theorem handed_follows (hm : w.begun) : Followed w (w.handed b r).endEvent b r where
  cable := by
    refine ⟨fun h => ?_, fun h => ?_⟩
    · rw [handed_eq (by simp [h])]; exact (sequence_cable hm).1 h
    · rw [handed_eq (by simp [h])]; exact (sequence_cable hm).2 h
  engaging := fun h => by rw [handed_eq (by simp [h])]; exact sequence_engaging hm h
  energizing := fun h => by rw [handed_eq (by simp [h])]; exact sequence_energizing hm h
  supply := fun h => by rw [handed_open (.inl h)]; exact sequence_supplyLoss w b r h
  closing := fun h1 h2 h3 => by
    rw [handed_eq (by rcases h3 with h | ⟨-, h | h⟩ <;> simp [h])]; exact sequence_closing hm h1 h2 h3
  sync := fun h1 h2 => by
    refine ⟨fun h => ?_, fun h => ?_, fun h => ?_⟩
    · rw [handed_eq (by simp [h])]; exact (sequence_sync hm h1 h2).1 h
    · rw [handed_eq (by simp [h])]; exact (sequence_sync hm h1 h2).2.1 h
    · rw [handed_eq (by simp [h])]; exact (sequence_sync hm h1 h2).2.2 h
  opening := fun h1 h2 => by rw [handed_open (.inr h2)]; exact sequence_opening hm h1 h2
  generators := by
    have g := sequence_generators (b := b) (r := r) hm
    refine ⟨fun h1 h2 => ⟨fun h => ?_, fun h => ?_, fun h => ?_, fun h => ?_⟩, fun h => ?_⟩
    · rw [handed_eq (by simp [h])]; exact (g.1 h1 h2).1 h
    · rw [handed_eq (by simp [h])]; exact (g.1 h1 h2).2.1 h
    · rw [handed_eq (by simp [h])]; exact (g.1 h1 h2).2.2.1 h
    · rw [handed_eq (by simp [h])]; exact (g.1 h1 h2).2.2.2 h
    · rw [handed_eq (by simp [h])]; exact g.2 h
  shore := handed_shore hm

theorem Followed.around (h : Followed (u.around w) t b r) : Followed u t b r :=
  ⟨cable_around.mp h.cable, engaging_around.mp h.engaging, energizing_around.mp h.energizing, supply_around.mp h.supply,
      closing_around.mp h.closing,
    sync_around.mp h.sync, opening_around.mp h.opening, generators_around.mp h.generators, shore_around.mp h.shore⟩

theorem Followed.scan (h : Followed u t b r) (e) : Followed u { t with scan := e } b r :=
  ⟨h.cable, h.engaging, h.energizing, h.supply, h.closing, h.sync, h.opening, h.generators, h.shore⟩

/-- A fresh result without a fault: the counters are brought up to date, and the Sequencer follows the result. -/
theorem fresh_followed {station ws last} (hm : Memory.wf s.pim = true) (h : s.lastBerthRead b station ws last)
    (he : last = ws.getD 0 0)
    (hs : (s.block b).status ≠ .unseen) (hr : (s.block b).reference ≠ some last) (hf : s.faultFree b (resultOf ws)) :
    (s.scanReadDone station).sup b = s.supervisedOnly b (resultOf ws) ∧ Followed (s.received b (resultOf ws)) (s.scanReadDone station) b (resultOf ws) := by
  obtain ⟨a, e⟩ := fresh_eq hm h he hs hr
  rw [e]
  generalize resultOf ws = r at *
  obtain ⟨e2, hp⟩ := passOn_shape (((((s.readBegun a station).setBlock b { status := .accepting, reference := some last, stale := 0 }).deliverBerth b r)).endEvent) (.berth b)
  rw [hp]
  obtain ⟨f1, f2, f3⟩ := hf
  -- the state that the Sequencer finds
  generalize hy : ((s.readBegun a station).setBlock b { status := .accepting, reference := some last, stale := 0 }).received b r = y
  have yb : y.berth b = { s.berth b with latest := some r } := by
    rw [← hy, readBegun_shape]; exact Eight.get_set_same _ _ _
  have yb' : y.berths = (s.received b r).berths := by rw [← hy, readBegun_shape]; rfl
  have ys : y.sup b = s.sup b := by rw [← hy, readBegun_shape]; rfl
  have yt : y.tables = s.tables := by rw [← hy, readBegun_shape]; rfl
  have ybg : y.begun := by rw [← hy, readBegun_shape]; exact ⟨rfl, rfl⟩
  have yar : ∀ x, y.setSup b x = (s.received b r).around (y.setSup b x) := by
    intro x; rw [← hy, readBegun_shape]; rfl
  have ym : y.meets b r FaultSet.empty := by
    unfold State.meets State.threshold State.static at *
    rw [yb, ys, yt]; exact f3
  have yso : y.supervisedOnly b r = s.supervisedOnly b r := by
    unfold State.supervisedOnly State.threshold State.static
    rw [yb, ys, yt]
  have e3 : ((s.readBegun a station).setBlock b { status := .accepting, reference := some last, stale := 0 }).deliverBerth b r = (y.setSup b (y.supervisedOnly b r)).handed b r := by
    unfold State.deliverBerth
    rw [show ((s.readBegun a station).setBlock b { status := .accepting, reference := some last, stale := 0 }).setBerth b _ = y from hy]
    dsimp only
    have a1 : (y.berth b).state ≠ .adopting := by rw [yb]; exact f1
    have a2 : (y.berth b).state ≠ .lockout := by rw [yb]; exact f2
    rw [if_neg a1]
    have : y.supervise b r = y.setSup b (y.supervisedOnly b r) := by
      unfold State.supervise; rw [if_neg a2, superviseLive_eq a1 ym]; rfl
    rw [this]
    rfl
  rw [e3]
  have hfo := handed_follows (b := b) (r := r) (w := y.setSup b (y.supervisedOnly b r)) ybg
  refine ⟨?_, Followed.scan (Followed.around (w := y.setSup b (y.supervisedOnly b r)) (by rw [← yar]; exact hfo)) _⟩
  show State.sup (State.endEvent _) b = _
  unfold State.sup
  rw [endEvent_sups, handed_sups, ← yso]
  exact Eight.get_set_same _ _ _

end Fresh

section Faults

variable {s w u t : State} {b : BerthId} {r : ScanResult} {f : FaultSet}

/-- The state in which a fresh result is handed over. -/
def State.handing (s : State) (a : Word) (b : BerthId) (station : Option Word) (last : Word) (r : ScanResult) : State :=
  ((s.readBegun a station).setBlock b { status := .accepting, reference := some last, stale := 0 }).received b r

theorem handing_around (s : State) (a b station last r) : s.handing a b station last r = (s.received b r).around
    (s.handing a b station last r) := by
  unfold State.handing; rw [readBegun_shape]; rfl
theorem handing_sups (s : State) (a b station last r) : (s.handing a b station last r).sups = s.sups := by
  unfold State.handing; rw [readBegun_shape]; rfl
theorem handing_phase (s : State) (a b station last r) : (s.handing a b station last r).phase = s.phase := by
  unfold State.handing; rw [readBegun_shape]; rfl
theorem handing_berth (s : State) (a b station last r) :
    (s.handing a b station last r).berth b = { s.berth b with latest := some r } := by
  unfold State.handing; rw [readBegun_shape]; exact Eight.get_set_same _ _ _
theorem handing_tables (s : State) (a b station last r) : (s.handing a b station last r).tables = s.tables := by
  unfold State.handing; rw [readBegun_shape]; rfl
theorem handing_claims (s : State) (a b station last r) : (s.handing a b station last r).budget.claims = s.budget.claims := by
  unfold State.handing; rw [readBegun_shape]; rfl

/-- A fresh read, with the state handed over. -/
theorem freshRead_eq {station} (hm : Memory.wf s.pim = true) (h : s.freshRead b station r) :
    ∃ a last e, s.scanReadDone station = { (if ((s.handing a b station last r).berth b).state = .adopting then ((s.handing a b station last r).adopt b r).supervise b r
       else if ((s.handing a b station last r).berth b).state = .shore ∧ (((((s.handing a b station last r).supervise b r).sequence b r)).berth b).state = .shore then (((s.handing a b station last r).supervise b r).sequence b r).countShore b r else ((s.handing a b station last r).supervise b r).sequence b r).endEvent with scan := e } := by
  obtain ⟨ws, last, h1, h2, h3, h4, rfl⟩ := h
  obtain ⟨a, e⟩ := fresh_eq hm h1 h2 h3 h4
  obtain ⟨e2, hp⟩ := passOn_shape (((((s.readBegun a station).setBlock b { status := .accepting, reference := some last, stale := 0 }).deliverBerth b (resultOf ws))).endEvent) (.berth b)
  exact ⟨a, last, e2, by rw [e, hp]; rfl⟩

theorem lockedOut_around {g q rs} : (u.around w).lockedOut t b f g q rs ↔ u.lockedOut t b f g q rs := Iff.rfl

/-- A fresh result with a fault trips (R72). -/
theorem faulty_trips {station} (hm : Memory.wf s.pim = true) (h : s.freshRead b station r) (hp : s.phase = .running)
    (h1 : (s.berth b).state ≠ .adopting)
    (h2 : (s.berth b).state ≠ .lockout) (hme : s.meets b r f) (hf : f.isEmpty = false) : (s.received b r).tripped (s.scanReadDone station) b f := by
  obtain ⟨a, last, e, he⟩ := freshRead_eq hm h
  rw [he]
  have yar := handing_around s a b station last r
  have yb := handing_berth s a b station last r
  have yt := handing_tables s a b station last r
  have ys := handing_sups s a b station last r
  have yp := handing_phase s a b station last r
  generalize s.handing a b station last r = y at *
  have a1 : (y.berth b).state ≠ .adopting := by rw [yb]; exact h1
  have a2 : (y.berth b).state ≠ .lockout := by rw [yb]; exact h2
  have ym : y.meets b r f := by
    unfold State.meets State.threshold State.static State.sup at *
    rw [yb, ys, yt]; exact hme
  have e1 : y.supervise b r = (y.setSup b (y.supervisedOnly b r)).tripAction b f := by
    unfold State.supervise; rw [if_neg a2, superviseLive_eq a1 ym, hf]; rfl
  have e2 : (((y.setSup b (y.supervisedOnly b r)).tripAction b f).berth b).state = .lockout := by
    rw [(preTrip _ b f).berth]; exact trippedBerth_state _ _
  have e3 : ((y.setSup b (y.supervisedOnly b r)).tripAction b f).sequence b r = (y.setSup b (y.supervisedOnly b r)).tripAction b f := by
    unfold State.sequence; rw [e2]
  rw [if_neg a1, e1, e3, if_neg (by rw [e2]; simp)]
  have := tripAction_tripped (w := y.setSup b (y.supervisedOnly b r)) (b := b) (f := f) (yp.trans hp)
  have e4 : y.setSup b (y.supervisedOnly b r) = (s.received b r).around (y.setSup b (y.supervisedOnly b r)) := by
    have : y.setSup b (y.supervisedOnly b r) = ((s.received b r).around y).setSup b (y.supervisedOnly b r) := by rw [← yar]
    rw [this]; rfl
  have h5 : (s.received b r).tripped ((y.setSup b (y.supervisedOnly b r)).tripAction b f).endEvent b f := by
    rw [e4] at this ⊢
    exact lockedOut_around.mp this
  exact h5

theorem lockoutFollowed_around (hs : w.sups = u.sups) (h : (u.around w).lockoutFollowed t b r) : u.lockoutFollowed t b r := by
  have e : (u.around w) = ({ u with sups := w.sups } : State).around w := rfl
  rw [hs] at e
  intro h1 h2 h3
  have := h h1 h2 h3
  unfold State.lockoutFollowed at h
  have es : (u.around w).sup b = u.sup b := by show w.sups.get b = u.sups.get b; rw [hs]
  rw [es] at this
  exact this

/-- A fresh result in LOCKOUT (R77 to R81). -/
theorem lockout_follows {station} (hm : Memory.wf s.pim = true) (h : s.freshRead b station r)
    (h1 : (s.berth b).state = .lockout) :
    (s.received b r).lockoutFollowed (s.scanReadDone station) b r := by
  obtain ⟨a, last, e, he⟩ := freshRead_eq hm h
  rw [he]
  have yar := handing_around s a b station last r
  have yb := handing_berth s a b station last r
  have ys := handing_sups s a b station last r
  generalize s.handing a b station last r = y at *
  have a1 : (y.berth b).state = .lockout := by rw [yb]; exact h1
  have e1 : y.supervise b r = y.superviseLockout b r := by unfold State.supervise; rw [if_pos a1]
  rw [if_neg (by rw [a1]; simp), if_neg (by rw [a1]; simp), e1]
  have := superviseLockout_follows (w := y) (b := b) (r := r) (by rw [yb])
  have h5 : (s.received b r).lockoutFollowed ((y.superviseLockout b r).sequence b r).endEvent b r := by
    refine lockoutFollowed_around (w := y) ?_ ?_
    · exact ys
    · rw [← yar]; exact this
  exact h5

end Faults

section Adopted

variable {s w u t : State} {b : BerthId} {r : ScanResult} {f : FaultSet}

theorem adoptsAs_around (hs : w.sups = u.sups) {x c ws} (h : (u.around w).adoptsAs t b r x c ws) :
    u.adoptsAs t b r x c ws := by
  rintro v f rfl hm
  have e : (u.around w).adopted b x.state x c ws = (u.adopted b x.state x c ws).around w := rfl
  have es : ((u.around w).adopted b x.state x c ws).sup b = (u.adopted b x.state x c ws).sup b := by show w.sups.get b = u.sups.get b; rw [hs]
  obtain ⟨h1, h2⟩ := h _ f rfl (by
    unfold State.meets at *
    rw [es]
    exact hm)
  refine ⟨fun hf => ⟨(h1 hf).1, (h1 hf).2.trans ?_⟩, fun hf => h2 hf⟩
  unfold State.supervisedOnly
  rw [es]
  rfl

theorem adoptionTrips_around (h : (u.around w).adoptionTrips t b r f) : u.adoptionTrips t b r f := by
  rintro v rfl
  have := h _ rfl
  exact this

/-- The first fresh result in ADOPTING, without a fault (R166). -/
theorem adoption_rows {station} (hm : Memory.wf s.pim = true) (h : s.freshRead b station r) (hp : s.phase = .running)
    (h1 : (s.berth b).state = .adopting)
    (hn : s.noClaim b) (k1 : r.shore ≠ .fault) (k2 : r.shipcon ≠ .fault) (k3 : r.gens ≠ .fault) :
    (s.received b r).rowsFollowed (s.scanReadDone station) b r := by
  obtain ⟨a, last, e, he⟩ := freshRead_eq hm h
  rw [he]
  have yar := handing_around s a b station last r
  have yb := handing_berth s a b station last r
  have ys := handing_sups s a b station last r
  have yp := handing_phase s a b station last r
  have yc := handing_claims s a b station last r
  generalize s.handing a b station last r = y at *
  rw [if_pos (by rw [yb]; exact h1)]
  have := adopt_rows (u := y) (b := b) (r := r) (yp.trans hp) (by unfold State.noClaim; rw [yc]; exact hn) k1 k2 k3
  rw [yar] at this
  rw [← yar] at this
  have t2 : ((s.received b r).around y).rowsFollowed ((y.adopt b r).supervise b r).endEvent b r := by rw [← yar]; exact this
  have hs : y.sups = (s.received b r).sups := ys
  exact ⟨fun p q => adoptsAs_around hs (t2.1 p q), fun p q => adoptsAs_around hs (t2.2.1 p q), fun p q => ⟨fun k => adoptsAs_around hs ((t2.2.2 p q).1 k),
    fun k l => adoptsAs_around hs ((t2.2.2 p q).2.1 k l), fun k l => adoptsAs_around hs ((t2.2.2 p q).2.2 k l)⟩⟩

/-- The first fresh result in ADOPTING, with a fault (R61, R166). -/
theorem adoption_trips {station} (hm : Memory.wf s.pim = true) (h : s.freshRead b station r) (hp : s.phase = .running)
    (h1 : (s.berth b).state = .adopting)
    (hq : 0 < (s.static b).quietRequired) (hg : (s.berth b).baseGrant = 0)
    (hr : r.shore = .fault ∨ r.shipcon = .fault ∨ r.gens = .fault ∨ r.pilot = false ∧ r.shore = .closed)
    (hf : f = { FaultSet.empty with
          bkr := decide (r.shore = .fault ∨ r.shipcon = .fault ∨ r.gens = .fault)
          pilot := decide (r.pilot = false ∧ r.shore = .closed) }) :
    (s.received b r).adoptionTrips (s.scanReadDone station) b r f := by
  obtain ⟨a, last, e, he⟩ := freshRead_eq hm h
  rw [he]
  have yar := handing_around s a b station last r
  have yb := handing_berth s a b station last r
  have yp := handing_phase s a b station last r
  have yt := handing_tables s a b station last r
  generalize s.handing a b station last r = y at *
  rw [if_pos (by rw [yb]; exact h1)]
  have ha : f = adoptionFlags r := by
    rw [hf]; unfold adoptionFlags ScanResult.anyFault
    simp only [FaultSet.mk.injEq, true_and, and_true]
    constructor
    · simp
    · simp [Bool.or_assoc]
  have hne : f.isEmpty = false := by
    rw [hf]; unfold FaultSet.isEmpty
    rcases hr with h | h | h | ⟨h, h'⟩ <;> simp [*]
  have := adopt_trips (u := y) (b := b) (r := r) (f := f) (yp.trans hp) (by rw [yb]; exact hg) (by unfold State.static; rw [yt]; exact hq) ha hne
  have t2 : ((s.received b r).around y).adoptionTrips ((y.adopt b r).supervise b r).endEvent b r f := by rw [← yar]; exact this
  exact adoptionTrips_around t2

end Adopted

end Sys2Proof.Machine
end

