-- ==== Sys2Proof/Laws/Feeder.lean ====
section
/-! SUPPORT. A read of the last word of the feeder block that gives a fresh result: C, shedding, the steps and OVERCOMMIT (R85, R100 to R103). -/

namespace Sys2Proof.Machine

section Fed

variable {s w u t x : State} {b : BerthId} {r : ScanResult} {f : FaultSet}

/-- A feeder event at the end of its steps 1 and 2. -/
def State.fedBy (s : State) (load cap : Nat) (conv : Converter) : State :=
    (s.setCapacity (feederCapacity s.tables.ccfg conv cap)).updateShedding load

theorem remark_eq (y : State) : y.needService.needTest = remark y true true := rfl

/-- A feeder result: C and shedding, then the shedding steps (R102). -/
theorem feederResult_eq (s : State) (load cap conv) : s.feederResult load cap conv = shedSteps (s.fedBy load cap conv) := by
  unfold State.feederResult State.fedBy
  dsimp only
  generalize (s.setCapacity (feederCapacity s.tables.ccfg conv cap)).updateShedding load = z
  unfold shedSteps
  dsimp only
  exact remark_eq _

/-- Two states alike but for the log's pending words, C and the shedding items. -/
structure FeedAlike (s x : State) : Prop where
  berths : x.berths = s.berths
  chans : x.chans = s.chans
  tables : x.tables = s.tables
  timer : x.timer = s.timer
  holds : x.holds = s.holds
  owq : x.owq = s.owq
  claims : x.budget.claims = s.budget.claims
  stack : x.budget.stack = s.budget.stack
  overcommit : x.budget.overcommit = s.budget.overcommit

theorem FeedAlike.trans {y : State} (h : FeedAlike s x) (k : FeedAlike x y) : FeedAlike s y :=
  ⟨k.1.trans h.1, k.2.trans h.2, k.3.trans h.3, k.4.trans h.4, k.5.trans h.5, k.6.trans h.6, k.7.trans h.7, k.8.trans h.8,
      k.9.trans h.9⟩

theorem clearFeederStale_spec (s : State) : FeedAlike s s.clearFeederStale
    ∧ s.clearFeederStale.scan = { s.scan with feederStale := false } ∧ s.clearFeederStale.budget = s.budget
    ∧ (if s.scan.feederStale then s.log.stage (s.staleRecord 0) else s.log).Alike s.clearFeederStale.log := by
  unfold State.clearFeederStale
  split
  · refine ⟨⟨rfl, rfl, rfl, rfl, rfl, rfl, rfl, rfl, rfl⟩, rfl, rfl, ?_⟩
    exact Log.Alike.stage (l := s.log) (l' := { s.log with statusPending := true }) ⟨rfl, rfl, rfl, rfl⟩ _
  · rename_i h
    have h' : s.scan.feederStale = false := by simpa using h
    refine ⟨⟨rfl, rfl, rfl, rfl, rfl, rfl, rfl, rfl, rfl⟩, ?_, rfl, Log.Alike.refl _⟩
    rw [← h']

theorem setCapacity_spec (s : State) (c) : FeedAlike s (s.setCapacity c) ∧ (s.setCapacity c).scan = s.scan ∧
    (s.setCapacity c).budget.capacity = c ∧ (s.setCapacity c).budget.shedding = s.budget.shedding
    ∧ (s.setCapacity c).budget.highCount = s.budget.highCount ∧ s.log.Alike (s.setCapacity c).log := by
  unfold State.setCapacity
  split
  · rename_i h; exact ⟨⟨rfl, rfl, rfl, rfl, rfl, rfl, rfl, rfl, rfl⟩, rfl, h, rfl, rfl, Log.Alike.refl _⟩
  · exact ⟨⟨rfl, rfl, rfl, rfl, rfl, rfl, rfl, rfl, rfl⟩, rfl, rfl, rfl, rfl, ⟨rfl, rfl, rfl, rfl⟩⟩

theorem setShedding_spec (s : State) (v) : FeedAlike s (s.setShedding v) ∧ (s.setShedding v).scan = s.scan
    ∧ (s.setShedding v).budget.capacity = s.budget.capacity ∧ (s.setShedding v).budget.shedding = v
    ∧ (s.setShedding v).budget.highCount = s.budget.highCount ∧ s.log.Alike (s.setShedding v).log :=
  ⟨⟨rfl, rfl, rfl, rfl, rfl, rfl, rfl, rfl, rfl⟩, rfl, rfl, rfl, rfl, ⟨rfl, rfl, rfl, rfl⟩⟩

theorem highCount_spec (s : State) (n) : FeedAlike s (s.setBudget { s.budget with highCount := n })
    ∧ (s.setBudget { s.budget with highCount := n }).scan = s.scan
    ∧ (s.setBudget { s.budget with highCount := n }).budget.capacity = s.budget.capacity
    ∧ (s.setBudget { s.budget with highCount := n }).budget.shedding = s.budget.shedding
    ∧ (s.setBudget { s.budget with highCount := n }).budget.highCount = n
    ∧ s.log.Alike (s.setBudget { s.budget with highCount := n }).log :=
  ⟨⟨rfl, rfl, rfl, rfl, rfl, rfl, rfl, rfl, rfl⟩, rfl, rfl, rfl, rfl, ⟨rfl, rfl, rfl, rfl⟩⟩

theorem needService_alike (s : State) : FeedAlike s s.needService := ⟨rfl, rfl, rfl, rfl, rfl, rfl, rfl, rfl, rfl⟩

theorem shedAfter_high {load : Nat} (h : s.tables.highLoad ≤ load) :
    s.shedAfter load = (s.budget.shedding || decide (1 ≤ s.budget.highCount)) := by unfold State.shedAfter; rw [if_pos h]

theorem shedAfter_low {load : Nat} (h : ¬ s.tables.highLoad ≤ load) :
    s.shedAfter load = (s.budget.shedding && decide (s.tables.lowLoad ≤ load)) := by unfold State.shedAfter; rw [if_neg h]

theorem updateShedding_spec (s : State) (load) : FeedAlike s (s.updateShedding load) ∧ (s.updateShedding load).scan = s.scan
    ∧ (s.updateShedding load).budget.capacity = s.budget.capacity
    ∧ (s.updateShedding load).budget.shedding = s.shedAfter load
    ∧ (s.updateShedding load).budget.highCount = (if s.tables.highLoad ≤ load then min 2 (s.budget.highCount + 1) else 0) ∧ s.log.Alike (s.updateShedding load).log := by
  unfold State.updateShedding
  dsimp only
  by_cases hl : s.tables.highLoad ≤ load
  · rw [if_pos hl, if_pos hl, shedAfter_high hl]
    obtain ⟨a1, a2, a3, a4, a5, a6⟩ := highCount_spec s (min 2 (s.budget.highCount + 1))
    generalize s.setBudget { s.budget with highCount := min 2 (s.budget.highCount + 1) } = y at *
    by_cases hn : min 2 (s.budget.highCount + 1) = 2 ∧ s.budget.shedding = false
    · rw [if_pos hn]
      obtain ⟨b1, b2, b3, b4, b5, b6⟩ := setShedding_spec y true
      have : 1 ≤ s.budget.highCount := by omega
      exact ⟨a1.trans b1, b2.trans a2, b3.trans a3, by rw [b4, decide_eq_true this, Bool.or_true], b5.trans a5, a6.trans b6⟩
    · rw [if_neg hn]
      refine ⟨a1, a2, a3, ?_, a5, a6⟩
      rw [a4]
      cases hb : s.budget.shedding
      · have : ¬ 1 ≤ s.budget.highCount := fun h => hn ⟨by omega, hb⟩
        rw [decide_eq_false this]; rfl
      · rfl
  · rw [if_neg hl, if_neg hl, shedAfter_low hl]
    obtain ⟨a1, a2, a3, a4, a5, a6⟩ := highCount_spec s 0
    generalize s.setBudget { s.budget with highCount := 0 } = y at *
    by_cases hn : load < s.tables.lowLoad ∧ s.budget.shedding = true
    · rw [if_pos hn]
      obtain ⟨b1, b2, b3, b4, b5, b6⟩ := setShedding_spec y false
      have : ¬ s.tables.lowLoad ≤ load := by omega
      exact ⟨(a1.trans b1).trans (needService_alike _), b2.trans a2, b3.trans a3,
        b4.trans (by rw [decide_eq_false this, Bool.and_false]), b5.trans a5, a6.trans b6⟩
    · rw [if_neg hn]
      refine ⟨a1, a2, a3, ?_, a5, a6⟩
      rw [a4]
      cases hb : s.budget.shedding
      · rfl
      · have : s.tables.lowLoad ≤ load := by
          apply Classical.byContradiction
          intro h
          exact hn ⟨by omega, hb⟩
        rw [decide_eq_true this]; rfl

theorem fedBy_fed (s : State) (load cap conv k) (hk : k = feederCapacity s.tables.ccfg conv cap) : Fed (s.fed k load)
    ((s.clearFeederStale).fedBy load cap conv) ∧
   ((s.clearFeederStale).fedBy load cap conv).budget.highCount = (s.fed k load).budget.highCount
   ∧ ((s.clearFeederStale).fedBy load cap conv).budget.overcommit = s.budget.overcommit ∧ ((s.clearFeederStale).fedBy load cap conv).scan = { s.scan with feederStale := false } := by
  obtain ⟨a1, a2, a3, a4⟩ := clearFeederStale_spec s
  unfold State.fedBy
  rw [a1.tables, ← hk]
  obtain ⟨b1, b2, b3, b4, b5, b6⟩ := setCapacity_spec s.clearFeederStale k
  obtain ⟨c1, c2, c3, c4, c5, c6⟩ := updateShedding_spec (s.clearFeederStale.setCapacity k) load
  generalize (s.clearFeederStale.setCapacity k).updateShedding load = z at *
  have h := (a1.trans b1).trans c1
  have hsh : (s.clearFeederStale.setCapacity k).shedAfter load = s.shedAfter load := by
    unfold State.shedAfter; rw [b1.tables, a1.tables, b4, b5, a3]
  have hscan : z.scan = { s.scan with feederStale := false } := c2.trans (b2.trans a2)
  refine ⟨⟨h.berths, h.chans, h.tables, ?_, ?_, h.holds, h.owq, ?_, c3.trans b3, c4.trans hsh, h.claims, h.stack⟩, ?_,
      h.overcommit, hscan⟩
  · rw [hscan]; rfl
  · rw [h.timer]; rfl
  · exact (a4.trans b6).trans c6
  · rw [c5, b1.tables, a1.tables, b5, a3]; rfl

/-- What no shedding step touches. -/
def feedKeeps (s : State) : (Nat × Bool) × (Nat × Bool) × ScanEngine := ((s.budget.capacity, s.budget.shedding),
    (s.budget.highCount, s.budget.overcommit), s.scan)

theorem withdraw_keeps (s : State) (b) : feedKeeps (s.withdrawClaim b) = feedKeeps s := by
  unfold State.withdrawClaim; split <;> rfl
theorem finalise_keeps (s : State) (b x) : feedKeeps (s.finalise b x) = feedKeeps s := by
  unfold feedKeeps; rw [State.finalise_budget, State.finalise_scan]
theorem recomputeClaim_keeps (s : State) (b) : feedKeeps (s.recomputeClaim b) = feedKeeps s := by
  unfold State.recomputeClaim
  split
  · rfl
  · split
    · rfl
    · dsimp only
      split
      · rfl
      · rw [finalise_keeps, withdraw_keeps]
theorem changeLevel_keeps (s : State) (b n) : feedKeeps (s.changeLevel b n) = feedKeeps s := by
  have h1 : (s.changeLevel b n).budget.capacity = s.budget.capacity := by
    unfold State.changeLevel; dsimp only; repeat' split
    all_goals rfl
  have h2 : (s.changeLevel b n).budget.shedding = s.budget.shedding := by
    unfold State.changeLevel; dsimp only; repeat' split
    all_goals rfl
  have h3 : (s.changeLevel b n).budget.highCount = s.budget.highCount := by
    unfold State.changeLevel; dsimp only; repeat' split
    all_goals rfl
  have h4 : (s.changeLevel b n).budget.overcommit = s.budget.overcommit := by
    unfold State.changeLevel; dsimp only; repeat' split
    all_goals rfl
  unfold feedKeeps
  rw [h1, h2, h3, h4, State.changeLevel_scan]
theorem record_keeps (s : State) (t b q d e) : feedKeeps (s.record t b q d e) = feedKeeps s := rfl
theorem queueRsp_keeps (s : State) (b) : feedKeeps (s.queueRsp b) = feedKeeps s := rfl
theorem stepDown_keeps (s : State) (b t q) : feedKeeps (s.stepDown b t q) = feedKeeps s := by
  unfold State.stepDown
  dsimp only
  rw [recomputeClaim_keeps, record_keeps, queueRsp_keeps, changeLevel_keeps]
theorem shedStep_keeps (s : State) (k) : feedKeeps (s.shedStep k) = feedKeeps s := by
  unfold State.shedStep; split
  · rfl
  · exact stepDown_keeps _ _ _ _
theorem shedSteps_keeps (x : State) : feedKeeps (shedSteps x) = feedKeeps x ∧ (shedSteps x).budget.testDue = true := by
  have h : ∀ y : State, feedKeeps y = feedKeeps x → feedKeeps (remark y true true) = feedKeeps x ∧ (remark y true true).budget.testDue = true := fun y hy => ⟨hy, rfl⟩
  have h1 : feedKeeps (if x.budget.shedding = true then x.shedStep .load else x) = feedKeeps x := by
    split
    · exact shedStep_keeps _ _
    · rfl
  unfold shedSteps
  dsimp only
  generalize (if x.budget.shedding = true then x.shedStep .load else x) = y at *
  apply h
  split
  · rw [shedStep_keeps, h1]
  · exact h1

end Fed

section Fresh

variable {s w u t x : State} {b : BerthId} {r : ScanResult} {f : FaultSet}

theorem lastFeeder_eq {station ws last} (hm : Memory.wf s.pim = true) (h : s.lastFeederRead station ws last) :
    ∃ a e, s.scanReadDone station = { ((s.readBegun a station).judgeFeeder (ws ++ [last])).endEvent with scan := e }
      ∧ ((s.readBegun a station).judgeFeeder (ws ++ [last])).endEvent.passOn .feeder = { ((s.readBegun a station).judgeFeeder (ws ++ [last])).endEvent with scan := e } := by
  obtain ⟨h1, h2, a, h3, h4⟩ := h
  obtain ⟨e2, hp⟩ := passOn_shape (((s.readBegun a station).judgeFeeder (ws ++ [last])).endEvent) .feeder
  refine ⟨a, e2, ?_, hp⟩
  rw [← hp]
  unfold State.scanReadDone
  rw [h3, h2]
  dsimp only
  have e : (s.stationWrote a station).portFree.pimRead a = last := by
    rw [h4]; exact State.pimRead_stationWrote a station hm
  rw [e]
  unfold State.scanWord
  simp only [List.length_append, h1, List.length_singleton]
  rw [if_neg (by simp [Block.reads])]
  rfl

theorem capacityOf_eq (s : State) (ws : List Word) : feederCapacity s.tables.ccfg (Converter.ofWord (ws.getD 3 0))
    (ws.getD 2 0).toNat = s.capacityOf ws := by
  unfold feederCapacity Converter.ofWord State.capacityOf
  generalize ws.getD 3 0 = w
  by_cases h : w = 1
  · subst h; rfl
  · rw [if_neg h]
    split <;> first | rfl | (rename_i hh; repeat' (split at hh)) <;> simp_all

theorem serviceWalk_keeps (l : List Claim) : ∀ s : State, feedKeeps (s.serviceWalk l) = feedKeeps s := by
  have hb : ∀ (x : State) b, feedKeeps (x.takeBase b) = feedKeeps x := fun _ _ => rfl
  have key : ∀ x : State, ∀ c, feedKeeps (x.grantNotice c) = feedKeeps x := by
    intro x c; unfold State.grantNotice; repeat' split
    all_goals rfl
  induction l with
  | nil => intro s; rfl
  | cons c rest ih =>
    intro s
    unfold State.serviceWalk
    repeat' split
    · rw [ih]; unfold State.grantEngage; rw [key, hb]; rfl
    · rfl
    · rw [ih]; unfold State.grantLevel; rw [finalise_keeps, queueRsp_keeps, changeLevel_keeps]; rfl
    · exact ih s

/-- OVERCOMMIT at the end of an event that calls for the test (R103). -/
theorem endEvent_overcommit (hd : s.budget.testDue = true) (hk : s.budget.serviceDue = true →
    s.servicePass.budget.testDue = true) :
    (s.endEvent.budget.overcommit = true ↔ s.endEvent.budget.capacity < s.endEvent.granted ∧ (s.budget.overcommit = true ∨ s.endEvent.budget.stack = [])) := by
  have h1 : feedKeeps (if s.budget.serviceDue = true then s.servicePass else s) = feedKeeps s := by
    split
    · exact serviceWalk_keeps _ _
    · rfl
  have h2 : (if s.budget.serviceDue = true then s.servicePass else s).budget.testDue = true := by
    split
    · exact hk (by assumption)
    · exact hd
  unfold State.endEvent
  dsimp only
  generalize (if s.budget.serviceDue = true then s.servicePass else s) = x at *
  rw [if_pos h2]
  have h3 : x.budget.overcommit = s.budget.overcommit := by unfold feedKeeps at h1; simp at h1; exact h1.2.1.2
  rw [← h3]
  have hg : ∀ y : State, y.clearMarks.granted = y.granted := fun _ => rfl
  rw [hg]
  show (x.overcommitTest.budget.overcommit = true ↔ x.overcommitTest.budget.capacity < x.overcommitTest.granted
      ∧ (x.budget.overcommit = true ∨ x.overcommitTest.budget.stack = []))
  unfold State.overcommitTest
  split
  · rename_i ho
    split
    · rename_i hc
      show (false = true ↔ x.budget.capacity < x.granted ∧ _)
      simp; omega
    · rename_i hc
      simp [ho]; omega
  · rename_i ho
    split
    · rename_i hc
      show (true = true ↔ x.budget.capacity < x.granted ∧ (_ ∨ x.budget.stack = []))
      simp [hc]
    · rename_i hc
      simp only [ho]
      constructor
      · intro h; cases h
      · intro h; exact absurd ⟨h.1, h.2.resolve_left (by simp)⟩ hc

/-- A fresh feeder result, as the last read of its block (R85, R100 to R103). -/
theorem feeder_fresh {station ws last} (hm : Memory.wf s.pim = true) (h : s.lastFeederRead station ws last)
    (he : last = ws.getD 0 0)
    (hs : s.scan.feeder.status ≠ .unseen) (hr : s.scan.feeder.reference ≠ some last) :
    (s.fed (s.capacityOf ws) (ws.getD 1 0).toNat).shedFollowed (s.scanReadDone station) := by
  obtain ⟨a, e, e1, -⟩ := lastFeeder_eq hm h
  rw [e1]
  obtain ⟨h1, -⟩ := h
  have g : ∀ i, i < 4 → (ws ++ [last]).getD i 0 = ws.getD i 0 := by
    intro i hi
    simp [List.getD, List.getElem?_append_left (by omega : i < ws.length)]
  have g4 : (ws ++ [last]).getD 4 0 = last := by
    simp [List.getD, h1]
  have hb : (s.readBegun a station).scan = s.scan := by rw [readBegun_shape]
  have hj : ((s.readBegun a station).scan.feeder).judge feederStaleLimit ((ws ++ [last]).getD 0 0) ((ws ++ [last]).getD 4 0) = ({ status := .accepting, reference := some last, stale := 0 }, .fresh) := by
    rw [g 0 (by omega), g4, hb, ← he]
    unfold BlockScan.judge BlockScan.judgeSeen
    simp only [ne_eq, not_true_eq_false, if_false]
    cases hst : s.scan.feeder.status
    · exact absurd hst hs
    · simp [hr]
    · simp [hr]
  have e3 : (s.readBegun a station).judgeFeeder (ws ++ [last]) = shedSteps (((s.readBegun a station).setScan { s.scan with feeder := { status := .accepting, reference := some last, stale := 0 } }).clearFeederStale.fedBy (ws.getD 1 0).toNat (ws.getD 2 0).toNat (Converter.ofWord (ws.getD 3 0))) := by
    unfold State.judgeFeeder
    rw [hj]
    dsimp only
    rw [g 1 (by omega), g 2 (by omega), g 3 (by omega), hb, feederResult_eq]
  rw [e3]
  have := (fedBy_fed ((s.readBegun a station).setScan { s.scan with feeder := { status := .accepting, reference := some last, stale := 0 } }) (ws.getD 1 0).toNat (ws.getD 2 0).toNat (Converter.ofWord (ws.getD 3 0)) (s.capacityOf ws)
     (by rw [← capacityOf_eq, readBegun_shape]; rfl)).1
  generalize (((s.readBegun a station).setScan { s.scan with feeder := { status := .accepting, reference := some last, stale := 0 } }).clearFeederStale.fedBy (ws.getD 1 0).toNat (ws.getD 2 0).toNat (Converter.ofWord (ws.getD 3 0))) = z at *
  have h3 : Fed (s.fed (s.capacityOf ws) (ws.getD 1 0).toNat) z := by
    rw [readBegun_shape] at this
    exact ⟨this.berths, this.chans, this.tables, this.pass, this.maint, this.holds, this.owq, this.log, this.capacity,
        this.shedding, this.claims, this.stack⟩
  have h4 := shedSteps_follows h3
  generalize (shedSteps z).endEvent = t at *
  exact h4

end Fresh

end Sys2Proof.Machine
end

