-- ==== Sys2Proof/Laws/Frame.lean ====
section
/-! SUPPORT. The surroundings of an event: what no event of the berths touches, and what its end leaves besides. -/

namespace Sys2Proof.Machine

/-- What no event of the berths touches: everything but records, supervision, channels, budget, holds, group toggles, the Own
Write Queue, the log and the host port. -/
structure EventFrame (s t : State) : Prop where
  pending : t.pending = s.pending
  phase : t.phase = s.phase
  maintPin : t.maintPin = s.maintPin
  pim : t.pim = s.pim
  plant : t.plant = s.plant
  loader : t.loader = s.loader
  tables : t.tables = s.tables
  blocks : t.blocks = s.blocks
  timer : t.timer = s.timer
  scan : t.scan = s.scan
  busy : t.ports.busy = s.ports.busy
  streak : t.ports.streak = s.ports.streak
  hostData : t.ports.hostData = s.ports.hostData

theorem EventFrame.refl (s : State) : EventFrame s s :=
  ⟨rfl, rfl, rfl, rfl, rfl, rfl, rfl, rfl, rfl, rfl, rfl, rfl, rfl⟩

/-- Every effect of an event leaves the surroundings. -/
theorem EventFrame.kept (s : State) : Kept (EventFrame s) where
  berth := fun _ _ _ _ _ _ _ h => { h with }
  sup := fun _ _ _ h => { h with }
  budget := fun _ _ _ h => { h with }
  holds := fun _ _ h => { h with }
  seqWrite := fun _ _ _ _ h => { h with }
  tripWrite := fun _ _ h => { h with }
  queueRsp := fun _ _ h => { h with }
  record := fun _ _ _ _ _ _ h => { h with }
  statusChanged := fun _ h => { h with }
  grantedChanged := fun _ h => { h with }
  enters := fun _ _ _ h => { h with }
  toggle := fun _ _ _ h => { h with }
  loadStep := fun _ _ _ h => { h with }
  stopStep := fun _ _ h => { h with }
  loadSettle := fun _ _ h => { h with }
  stopSettle := fun _ _ h => { h with }
  stopChannels := fun _ _ h => { h with }
  queueGroupRsp := fun _ _ _ h => { h with }
  groupTaken := fun _ _ _ h => { h with }
  passWrite := fun _ _ _ h => { h with }

/-- The surroundings through the end of an event. -/
theorem State.endEvent_frame (s : State) : EventFrame s s.endEvent := (EventFrame.kept s).moves.endEvent (EventFrame.refl s)

/-- The end of an event passes no write and takes no group request. -/
structure EndFrame (s t : State) : Prop where
  ports : t.ports = s.ports
  groupTaken : t.groupTaken = s.groupTaken

/-- What a service pass and the OVERCOMMIT test leave besides. -/
theorem State.endEvent_rest (s : State) : EndFrame s s.endEvent := by
  have hc : KeptCalm (fun t : State => t.ports = s.ports ∧ t.groupTaken = s.groupTaken) :=
    { berth := fun _ _ _ _ _ _ _ h => h
      sup := fun _ _ _ h => h
      budget := fun _ _ _ h => h
      holds := fun _ _ h => h
      seqWrite := fun _ _ _ _ h => h
      tripWrite := fun _ _ h => h
      queueRsp := fun _ _ h => h
      record := fun _ _ _ _ _ _ h => h
      statusChanged := fun _ h => h
      grantedChanged := fun _ h => h }
  have hn : ∀ (t : State) b, t.ports = s.ports ∧ t.groupTaken = s.groupTaken →
      (t.grantNotice b).ports = s.ports ∧ (t.grantNotice b).groupTaken = s.groupTaken := by
    intro t b h
    have h1 : (t.toEnergizing b).ports = s.ports ∧ (t.toEnergizing b).groupTaken = s.groupTaken := h
    unfold State.grantNotice
    split
    · split
      · split
        · exact hc.reportState _ _ _ (hc.seqWrite _ _ _ _ h1)
        · exact h
      · exact h
    · dsimp only
      refine hc.reportState _ _ _ ?_
      split
      · exact hc.releaseHold _ h1
      · exact h1
    · exact h
  have h := hc.endEvent hn (s := s) ⟨rfl, rfl⟩
  exact ⟨h.1, h.2⟩

end Sys2Proof.Machine
end

