-- ==== Sys2Proof/Laws/Grants.lean ====
section
/-! SUPPORT. What the Port Arbiter grants (R144, R145), what a host read answers (R133,
    R146), and what staging a record and freeing its room do to the log (R158). -/

namespace Sys2Proof.Machine

section Grants

/-- Room for a record (R158). -/
theorem Log.hasRoom_iff (l : Log) : l.hasRoom = true ↔ l.roomFor := by
  unfold Log.hasRoom Log.roomFor Log.ringCount stagingCapacity
  rw [Bool.and_eq_true, decide_eq_true_eq, decide_eq_true_eq]
  constructor <;> (intro h; omega)

/-- A record is staged, or dropped and counted (R158). -/
theorem Log.stage_cases (l : Log) (r : Record) : (l.roomFor → l.stage r = { l with staging := l.staging ++ [r] })
          ∧ (¬ l.roomFor →
            l.stage r =
              { l with
                dropCount := min 65535 (l.dropCount + 1), overflow := true
                statusPending := if l.overflow = true then l.statusPending else true }) := by
  unfold Log.stage
  refine ⟨fun h => by rw [if_pos ((Log.hasRoom_iff l).mpr h)], fun h => ?_⟩
  rw [if_neg (fun x => h ((Log.hasRoom_iff l).mp x))]
  cases l.overflow <;> simp

/-- Freed room stages the OVERFLOW record (R158). -/
theorem Log.roomFreed_cases (l : Log) (stamp : Word) :
        (l.overflow = true → (∀ x ∈ l.staging, x.type ≠ .overflow) → l.roomFor →
            l.roomFreed stamp = { l with staging := l.staging ++ [overflowRecord l.dropCount stamp], dropCount := 0 })
          ∧ ((l.overflow = false ∨ (∃ x ∈ l.staging, x.type = .overflow) ∨ ¬ l.roomFor) → l.roomFreed stamp = l) := by
  unfold Log.roomFreed Log.overflowStaged
  refine ⟨fun h1 h2 h3 => ?_, fun h => ?_⟩
  · rw [if_pos]
    · rfl
    · have h3' := (Log.hasRoom_iff l).mpr h3
      simpa [h1, h3'] using h2
  · rw [if_neg]
    rw [← Log.hasRoom_iff] at h
    rcases h with h | h | h
    · simp [h]
    · simp; intro _ h'; obtain ⟨x, hx, hy⟩ := h; exact absurd hy (h' x hx)
    · simp [h]

/-- A grant with the port free. -/
theorem portGrant_of_choose (s : State) (station first) (hb : s.ports.busy = none) (g) (hg : s.choose first = some g) :
    exec (.portGrant none station first) s = .next (s.grantTo g station) := by
  show Host.Outcome.next (s.portGrant none station first) = .next _
  unfold State.portGrant State.readArrives
  dsimp only
  rw [hb, hg]

theorem portGrant_of_none (s : State) (station first) (hb : s.ports.busy = none) (hg : s.choose first = none) :
    exec (.portGrant none station first) s = .next s := by
  show Host.Outcome.next (s.portGrant none station first) = .next _
  unfold State.portGrant State.readArrives
  dsimp only
  rw [hb, hg]

/-- With no TRIP entry first, the host is looked at (R144). -/
theorem State.choose_of_noTrip (s : State) (first) (hno : ∀ w rest, s.owq = w :: rest → w.cls ≠ .trip) :
    s.choose first = s.chooseHost first := by
  unfold State.choose
  split
  · rename_i w rest h; rw [if_neg (hno w rest h)]
  · rfl

/-- With no host access, or the host's streak at its limit, the part's own accesses are looked at (R144, R145). -/
theorem State.choose_of_noHost (s : State) (first) (hno : ∀ w rest, s.owq = w :: rest → w.cls ≠ .trip)
    (hh : s.ports.host = none ∨ 4 ≤ s.ports.streak) : s.choose first = s.chooseOwn first := by
  rw [State.choose_of_noTrip s first hno]
  unfold State.chooseHost
  split
  · rename_i a h
    rw [if_neg]
    rcases hh with h' | h'
    · rw [h] at h'; cases h'
    · unfold streakLimit; omega
  · rfl

/-- The word that the Log Unit writes (R154). -/
theorem State.headerReads_value (s : State) (h : HeaderWord) : s.headerReads h (s.headerValue h) := by
  cases h
  · unfold State.headerReads State.headerValue State.statusWord
    dsimp only
    cases s.phase <;> cases s.timer.maint <;> cases s.log.overflow <;> cases s.budget.shedding <;> cases s.budget.overcommit <;> cases s.scan.feederStale <;> decide
  all_goals rfl

theorem HeaderWord.offset_place (h : HeaderWord) : h.offset = headerPlace h := by cases h <;> rfl

/-- A host read completes in its grant (log 8). -/
theorem readAnswered_of_read (s : State) (a station) (hm : Memory.wf s.pim = true) (k) :
   s.readAnswered (let s1 := if s.stationWord a then s.stationWrote a station else s
    s1.setPorts { s1.ports with host := none, hostData := some (s1.pimRead a), streak := k }) a station k := by
  have hb : (s.tables.windows ≠ [] → (∀ k, s.tables.classify a ≠ .field k) → s.stationWord a = false) := by
    intro hw hk
    unfold State.stationWord
    cases hww : s.tables.windows with
    | nil => exact absurd hww hw
    | cons x l =>
      dsimp only
      split
      · rename_i hc; exact absurd hc (hk _)
      · rfl
  by_cases hs : s.stationWord a = true
  · simp only [hs, if_true]
    refine ⟨?_, ?_, ?_, ?_, ?_, fun _ => ?_, fun h => ?_, fun hw hk => ?_⟩
    · cases station <;> rfl
    · intro x hx; cases station with
      | none => rfl
      | some w => exact State.pimRead_pimWrite_of_ne _ _ hx
    · cases station <;> exact ⟨rfl, rfl, rfl, rfl, rfl, rfl⟩
    · cases station <;> rfl
    · cases station <;> rfl
    · exact State.pimRead_stationWrote a station hm
    · rw [hs] at h; cases h
    · rw [hb hw hk] at hs; cases hs
  · have hs' : s.stationWord a = false := by simpa using hs
    simp only [hs', Bool.false_eq_true, if_false]
    exact ⟨rfl, fun _ _ => rfl, ⟨rfl, rfl, rfl, rfl, rfl, rfl⟩, rfl, rfl, fun h => (by rw [hs'] at h; cases h), fun _ _ => rfl, fun _ _ _ => rfl⟩

end Grants

end Sys2Proof.Machine
end

