-- ==== Sys2Proof/Laws/Moves.lean ====
section
/-! SUPPORT. Where each move of a berth brings it: `SameStates` says that no berth left its state and no channel changed (every
calm effect), `Moved b st` that berth `b` is in state `st` and every other berth's state and channels are as they were. -/

namespace Sys2Proof.Machine

/-- No berth left its state and no channel changed. -/
structure SameStates (s t : State) : Prop where
  tables : t.tables = s.tables
  maint : t.timer.maint = s.timer.maint
  state : ∀ c, (t.berth c).state = (s.berth c).state
  chan : ∀ c, t.chan c = s.chan c

theorem SameStates.refl (s : State) : SameStates s s := ⟨rfl, rfl, fun _ => rfl, fun _ => rfl⟩

theorem SameStates.trans {s t u : State} (h : SameStates s t) (h' : SameStates t u) : SameStates s u :=
  ⟨h'.tables.trans h.tables, h'.maint.trans h.maint, fun c => (h'.state c).trans (h.state c),
    fun c => (h'.chan c).trans (h.chan c)⟩

/-- A record with its state unchanged. -/
theorem SameStates.setBerth {s t : State} {b : BerthId} {r : Berth} (h : SameStates s t)
    (hr : r.state = (t.berth b).state) : SameStates s (t.setBerth b r) :=
  { h with
    state := by
      intro c
      by_cases hc : c = b
      · subst hc
        rw [State.berth_setBerth_same, hr]
        exact h.state c
      · rw [State.berth_setBerth_of_ne _ _ hc]
        exact h.state c
    chan := fun c => h.chan c }

/-- Every calm effect leaves states and channels. -/
theorem SameStates.calm (s : State) : KeptCalm (SameStates s) where
  berth := fun _ _ _ hr _ _ _ h => h.setBerth hr
  sup := fun _ _ _ h => { h with }
  budget := fun _ _ _ h => { h with }
  holds := fun _ _ h => { h with }
  seqWrite := fun _ _ _ _ h => { h with }
  tripWrite := fun _ _ h => { h with }
  queueRsp := fun _ _ h => { h with }
  record := fun _ _ _ _ _ _ h => { h with }
  statusChanged := fun _ h => { h with }
  grantedChanged := fun _ h => { h with }

/-- Berth `b` is in state `st`; every other berth's state and channels are as they were. -/
structure Moved (b : BerthId) (st : BState) (s t : State) : Prop where
  tables : t.tables = s.tables
  maint : t.timer.maint = s.timer.maint
  state : (t.berth b).state = st
  others : ∀ c, c ≠ b → (t.berth c).state = (s.berth c).state ∧ t.chan c = s.chan c

namespace Moved

variable {b : BerthId} {st : BState} {s t u : State}

/-- A berth that has not moved is in its state. -/
theorem stays (h : SameStates s t) (hs : (s.berth b).state = st) : Moved b st s t :=
  ⟨h.tables, h.maint, (h.state b).trans hs, fun c _ => ⟨h.state c, h.chan c⟩⟩

/-- Calm effects before a move. -/
theorem after (h : SameStates s t) (h' : Moved b st t u) : Moved b st s u :=
  ⟨h'.tables.trans h.tables, h'.maint.trans h.maint, h'.state,
    fun c hc => ⟨(h'.others c hc).1.trans (h.state c), (h'.others c hc).2.trans (h.chan c)⟩⟩

/-- What calm effects keep of a move. -/
theorem calm (b : BerthId) (st : BState) (s : State) : KeptCalm (Moved b st s) := by
  have h : ∀ t u, SameStates t u → Moved b st s t → Moved b st s u := fun t u hu h =>
    ⟨hu.tables.trans h.tables, hu.maint.trans h.maint, (hu.state b).trans h.state,
      fun c hc => ⟨(hu.state c).trans (h.others c hc).1, (hu.chan c).trans (h.others c hc).2⟩⟩
  have k := fun t => SameStates.calm t
  exact
    { berth := fun t _ _ h1 h2 h3 h4 => h _ _ ((k t).berth _ _ _ h1 h2 h3 h4 (SameStates.refl t))
      sup := fun t _ _ => h _ _ ((k t).sup _ _ _ (SameStates.refl t))
      budget := fun t _ h1 => h _ _ ((k t).budget _ _ h1 (SameStates.refl t))
      holds := fun t _ => h _ _ ((k t).holds _ _ (SameStates.refl t))
      seqWrite := fun t _ _ _ => h _ _ ((k t).seqWrite _ _ _ _ (SameStates.refl t))
      tripWrite := fun t _ => h _ _ ((k t).tripWrite _ _ (SameStates.refl t))
      queueRsp := fun t _ => h _ _ ((k t).queueRsp _ _ (SameStates.refl t))
      record := fun t _ _ _ _ _ => h _ _ ((k t).record _ _ _ _ _ _ (SameStates.refl t))
      statusChanged := fun t => h _ _ ((k t).statusChanged _ (SameStates.refl t))
      grantedChanged := fun t => h _ _ ((k t).grantedChanged _ (SameStates.refl t)) }

/-- A state entered. -/
theorem enter (b : BerthId) (st : BState) (s : State) : Moved b st s (s.enter b st) :=
  ⟨rfl, rfl, by simp [State.enter], fun c hc => ⟨by simp [State.enter, hc], rfl⟩⟩

/-- A state entered after a move. -/
theorem enters {st' : BState} (h : Moved b st s t) : Moved b st' s (t.enter b st') :=
  ⟨h.tables, h.maint, by simp [State.enter], fun c hc => ⟨by simpa [State.enter, hc] using (h.others c hc).1, (h.others c hc).2⟩⟩

/-- The berth's own channels may change. -/
theorem setChan (k : Channels) (h : Moved b st s t) : Moved b st s (t.setChan b k) :=
  ⟨h.tables, h.maint, h.state, fun c hc => ⟨(h.others c hc).1, by
    rw [State.chan_setChan_of_ne _ _ hc]
    exact (h.others c hc).2⟩⟩

theorem loadStep (d) (h : Moved b st s t) : Moved b st s (t.loadStep b d) := h.setChan _
theorem stopStep (h : Moved b st s t) : Moved b st s (t.stopStep b) := h.setChan _
theorem loadSettle (h : Moved b st s t) : Moved b st s (t.loadSettle b) := h.setChan _
theorem stopSettle (h : Moved b st s t) : Moved b st s (t.stopSettle b) := h.setChan _
theorem stopChannels (h : Moved b st s t) : Moved b st s (t.stopChannels b) := h.setChan _

/-! ## The shared moves -/

/-- DISENGAGING (R32, R44, R47). -/
theorem toDisengaging (h : Moved b st s t) : Moved b .disengaging s (t.toDisengaging b) :=
  (calm b _ s).seqWrite _ _ _ _ ((enters h).stopChannels.loadStep _)

/-- ENERGIZING (R29, R120). -/
theorem toEnergizing (h : Moved b st s t) : Moved b .energizing s (t.toEnergizing b) := (enters h).loadStep _

/-- SEPARATING (R38, R40, R47, R131). -/
theorem toSeparating (h : Moved b st s t) : Moved b .separating s (t.toSeparating b) :=
  (calm b _ s).seqWrite _ _ _ _ ((calm b _ s).seqWrite _ _ _ _ ((enters h).loadStep _))

/-- SHORE (R39). -/
theorem toShore (h : Moved b st s t) : Moved b .shore s (t.toShore b) := by
  have h1 := (calm b .shore s).shoreLevelZero b ((enters h).stopStep)
  unfold State.toShore
  dsimp only
  split
  · exact (calm b _ s).seqWrite _ _ _ _ h1
  · exact h1

/-- ENERGIZED with the Step channel stopped. -/
theorem toEnergized (h : Moved b st s t) : Moved b .energized s (t.toEnergized b) := (enters h).stopStep

/-- LOCKOUT, by the trip action (R73 to R75). -/
theorem tripAction (f) (h : Moved b st s t) : Moved b .lockout s (t.tripAction b f) := by
  have k := calm b st s
  have k' := calm b .lockout s
  exact k'.queueRsp _ _ (k'.tripRecord _ _ _ _ (k'.finalise _ _ (k'.sup _ _ _ (k'.setSyncCount _ _ (enters
    (k.cancelHolds _ (k.withdrawClaim _ (k.changeLevel _ _ (k.seqWrite _ _ _ _ (k.tripWrite _ _ h)))) |>.stopChannels))))))

/-- CABLED, by loss of supply in AUTO (R49). -/
theorem lossOfSupply (h : Moved b st s t) : Moved b .cabled s (t.lossOfSupply b) := by
  have k := calm b .cabled s
  exact k.reportState _ _ _ (k.finalise _ _ (k.seqWrite _ _ _ _ (k.seqWrite _ _ _ _ (k.seqWrite _ _ _ _ (k.returnBase _
    (k.leaveIfShore _ _ ((enters h).stopChannels)))))))

/-- CABLED, by loss of supply in MANUAL (R130). -/
theorem manualShoreOpen (h : Moved b st s t) : Moved b .cabled s (t.manualShoreOpen b) := by
  have k := calm b .cabled s
  exact k.reportState _ _ _ (k.finalise _ _ (k.returnBase _ (k.leaveIfShore _ _
    ((enters ((calm b st s).cancelSync b h)).stopChannels))))

/-- CABLED, by loss of supply. -/
theorem shoreOpened (h : Moved b st s t) : Moved b .cabled s (t.shoreOpened b) := by
  unfold State.shoreOpened
  split
  · exact h.lossOfSupply
  · exact h.manualShoreOpen

/-- Out of ENGAGING in AUTO (R30, R31, R47). -/
theorem leaveEngaging (dest res) (h : Moved b st s t) : Moved b dest s (t.leaveEngaging b dest res) := by
  have k := calm b dest s
  exact k.reportState _ _ _ (k.finalise _ _ (k.giveUpGrant _ ((enters h).stopStep)))

/-- Out of ENGAGING in MANUAL (R120, R125, R126, R128). -/
theorem leaveManualEngaging (dest) (h : Moved b st s t) : Moved b dest s (t.leaveManualEngaging b dest) := by
  have k := calm b dest s
  exact k.reportState _ _ _ (k.giveUpGrant _ (enters h))

/-- ENERGIZED, by a ship connection that opened (R50, R129). -/
theorem shipconOpened (h : Moved b st s t) : Moved b .energized s (t.shipconOpened b) := by
  have k := calm b .energized s
  unfold State.shipconOpened
  have h1 := k.leaveIfShore b (t.berth b).state h.toEnergized
  dsimp only
  refine k.reportState _ _ _ (k.finalise _ _ ?_)
  split
  · exact k.seqWrite _ _ _ _ (k.seqWrite _ _ _ _ h1)
  · exact h1

/-- ENERGIZED, by the end of a return (R42, R43). -/
theorem returnDone (h : Moved b st s t) : Moved b .energized s (t.returnDone b) := by
  have k := calm b .energized s
  exact k.reportState _ _ _ (k.finalise _ _ h.toEnergized)

/-- ENERGIZED, by a transfer given up (R35, R36, R47). -/
theorem transferGivenUp (res) (h : Moved b st s t) : Moved b .energized s (t.transferGivenUp b res) := by
  have k := calm b .energized s
  unfold State.transferGivenUp
  dsimp only
  refine k.reportState _ _ _ (k.finalise _ _ ?_)
  split
  · exact k.seqWrite _ _ _ _ h.toEnergized
  · exact h.toEnergized

/-- CABLED, by a close that never came (R121). -/
theorem manualNoclose (h : Moved b st s t) : Moved b .cabled s (t.manualNoclose b) := by
  have k := calm b .cabled s
  exact k.record _ _ _ _ _ _ (k.reportState _ _ _ (k.seqWrite _ _ _ _ (k.returnBase _ ((enters h).stopStep))))

/-- VACANT or CABLED, by recovery (R81). -/
theorem recover (h : Moved b st s t) : Moved b (recoveredState (t.berth b).latest) s (t.recover b) := by
  have k := calm b (recoveredState (t.berth b).latest) s
  exact k.queueRsp _ _ (k.record _ _ _ _ _ _ (enters ((calm b st s).sup _ _ _ h)))

end Moved

end Sys2Proof.Machine
end

