-- ==== Sys2Proof/Laws/Words.lean ====
section
/-! SUPPORT. The fields of a REQ word are the fields it was laid out from (12.3). -/

namespace Sys2Proof.Machine

theorem reqWord_toNat (c : BitVec 4) (q : ReqBits) :
    (reqWord c q).toNat = bit q.toggle * 32768 + q.spare.toNat * 4096 + c.toNat * 256 + q.operand.toNat := by
  have h1 := q.spare.isLt
  have h2 := c.isLt
  have h3 := q.operand.isLt
  have h4 : bit q.toggle ≤ 1 := by
    unfold bit
    split <;> omega
  unfold reqWord
  rw [BitVec.toNat_ofNat]
  omega

@[simp] theorem toggleOf_reqWord (c : BitVec 4) (q : ReqBits) : toggleOf (reqWord c q) = q.toggle := by
  have h1 := q.spare.isLt
  have h2 := c.isLt
  have h3 := q.operand.isLt
  unfold toggleOf
  rw [BitVec.getLsbD, reqWord_toNat, Nat.testBit_eq_decide_div_mod_eq]
  cases q.toggle
  · refine decide_eq_false ?_
    simp only [bit, Bool.false_eq_true, if_false]
    omega
  · refine decide_eq_true ?_
    simp only [bit, if_true]
    omega

@[simp] theorem codeOf_reqWord (c : BitVec 4) (q : ReqBits) : codeOf (reqWord c q) = c := by
  have h1 := q.spare.isLt
  have h2 := c.isLt
  have h3 := q.operand.isLt
  apply BitVec.eq_of_toNat_eq
  unfold codeOf
  rw [BitVec.extractLsb'_toNat, reqWord_toNat, Nat.shiftRight_eq_div_pow]
  cases q.toggle <;> simp only [bit] <;> simp <;> omega

@[simp] theorem operandOf_reqWord (c : BitVec 4) (q : ReqBits) : operandOf (reqWord c q) = q.operand := by
  have h1 := q.spare.isLt
  have h2 := c.isLt
  have h3 := q.operand.isLt
  apply BitVec.eq_of_toNat_eq
  unfold operandOf
  rw [BitVec.extractLsb'_toNat, reqWord_toNat, Nat.shiftRight_eq_div_pow]
  cases q.toggle <;> simp only [bit] <;> simp <;> omega

/-- A request code's field decodes to the code. -/
@[simp] theorem ReqCode.ofCode?_code (k : ReqCode) : ReqCode.ofCode? k.code = some k := by
  cases k <;> rfl

/-- A code field of 9 to 15 is no request code (R107 row 1). -/
theorem ReqCode.ofCode?_of_unknown {c : BitVec 4} (h : 9 ≤ c.toNat) : ReqCode.ofCode? c = Option.none := by
  have hc := c.isLt
  unfold ReqCode.ofCode?
  split <;> first | omega | rfl

/-- The codes that fan out are the codes of the six group commands (R114). -/
theorem fansOutCode_eq_isGroupCode (c : BitVec 4) : fansOutCode c = isGroupCode c := by
  revert c
  decide

end Sys2Proof.Machine
end

