-- ==== Sys2Proof/Laws/Requests.lean ====
section
/-! SUPPORT. How a host write comes to be decided, and how a request comes to be judged: the steps that every statement about a
host write goes through. -/

namespace Sys2Proof.Machine

variable {s : State}

/-! ## A passed write leaves everything but the host port -/

@[simp] theorem State.passedWrite_pending (s : State) (a d : Word) : (s.passedWrite a d).pending = s.pending := rfl
@[simp] theorem State.passedWrite_phase (s : State) (a d : Word) : (s.passedWrite a d).phase = s.phase := rfl
@[simp] theorem State.passedWrite_maintPin (s : State) (a d : Word) : (s.passedWrite a d).maintPin = s.maintPin := rfl
@[simp] theorem State.passedWrite_pim (s : State) (a d : Word) : (s.passedWrite a d).pim = s.pim := rfl
@[simp] theorem State.passedWrite_loader (s : State) (a d : Word) : (s.passedWrite a d).loader = s.loader := rfl
@[simp] theorem State.passedWrite_tables (s : State) (a d : Word) : (s.passedWrite a d).tables = s.tables := rfl
@[simp] theorem State.passedWrite_berths (s : State) (a d : Word) : (s.passedWrite a d).berths = s.berths := rfl
@[simp] theorem State.passedWrite_sups (s : State) (a d : Word) : (s.passedWrite a d).sups = s.sups := rfl
@[simp] theorem State.passedWrite_chans (s : State) (a d : Word) : (s.passedWrite a d).chans = s.chans := rfl
@[simp] theorem State.passedWrite_blocks (s : State) (a d : Word) : (s.passedWrite a d).blocks = s.blocks := rfl
@[simp] theorem State.passedWrite_timer (s : State) (a d : Word) : (s.passedWrite a d).timer = s.timer := rfl
@[simp] theorem State.passedWrite_scan (s : State) (a d : Word) : (s.passedWrite a d).scan = s.scan := rfl
@[simp] theorem State.passedWrite_budget (s : State) (a d : Word) : (s.passedWrite a d).budget = s.clearMarks.budget := rfl
@[simp] theorem State.passedWrite_ports (s : State) (a d : Word) :
    (s.passedWrite a d).ports = { s.ports with host := some (.write a d) } := rfl
@[simp] theorem State.passedWrite_holds (s : State) (a d : Word) : (s.passedWrite a d).holds = s.holds := rfl
@[simp] theorem State.passedWrite_groupTaken (s : State) (a d : Word) : (s.passedWrite a d).groupTaken = s.groupTaken := rfl
@[simp] theorem State.passedWrite_owq (s : State) (a d : Word) : (s.passedWrite a d).owq = s.owq := rfl
@[simp] theorem State.passedWrite_log (s : State) (a d : Word) : (s.passedWrite a d).log = s.log := rfl
@[simp] theorem State.berth_passedWrite (s : State) (a d : Word) (b : BerthId) : (s.passedWrite a d).berth b = s.berth b := rfl
@[simp] theorem State.sup_passedWrite (s : State) (a d : Word) (b : BerthId) : (s.passedWrite a d).sup b = s.sup b := rfl
@[simp] theorem State.chan_passedWrite (s : State) (a d : Word) (b : BerthId) : (s.passedWrite a d).chan b = s.chan b := rfl
@[simp] theorem State.static_passedWrite (s : State) (a d : Word) (b : BerthId) : (s.passedWrite a d).static b = s.static b := rfl
@[simp] theorem State.held_passedWrite (s : State) (a d : Word) (b : BerthId) : (s.passedWrite a d).held b = s.held b := rfl
@[simp] theorem State.levelEntry_passedWrite (s : State) (a d : Word) (b : Nat) : (s.passedWrite a d).levelEntry b = s.levelEntry b := rfl
@[simp] theorem State.levelCredits_passedWrite (s : State) (a d : Word) (b : Nat) : (s.passedWrite a d).levelCredits b = s.levelCredits b := rfl
@[simp] theorem State.threshold_passedWrite (s : State) (a d : Word) (b : Nat) : (s.passedWrite a d).threshold b = s.threshold b := rfl
@[simp] theorem State.granted_passedWrite (s : State) (a d : Word) : (s.passedWrite a d).granted = s.granted := rfl

/-! ## Arrival -/

/-- In RUNNING with the host port free a host write is one event, decided by its class (R133, R136). -/
theorem State.hostWrites_of_takes (h : s.takesHostWrite) (c : WordClass) (a d : Word) :
    s.hostWrites c a d = (s.clearMarks.decideWrite c a d).endEvent := by
  unfold State.hostWrites
  rw [h.1, h.2]
  rfl

/-- A host write to a word of a configured berth (R1). -/
theorem State.berthWrites_of_serves {b : BerthId} (h : s.serves b) (c : WordClass) (a d : Word) :
    s.berthWrites b c a d = (s.clearMarks.decideWrite c a d).endEvent := by
  unfold State.berthWrites
  rw [if_neg, State.hostWrites_of_takes h.1]
  rintro ⟨_, h2⟩
  rw [h.2] at h2
  cases h2

/-- A host write to a COMMAND word of a configured berth is the Manual Guard's or refused (R136). -/
theorem State.writesCommand_of_serves {b : BerthId} (h : s.serves b) (w : CmdWord) (d : Word) :
    s.writesCommand b w d = (s.clearMarks.commandWrite b w (s.tables.cmdAddress b w) d).endEvent :=
  State.berthWrites_of_serves h _ _ _

/-- A host write to a GROUP_REQ word in use is examined (R114). -/
theorem State.writesGroup_of_inUse {g : GroupId} (h : s.takesHostWrite) (hg : s.groupInUse g = true) (code : BitVec 4)
    (q : ReqBits) :
    s.writesGroup g code q =
      ((s.passedWrite (s.tables.groupReqAddress g) (reqWord code q)).examineGroup g (reqWord code q)).endEvent := by
  unfold State.writesGroup
  rw [if_neg, State.hostWrites_of_takes h]
  · rfl
  · rintro ⟨_, h2⟩
    rw [hg] at h2
    cases h2

/-- A new toggle is taken (R106). -/
theorem State.writesReq_taken {b : BerthId} (h : s.serves b) (code : BitVec 4) (q : ReqBits)
    (ht : q.toggle ≠ (s.berth b).lastTaken) :
    s.writesReq b code q =
      ((s.passedWrite (s.tables.reqAddress b) (reqWord code q)).takeRequest b code q.toggle q.operand).endEvent := by
  unfold State.writesReq
  rw [State.berthWrites_of_serves h]
  show State.endEvent (State.examineReq _ _ _) = _
  unfold State.examineReq
  rw [toggleOf_reqWord, codeOf_reqWord, operandOf_reqWord, if_neg]
  · rfl
  · exact ht

/-- The last-taken toggle again is passed and takes nothing (R106). -/
theorem State.writesReq_repeated {b : BerthId} (h : s.serves b) (code : BitVec 4) (q : ReqBits)
    (ht : q.toggle = (s.berth b).lastTaken) :
    s.writesReq b code q = s.passedWrite (s.tables.reqAddress b) (reqWord code q) := by
  unfold State.writesReq
  rw [State.berthWrites_of_serves h]
  show State.endEvent (State.examineReq _ _ _) = _
  unfold State.examineReq
  rw [toggleOf_reqWord, if_pos]
  · rfl
  · exact ht

/-! ## Judgement -/

/-- The state in which a taken request is judged: the toggles are taken and RSP answers the new request (R106). -/
def State.examined (s : State) (b : BerthId) (toggle : Bool) : State :=
  s.setBerth b { s.berth b with lastTaken := toggle, answered := toggle, phase := .final }

@[simp] theorem State.berth_examined (s : State) (b : BerthId) (toggle : Bool) :
    (s.examined b toggle).berth b = { s.berth b with lastTaken := toggle, answered := toggle, phase := .final } :=
  State.berth_setBerth_same _ _ _

/-- A taken request is its judgement and its answer. -/
theorem State.takeRequest_eq (s : State) (b : BerthId) (code : BitVec 4) (toggle : Bool) (op : BitVec 8) :
    s.takeRequest b code toggle op =
      ((s.examined b toggle).judge b code op).1.answer b code toggle op ((s.examined b toggle).judge b code op).2 := rfl

/-- A request answered with no other effect (R107): `answeredOnly` is its whole outcome. -/
theorem State.writesReq_answered {b : BerthId} {code : BitVec 4} {q : ReqBits} {res : Result} (h : s.serves b)
    (ht : q.toggle ≠ (s.berth b).lastTaken)
    (hj : ∀ u : State, u = (s.passedWrite (s.tables.reqAddress b) (reqWord code q)).examined b q.toggle →
      u.judge b code q.operand = (u, .final res)) :
    s.writesReq b code q = s.answeredOnly b q.toggle res (reqWord code q) := by
  rw [State.writesReq_taken h code q ht, State.takeRequest_eq, hj _ rfl]
  have e : State.answer (State.examined (s.passedWrite (s.tables.reqAddress b) (reqWord code q)) b q.toggle) b code
      q.toggle q.operand (.final res) = s.answeredOnly b q.toggle res (reqWord code q) := by
    unfold State.answer State.queueRsp State.answeredOnly State.rspEntry
    simp only [State.berth_examined, State.berth_setBerth_same]
    unfold State.examined State.setBerth State.passedWrite State.setOwq
    simp only [State.mk.injEq, true_and, and_true]
    refine ⟨?_, rfl⟩
    cases b <;> rfl
  rw [e]
  rfl

end Sys2Proof.Machine
end

