-- ==== Sys2Proof/Laws/Portless.lean ====
section
/-! SUPPORT. Taking a request and ending an event neither read nor write the ports, so that a group member's turn is its request's event (R115). -/

namespace Sys2Proof.Machine

section Portless

variable (s : State) (p : Ports) (b : BerthId)

/-- What an operation answers does not look at the ports and leaves them alone. -/
def Portless (f : State → State) : Prop := ∀ (s : State) (p : Ports), f (s.setPorts p) = (f s).setPorts p

theorem Portless.comp {f g : State → State} (hf : Portless f) (hg : Portless g) : Portless fun s => f (g s) := fun s p => by
  show f (g (s.setPorts p)) = _
  rw [hg, hf]

theorem Portless.ite {f g : State → State} {c : State → Prop} [∀ s, Decidable (c s)] (hc : ∀ s p, c (s.setPorts p) = c s)
    (hf : Portless f) (hg : Portless g) :
    Portless fun s => if c s then f s else g s := fun s p => by
  dsimp only
  by_cases h : c s
  · rw [if_pos h, if_pos (by rw [hc]; exact h)]; exact hf s p
  · rw [if_neg h, if_neg (by rw [hc]; exact h)]; exact hg s p

theorem portless_finalise (b x) : Portless fun s => s.finalise b x := fun s p => by
  dsimp only
  unfold State.finalise
  simp only [show (s.setPorts p).berth b = s.berth b from rfl]
  cases (s.berth b).request with
  | none => rfl
  | some rq => cases (s.berth b).phase <;> rfl

theorem portless_withdrawClaim (b) : Portless fun s => s.withdrawClaim b := fun s p => by
  dsimp only
  unfold State.withdrawClaim
  simp only [show (s.setPorts p).claimOf b = s.claimOf b from rfl]
  cases s.claimOf b <;> rfl

theorem portless_returnBase (b) : Portless fun s => s.returnBase b := fun s p => by
  dsimp only
  unfold State.returnBase
  simp only [show (s.setPorts p).berth b = s.berth b from rfl]
  by_cases h : (s.berth b).baseGrant = 0
  · simp only [h, if_true]
  · simp only [h, if_false]; rfl

theorem portless_changeLevel (b n) : Portless fun s => s.changeLevel b n := fun s p => by
  dsimp only
  unfold State.changeLevel
  simp only [show (s.setPorts p).berth b = s.berth b from rfl, show ∀ k, (s.setPorts p).levelCredits k = s.levelCredits k from fun _ => rfl]
  by_cases h1 : s.levelCredits (s.berth b).level = s.levelCredits n <;>
    by_cases h2 : s.levelCredits n < s.levelCredits (s.berth b).level
  · omega
  · simp only [if_pos h1, if_neg h2]; rfl
  · simp only [if_neg h1, if_pos h2]; rfl
  · simp only [if_neg h1, if_neg h2]; rfl

theorem portless_cancelList (l : List Hold) : Portless fun s => s.cancelList l := by
  induction l with
  | nil => exact fun _ _ => rfl
  | cons h rest ih => exact fun s p => ih (s.endHold .holdCancelled h) p

theorem portless_cancelHolds (b) : Portless fun s => s.cancelHolds b := fun s p => portless_cancelList (s.holdsOf b) s p

theorem portless_giveUpGrant (b) : Portless fun s => s.giveUpGrant b := (portless_returnBase b).comp
    (portless_withdrawClaim b)

theorem portless_toShore (b) : Portless fun s => s.toShore b := fun s p => by
  dsimp only
  unfold State.toShore State.shoreLevelZero
  have := portless_changeLevel b 0 ((s.enter b .shore).stopStep b) p
  dsimp only at this ⊢
  rw [show ((s.setPorts p).enter b .shore).stopStep b = ((s.enter b .shore).stopStep b).setPorts p from rfl, this]
  generalize ((s.enter b .shore).stopStep b).changeLevel b 0 = y
  simp only [show (y.setPorts p).berth b = y.berth b from rfl]
  cases (y.berth b).mode <;> rfl

theorem portless_leaveShore (b) : Portless fun s => s.leaveShore b := (portless_withdrawClaim b).comp
    (portless_changeLevel b 0)

/-- The same for an operation that answers. -/
def PortlessOwner (f : State → State × Answer) : Prop := ∀ (s : State) (p : Ports), f (s.setPorts p) = ((f s).1.setPorts p,
    (f s).2)

theorem PortlessOwner.mk' {f : State → State} (h : Portless f) (a : Answer) : PortlessOwner fun s => (f s, a) := fun s p => by
  dsimp only; rw [h]

theorem PortlessOwner.ite {f g : State → State × Answer} {c : State → Prop} [∀ s, Decidable (c s)] (hc : ∀ s p,
    c (s.setPorts p) = c s) (hf : PortlessOwner f) (hg : PortlessOwner g) :
    PortlessOwner fun s => if c s then f s else g s := fun s p => by
  dsimp only
  by_cases h : c s
  · rw [if_pos h, if_pos (by rw [hc]; exact h)]; exact hf s p
  · rw [if_neg h, if_neg (by rw [hc]; exact h)]; exact hg s p

theorem portless_self : PortlessOwner fun s => (s, a) := fun _ _ => rfl

theorem owner_connect (b) : PortlessOwner fun s => s.ownConnect b := by
  unfold State.ownConnect
  refine .ite (fun _ _ => rfl) (.ite (fun _ _ => rfl) (fun _ _ => rfl) (fun _ _ => rfl)) (fun _ _ => rfl)

theorem owner_transfer (b) : PortlessOwner fun s => s.ownTransfer b := by
  unfold State.ownTransfer
  refine .ite (fun _ _ => rfl) (fun s p => ?_) (fun _ _ => rfl)
  simp only [show (s.setPorts p).static b = s.static b from rfl]
  cases (s.static b).transferKind <;> rfl

theorem owner_return (b) : PortlessOwner fun s => s.ownReturn b := by
  unfold State.ownReturn
  refine .ite (fun _ _ => rfl) (fun s p => ?_) (fun _ _ => rfl)
  simp only [show (s.setPorts p).static b = s.static b from rfl]
  cases (s.static b).transferKind with
  | closedTransition =>
    have := portless_leaveShore b ((s.enter b .resyncing).loadStep b .sync) p
    dsimp only at this ⊢
    rw [show ((s.setPorts p).enter b .resyncing).loadStep b .sync = ((s.enter b .resyncing).loadStep b .sync).setPorts p from rfl, this]
    rfl
  | openTransition =>
    have := portless_leaveShore b s p
    dsimp only at this ⊢
    rw [this]
    rfl

theorem owner_disconnect (b) : PortlessOwner fun s => s.ownDisconnect b := by
  unfold State.ownDisconnect
  exact .ite (fun _ _ => rfl) (fun _ _ => rfl) (fun _ _ => rfl)

theorem owner_setLevel (b n) : PortlessOwner fun s => s.ownSetLevel b n := by
  unfold State.ownSetLevel
  refine .ite (fun _ _ => rfl) (.ite (fun _ _ => rfl) (fun _ _ => rfl) (.ite (fun _ _ => rfl) (fun _ _ => rfl) (.ite (fun _ _ => rfl) (.mk' (portless_changeLevel b n) _) (.ite (fun _ _ => rfl) (fun _ _ => rfl) (.ite (fun _ _ => rfl) (fun _ _ => rfl) (fun _ _ => rfl)))))) (fun _ _ => rfl)

theorem portless_leaveEngaging (b d x) : Portless fun s => s.leaveEngaging b d x := fun s p => by
  dsimp only
  unfold State.leaveEngaging
  have h1 := portless_giveUpGrant b ((s.enter b d).stopStep b) p
  dsimp only at h1
  rw [show ((s.setPorts p).enter b d).stopStep b = ((s.enter b d).stopStep b).setPorts p from rfl, h1]
  have h2 := portless_finalise b x (((s.enter b d).stopStep b).giveUpGrant b) p
  dsimp only at h2
  rw [h2]
  rfl

theorem portless_leaveManual (b d) : Portless fun s => s.leaveManualEngaging b d := fun s p => by
  dsimp only
  unfold State.leaveManualEngaging
  have h1 := portless_giveUpGrant b (s.enter b d) p
  dsimp only at h1
  rw [show (s.setPorts p).enter b d = (s.enter b d).setPorts p from rfl, h1]
  rfl

/-- A request's end and its report after an operation. -/
theorem portless_ended {f : State → State} (hf : Portless f) (b x o m) : Portless fun s =>
    ((f s).finalise b x).reportState b o m := fun s p => by
  dsimp only
  rw [hf]
  have h2 := portless_finalise b x (f s) p
  dsimp only at h2
  rw [h2]
  rfl

theorem portless_transferGivenUp (b x) : Portless fun s => s.transferGivenUp b x := fun s p => by
  have : ∀ s : State, s.transferGivenUp b x = ((if (s.berth b).state = .deadbus then (s.toEnergized b).seqWrite b .genRelease genHold else s.toEnergized b).finalise b x).reportState b (s.berth b).state (s.berth b).mode := fun _ => rfl
  dsimp only
  rw [this, this]
  exact portless_ended (f := fun s => if (s.berth b).state = .deadbus then (s.toEnergized b).seqWrite b .genRelease genHold else s.toEnergized b)
    (.ite (fun _ _ => rfl) (fun _ _ => rfl) (fun _ _ => rfl)) b x (s.berth b).state (s.berth b).mode s p

theorem portless_abortLevel (b) : Portless fun s => s.abortLevel b := (portless_finalise b .aborted).comp
    (portless_withdrawClaim b)

theorem owner_abortAuto (b) : PortlessOwner fun s => s.abortAuto b := fun s p => by
  dsimp only
  unfold State.abortAuto
  simp only [show (s.setPorts p).berth b = s.berth b from rfl,
      show (s.setPorts p).levelClaimWaits b = s.levelClaimWaits b from rfl]
  cases (s.berth b).state with
  | engaging => exact congrArg (·, _) (portless_leaveEngaging b .cabled .aborted s p)
  | energizing => exact congrArg (·, _) (portless_ended (f := fun s => s.toDisengaging b) (fun _ _ => rfl) b _ _ _ s p)
  | energized => exact congrArg (·, _) (portless_ended (f := fun s => s.toDisengaging b) (fun _ _ => rfl) b _ _ _ s p)
  | syncing => cases (s.berth b).closeIssued with
    | true => rfl
    | false => exact congrArg (·, _) (portless_transferGivenUp b .aborted s p)
  | deadbus => cases (s.berth b).closeIssued with
    | true => rfl
    | false => exact congrArg (·, _) (portless_transferGivenUp b .aborted s p)
  | parallel => exact congrArg (·, _) (portless_ended (f := fun s => s.toSeparating b) (fun _ _ => rfl) b _ _ _ s p)
  | resyncing => exact congrArg (·, _) (portless_ended (portless_toShore b) b _ _ _ s p)
  | shore => cases s.levelClaimWaits b with
    | true => exact congrArg (·, _) (portless_abortLevel b s p)
    | false => rfl
  | _ => rfl

theorem owner_abortManual (b) : PortlessOwner fun s => s.abortManual b := fun s p => by
  dsimp only
  unfold State.abortManual
  have h := portless_cancelHolds b s p
  dsimp only at h
  simp only [show (s.setPorts p).berth b = s.berth b from rfl,
      show (s.setPorts p).levelClaimWaits b = s.levelClaimWaits b from rfl, show (s.setPorts p).holdsOf b = s.holdsOf b from rfl, h]
  cases (s.berth b).state with
  | engaging => exact congrArg (·, _) (portless_leaveManual b .cabled (s.cancelHolds b) p)
  | shore => cases s.levelClaimWaits b with
    | true => exact congrArg (·, _) (portless_abortLevel b (s.cancelHolds b) p)
    | false => rfl
  | _ => rfl

theorem owner_abort (b) : PortlessOwner fun s => s.ownAbort b := fun s p => by
  dsimp only
  unfold State.ownAbort
  simp only [show (s.setPorts p).berth b = s.berth b from rfl]
  cases (s.berth b).mode with
  | auto => exact owner_abortAuto b s p
  | manual => exact owner_abortManual b s p

theorem portless_changeMode (b m) : Portless fun s => s.changeMode b m := fun s p => by
  dsimp only
  unfold State.changeMode
  dsimp only
  cases m with
  | manual => rfl
  | auto =>
    have h := portless_cancelHolds b (s.setBerth b { s.berth b with mode := .auto }) p
    dsimp only at h
    simp only [show (s.setPorts p).berth b = s.berth b from rfl, show ∀ x, (s.setPorts p).setBerth b x = (s.setBerth b x).setPorts p from fun _ => rfl, h]
    generalize (s.setBerth b { s.berth b with mode := .auto }).cancelHolds b = y
    have h2 := portless_withdrawClaim b y p
    dsimp only at h2
    cases (s.berth b).state <;> simp only [h2, if_true, if_false, reduceCtorEq] <;> rfl

theorem owner_setMode (b op) : PortlessOwner fun s => s.ownSetMode b op := by
  unfold State.ownSetMode
  refine .ite (fun _ _ => rfl) (fun s p => ?_) (fun _ _ => rfl)
  cases modeOfOperand op with
  | none => rfl
  | some m =>
    exact PortlessOwner.ite (c := fun s => m = (s.berth b).mode) (f := fun s => (s, .final .done)) (fun _ _ => rfl) (fun _ _ => rfl) (.mk' (portless_changeMode b m) _) s p

theorem portless_tryRecover (b) : Portless fun s => s.tryRecover b :=
  Portless.ite (c := fun s => s.mayRecover b = true) (fun _ _ => rfl) (fun _ _ => rfl) (fun _ _ => rfl)

theorem owner_release (b) : PortlessOwner fun s => s.ownRelease b := by
  unfold State.ownRelease
  exact .ite (fun _ _ => rfl) (fun s p => congrArg (·, _) (portless_tryRecover b (s.setSup b { s.sup b with release := true }) p)) (fun _ _ => rfl)

theorem owner_owner (b c op) : PortlessOwner fun s => s.owner b c op := by
  cases c
  · exact fun _ _ => rfl
  · exact owner_connect b
  · exact owner_transfer b
  · exact owner_return b
  · exact owner_disconnect b
  · exact owner_setLevel b _
  · exact owner_setMode b _
  · exact owner_release b
  · exact owner_abort b

theorem owner_judge (b code op) : PortlessOwner fun s => s.judge b code op := fun s p => by
  dsimp only
  unfold State.judge
  cases ReqCode.ofCode? code with
  | none => rfl
  | some c =>
    exact PortlessOwner.ite (c := fun _ => c = .none) (f := fun s => (s, .final .none)) (fun _ _ => rfl) (fun _ _ => rfl)
      (.ite (c := fun s => (s.berth b).state = .adopting) (f := fun s => (s, .final .busy)) (fun _ _ => rfl) (fun _ _ => rfl)
      (.ite (c := fun s => (s.berth b).request.isSome ∧ c ≠ .abort) (f := fun s => (s, .final .busy)) (fun _ _ => rfl) (fun _ _ => rfl)
      (.ite (c := fun s => s.timer.maint ∧ c.passesMaint = false) (f := fun s => (s, .final .maint)) (fun _ _ => rfl) (fun _ _ => rfl) (owner_owner b c op)))) s p

/-- Taking a request (R106). -/
theorem portless_takeRequest (b code tg op) : Portless fun s => s.takeRequest b code tg op := fun s p => by
  dsimp only
  unfold State.takeRequest
  dsimp only
  simp only [show (s.setPorts p).berth b = s.berth b from rfl, show ∀ x, (s.setPorts p).setBerth b x = (s.setBerth b x).setPorts p from fun _ => rfl]
  generalize s.setBerth b _ = y
  have h := owner_judge b code op y p
  dsimp only at h
  rw [h]
  generalize y.judge b code op = j
  obtain ⟨y, a⟩ := j
  cases a <;> rfl

theorem portless_grantNotice (b) : Portless fun s => s.grantNotice b := fun s p => by
  dsimp only
  unfold State.grantNotice
  simp only [show (s.setPorts p).berth b = s.berth b from rfl,
      show (s.setPorts p).holdFor b .budget = s.holdFor b .budget from rfl]
  cases (s.berth b).state <;> cases (s.berth b).mode <;> try rfl
  · cases (s.berth b).latest with
    | none => rfl
    | some r => dsimp only; cases r.ready <;> rfl
  · cases s.holdFor b .budget <;> rfl

theorem portless_serviceWalk (l : List Claim) : Portless fun s => s.serviceWalk l := by
  induction l with
  | nil => exact fun _ _ => rfl
  | cons c rest ih =>
    have hl : ∀ n, Portless fun s => s.grantLevel c n := fun n s p => by
      dsimp only
      unfold State.grantLevel
      simp only [show (s.setPorts p).budget = s.budget from rfl, show ∀ x, (s.setPorts p).setBudget x = (s.setBudget x).setPorts p from fun _ => rfl]
      generalize s.setBudget _ = y
      have h1 := portless_changeLevel c.berth n y p
      dsimp only at h1
      rw [h1]
      exact portless_finalise c.berth .done ((y.changeLevel c.berth n).queueRsp c.berth) p
    have he : Portless fun s => s.grantEngage c := fun s p =>
      portless_grantNotice c.berth ((s.setBudget { s.budget with claims := dropClaim s.budget.claims c.berth }).takeBase c.berth) p
    unfold State.serviceWalk
    cases hk : c.kind with
    | engage => exact .ite (c := fun s => s.fits c = true) (fun _ _ => rfl) (ih.comp he) (fun _ _ => rfl)
    | level n => exact .ite (c := fun s => (!s.budget.shedding && s.fits c) = true) (fun _ _ => rfl) (ih.comp (hl n)) ih

theorem portless_overcommitTest : Portless fun s => s.overcommitTest := by
  unfold State.overcommitTest
  exact .ite (c := fun s => s.budget.overcommit = true) (fun _ _ => rfl) (.ite (fun _ _ => rfl) (fun _ _ => rfl) (fun _ _ => rfl)) (.ite (fun _ _ => rfl) (fun _ _ => rfl) (fun _ _ => rfl))

/-- The end of an event (R91, R103). -/
theorem portless_endEvent : Portless fun s => s.endEvent := by
  have h1 : Portless fun s => if s.budget.serviceDue then s.servicePass else s := .ite (fun _ _ => rfl) (fun s p => portless_serviceWalk s.budget.claims s p) (fun _ _ => rfl)
  have h2 : Portless fun s => if s.budget.testDue then s.overcommitTest else s := .ite (fun _ _ => rfl) portless_overcommitTest (fun _ _ => rfl)
  have h3 : Portless fun s => s.clearMarks := fun _ _ => rfl
  exact h3.comp (h2.comp h1)

theorem portless_event {f} (hf : Portless f) : Portless fun s => s.event f := fun s p => by
  have := portless_endEvent.comp hf
  exact this s.clearMarks p

end Portless

section Members

variable {s : State} {b : BerthId}

/-- A member's delivery is the event of its request, the host port apart. -/
theorem State.deliveredTo_eq (k : ReqCode) (op : BitVec 8) (hp : s.phase = .running) (hc : s.configured b = true) :
    s.deliveredTo k b op = s.event fun t => t.takeRequest b k.code (!(t.berth b).lastTaken) op := by
  unfold State.deliveredTo
  rw [exec_reqCommand]
  dsimp only
  have hs : ({ s with ports := { s.ports with host := none } } : State).serves b := ⟨⟨hp, rfl⟩, hc⟩
  rw [State.writesReq_taken hs _ _ (by show (!(s.berth b).lastTaken) ≠ (s.berth b).lastTaken; cases (s.berth b).lastTaken <;> simp)]
  dsimp only
  have hf : Portless fun t : State => (t.takeRequest b k.code (!(s.berth b).lastTaken) op).endEvent :=
    portless_endEvent.comp (portless_takeRequest b k.code (!(s.berth b).lastTaken) op)
  generalize reqWord k.code _ = d
  have h1 := hf s.clearMarks { s.ports with host := some (.write (s.tables.reqAddress b) d) }
  have h2 := hf s.clearMarks s.ports
  dsimp only at h1 h2
  have e : ∀ a, State.passedWrite { s with ports := { s.ports with host := none } } a d = s.clearMarks.setPorts { s.ports with host := some (.write a d) } := fun _ => rfl
  rw [show ({ s with ports := { s.ports with host := none } } : State).tables = s.tables from rfl, e, h1]
  show State.setPorts _ _ = _
  rw [show s.clearMarks.setPorts s.ports = s.clearMarks from rfl] at h2
  unfold State.event
  exact h2.symm

theorem countedTaken_iff (r : Berth) : countedTaken r = true ↔ (r.phase = .pending ∨ r.result = .done) ∨ False := by
  unfold countedTaken
  cases r.phase <;> simp

theorem event_frame (h : ∀ t, EventFrame s t → EventFrame s (f t)) : EventFrame s (s.event f) :=
  (EventFrame.kept s).moves.event h (EventFrame.refl s)

/-- A member's turn as the statements say it is the Group Unit's (R115). -/
theorem memberTurn_eq (s : State) (n : GroupCount) (e : GroupEntry) (k : ReqCode) (op : BitVec 8) (hp : s.phase = .running)
    (hc : e.members.getLsbD b.toNat = true → s.configured b = true):
    State.memberTurn (s, n) e k op b = if e.members.getLsbD b.toNat then s.fanOne n e b k.code op else (s, n) := by
  unfold State.memberTurn State.fanOne
  cases hm : e.members.getLsbD b.toNat with
  | false => rfl
  | true =>
    simp only [Bool.true_eq_false, if_false, if_true]
    split
    · rfl
    · rw [State.deliveredTo_eq k op hp (hc hm)]
      generalize (s.event fun t => t.takeRequest b k.code (!(t.berth b).lastTaken) op) = t
      cases hcc : countedTaken (t.berth b) with
      | true =>
        have := (countedTaken_iff _).mp hcc
        rw [if_pos (this.resolve_right id)]
        rfl
      | false =>
        rw [if_neg (fun h => by rw [(countedTaken_iff _).mpr (.inl h)] at hcc; cases hcc)]
        rfl

/-- So is the turn of every member, in ascending order (R115). -/
theorem fold_eq (e : GroupEntry) (k : ReqCode) (op : BitVec 8) : ∀ (l : List BerthId) (s : State)
    (n : GroupCount), s.phase = .running →
    (∀ b, e.members.getLsbD b.toNat = true → s.configured b = true) →
    l.foldl (fun x b => State.memberTurn x e k op b) (s, n) = s.fanOut n e k.code op l := by
  intro l
  induction l with
  | nil => intro s n _ _; rfl
  | cons b rest ih =>
    intro s n hp hc
    rw [List.foldl_cons, memberTurn_eq s n e k op hp (hc b)]
    unfold State.fanOut
    cases hm : e.members.getLsbD b.toNat with
    | false => exact ih s n hp hc
    | true =>
      simp only [if_true]
      have hf : EventFrame s (s.fanOne n e b k.code op).1 := (EventFrame.kept s).moves.fanOne _ _ _ _ _ (EventFrame.refl s)
      generalize s.fanOne n e b k.code op = y at *
      exact ih _ _ (hf.phase.trans hp) (fun c h => by unfold State.configured; rw [hf.tables]; exact hc c h)

/-- The clear marks of an event. -/
theorem fanOut_quiet (e : GroupEntry) (code op) : ∀ (l : List BerthId) (s : State)
    (n : GroupCount), s.budget.serviceDue = false ∧ s.budget.testDue = false →
    (s.fanOut n e code op l).1.budget.serviceDue = false ∧ (s.fanOut n e code op l).1.budget.testDue = false := by
  intro l
  induction l with
  | nil => intro s n h; exact h
  | cons b rest ih =>
    intro s n h
    unfold State.fanOut
    split
    · refine ih _ _ ?_
      unfold State.fanOne
      split
      · exact h
      · dsimp only; split <;> exact ⟨rfl, rfl⟩
    · exact ih _ _ h

theorem clearMarks_quiet (y : State) (h1 : y.budget.serviceDue = false) (h2 : y.budget.testDue = false) :
    y.clearMarks = y := by
  have : ({ y.budget with serviceDue := false, testDue := false } : Budget) = y.budget := by
    cases hb : y.budget
    rw [hb] at h1 h2
    simp_all
  unfold State.clearMarks State.setBudget
  rw [this]

end Members

end Sys2Proof.Machine
end

