-- ==== Sys2Proof/Laws/Ticks.lean ====
section
/-! SUPPORT. What one tick changes as it reaches the counts (R147, R150, R126): the channels, the held writes and its own marks,
one berth at a time, and nothing else. -/

namespace Sys2Proof.Machine

variable {s t u : State} {b c : BerthId} {base : TickBase}

/-! ## Nothing but the counts and their marks -/

/-- A tick that reaches counts changes channels, held writes and its own marks, and nothing else. -/
def TickFrame (s t : State) : Prop :=
  t = { s with chans := t.chans, holds := t.holds, timer := { s.timer with owed := t.timer.owed } }

theorem TickFrame.refl (s : State) : TickFrame s s := rfl

theorem TickFrame.trans (h : TickFrame s t) (g : TickFrame t u) : TickFrame s u := by
  unfold TickFrame at *
  rw [g, h]

theorem State.reachStep_frame (s : State) (b : BerthId) (base : TickBase) : TickFrame s (s.reachStep b base) := by
  unfold State.reachStep
  split <;> rfl

theorem State.reachSettle_frame (s : State) (b : BerthId) : TickFrame s (s.reachSettle b) := by
  unfold State.reachSettle
  split <;> rfl

theorem State.reachHolds_frame (s : State) (b : BerthId) : TickFrame s (s.reachHolds b) := by
  unfold State.reachHolds
  split
  · split
    · rfl
    · split <;> rfl
  · rfl

theorem State.reachBerth_frame (s : State) (b : BerthId) : TickFrame s (s.reachBerth b) :=
  (s.reachStep_frame b .s).trans (State.reachHolds_frame _ b)

theorem State.reachBerths_frame (s : State) (l : List BerthId) : TickFrame s (s.reachBerths l) := by
  induction l generalizing s with
  | nil => rfl
  | cons b rest ih => exact (s.reachBerth_frame b).trans (ih _)

/-! ## Each count once -/

/-- A tick that has reached a Step count already, or does not owe it, leaves the state as it is. -/
theorem State.reachStep_of_not_owed (h : (s.owed b).step base = false) : s.reachStep b base = s := by
  simp [State.reachStep, h]

theorem State.reachSettle_of_not_owed (h : (s.owed b).settle = false) : s.reachSettle b = s := by simp [State.reachSettle, h]

theorem State.reachHolds_of_not_owed (h : (s.owed b).hold = false) : s.reachHolds b = s := by simp [State.reachHolds, h]

/-- A tick that reaches a Step count ticks it and marks it. -/
theorem State.reachStep_of_owed (h : (s.owed b).step base = true) :
    s.reachStep b base =
      (s.setChan b { s.chan b with step := (s.chan b).step.tick base }).setOwed b
        ((s.owed b).afterStep (s.chan b).step base) := by simp [State.reachStep, h]

theorem State.reachSettle_of_owed (h : (s.owed b).settle = true) :
    s.reachSettle b =
      (s.setChan b { s.chan b with settle := (s.chan b).settle.tick .f }).setOwed b
        ((s.owed b).afterSettle (s.chan b).settle) := by simp [State.reachSettle, h]

/-! ## One berth's channels at a time -/

theorem State.chan_reachStep_of_ne (h : c ≠ b) : (s.reachStep b base).chan c = s.chan c := by
  unfold State.reachStep
  split <;> simp [h]

theorem State.chan_reachSettle_of_ne (h : c ≠ b) : (s.reachSettle b).chan c = s.chan c := by
  unfold State.reachSettle
  split <;> simp [h]

@[simp] theorem State.chan_reachHolds (s : State) (b c : BerthId) : (s.reachHolds b).chan c = s.chan c := by
  unfold State.reachHolds
  split
  · split
    · simp
    · split <;> simp
  · rfl

theorem State.owed_reachStep_of_ne (h : c ≠ b) : (s.reachStep b base).owed c = s.owed c := by
  unfold State.reachStep
  split <;> simp [h]

theorem State.owed_reachSettle_of_ne (h : c ≠ b) : (s.reachSettle b).owed c = s.owed c := by
  unfold State.reachSettle
  split <;> simp [h]

theorem State.owed_reachHolds_of_ne (h : c ≠ b) : (s.reachHolds b).owed c = s.owed c := by
  unfold State.reachHolds
  split
  · split
    · simp [h]
    · split <;> simp [h]
  · rfl

theorem State.chan_reachBerth_of_ne (h : c ≠ b) : (s.reachBerth b).chan c = s.chan c :=
  (State.chan_reachHolds _ _ _).trans (State.chan_reachStep_of_ne h)

theorem State.owed_reachBerth_of_ne (h : c ≠ b) : (s.reachBerth b).owed c = s.owed c :=
  (State.owed_reachHolds_of_ne h).trans (State.owed_reachStep_of_ne h)

/-- A base S tick ticks the Step channel it owes. -/
theorem State.chan_reachBerth :
    (s.reachBerth b).chan b =
      if (s.owed b).stepS then { s.chan b with step := (s.chan b).step.tick .s } else s.chan b := by
  show ((s.reachStep b .s).reachHolds b).chan b = _
  rw [State.chan_reachHolds]
  unfold State.reachStep
  by_cases h : (s.owed b).stepS = true
  · have h1 : (s.owed b).step .s = true := h
    simp [h, h1]
  · have h0 : (s.owed b).stepS = false := by simpa using h
    have h1 : (s.owed b).step .s = false := h0
    simp [h0, h1]

theorem State.chan_reachBerths_of_not_mem {l : List BerthId} (h : c ∉ l) : (s.reachBerths l).chan c = s.chan c := by
  induction l generalizing s with
  | nil => rfl
  | cons b rest ih =>
    have hb : c ≠ b := fun e => h (e ▸ .head _)
    exact (ih fun hm => h (.tail _ hm)).trans (State.chan_reachBerth_of_ne hb)

/-- In a list without repetitions a tick reaches a berth as it would alone. -/
theorem State.chan_reachBerths_of_mem {l : List BerthId} (hn : l.Nodup) (h : c ∈ l) :
    ∃ u : State, u.chan c = s.chan c ∧ u.owed c = s.owed c ∧ (s.reachBerths l).chan c = (u.reachBerth c).chan c := by
  induction l generalizing s with
  | nil => cases h
  | cons b rest ih =>
    obtain ⟨hb, hr⟩ := List.nodup_cons.mp hn
    by_cases e : c = b
    · subst e
      exact ⟨s, rfl, rfl, State.chan_reachBerths_of_not_mem hb⟩
    · have hm : c ∈ rest := by
        cases h with
        | head => exact absurd rfl e
        | tail _ hm => exact hm
      obtain ⟨u, h1, h2, h3⟩ := ih (s := s.reachBerth b) hr hm
      exact ⟨u, h1.trans (State.chan_reachBerth_of_ne e), h2.trans (State.owed_reachBerth_of_ne e), h3⟩

/-- A base S tick ticks the Step channels it owes. -/
theorem State.chan_reachBerths (b : BerthId) :
    (s.reachBerths BerthId.all).chan b =
      if (s.owed b).stepS then { s.chan b with step := (s.chan b).step.tick .s } else s.chan b := by
  obtain ⟨u, h1, h2, h3⟩ := State.chan_reachBerths_of_mem (s := s) (l := BerthId.all) (by decide)
    (show b ∈ BerthId.all by cases b <;> decide)
  rw [h3, State.chan_reachBerth, h2, h1]

/-! ## One count in an event of its own -/

/-- A tick that would not bring a Step count to 0 decrements it, if it counts the channel's base, and has then reached it. -/
theorem State.stepExpiry_of_not_expires (h : s.stepExpires b = false) :
    s.stepExpiry b = (s.reachStep b .f).reachStep b .s := by simp [State.stepExpiry, h]

theorem State.settleExpiry_of_not_expires (h : s.settleExpires b = false) : s.settleExpiry b = s.reachSettle b := by
  simp [State.settleExpiry, h]

theorem State.holdExpiry_of_none (h : s.holdExpires b = none) : s.holdExpiry b = s.reachHolds b := by
  simp [State.holdExpiry, h]

/-! ## Nothing owed -/

theorem State.takeOwedBy_of_none (h : s.owed b = Owed.none) : s.takeOwedBy b = s := by
  have e0 : s.stepExpires b = false := by
    have hx : (s.owed b).step (s.chan b).step.base = false := by
      rw [h]
      cases (s.chan b).step.base <;> rfl
    simp [State.stepExpires, hx]
  have e1 : s.stepExpiry b = s := by
    rw [State.stepExpiry_of_not_expires e0, State.reachStep_of_not_owed (base := .f) (by rw [h]; rfl),
      State.reachStep_of_not_owed (base := .s) (by rw [h]; rfl)]
  have e2 : s.settleExpiry b = s := by
    rw [State.settleExpiry_of_not_expires (by simp [State.settleExpires, h, Owed.none]),
      State.reachSettle_of_not_owed (by rw [h]; rfl)]
  have e3 : s.holdExpiry b = s := by
    rw [State.holdExpiry_of_none (by simp [State.holdExpires, h, Owed.none]), State.reachHolds_of_not_owed (by rw [h]; rfl)]
  simp only [State.takeOwedBy, e1, e2, e3]

theorem State.takeOwedByAll_of_none (h : ∀ b, s.owed b = Owed.none) (l : List BerthId) : s.takeOwedByAll l = s := by
  induction l with
  | nil => rfl
  | cons b rest ih =>
    show (s.takeOwedBy b).takeOwedByAll rest = s
    rw [State.takeOwedBy_of_none (h b)]
    exact ih

/-- When nothing is owed, the next tick finds the state as it is. -/
theorem State.takeOwed_of_nothingOwed (h : s.nothingOwed) : s.takeOwed = s := by
  obtain ⟨h1, h2, h3⟩ := h
  have e1 : s.reload = s := by simp [State.reload, h1]
  have e2 : s.scanTick = s := by simp [State.scanTick, h2]
  show (s.reload.scanTick).takeOwedByAll BerthId.all = s
  rw [e1, e2]
  exact State.takeOwedByAll_of_none (fun b => by unfold State.owed; rw [h3]; cases b <;> rfl) _

end Sys2Proof.Machine
end

