-- ==== Sys2Proof/Tests/Slice0.lean ====
section
/-! SUPPORT. The model's own tests: ill-formed commands that the check refuses; the main effect of each command on a small state;
and, for every statement with hypotheses, a state and operands that meet them (theorems named witness_<statement>). -/

namespace Sys2Proof.Tests

open Sys2Proof Sys2Proof.Machine

/-! ## Ill-formed commands -/

/-- Request bits with toggle 1 and operand 0. -/
def q1 : ReqBits := { toggle := true, spare := 0, operand := 0 }

/-- Request bits with toggle 1 and an operand. -/
def qOp (op : BitVec 8) : ReqBits := { toggle := true, spare := 0, operand := op }

theorem test_wf_refuses_known_code : (Instr.reqInvalidCode .b0 8 q1).wf = false := by decide

theorem test_wf_refuses_group_code : (Instr.groupInvalid .g0 8 q1).wf = false := by decide

theorem test_wf_refuses_known_value : (Instr.bkrWriteInvalidValue .b0 .shoreBkr 2).wf = false := by decide

theorem test_wf_accepts_the_others :
    (Instr.reqInvalidCode .b0 9 q1).wf = true ∧ (Instr.groupInvalid .g0 7 q1).wf = true
      ∧ (Instr.bkrWriteInvalidValue .b0 .shoreBkr 3).wf = true := by decide

theorem test_no_word_spells_a_command : decodeTableWord 16 0xA5F0 = none ∧ State.reset.withFetchWord 16 1 = State.reset := by
  decide

/-! ## A small state -/

/-- A static part for the tests. -/
def part (k : TransferKind) : BerthStatic :=
  { defaultMode := .auto, transferKind := k, autoRelease := false, baseCredits := 10, uvIndex := 0, ovIndex := 1,
    deadBusIndex := 2, syncMaxFreq := 10, syncMaxAngle := 10, syncMaxVolt := 10, syncPersistence := 2, uvOvPersistence := 1,
    staleLimit := 3, quietRequired := 4, engageLimit := 5, breakerConfirm := 6, settle := 7, syncLimit := 8,
    deadBusLimit := 9, overlapLimit := 10, holdLimit := 11 }

/-- Tables with two berths, B0 of a closed and B1 of an open transition, and group entry 0 holding both. -/
def tables : Tables :=
  { baseFPeriod := 1, ns := 4, scanPeriod := 3, n := 2
    statics := ⟨part .closedTransition, part .openTransition, BerthStatic.blank, BerthStatic.blank, BerthStatic.blank,
      BerthStatic.blank, BerthStatic.blank, BerthStatic.blank⟩
    thresholds := [some 100, some 300, some 20]
    levels :=
      [{ valid := true, credits := 0, limit := 7, activity := 0, upResidency := 0, downIdle := 1 },
        { valid := true, credits := 5, limit := 8, activity := 9, upResidency := 2, downIdle := 1 },
        { valid := true, credits := 50, limit := 9, activity := 9, upResidency := 2, downIdle := 1 }]
        ++ List.replicate 5 LevelEntry.blank
    ccfg := 40, reserve := 5, highLoad := 100, lowLoad := 50
    windows :=
      [some { kind := .command, index := 0, base := 0x10 }, some { kind := .request, index := 0, base := 0x20 },
        some { kind := .field, index := 0, base := 0x30 }, some { kind := .field, index := 15, base := 0x40 },
        some { kind := .command, index := 1, base := 0x50 }, some { kind := .request, index := 1, base := 0x60 },
        some { kind := .field, index := 1, base := 0x70 }, some { kind := .group, index := 0, base := 0x80 },
        some { kind := .log, index := 0, base := 0x100 }]
    groups := ⟨{ members := 3, blocked := 0 }, { members := 0, blocked := 0 }, { members := 0, blocked := 0 },
      { members := 0, blocked := 0 }⟩
    logCapacity := 16 }

/-- RUNNING with those tables, every berth VACANT in AUTO, and the feeder at 40 credits. -/
def run : State :=
  { State.lost [] false [] none with
    phase := .running
    tables := tables
    berths := Eight.fill { Berth.blank with state := .vacant }
    budget := { Budget.blank with capacity := 40 }
    timer := { TimerBank.blank with divider := 4 }
    scan := { ScanEngine.blank with timer := 3 }
    log := { Log.blank with capacity := 16 } }

/-- The state `run` with B0's mode and state chosen. -/
def at0 (m : Mode) (st : BState) : State := run.setBerth .b0 { run.berth .b0 with mode := m, state := st }

/-- The state `run` with B1's mode and state chosen. -/
def at1 (m : Mode) (st : BState) : State := run.setBerth .b1 { run.berth .b1 with mode := m, state := st }

/-- A state under MAINT. -/
def maint (s : State) : State := s.setTimer { s.timer with maint := true }

/-- A state with a request in progress at B0. -/
def asked (s : State) (c : ReqCode) (o : Option (BitVec 8)) : State :=
  s.setBerth .b0 { s.berth .b0 with request := some { code := c, toggle := false, operand := o }, phase := .pending }

/-- A state with a claim waiting. -/
def claimed (s : State) (b : BerthId) (k : ClaimKind) (n : Nat) : State :=
  s.setBudget { s.budget with claims := s.budget.claims ++ [{ berth := b, kind := k, credits := n }] }

/-- A held CLOSE of B0. -/
def hold0 (w : BreakerWord) (r : HoldReason) : Hold :=
  { address := tables.cmdAddress .b0 w.cmd, berth := .b0, word := w, data := cmdClose, reason := r, count := 1 }

/-- A state with one held CLOSE of B0. -/
def held (s : State) (w : BreakerWord) (r : HoldReason) : State := s.setHolds [hold0 w r]

/-- A state whose tick under way has still to reach every count of B0. -/
def owing (s : State) : State := s.setOwed .b0 { stepF := true, stepS := true, settle := true, hold := true }

/-- A state with an access in progress at the memory port. -/
def busy (s : State) (a : PortAccess) : State := s.setPorts { s.ports with busy := some a }

/-- A scan result: the three breakers, pilot and ready; voltages 200 and 0, and the earth path made. -/
def seen (shore shipcon gens : Position) (pilot ready : Bool) : ScanResult :=
  { shore := shore, shipcon := shipcon, gens := gens, pilot := pilot, earth := true, ready := ready, vShore := 200, vShip := 0,
    fDiff := 0, angle := 0, load := 0 }

/-- A state with a latest result of B0. -/
def saw (s : State) (r : ScanResult) : State := s.setBerth .b0 { s.berth .b0 with latest := some r }

/-- A state with B0's Step channel at 1 and a tick that has still to reach it. -/
def stepDue (s : State) (d : Deadline) : State :=
  owing (s.setChan .b0 { s.chan .b0 with step := Channel.loaded d 1 s.timer.maint })

/-- A state with B0's Settle channel at 1 and a tick that has still to reach it. -/
def settleDue (s : State) : State := owing (s.setChan .b0 { s.chan .b0 with settle := Channel.loaded .settle 1 false })

/-- B0 in PARALLEL with 5 left of its overlap limit and a tick that has still to reach it. -/
def stillOwed : State :=
  owing ((at0 .auto .parallel).setChan .b0 { Channels.blank with step := Channel.loaded .overlap 5 false })

/-- The words of B0's block before the last read: SEQ, breakers, cable, V_SHORE, V_SHIP, F_DIFF, ANGLE, LOAD. -/
def words (seq breakers cable v : Word) : List Word := [seq, breakers, cable, v, 0, 0, 0, 0]

/-- A state in which the last read of B0's block is in progress, with a baseline of SEQ 1. -/
def lastRead (s : State) (ws : List Word) : State :=
  busy ({ s with blocks := s.blocks.set .b0 { status := .baseline, reference := some 1, stale := 0 } }.setScan
    { s.scan with pass := some { block := .berth .b0, words := ws } }) (.scanRead 0x30)

/-- The state after a command; no command stops the machine. -/
def after (c : Instr) (s : State) : State :=
  match exec c s with
  | .next t => t
  | .fault _ => s
  | .refused _ => s

/-! ## The image -/

/-- A good image of one berth with a given check word. -/
def image (check : Word) : List Word :=
  [0xA5F0, 1, 258, check, 1, 4, 3, 1]
    ++ [0, 10, 0x210, 10, 10, 10, 0x102, 3, 4, 5, 6, 7, 8, 9, 10, 11] ++ List.replicate 112 0
    ++ [7, 100, 300, 20] ++ List.replicate 13 0
    ++ [0x8000, 7, 0, 0x0100] ++ List.replicate 28 0
    ++ [40, 5, 100, 50]
    ++ [0x1000, 0x10, 0x2000, 0x20, 0x3000, 0x30, 0x300F, 0x40, 0x5000, 0x100] ++ List.replicate 54 0
    ++ [0, 0, 0, 0] ++ [16]

/-- The published check values of the CRC-16 with polynomial 0x1021 from 0xFFFF: of "12345678" and of "123456789". -/
theorem test_crc :
    [0x3132, 0x3334, 0x3536, 0x3738].foldl crcWord 0xFFFF = 0xA12B
      ∧ crcByte ([0x3132, 0x3334, 0x3536, 0x3738].foldl crcWord 0xFFFF) 0x39 = 0x29B1 := by decide +kernel

theorem test_image_length : (image 0).length = 258 := by decide +kernel

/-- The words of the good image that the CRC covers. -/
def covered : List Word := (image 0xC270).take 3 ++ (image 0xC270).drop 4

/-- Every word from a place on goes into the CRC after those before it. -/
theorem crc_from (c d : Word) (l : List Word) (h : (l.take 32).foldl crcWord c = d) :
    l.foldl crcWord c = (l.drop 32).foldl crcWord d := by
  rw [← h, ← List.foldl_append, List.take_append_drop]

/-- The CRC of the good image, taken 32 words at a time. -/
theorem test_image_crc : imageCrc (image 0xC270) = 0xC270 := by
  show covered.foldl crcWord 0xFFFF = 0xC270
  rw [crc_from 0xFFFF 0x88BD _ (by decide +kernel)]
  rw [crc_from 0x88BD 0xFAF9 _ (by decide +kernel)]
  rw [crc_from 0xFAF9 0x29AB _ (by decide +kernel)]
  rw [crc_from 0x29AB 0xBE11 _ (by decide +kernel)]
  rw [crc_from 0xBE11 0x07E7 _ (by decide +kernel)]
  rw [crc_from 0x07E7 0x92B7 _ (by decide +kernel)]
  rw [crc_from 0x92B7 0x6940 _ (by decide +kernel)]
  rw [crc_from 0x6940 0x48AE _ (by decide +kernel)]
  decide +kernel

/-- The good image passes every check made with its last word; with another check word it fails the first of them. -/
theorem test_image_late_checks : lateChecks (image 0xC270) = .none ∧ lateChecks (image 0xC271) = .badCheck := by
  have h : imageCrc (image 0xC271) = 0xC270 := test_image_crc
  constructor
  · unfold lateChecks
    rw [test_image_crc]
    decide +kernel
  · unfold lateChecks
    rw [h]
    decide +kernel

/-! ## The commands -/

/-- An own write of B0's COMMAND words. -/
def write0 (w : CmdWord) (d : Word) (c : WriteClass) : OwnWrite :=
  { address := tables.cmdAddress .b0 w, data := d, cls := c, berth := some .b0 }

theorem test_reset_assert_lands :
    (after (.resetAssert true) (busy run (.ownWrite (write0 .shoreBkr cmdOpen .seq)))).pimRead 0x10 = 1
      ∧ (after (.resetAssert false) (busy run (.ownWrite (write0 .shoreBkr cmdOpen .seq)))).pim = [] := by decide

theorem test_reset_release :
    (after .resetRelease (State.lost [] false [] none)).phase = .loading
      ∧ (after .resetRelease (State.lost [] false [] none)).loader.startupWaiting = true := by decide

theorem test_image_word_blocks :
    (after (.imageWordRead 2) { State.reset with loader := { State.reset.loader with words := [0xA5F0] } }).loader.error
      = .badMarker := by decide

theorem test_startup_read :
    ((after (.startupReqRead none) (busy { run with phase := .loading, pim := [(0x20, 0x8000)] } (.startRead (.req .b0)))).berth .b0).lastTaken
      = true := by decide

theorem test_connect_waits_for_its_grant :
    ((after (.reqConnect .b0 q1) (claimed (at0 .auto .cabled) .b1 .engage 41)).berth .b0).state = .engaging
      ∧ (after (.reqConnect .b0 q1) (claimed (at0 .auto .cabled) .b1 .engage 41)).budget.claims.length = 2 := by decide

theorem test_connect_is_granted :
    ((after (.reqConnect .b0 q1) (saw (at0 .auto .cabled) (seen .open .open .closed true true))).berth .b0).state = .energizing
      ∧ (after (.reqConnect .b0 q1) (saw (at0 .auto .cabled) (seen .open .open .closed true true))).granted = 10 := by decide

theorem test_transfer :
    ((after (.reqTransfer .b0 q1) (at0 .auto .energized)).berth .b0).state = .syncing
      ∧ ((after (.reqTransfer .b1 q1) (at1 .auto .energized)).berth .b1).state = .deadbus := by decide

theorem test_return :
    ((after (.reqReturn .b0 q1) (at0 .auto .shore)).berth .b0).state = .resyncing
      ∧ ((after (.reqReturn .b1 q1) (at1 .auto .shore)).berth .b1).state = .separating := by decide

theorem test_disconnect :
    (after (.reqDisconnect .b0 q1) (at0 .auto .energized)).owq.head? = some (write0 .shoreBkr cmdOpen .seq) := by decide

theorem test_set_level_rises_or_finds_no_budget :
    ((after (.reqSetLevel .b0 (qOp 1)) (at0 .auto .shore)).berth .b0).level = 1
      ∧ ((after (.reqSetLevel .b0 (qOp 2)) (at0 .auto .shore)).berth .b0).result = .nobudget := by decide

theorem test_set_level_refuses_the_invalid :
    ((after (.reqSetLevel .b0 (qOp 3)) (at0 .auto .shore)).berth .b0).result = .invalid
      ∧ ((after (.reqSetLevel .b0 (qOp 8)) (at0 .auto .shore)).berth .b0).result = .invalid := by decide

theorem test_set_mode :
    ((after (.reqSetMode .b0 (qOp 1)) (at0 .auto .cabled)).berth .b0).mode = .manual
      ∧ ((after (.reqSetMode .b0 (qOp 2)) (at0 .auto .cabled)).berth .b0).result = .invalid := by decide

theorem test_release_recovers :
    ((after (.reqRelease .b0 q1) ((at0 .auto .lockout).setSup .b0 { Supervision.blank with quiet := 4 })).berth .b0).state
      = .vacant
      ∧ ((after (.reqRelease .b0 q1) ((at0 .auto .lockout).setSup .b0 { Supervision.blank with quiet := 3 })).berth .b0).state
        = .lockout := by decide

theorem test_abort_ends_the_request_in_the_log :
    (after (.reqAbort .b0 q1) (asked (at0 .auto .syncing) .transfer none)).log.staging.map (fun r => r.type)
      = [.requestFinal, .state] := by decide

theorem test_abort_refused : ((after (.reqAbort .b0 q1) (at0 .auto .cabled)).berth .b0).result = .refused := by decide

theorem test_none : ((after (.reqNone .b0 q1) (at0 .auto .cabled)).berth .b0).result = .none := by decide

theorem test_unknown_code_is_invalid :
    ((after (.reqInvalidCode .b0 9 q1) (at0 .auto .cabled)).berth .b0).result = .invalid
      ∧ ((after (.reqInvalidCode .b0 15 q1) (at0 .auto .cabled)).berth .b0).result = .invalid := by decide

/-- The GROUP_RSP word that waits in the Own Write Queue. -/
def groupAnswer (s : State) : Option Word := (s.owq.find? fun e => decide (e.address = 0x81)).map fun e => e.data

theorem test_group_connect :
    groupAnswer (after (.groupConnect .g0 q1) (at0 .auto .cabled)) = some (groupRspWord true .done 1 1 0) := by decide

theorem test_group_transfer :
    groupAnswer (after (.groupTransfer .g0 q1) (at0 .auto .energized)) = some (groupRspWord true .done 1 1 0) := by decide

theorem test_group_return :
    groupAnswer (after (.groupReturn .g0 q1) (at0 .auto .shore)) = some (groupRspWord true .done 1 1 0) := by decide

theorem test_group_disconnect :
    groupAnswer (after (.groupDisconnect .g0 q1) (at0 .auto .lockout)) = some (groupRspWord true .done 0 1 1) := by decide

theorem test_group_set_level :
    groupAnswer (after (.groupSetLevel .g0 (qOp 1)) (at0 .auto .shore)) = some (groupRspWord true .done 1 1 0) := by decide

theorem test_group_abort :
    groupAnswer (after (.groupAbort .g0 q1) (at0 .auto .engaging)) = some (groupRspWord true .done 1 1 0) := by decide

theorem test_group_invalid :
    groupAnswer (after (.groupInvalid .g0 7 q1) run) = some (groupRspWord true .invalid 0 0 0) := by decide

theorem test_manual_engage :
    ((after (.shoreBkrClose .b0) (at0 .manual .cabled)).berth .b0).state = .energizing
      ∧ (after (.shoreBkrClose .b0) (claimed (at0 .manual .cabled) .b1 .engage 41)).holds.map (fun h => h.count) = [11] := by decide

theorem test_manual_shipcon :
    (after (.shipconBkrClose .b0) (saw (at0 .manual .energized) (seen .closed .open .closed true true))).ports.host
      = some (.write 0x11 2)
      ∧ (after (.shipconBkrClose .b0)
          (saw (at0 .manual .energized) { seen .closed .open .closed true true with vShip := 21 })).holds.length = 1 := by decide

theorem test_write_open :
    (after (.bkrWriteOpen .b0 .shipconBkr) (held (at0 .manual .energized) .shipconBkr .sync)).holds = []
      ∧ (after (.bkrWriteOpen .b0 .shoreBkr) (at0 .auto .energized)).log.staging.length = 1 := by decide

theorem test_write_none :
    (after (.bkrWriteNone .b0 .shoreBkr) (at0 .manual .energized)).ports.host = some (.write 0x10 0) := by decide

theorem test_write_unknown_value :
    (after (.bkrWriteInvalidValue .b0 .shoreBkr 3) (at0 .manual .energized)).log.staging.map (fun r => r.qualifier) = [2] := by decide

theorem test_write_gen_release :
    (after (.genReleaseWrite .b0 0xBEEF) (at0 .manual .energized)).ports.host = some (.write 0x12 0xBEEF) := by decide

/-- A log with three records in the ring. -/
def ringed (s : State) : State := s.setLog { s.log with producer := 2, consumer := 15 }

theorem test_consumer :
    (after (.consumerWrite 2) (ringed run)).log.consumer = 2 ∧ (after (.consumerWrite 3) (ringed run)).log.consumer = 15 := by decide

theorem test_host_write_by_class :
    (after (.hostWrite 0x200 9) run).ports.host = some (.write 0x200 9)
      ∧ (after (.hostWrite 0x37 9) run).log.staging.map (fun r => (r.berth, r.qualifier)) = [(some .b0, 1)]
      ∧ (after (.hostWrite 0x102 0) run).ports.host = some (.write 0x102 0) := by decide

theorem test_grant_answers_a_read :
    (after (.portGrant (some 0x37) (some 5) false) run).ports.hostData = some 5
      ∧ (after (.portGrant (some 0x37) none false) run).ports.hostData = some 0
      ∧ (after (.portGrant (some 0x21) (some 5) false) { run with pim := [(0x21, 7)] }).ports.hostData = some 7 := by
  decide

/-- With no tables in force a station word stands at a FIELD word of the image installed last, and at power-on anywhere but at the
start-up word. -/
theorem test_station_words_without_tables :
    State.reset.stationWord 0x37 = true ∧ State.reset.stationWord 0xFFFF = false
      ∧ ({ State.reset with plant := some [{ kind := .field, index := 0, base := 0x30 }] } : State).stationWord 0x37 = true
      ∧ ({ State.reset with plant := some [{ kind := .field, index := 0, base := 0x30 }] } : State).stationWord 0x38 = false := by
  decide

theorem test_first_access_is_the_startup_write :
    (after (.portGrant none none true) { State.reset with loader := { State.reset.loader with reads := [.req .b0] } }).loader.firstWaiting
      = false := by decide

theorem test_grant_prefers_a_trip :
    (after (.portGrant (some 0x37) none false) { run with owq := [write0 .shoreBkr cmdOpen .trip] }).ports.busy
      = some (.ownWrite (write0 .shoreBkr cmdOpen .trip)) := by decide

theorem test_own_write_carried :
    ((after .ownWriteCarried (busy (at0 .auto .separating) (.ownWrite (write0 .shipconBkr cmdOpen .seq)))).berth .b0).openingIssued
      = true := by decide

theorem test_host_write_carried :
    (after .hostWriteCarried
      (busy { at0 .auto .separating with owq := [write0 .shipconBkr cmdOpen .seq] } (.hostWrite 0x11 2))).owq
      = [write0 .shipconBkr cmdOpen .seq]
      ∧ (after .hostWriteCarried (busy { run with owq := [write0 .shipconBkr cmdOpen .seq] } (.hostWrite 0x11 2))).owq = [] := by
  decide

theorem test_base_f_tick :
    (after .baseFTick run).scan.timer = 2 ∧ (after .baseFTick run).timer.divider = 3 := by decide +kernel

theorem test_base_f_tick_takes_what_is_owed :
    ((after .baseFTick (stepDue (at0 .auto .parallel) .overlap)).berth .b0).state = .separating
      ∧ ((after .baseFTick stillOwed).chan .b0).step.count = 4 := by decide +kernel

/-- A tick reaches each count once, and MAINT can rise between two counts. -/
theorem test_tick_reaches_one_count :
    ((after (.stepExpiry .b0) stillOwed).chan .b0).step.count = 4
      ∧ ((after (.stepExpiry .b0) (after (.stepExpiry .b0) stillOwed)).chan .b0).step.count = 4
      ∧ ((after (.stepExpiry .b0) (after .maintAssert (stepDue (at0 .auto .syncing) .sync))).chan .b0).step.status = .frozen := by
  decide

theorem test_base_s_tick :
    (after .baseSTick ((held run .shipconBkr .sync).setTimer { run.timer with sDue := true })).timer.divider = 4
      ∧ (after .baseSTick (owing ((at0 .manual .energized).setHolds [{ hold0 .shipconBkr .sync with count := 5 }]))).holds.map
        (fun h => h.count) = [4] := by decide

theorem test_scan_tick :
    (after .scanTick (run.setScan { run.scan with tickDue := true })).scan.pass = some { block := .feeder, words := [] } := by decide

theorem test_step_expiry :
    ((after (.stepExpiry .b0) (stepDue (asked (at0 .auto .unparallel) .return none) .overlap)).berth .b0).result = .tripped := by decide

theorem test_settle_expiry :
    ((after (.settleExpiry .b0) (settleDue (saw (at0 .auto .energizing) (seen .closed .open .closed true true)))).berth .b0).state
      = .energized := by decide

theorem test_hold_expiry :
    (after (.holdExpiry .b0) (owing (held (at0 .manual .energized) .shipconBkr .sync))).log.staging.map (fun r => r.type) = [.holdExpired] := by
  decide

theorem test_scan_read_accepts :
    ((after (.scanReadComplete (some 2)) (lastRead (at0 .auto .vacant) (words 2 0 3 200))).berth .b0).state = .cabled := by decide

theorem test_scan_read_trips :
    (after (.scanReadComplete (some 2)) (lastRead (at0 .auto .energized) (words 2 1 3 99))).owq.head?
      = some (write0 .shoreBkr cmdOpen .trip) := by decide

theorem test_log_write_completes :
    (after .logWriteComplete
      (busy (run.setLog (run.log.stage (run.stateRecord .b0 .vacant .auto .cabled .auto))) (.logWrite (.recordWord 3) 0x108 0))).log.producer
      = 1 := by decide

theorem test_maint_assert :
    ((after .maintAssert (run.setChan .b0 { run.chan .b0 with step := Channel.loaded .sync 8 false })).chan .b0).step.status
      = .frozen := by decide

theorem test_maint_release :
    ((after .maintRelease (maint (run.setChan .b0 { run.chan .b0 with step := Channel.loaded .sync 8 true }))).chan .b0).step.status
      = .running := by decide

/-! ## Witnesses: the machine and its invariants -/

/-- A state with one command waiting. -/
def ready (c : Instr) (s : State) : State := { s with pending := [c] }

theorem noClaim_of_nil {s : State} {b : BerthId} (h : s.budget.claims = []) : s.noClaim b := by
  intro c hc
  rw [h] at hc
  cases hc

theorem witness_StepRunsFrontCommand : (ready .scanTick run).pending = .scanTick :: [] := rfl

theorem witness_TablesStayFixedWhileRunning : run.phase = .running ∧ ∀ l, Instr.scanTick ≠ .resetAssert l :=
  ⟨rfl, fun _ h => by cases h⟩

theorem witness_MemoryStaysCanonical :
    Memory.wf (ready .ownWriteCarried { run with pim := [(16, 1), (65535, 2)] }).pim = true
      ∧ ∃ t, step (ready .ownWriteCarried { run with pim := [(16, 1), (65535, 2)] }) = .next t := ⟨by decide, _, rfl⟩

/-- A queue with a TRIP entry ahead of a SEQ entry. -/
def queued (s : State) : State := { s with owq := [write0 .shoreBkr cmdOpen .trip, write0 .shipconBkr cmdOpen .seq] }

theorem witness_OwnWriteQueueStaysOrdered :
    ownWritesOrdered (ready .scanTick (queued run)).owq ∧ ∃ t, step (ready .scanTick (queued run)) = .next t :=
  ⟨by unfold ownWritesOrdered; decide, _, rfl⟩

theorem witness_OwnWriteQueueNeverFills :
    (ownWritesOrdered (ready .scanTick (queued run)).owq ∧ (ready .scanTick (queued run)).quietOutside
        ∧ (ready .scanTick (queued run)).ownWritesAfterImage
        ∧ (∀ e ∈ (ready .scanTick (queued run)).owq, e.address ∈ ownAddresses (ready .scanTick (queued run)).tables)
        ∧ ∃ t, step (ready .scanTick (queued run)) = .next t)
      ∧ ownWritesOrdered (ready .scanTick State.reset).owq ∧ (ready .scanTick State.reset).quietOutside
        ∧ (ready .scanTick State.reset).ownWritesAfterImage
        ∧ ∃ t, step (ready .scanTick State.reset) = .next t :=
  ⟨⟨by unfold ownWritesOrdered; decide, fun h => absurd rfl h, fun h => absurd (.inl rfl) h, by decide, _, rfl⟩,
    by unfold ownWritesOrdered; decide, fun _ => ⟨rfl, rfl, rfl, rfl, rfl, rfl⟩,
    fun _ => ⟨rfl, rfl, fun _ h => by cases h⟩, _, rfl⟩

/-- A record staged while its second word is being written. -/
def logging (s : State) : State :=
  busy (s.setLog (s.log.stage (s.stateRecord .b0 .vacant .auto .cabled .auto))) (.logWrite (.recordWord 1) 0x106 0)

theorem witness_LogRingStaysBounded :
    (ready .logWriteComplete (logging (ringed run))).logSound
      ∧ ∃ t, step (ready .logWriteComplete (logging (ringed run))) = .next t :=
  ⟨⟨by unfold Log.sound; decide, fun _ _ _ _ => by decide⟩, _, rfl⟩

/-- B0 in PARALLEL with one tick of its overlap limit gone. -/
def overlapping : State :=
  (at0 .auto .parallel).setChan .b0 { Channels.blank with step := Channel.loaded .overlap 9 false }

theorem witness_OverlapStaysBounded :
    (ready .scanTick overlapping).overlapBounded ∧ ((ready .scanTick overlapping).berth .b0).state = .parallel
      ∧ ∃ t, step (ready .scanTick overlapping) = .next t :=
  ⟨fun b => by cases b <;> decide, rfl, _, rfl⟩

/-- B0 in SYNCING under MAINT, its count frozen. -/
def frozen : State :=
  maint ((at0 .auto .syncing).setChan .b0 { Channels.blank with step := Channel.loaded .sync 8 true })

theorem frozen_freeze : frozen.freezeFollowsMaint := fun b => by cases b <;> decide

theorem witness_FreezeFollowsMaint :
    (ready .maintRelease frozen).quietOutside ∧ (ready .maintRelease frozen).freezeFollowsMaint
      ∧ (frozen.chan .b0).step.status = .frozen ∧ ∃ t, step (ready .maintRelease frozen) = .next t :=
  ⟨fun h => absurd rfl h, frozen_freeze, rfl, _, rfl⟩

theorem witness_NothingRunsOutsideRunning :
    (ready .scanTick State.reset).quietOutside ∧ (ready .scanTick State.reset).phase ≠ .running
      ∧ ∃ t, step (ready .scanTick State.reset) = .next t :=
  ⟨fun _ => ⟨rfl, rfl, rfl, rfl, rfl, rfl⟩, by decide, _, rfl⟩

theorem witness_TogglesStayEqual :
    (ready .scanTick run).togglesEqual ∧ ∃ t, step (ready .scanTick run) = .next t :=
  ⟨fun b => by cases b <;> rfl, _, rfl⟩

/-- FEEDER_STALE set and C at 0. -/
def feederLost : State := (run.setScan { run.scan with feederStale := true }).setBudget { run.budget with capacity := 0 }

theorem witness_StaleFeederHoldsCapacityAtZero :
    (ready .scanTick feederLost).staleFeederEmpty ∧ feederLost.scan.feederStale = true
      ∧ ∃ t, step (ready .scanTick feederLost) = .next t :=
  ⟨fun _ => rfl, rfl, _, rfl⟩

theorem tables_berths : tables.berthsSound := by
  refine ⟨by decide, fun b hb => ?_⟩
  cases b
  case b0 =>
    refine ⟨by decide, by decide, ?_⟩
    rintro i (rfl | rfl | rfl) <;> exact ⟨_, rfl⟩
  case b1 =>
    refine ⟨by decide, by decide, ?_⟩
    rintro i (rfl | rfl | rfl) <;> exact ⟨_, rfl⟩
  all_goals exact absurd hb (by decide)

theorem tables_windows : tables.windowsSound := by
  refine ⟨by decide, by decide, by decide, ?_, by decide, by decide, ?_⟩
  · intro b hb
    cases b
    case b0 => decide
    case b1 => decide
    all_goals exact absurd hb (by decide)
  · intro g
    cases g <;> decide

theorem witness_TablesInUseStaySound :
    (ready .scanTick run).tablesSound ∧ run.phase = .running ∧ ∃ t, step (ready .scanTick run) = .next t :=
  ⟨fun _ => ⟨tables_berths, by unfold Tables.budgetSound; decide, tables_windows⟩, rfl, _, rfl⟩

/-! ## Witnesses: lines -/

theorem witness_TripLineFollowsLockout :
    ((at0 .auto .lockout).phase = .running ∧ (at0 .auto .lockout).configured .b0 = true
        ∧ (at0 .auto .lockout).trip .b0 = true ∧ (at0 .auto .cabled).trip .b0 = false)
      ∧ State.reset.phase ≠ .running ∧ run.tables.n ≤ BerthId.b2.toNat := by decide

theorem witness_PermitLineFollowsState :
    (at1 .auto .separating).perm .b1 = true ∧ (at1 .auto .disengaging).perm .b1 = false ∧ run.perm .b2 = false := by decide

theorem witness_AttentionLineFollowsLog :
    ((ringed run).phase = .running ∧ (ringed run).attn = true ∧ run.attn = false)
      ∧ { State.reset with phase := .blocked }.attn = true ∧ State.reset.phase = .loading
      ∧ (State.lost [] false [] none).phase = .resetHeld ∧ run.ready = true ∧ run.wait = false := by decide

/-! ## Witnesses: reset and start-up -/

theorem witness_ResetDiscardsAndReleaseLoads :
    (Memory.wf run.pim = true ∧ (busy run (.ownWrite (write0 .shoreBkr 1 .seq))).ports.busy = some (.ownWrite (write0 .shoreBkr 1 .seq))
        ∧ (logging run).ports.busy = some (.logWrite (.recordWord 1) 0x106 0)
        ∧ (∀ w, run.ports.busy ≠ some (.ownWrite w)) ∧ ∀ k a d, run.ports.busy ≠ some (.logWrite k a d))
      ∧ (State.lost [] false [] none).phase = .resetHeld :=
  ⟨⟨rfl, rfl, rfl, (fun _ h => by cases h), (fun _ _ _ h => by cases h)⟩, rfl⟩

/-- LOADING with these words read. -/
def loaded (ws : List Word) : State := { State.reset with loader := { State.reset.loader with words := ws } }

theorem witness_ImageWordIsStoredOrBlocks :
    (loaded []).phase = .loading ∧ (loaded []).loader.words.length < 257
      ∧ (loaded ((image 0xC270).take 256)).loader.words.length < 257
      ∧ (loaded ((image 0xC270).take 256)).loader.words.length ≠ 1 ∧ (loaded ((image 0xC270).take 256)).loader.words.length ≠ 2
      ∧ ((loaded [0xA5F0]).loader.words = [0xA5F0] ∧ (0xA5F0 : Word) = 0xA5F0)
      ∧ ((loaded [0xA5F1]).loader.words = [0xA5F1] ∧ (0xA5F1 : Word) ≠ 0xA5F0)
      ∧ ((loaded [0xA5F0, 1]).loader.words = [0xA5F0, 1] ∧ (258 : Word) = 258 ∧ (257 : Word) ≠ 258) := by decide +kernel

theorem take257 (c : Word) (h : c = 0xC270 ∨ c = 0xC271) : (image c).take 257 ++ [16] = image c := by
  rcases h with rfl | rfl <;> decide +kernel

theorem witness_LastImageWordInstallsOrBlocks :
    ((loaded ((image 0xC270).take 257)).phase = .loading ∧ (loaded ((image 0xC270).take 257)).loader.words.length = 257
        ∧ lateChecks ((loaded ((image 0xC270).take 257)).loader.words ++ [16]) = .none)
      ∧ ((loaded ((image 0xC271).take 257)).loader.words.length = 257
        ∧ lateChecks ((loaded ((image 0xC271).take 257)).loader.words ++ [16]) ≠ .none) := by
  refine ⟨⟨rfl, by decide +kernel, ?_⟩, by decide +kernel, ?_⟩
  · show lateChecks ((image 0xC270).take 257 ++ [16]) = .none
    rw [take257 _ (.inl rfl)]
    exact test_image_late_checks.1
  · show lateChecks ((image 0xC271).take 257 ++ [16]) ≠ .none
    rw [take257 _ (.inr rfl), test_image_late_checks.2]
    decide

theorem witness_StartupReadTakesToggle :
    (busy run (.startRead (.req .b1))).ports.busy = some (.startRead (.req .b1))
      ∧ (busy run (.startRead (.groupReq .g0))).ports.busy = some (.startRead (.groupReq .g0)) := by decide

/-- LOADING with the image read, the five header writes made, and the last start-up read in progress. -/
def lastStart : State :=
  busy { run with phase := .loading, loader := { Loader.blank with words := image 0xC270, reads := [.req .b0] } } (.startRead (.req .b0))

theorem witness_LastStartupReadEntersRunning :
    lastStart.phase = .loading ∧ lastStart.loader.words.length = 258 ∧ lastStart.ports.busy = some (.startRead (.req .b0))
      ∧ lastStart.loader.reads = [.req .b0] ∧ lastStart.log.firstHeaders = [] := by decide +kernel

/-! ## Witnesses: berth requests -/

/-- A state with the feeder's configured capacity chosen. -/
def withCcfg (s : State) (n : Nat) : State := { s with tables := { s.tables with ccfg := n } }

/-- A state with B0's level and residency chosen. -/
def level (s : State) (n r : Nat) : State := s.setBerth .b0 { s.berth .b0 with level := n, residency := r }

/-- A state with B0's close-issued mark set. -/
def issued (s : State) : State := s.setBerth .b0 { s.berth .b0 with closeIssued := true }

/-- B0's REQ write is decided as it arrives, and its toggle is new. -/
theorem takes0 {s : State} (h1 : s.phase = .running) (h2 : s.ports.host = none) (h3 : s.configured .b0 = true)
    (h4 : (s.berth .b0).lastTaken = false) : s.serves .b0 ∧ q1.toggle ≠ (s.berth .b0).lastTaken :=
  ⟨⟨⟨h1, h2⟩, h3⟩, by rw [h4]; decide⟩

theorem witness_IntakeRowsAnswerAtOnce :
    ((at0 .auto .cabled).serves .b0 ∧ q1.toggle ≠ ((at0 .auto .cabled).berth .b0).lastTaken)
      ∧ ({ q1 with toggle := false } : ReqBits).toggle = ((at0 .auto .cabled).berth .b0).lastTaken
      ∧ (9 ≤ (9 : BitVec 4).toNat ∧ 9 ≤ (15 : BitVec 4).toNat)
      ∧ ((at0 .auto .adopting).serves .b0 ∧ q1.toggle ≠ ((at0 .auto .adopting).berth .b0).lastTaken)
        ∧ ((at0 .auto .adopting).berth .b0).state = .adopting
      ∧ ((asked (at0 .auto .syncing) .transfer none).serves .b0
          ∧ q1.toggle ≠ ((asked (at0 .auto .syncing) .transfer none).berth .b0).lastTaken)
        ∧ ((asked (at0 .auto .syncing) .transfer none).berth .b0).request ≠ none
      ∧ ((maint (at0 .auto .cabled)).serves .b0 ∧ q1.toggle ≠ ((maint (at0 .auto .cabled)).berth .b0).lastTaken)
        ∧ ((maint (at0 .auto .cabled)).berth .b0).request = none ∧ (maint (at0 .auto .cabled)).timer.maint = true :=
  ⟨takes0 rfl rfl rfl rfl, rfl, by decide, takes0 rfl rfl rfl rfl, rfl, takes0 rfl rfl rfl rfl, by decide,
    takes0 rfl rfl rfl rfl, rfl, rfl⟩

theorem witness_RequestsOutOfStateAreRefused :
    ((at0 .manual .cabled).serves .b0 ∧ q1.toggle ≠ ((at0 .manual .cabled).berth .b0).lastTaken)
      ∧ ((at0 .manual .cabled).berth .b0).state ≠ .adopting ∧ ((at0 .manual .cabled).berth .b0).request = none
      ∧ (at0 .manual .cabled).timer.maint = false
      ∧ ¬ (((at0 .manual .cabled).berth .b0).state = .cabled ∧ ((at0 .manual .cabled).berth .b0).mode = .auto)
      ∧ ((at0 .auto .engaging).serves .b0 ∧ q1.toggle ≠ ((at0 .auto .engaging).berth .b0).lastTaken)
      ∧ ((at0 .auto .engaging).berth .b0).state ≠ .shore ∧ ((at0 .auto .engaging).berth .b0).state ≠ .lockout :=
  ⟨takes0 rfl rfl rfl rfl, by decide, rfl, rfl, by decide, takes0 rfl rfl rfl rfl, by decide, by decide⟩

theorem witness_ConnectEntersEngaging :
    ((withCcfg (at0 .auto .cabled) 9).serves .b0 ∧ q1.toggle ≠ ((withCcfg (at0 .auto .cabled) 9).berth .b0).lastTaken)
      ∧ (withCcfg (at0 .auto .cabled) 9).tables.ccfg < ((withCcfg (at0 .auto .cabled) 9).static .b0).baseCredits
      ∧ ((withCcfg (at0 .auto .cabled) 10).serves .b0 ∧ q1.toggle ≠ ((withCcfg (at0 .auto .cabled) 10).berth .b0).lastTaken)
      ∧ ((withCcfg (at0 .auto .cabled) 10).static .b0).baseCredits ≤ (withCcfg (at0 .auto .cabled) 10).tables.ccfg
      ∧ (withCcfg (at0 .auto .cabled) 10).noClaim .b0 ∧ (withCcfg (at0 .auto .cabled) 10).budget.claims = []
      ∧ (at0 .auto .cabled).timer.maint = false ∧ ((at0 .auto .cabled).berth .b0).state = .cabled
      ∧ ((at0 .auto .cabled).berth .b0).mode = .auto ∧ ((at0 .auto .cabled).berth .b0).request = none :=
  ⟨takes0 rfl rfl rfl rfl, by decide, takes0 rfl rfl rfl rfl, by decide, noClaim_of_nil rfl, rfl, rfl, rfl, rfl, rfl⟩

theorem witness_TransferStartsByKind :
    ((at0 .auto .energized).serves .b0 ∧ q1.toggle ≠ ((at0 .auto .energized).berth .b0).lastTaken)
      ∧ ((at0 .auto .energized).berth .b0).request = none
      ∧ ((at0 .auto .energized).static .b0).transferKind = .closedTransition
      ∧ ((at1 .auto .energized).serves .b1 ∧ q1.toggle ≠ ((at1 .auto .energized).berth .b1).lastTaken)
      ∧ ((at1 .auto .energized).static .b1).transferKind = .openTransition
      ∧ ((maint (at0 .auto .energized)).serves .b0 ∧ q1.toggle ≠ ((maint (at0 .auto .energized)).berth .b0).lastTaken)
      ∧ (maint (at0 .auto .energized)).timer.maint = true :=
  ⟨takes0 rfl rfl rfl rfl, rfl, rfl, ⟨⟨⟨rfl, rfl⟩, rfl⟩, by decide⟩, rfl, takes0 rfl rfl rfl rfl, rfl⟩

theorem witness_ReturnStartsByKind :
    ((at0 .auto .shore).serves .b0 ∧ q1.toggle ≠ ((at0 .auto .shore).berth .b0).lastTaken)
      ∧ ((at0 .auto .shore).berth .b0).request = none ∧ (at0 .auto .shore).noClaim .b0
      ∧ ((at0 .auto .shore).static .b0).transferKind = .closedTransition ∧ (at0 .auto .shore).budget.claims = []
      ∧ ((at1 .auto .shore).serves .b1 ∧ q1.toggle ≠ ((at1 .auto .shore).berth .b1).lastTaken)
      ∧ (at1 .auto .shore).noClaim .b1 ∧ ((at1 .auto .shore).static .b1).transferKind = .openTransition :=
  ⟨takes0 rfl rfl rfl rfl, rfl, noClaim_of_nil rfl, rfl, rfl, ⟨⟨⟨rfl, rfl⟩, rfl⟩, by decide⟩, noClaim_of_nil rfl, rfl⟩

theorem witness_DisconnectStartsOrIsRefused :
    ((maint (at0 .auto .energized)).serves .b0 ∧ q1.toggle ≠ ((maint (at0 .auto .energized)).berth .b0).lastTaken)
      ∧ ((maint (at0 .auto .energized)).berth .b0).state = .energized ∧ ((at0 .auto .energized).berth .b0).request = none
      ∧ ((after (.reqDisconnect .b0 q1) (at0 .auto .energized)).berth .b0).state = .disengaging
      ∧ ((at0 .manual .energized).serves .b0 ∧ q1.toggle ≠ ((at0 .manual .energized).berth .b0).lastTaken)
      ∧ ((at0 .manual .energized).berth .b0).mode = .manual
      ∧ ((at0 .auto .adopting).serves .b0 ∧ q1.toggle ≠ ((at0 .auto .adopting).berth .b0).lastTaken)
      ∧ ((asked (at0 .auto .shore) .setLevel (some 1)).serves .b0
          ∧ q1.toggle ≠ ((asked (at0 .auto .shore) .setLevel (some 1)).berth .b0).lastTaken)
      ∧ ((asked (at0 .auto .shore) .setLevel (some 1)).berth .b0).request ≠ none :=
  ⟨takes0 rfl rfl rfl rfl, rfl, rfl, by decide, takes0 rfl rfl rfl rfl, rfl, takes0 rfl rfl rfl rfl, takes0 rfl rfl rfl rfl,
    by decide⟩

theorem witness_SetLevelByRow :
    ((level (at0 .auto .shore) 1 2).serves .b0 ∧ q1.toggle ≠ ((level (at0 .auto .shore) 1 2).berth .b0).lastTaken)
      ∧ (level (at0 .auto .shore) 1 2).timer.maint = false ∧ ((level (at0 .auto .shore) 1 2).berth .b0).state = .shore
      ∧ ((level (at0 .auto .shore) 1 2).berth .b0).request = none
      ∧ 7 < (8 : BitVec 8).toNat ∧ ((level (at0 .auto .shore) 1 2).levelEntry (7 : BitVec 8).toNat).valid = false
      ∧ ((level (at0 .auto .shore) 1 2).levelEntry (1 : BitVec 8).toNat).valid = true
      ∧ (1 : BitVec 8).toNat = ((level (at0 .auto .shore) 1 2).berth .b0).level
      ∧ (0 : BitVec 8).toNat < ((level (at0 .auto .shore) 1 2).berth .b0).level ∧ (level (at0 .auto .shore) 1 2).noClaim .b0
      ∧ ((level (at0 .auto .shore) 1 1).berth .b0).residency
          < ((level (at0 .auto .shore) 1 1).levelEntry ((level (at0 .auto .shore) 1 1).berth .b0).level).upResidency
      ∧ ((level (at0 .auto .shore) 1 2).levelEntry ((level (at0 .auto .shore) 1 2).berth .b0).level).upResidency
          ≤ ((level (at0 .auto .shore) 1 2).berth .b0).residency
      ∧ (at0 .auto .shore).tables.ccfg - (at0 .auto .shore).tables.reserve
          < (at0 .auto .shore).levelCredits 2 - (at0 .auto .shore).levelCredits 1
      ∧ (withCcfg (at0 .auto .shore) 50).levelCredits 2 - (withCcfg (at0 .auto .shore) 50).levelCredits 1
          ≤ (withCcfg (at0 .auto .shore) 50).tables.ccfg - (withCcfg (at0 .auto .shore) 50).tables.reserve
      ∧ (at0 .auto .shore).budget.claims = []
      ∧ ((at0 .auto .shore).budget.shedding = false
        ∧ (((at0 .auto .shore).levelCredits 1 - (at0 .auto .shore).levelCredits 0 : Nat) : Int)
          ≤ ((at0 .auto .shore).budget.capacity : Int) - (at0 .auto .shore).tables.reserve - (at0 .auto .shore).granted) :=
  ⟨takes0 rfl rfl rfl rfl, rfl, rfl, rfl, by decide, rfl, rfl, rfl, by decide, noClaim_of_nil rfl, by decide, by decide,
    by decide, by decide, rfl, by decide⟩

theorem witness_SetModeChangesModeAlone :
    ((at0 .auto .shore).serves .b0 ∧ q1.toggle ≠ ((at0 .auto .shore).berth .b0).lastTaken)
      ∧ (at0 .auto .shore).timer.maint = false ∧ ((at0 .auto .shore).berth .b0).request = none
      ∧ 1 < (2 : BitVec 8).toNat ∧ ((at0 .auto .shore).berth .b0).mode = .auto
      ∧ ((at0 .manual .shore).serves .b0 ∧ q1.toggle ≠ ((at0 .manual .shore).berth .b0).lastTaken)
      ∧ ((at0 .manual .shore).berth .b0).mode = .manual ∧ (at0 .manual .shore).holdsOf .b0 = []
      ∧ ((held (at0 .manual .energized) .shipconBkr .sync).serves .b0
          ∧ q1.toggle ≠ ((held (at0 .manual .energized) .shipconBkr .sync).berth .b0).lastTaken)
      ∧ (held (at0 .manual .energized) .shipconBkr .sync).holdsOf .b0 = [hold0 .shipconBkr .sync] :=
  ⟨takes0 rfl rfl rfl rfl, rfl, rfl, by decide, rfl, takes0 rfl rfl rfl rfl, rfl, rfl, takes0 rfl rfl rfl rfl, rfl⟩

/-- B0 in LOCKOUT with a quiet count. -/
def quiet (n : Nat) : State := (at0 .auto .lockout).setSup .b0 { Supervision.blank with quiet := n }

theorem witness_ReleaseSetsFlagOrRecovers :
    ((maint (quiet 3)).serves .b0 ∧ q1.toggle ≠ ((maint (quiet 3)).berth .b0).lastTaken)
      ∧ ((maint (quiet 3)).berth .b0).state = .lockout ∧ ((maint (quiet 3)).berth .b0).request = none
      ∧ ((maint (quiet 3)).sup .b0).quiet < ((maint (quiet 3)).static .b0).quietRequired
      ∧ ((quiet 4).serves .b0 ∧ q1.toggle ≠ ((quiet 4).berth .b0).lastTaken)
      ∧ ((quiet 4).static .b0).quietRequired ≤ ((quiet 4).sup .b0).quiet :=
  ⟨takes0 rfl rfl rfl rfl, rfl, rfl, by decide, takes0 rfl rfl rfl rfl, by decide⟩

theorem witness_AbortInAutoByState :
    ((at0 .auto .shore).serves .b0 ∧ q1.toggle ≠ ((at0 .auto .shore).berth .b0).lastTaken)
      ∧ ((at0 .auto .shore).berth .b0).mode = .auto ∧ (at0 .auto .shore).noClaim .b0
      ∧ ((issued (at0 .auto .syncing)).serves .b0 ∧ q1.toggle ≠ ((issued (at0 .auto .syncing)).berth .b0).lastTaken)
      ∧ ((issued (at0 .auto .syncing)).berth .b0).closeIssued = true
      ∧ ((asked (at0 .auto .deadbus) .transfer none).serves .b0
          ∧ q1.toggle ≠ ((asked (at0 .auto .deadbus) .transfer none).berth .b0).lastTaken)
      ∧ ((asked (at0 .auto .deadbus) .transfer none).berth .b0).closeIssued = false
      ∧ ((asked (at0 .auto .deadbus) .transfer none).berth .b0).request
          = some { code := .transfer, toggle := false, operand := none }
      ∧ (∀ st, (at0 .auto st).serves .b0 ∧ q1.toggle ≠ ((at0 .auto st).berth .b0).lastTaken
          ∧ ((at0 .auto st).berth .b0).state = st ∧ ((at0 .auto st).berth .b0).mode = .auto ∧ (at0 .auto st).noClaim .b0
          ∧ (at0 .auto st).budget.claims = [])
      ∧ ({ berth := .b0, kind := .level 1, credits := 5 } : Claim) ∈ (claimed (at0 .auto .shore) .b0 (.level 1) 5).budget.claims
      ∧ ∀ c ∈ (claimed (at0 .auto .shore) .b0 (.level 1) 5).budget.claims, c.berth = .b0 →
          c = { berth := .b0, kind := .level 1, credits := 5 } :=
  ⟨takes0 rfl rfl rfl rfl, rfl, noClaim_of_nil rfl, takes0 rfl rfl rfl rfl, rfl, takes0 rfl rfl rfl rfl, rfl, rfl,
    (fun _ => ⟨⟨⟨rfl, rfl⟩, rfl⟩, (takes0 rfl rfl rfl rfl).2, rfl, rfl, noClaim_of_nil rfl, rfl⟩), by decide, by decide⟩

/-- B0 in SHORE in MANUAL with a LEVEL claim waiting for its SET_LEVEL. -/
def raising : State := claimed (asked (at0 .manual .shore) .setLevel (some 1)) .b0 (.level 1) 5

theorem witness_AbortInManualCancelsHolds :
    ((at0 .manual .shore).serves .b0 ∧ q1.toggle ≠ ((at0 .manual .shore).berth .b0).lastTaken)
      ∧ ((at0 .manual .shore).berth .b0).mode = .manual ∧ ((at0 .manual .shore).berth .b0).state ≠ .adopting
      ∧ (at0 .manual .shore).holdsOf .b0 = [] ∧ (at0 .manual .shore).noClaim .b0
      ∧ ((held (at0 .manual .engaging) .shoreBkr .budget).serves .b0
          ∧ q1.toggle ≠ ((held (at0 .manual .engaging) .shoreBkr .budget).berth .b0).lastTaken)
      ∧ ((held (at0 .manual .engaging) .shoreBkr .budget).berth .b0).state = .engaging
      ∧ ((held (at0 .manual .energized) .shipconBkr .sync).serves .b0
          ∧ q1.toggle ≠ ((held (at0 .manual .energized) .shipconBkr .sync).berth .b0).lastTaken)
      ∧ ((held (at0 .manual .energized) .shipconBkr .sync).berth .b0).state = .energized
      ∧ (held (at0 .manual .energized) .shipconBkr .sync).holdsOf .b0 ≠ []
      ∧ (held (at0 .manual .engaging) .shoreBkr .budget).holdsOf .b0 = [hold0 .shoreBkr .budget]
      ∧ (∀ c ∈ (held (at0 .manual .engaging) .shoreBkr .budget).budget.claims, c.berth = .b0)
      ∧ (raising.serves .b0 ∧ q1.toggle ≠ (raising.berth .b0).lastTaken) ∧ (raising.berth .b0).mode = .manual
      ∧ (raising.berth .b0).state = .shore ∧ raising.holdsOf .b0 = []
      ∧ (raising.berth .b0).request = some { code := .setLevel, toggle := false, operand := some 1 }
      ∧ raising.budget.claims = [{ berth := .b0, kind := .level 1, credits := 5 }] :=
  ⟨takes0 rfl rfl rfl rfl, rfl, by decide, rfl, noClaim_of_nil rfl, takes0 rfl rfl rfl rfl, rfl, takes0 rfl rfl rfl rfl, rfl,
    by decide, rfl, (fun _ h => by cases h), takes0 rfl rfl rfl rfl, rfl, rfl, rfl, rfl, rfl⟩

theorem test_abort_withdraws_a_level_claim :
    (after (.reqAbort .b0 q1) raising).budget.claims = [] ∧ ((after (.reqAbort .b0 q1) raising).berth .b0).level = 0
      ∧ (after (.reqAbort .b0 q1) raising).log.staging.map (fun r => (r.type, r.detailB)) = [(.requestFinal, 8)] := by decide

/-! ## Witnesses: group requests and host writes -/

/-- A group request with the last-taken toggle of every entry. -/
def q0 : ReqBits := { toggle := false, spare := 0, operand := 0 }

theorem witness_GroupInvalidTouchesNoMember :
    run.takesHostWrite ∧ run.groupInUse .g0 = true ∧ q1.toggle ≠ run.groupTaken.get .g0
      ∧ q0.toggle = run.groupTaken.get .g0
      ∧ isGroupCode 6 = false ∧ isGroupCode 7 = false ∧ isGroupCode 0 = false ∧ isGroupCode 9 = false :=
  ⟨⟨rfl, rfl⟩, rfl, by decide, rfl, rfl, rfl, rfl, rfl⟩

/-- Both members of group entry 0 blocked: B0 in LOCKOUT, B1 by the table. -/
def allBlocked : State :=
  { at0 .auto .lockout with
    tables := { tables with groups := tables.groups.set .g0 { members := 3, blocked := 2 } } }

theorem witness_GroupRequestCountsEveryMember :
    run.takesHostWrite ∧ run.groupInUse .g0 = true ∧ q1.toggle ≠ run.groupTaken.get .g0
      ∧ (ReqCode.abort, Instr.groupAbort .g0 q1) ∈ groupCommands .g0 q1
      ∧ ((ReqCode.abort, Instr.groupAbort .g0 q0) ∈ groupCommands .g0 q0 ∧ q0.toggle = run.groupTaken.get .g0)
      ∧ (∀ b : BerthId, (run.tables.groups.get .g0).members.getLsbD b.toNat = true → run.configured b = true)
      ∧ allBlocked.takesHostWrite ∧ allBlocked.groupInUse .g0 = true ∧ q1.toggle ≠ allBlocked.groupTaken.get .g0
      ∧ ∀ b : BerthId, (allBlocked.tables.groups.get .g0).members.getLsbD b.toNat = true →
          (allBlocked.tables.groups.get .g0).blocked.getLsbD b.toNat = true ∨ (allBlocked.berth b).state = .lockout :=
  ⟨⟨rfl, rfl⟩, rfl, by decide, by decide, by decide, (fun b => by cases b <;> decide), ⟨rfl, rfl⟩, rfl, by decide, fun b => by
    cases b <;> decide⟩

/-- B0 in CABLED, its request taken, and B1 in SHORE, which refuses it. -/
theorem test_group_members_take_their_turns :
    ((at0 .auto .cabled).membersTurns .g0 .connect 0).2 = { taken := 1, refused := 1, blocked := 0 } := by decide

theorem witness_CommandWritesByModeAndValue :
    (at0 .auto .energized).serves .b0 ∧ ((at0 .auto .energized).berth .b0).mode = .auto
      ∧ (at0 .manual .shore).serves .b0 ∧ ((at0 .manual .shore).berth .b0).mode = .manual ∧ 2 < (3 : Word).toNat
      ∧ (at0 .manual .shore).holdAt (tables.cmdAddress .b0 .shoreBkr) = none ∧ ((at0 .manual .shore).berth .b0).state ≠ .cabled
      ∧ (at0 .manual .shore).holdAt (tables.cmdAddress .b0 .shipconBkr) = none
      ∧ ((at0 .manual .shore).berth .b0).state ≠ .energized :=
  ⟨⟨⟨rfl, rfl⟩, rfl⟩, rfl, ⟨⟨rfl, rfl⟩, rfl⟩, rfl, by decide, rfl, by decide, rfl, by decide⟩

theorem witness_ManualEngageHoldsOrGrants :
    (withCcfg (at0 .manual .cabled) 9).serves .b0 ∧ ((withCcfg (at0 .manual .cabled) 9).berth .b0).mode = .manual
      ∧ ((withCcfg (at0 .manual .cabled) 9).berth .b0).state = .cabled
      ∧ (withCcfg (at0 .manual .cabled) 9).holdAt ((at0 .manual .cabled).tables.cmdAddress .b0 .shoreBkr) = none
      ∧ (withCcfg (at0 .manual .cabled) 9).tables.ccfg < ((withCcfg (at0 .manual .cabled) 9).static .b0).baseCredits
      ∧ (withCcfg (at0 .manual .cabled) 10).serves .b0
      ∧ ((withCcfg (at0 .manual .cabled) 10).static .b0).baseCredits ≤ (withCcfg (at0 .manual .cabled) 10).tables.ccfg
      ∧ (withCcfg (at0 .manual .cabled) 10).noClaim .b0 ∧ (withCcfg (at0 .manual .cabled) 10).budget.claims = []
      ∧ ∀ h ∈ (withCcfg (at0 .manual .cabled) 10).holds, h.berth ≠ .b0 :=
  ⟨⟨⟨rfl, rfl⟩, rfl⟩, rfl, rfl, rfl, by decide, ⟨⟨rfl, rfl⟩, rfl⟩, by decide, noClaim_of_nil rfl, rfl, by decide⟩

theorem witness_ManualShipconPassedOrHeld :
    ∀ v : Nat, (saw (at0 .manual .energized) { seen .closed .open .closed true true with vShip := v }).serves .b0
      ∧ ((saw (at0 .manual .energized) { seen .closed .open .closed true true with vShip := v }).berth .b0).mode = .manual
      ∧ ((saw (at0 .manual .energized) { seen .closed .open .closed true true with vShip := v }).berth .b0).state = .energized
      ∧ ((saw (at0 .manual .energized) { seen .closed .open .closed true true with vShip := v }).berth .b0).latest
          = some { seen .closed .open .closed true true with vShip := v }
      ∧ (saw (at0 .manual .energized) { seen .closed .open .closed true true with vShip := v }).holdAt 0x11 = none
      ∧ (at0 .manual .energized).tables.cmdAddress .b0 .shipconBkr = 0x11
      ∧ (at0 .manual .energized).threshold ((at0 .manual .energized).static .b0).deadBusIndex = 20 :=
  fun _ => ⟨⟨⟨rfl, rfl⟩, rfl⟩, rfl, rfl, rfl, rfl, rfl, rfl⟩

theorem witness_ClosingWriteSupersedes :
    (held (at0 .manual .energized) .shipconBkr .sync).serves .b0
      ∧ ((held (at0 .manual .energized) .shipconBkr .sync).berth .b0).mode = .manual
      ∧ (held (at0 .manual .energized) .shipconBkr .sync).holdAt (tables.cmdAddress .b0 BreakerWord.shipconBkr.cmd)
          = some (hold0 .shipconBkr .sync)
      ∧ (held (at0 .manual .engaging) .shoreBkr .budget).serves .b0
      ∧ (held (at0 .manual .engaging) .shoreBkr .budget).holdAt (tables.cmdAddress .b0 BreakerWord.shoreBkr.cmd)
          = some (hold0 .shoreBkr .budget) :=
  ⟨⟨⟨rfl, rfl⟩, rfl⟩, rfl, rfl, ⟨⟨rfl, rfl⟩, rfl⟩, rfl⟩

theorem witness_OpeningWriteCancelsAndPasses :
    (at0 .manual .energized).serves .b0 ∧ ((at0 .manual .energized).berth .b0).mode = .manual
      ∧ (at0 .manual .energized).holdAt (tables.cmdAddress .b0 BreakerWord.shipconBkr.cmd) = none
      ∧ (held (at0 .manual .energized) .shipconBkr .sync).serves .b0 ∧ (hold0 .shipconBkr .sync).reason = .sync
      ∧ (held (at0 .manual .energized) .shipconBkr .sync).holdAt (tables.cmdAddress .b0 BreakerWord.shipconBkr.cmd)
          = some (hold0 .shipconBkr .sync)
      ∧ (held (at0 .manual .engaging) .shoreBkr .budget).serves .b0 ∧ (hold0 .shoreBkr .budget).reason = .budget
      ∧ (held (at0 .manual .engaging) .shoreBkr .budget).holdAt (tables.cmdAddress .b0 BreakerWord.shoreBkr.cmd)
          = some (hold0 .shoreBkr .budget) :=
  ⟨⟨⟨rfl, rfl⟩, rfl⟩, rfl, rfl, ⟨⟨rfl, rfl⟩, rfl⟩, rfl, rfl, ⟨⟨rfl, rfl⟩, rfl⟩, rfl, rfl⟩

theorem witness_ConsumerIsJudged :
    (ringed run).takesHostWrite
      ∧ ((2 : Word).toNat < (ringed run).log.capacity
        ∧ ((2 : Word).toNat + (ringed run).log.capacity - (ringed run).log.consumer) % (ringed run).log.capacity
            ≤ ((ringed run).log.producer + (ringed run).log.capacity - (ringed run).log.consumer) % (ringed run).log.capacity
        ∧ (2 : Word).toNat ≠ (ringed run).log.consumer)
      ∧ (15 : Word).toNat = (ringed run).log.consumer
      ∧ ¬ (((3 : Word).toNat + (ringed run).log.capacity - (ringed run).log.consumer) % (ringed run).log.capacity
            ≤ ((ringed run).log.producer + (ringed run).log.capacity - (ringed run).log.consumer) % (ringed run).log.capacity)
      ∧ ¬ ((16 : Word).toNat < (ringed run).log.capacity) :=
  ⟨⟨rfl, rfl⟩, by decide, by decide, by decide, by decide⟩

theorem witness_OtherWritesByClass :
    run.takesHostWrite
      ∧ ((0xFFFE : Word) ≠ 0xFFFF ∧ ∀ w ∈ run.tables.windowList, w.covers run.tables.logCapacity (0xFFFE : Word).toNat = false)
      ∧ run.tables.classify 0x30 = .field (some .b0) ∧ run.tables.classify 0x43 = .field none
      ∧ run.tables.classify 0x21 = .rsp .b0 ∧ run.tables.classify 0x13 = .command .b0 .chargeLimit
      ∧ run.tables.classify 0x81 = .groupRsp .g0 ∧ run.tables.classify 0x100 = .logOther
      ∧ run.tables.classify 0x144 = .logOther ∧ run.tables.classify 0x145 = .plain :=
  ⟨⟨rfl, rfl⟩, by decide +kernel, by decide +kernel, by decide +kernel, by decide +kernel, by decide +kernel, by decide +kernel, by decide +kernel, by decide +kernel, by decide +kernel⟩

theorem witness_WritesOutsideRunningAreDiscarded :
    (Instr.hostWrite 0 0).isHostWrite = true ∧ State.reset.ports.host = none
      ∧ State.reset.phase = .loading ∧ State.reset.loader.discarded = false
      ∧ { State.reset with phase := .blocked, loader := { Loader.blank with discarded := true } }.loader.discarded = true
      ∧ (State.lost [] false [] none).phase = .resetHeld ∧ (State.lost [] false [] none).ports.host = none :=
  ⟨rfl, rfl, rfl, rfl, rfl, rfl, rfl⟩

/-! ## Witnesses: the memory port -/

/-- A state with a host write waiting at the port and a host streak. -/
def waiting (s : State) (a : HostAccess) (n : Nat) : State := s.setPorts { s.ports with host := some a, streak := n }

/-- A record waiting, with the two access kinds ahead of it absent. -/
def staged : State := run.setLog (run.log.stage (run.stateRecord .b0 .vacant .auto .cabled .auto))

/-- LOADING with a start-up read waiting, with or without a start-up word write, the first one or a later one. -/
def loading (w first : Bool) : State :=
  { run with phase := .loading, loader := { Loader.blank with startupWaiting := w, firstWaiting := first, reads := [.req .b0] } }

/-- The header words that the Log Unit has still to write: the first ones, PRODUCER, STATUS, GRANTED and CAPACITY. -/
def heading (l : List HeaderWord) (p st g c : Bool) : State :=
  run.setLog { run.log with
    firstHeaders := l, producerWaiting := p, statusPending := st, grantedPending := g, capacityPending := c }

theorem test_grant_writes_the_header_words_in_order :
    (after (.portGrant none none false) (heading [] false true true true)).ports.busy
        = some (.logWrite (.headerWord .status) 0x100 1)
      ∧ (after (.portGrant none none false) (heading [] false false true true)).ports.busy
        = some (.logWrite (.headerWord .granted) 0x103 0)
      ∧ (after (.portGrant none none false) (heading [] false false false true)).ports.busy
        = some (.logWrite (.headerWord .capacity) 0x104 40) := by decide

theorem witness_GrantFollowsOrder :
    (Memory.wf run.pim = true ∧ run.ports.busy = none)
      ∧ (queued run).owq = write0 .shoreBkr cmdOpen .trip :: [write0 .shipconBkr cmdOpen .seq]
      ∧ (∀ w rest, ({ run with owq := [write0 .shipconBkr cmdOpen .seq] } : State).owq = w :: rest → w.cls ≠ .trip)
      ∧ ((waiting run (.write 1 2) 3).ports.host = some (.write 1 2) ∧ (waiting run (.write 1 2) 3).ports.streak < 4
        ∧ (waiting run (.read 1) 3).ports.host = some (.read 1) ∧ 4 ≤ (waiting run (.read 1) 4).ports.streak)
      ∧ (State.reset.loader.startupWaiting = true ∧ State.reset.loader.reads = [] ∧ State.reset.ports.host = none)
      ∧ (∀ w f, (loading w f).loader.reads = .req .b0 :: [] ∧ (loading w f).loader.startupWaiting = w
        ∧ (loading w f).loader.firstWaiting = f ∧ (loading w f).ports.host = none ∧ (loading w f).ports.busy = none)
      ∧ (run.loader.startupWaiting = false ∧ run.loader.reads = [] ∧ run.owq = [] ∧ run.scan.pass = none
        ∧ (after .scanTick (run.setScan { run.scan with tickDue := true })).scan.pass = some { block := .feeder, words := [] })
      ∧ (staged.log.firstHeaders = [] ∧ staged.log.producerWaiting = false
        ∧ staged.log.staging = run.stateRecord .b0 .vacant .auto .cabled .auto :: [])
      ∧ ((waiting run (.write 1 2) 4).log.quiet ∧ (waiting run (.read 1) 4).log.quiet ∧ run.log.quiet ∧ run.ports.host = none)
      ∧ (busy run (.scanRead 0x40)).ports.busy ≠ none
      ∧ ((heading [.status] false false false false).log.firstHeaders = .status :: []
        ∧ (heading [] true false false false).log.producerWaiting = true
        ∧ (heading [] false true true true).log.statusPending = true
        ∧ (heading [] false false true true).log.grantedPending = true
        ∧ (heading [] false false false true).log.capacityPending = true)
      ∧ run.stationWord 0x37 = true ∧ run.stationWord 0x21 = false ∧ run.tables.windows ≠ []
      ∧ (∀ k, run.tables.classify 0x21 ≠ .field k) :=
  ⟨by decide, rfl, (fun w rest h => by cases h; decide), by decide, by decide,
    (fun _ _ => ⟨rfl, rfl, rfl, rfl, rfl⟩), by decide, ⟨rfl, rfl, rfl⟩,
    ⟨⟨rfl, rfl, rfl, rfl, rfl, rfl⟩, ⟨rfl, rfl, rfl, rfl, rfl, rfl⟩, ⟨rfl, rfl, rfl, rfl, rfl, rfl⟩, rfl⟩, by decide, by decide,
    by decide, by decide, by decide, fun k => by
      rw [show run.tables.classify 0x21 = .rsp .b0 by decide]
      intro h
      cases h⟩

theorem witness_OwnWriteCarriageStoresItsWord :
    Memory.wf run.pim = true
      ∧ (busy (at0 .auto .separating) (.ownWrite (write0 .shipconBkr cmdOpen .seq))).ports.busy
          = some (.ownWrite (write0 .shipconBkr cmdOpen .seq))
      ∧ (write0 .shipconBkr cmdOpen .seq).address = (at0 .auto .separating).tables.cmdAddress .b0 .shipconBkr :=
  ⟨rfl, rfl, rfl⟩

/-- A host write to SHIPCON_BKR being carried while the part's own OPEN of it waits. -/
def crossing : State :=
  busy { at0 .auto .separating with owq := [write0 .shipconBkr cmdOpen .seq] } (.hostWrite 0x11 2)

theorem witness_HostWriteCarriageRemovesQueuedWrites :
    Memory.wf crossing.pim = true ∧ crossing.ports.busy = some (.hostWrite 0x11 2)
      ∧ (0x11 : Word) = crossing.tables.cmdAddress .b0 .shipconBkr ∧ (crossing.berth .b0).state = .separating
      ∧ (crossing.berth .b0).openingIssued = false ∧ tripAt crossing.owq 0x11 = false
      ∧ (∃ x ∈ crossing.owq, x.address = 0x11 ∧ x.berth = some .b0)
      ∧ ∀ x ∈ (busy run (.hostWrite 0x11 2)).owq, x.address = 0x11 → x.cls ≠ .trip → ∀ b, x.berth = some b →
          ¬ ((0x11 : Word) = run.tables.cmdAddress b .shipconBkr ∧ (run.berth b).state = .separating
            ∧ (run.berth b).openingIssued = false) :=
  ⟨rfl, rfl, rfl, rfl, rfl, rfl, ⟨_, .head _, rfl, rfl⟩, fun x h => by cases h⟩

/-- The OVERFLOW record at the head of the staging list, the producer index at the last place of the ring. -/
def overflowing : State :=
  run.setLog { run.log with
    producer := 15, consumer := 15, overflow := true
    staging := [{ type := .overflow, berth := none, qualifier := 0, detailA := 1, detailB := 0, stamp := 0 }] }

/-- LOADING with the image read, the start-up reads made, and these first header writes to do, the first in progress. -/
def starting (l : List HeaderWord) : State :=
  busy { run with
    phase := .loading, loader := { Loader.blank with words := image 0xC270 }, log := { run.log with firstHeaders := l } }
    (.logWrite (.firstHeader .producer) 0x101 0)

/-- A log with this many records in its ring of 16, its flag and drop count, and this staging list. -/
def filled (n : Nat) (flag : Bool) (drops : Nat) (l : List Record) : Log :=
  { run.log with producer := n, overflow := flag, dropCount := drops, staging := l }

theorem test_records_are_dropped_and_reported :
    (filled 15 false 0 []).stage (overflowRecord 0 0) = { filled 15 true 1 [] with statusPending := true }
      ∧ (filled 15 true 65535 []).stage (overflowRecord 0 0) = filled 15 true 65535 []
      ∧ (filled 14 true 3 []).roomFreed 7 = filled 14 true 0 [overflowRecord 3 7] := by decide

theorem witness_LogWriteAdvancesTheRing :
    (Memory.wf (logging run).pim = true ∧ (logging run).ports.busy = some (.logWrite (.recordWord 1) 0x106 0)
        ∧ (logging run).phase ≠ .loading)
      ∧ (busy staged (.logWrite (.recordWord 3) 0x108 0)).log.staging = run.stateRecord .b0 .vacant .auto .cabled .auto :: []
      ∧ (staged.log.overflow = false ∧ (run.stateRecord .b0 .vacant .auto .cabled .auto).type ≠ .overflow)
      ∧ (busy overflowing (.logWrite (.recordWord 3) 0x144 0)).ports.busy = some (.logWrite (.recordWord 3) 0x144 0)
      ∧ overflowing.log.dropCount = 0 ∧ (after .logWriteComplete (busy overflowing (.logWrite (.recordWord 3) 0x144 0))).log.producer = 0
      ∧ ((starting [.producer, .consumer]).phase = .loading ∧ (starting [.producer, .consumer]).loader.words.length = 258
        ∧ (starting [.producer, .consumer]).ports.busy = some (.logWrite (.firstHeader .producer) 0x101 0)
        ∧ (starting [.producer, .consumer]).log.firstHeaders.tail ≠ [])
      ∧ ((starting [.producer]).phase = .loading ∧ (starting [.producer]).loader.words.length = 258
        ∧ (starting [.producer]).loader.reads = [] ∧ (starting [.producer]).log.firstHeaders = [.producer]
        ∧ (after .logWriteComplete (starting [.producer])).phase = .running)
      ∧ ((filled 14 true 3 []).roomFor ∧ ¬ (filled 15 true 3 []).roomFor
        ∧ (filled 14 true 3 []).overflow = true ∧ (∀ x ∈ (filled 14 true 3 []).staging, x.type ≠ .overflow)
        ∧ (filled 14 false 3 []).overflow = false
        ∧ ∃ x ∈ (filled 13 true 3 [overflowRecord 1 0]).staging, x.type = .overflow) :=
  ⟨⟨rfl, rfl, by decide⟩, rfl, ⟨rfl, by decide⟩, rfl, rfl, by decide, by decide +kernel, by decide +kernel,
    by unfold Log.roomFor; decide⟩

/-! ## Witnesses: scan results -/

/-- The last read of an unchanged result of B0 whose stale count is n. -/
def staleRead (s : State) (n : Nat) : State :=
  { lastRead s (words 1 1 3 200) with
    blocks := s.blocks.set .b0 { status := .accepting, reference := some 1, stale := n } }

/-- B0 in LOCKOUT with a sticky STALE flag. -/
def lockedStale : State := (at0 .auto .lockout).setSup .b0 { Supervision.blank with sticky := FaultSet.onlyStale }

theorem witness_ScanReadIsKeptOrJudged :
    Memory.wf run.pim = true
      ∧ (lastRead run [2, 1, 3, 200, 0, 0, 0]).ports.busy = some (.scanRead 0x30)
      ∧ (lastRead run [2, 1, 3, 200, 0, 0, 0]).scan.pass = some { block := .berth .b0, words := [2, 1, 3, 200, 0, 0, 0] }
      ∧ [2, 1, 3, 200, 0, 0, (0 : Word)].length < 8
      ∧ (lastRead run (words 2 1 3 200)).lastBerthRead .b0 (some 3) (words 2 1 3 200) 3 ∧ (3 : Word) ≠ (words 2 1 3 200).getD 0 0
      ∧ (lastRead run (words 1 1 3 200)).lastBerthRead .b0 (some 1) (words 1 1 3 200) 1 ∧ (1 : Word) = (words 1 1 3 200).getD 0 0
      ∧ ((lastRead run (words 1 1 3 200)).block .b0).status ≠ .unseen
      ∧ ((lastRead run (words 1 1 3 200)).block .b0).reference = some 1
      ∧ ((lastRead run (words 1 1 3 200)).block .b0).stale + 1 < ((lastRead run (words 1 1 3 200)).static .b0).staleLimit
      ∧ ({ lastRead run (words 1 1 3 200) with blocks := run.blocks } : State).lastBerthRead .b0 (some 1) (words 1 1 3 200) 1
      ∧ (({ lastRead run (words 1 1 3 200) with blocks := run.blocks } : State).block .b0).status = .unseen
      ∧ (∀ s n, (staleRead s n).lastBerthRead .b0 (some 1) (words 1 1 3 200) 1
        ∧ ((staleRead s n).block .b0).status ≠ .unseen ∧ ((staleRead s n).block .b0).reference = some 1
        ∧ ((staleRead s n).block .b0).stale = n)
      ∧ (2 + 1 = (run.static .b0).staleLimit ∧ (staleRead run 2).phase = .running)
      ∧ (((staleRead (at0 .auto .shore) 2).berth .b0).state ≠ .lockout ∧ ((staleRead lockedStale 2).berth .b0).state = .lockout
        ∧ ((staleRead lockedStale 2).sup .b0).sticky.stale = true ∧ ((staleRead (at0 .auto .lockout) 2).berth .b0).state = .lockout
        ∧ ((staleRead (at0 .auto .lockout) 2).sup .b0).sticky.stale = false)
      ∧ (Block.berth .b0).nextIn 2 = some (.berth .b1) ∧ (Block.berth .b1).nextIn 2 = none :=
  ⟨rfl, rfl, rfl, by decide, ⟨rfl, rfl, _, rfl, rfl⟩, by decide, ⟨rfl, rfl, _, rfl, rfl⟩, by decide, by decide, rfl, by decide,
    ⟨rfl, rfl, _, rfl, rfl⟩, rfl,
    (fun _ _ => ⟨⟨rfl, rfl, _, rfl, rfl⟩, (by intro h; cases h), rfl, rfl⟩), by decide, by decide, rfl, rfl⟩

theorem test_stale_trips_once :
    ((after (.scanReadComplete (some 1)) (staleRead (at0 .auto .shore) 2)).berth .b0).state = .lockout
      ∧ ((after (.scanReadComplete (some 1)) (staleRead (at0 .auto .shore) 3)).berth .b0).state = .shore
      ∧ (after (.scanReadComplete (some 1)) (staleRead lockedStale 2)).owq = []
      ∧ (after (.scanReadComplete (some 1)) (staleRead (at0 .auto .lockout) 2)).owq = [write0 .shoreBkr cmdOpen .trip] := by
  decide

/-- The last read of a fresh result of B0. -/
theorem freshly (s : State) (breakers cable v : Word) :
    (lastRead s (words 2 breakers cable v)).freshRead .b0 (some 2) (resultOf (words 2 breakers cable v)) := by
  have h : (lastRead s (words 2 breakers cable v)).block .b0 = { status := .baseline, reference := some 1, stale := 0 } := rfl
  refine ⟨_, 2, ⟨rfl, rfl, _, rfl, rfl⟩, rfl, ?_, ?_, rfl⟩
  · rw [h]
    decide
  · rw [h]
    decide

/-- The last read of B0's block in progress, with these breakers, cable, V_SHORE and V_SHIP. -/
def seeing (s : State) (breakers cable v x : Word) : State := lastRead s [2, breakers, cable, v, x, 0, 0, 0]

/-- The result of that block. -/
def result (breakers cable v x : Word) : ScanResult := resultOf [2, breakers, cable, v, x, 0, 0, 0]

/-- A result without a FAULT position, with its earth, and with a voltage within the thresholds where the shore breaker is CLOSED meets
no fault condition. -/
theorem faultFree_of {s : State} {b : BerthId} {r : ScanResult} (h1 : (s.berth b).state ≠ .adopting)
    (h2 : (s.berth b).state ≠ .lockout) (h3 : r.shore ≠ .fault ∧ r.shipcon ≠ .fault ∧ r.gens ≠ .fault)
    (h4 : r.pilot = true ∨ r.shore ≠ .closed) (h5 : r.earth = true ∨ (s.berth b).state = .vacant)
    (h6 : r.shore = .closed →
      s.threshold (s.static b).uvIndex ≤ r.vShore ∧ r.vShore ≤ s.threshold (s.static b).ovIndex) :
    s.faultFree b r := by
  refine ⟨h1, h2, ⟨Bool.noConfusion, fun h => ?_⟩, ⟨Bool.noConfusion, fun h => ?_⟩, ⟨Bool.noConfusion, fun h => ?_⟩,
    ⟨Bool.noConfusion, fun h => ?_⟩, ⟨Bool.noConfusion, fun h => ?_⟩, rfl⟩
  · exact absurd (h6 h.2.1).1 (Nat.not_le.mpr h.2.2.1)
  · exact absurd (h6 h.2.1).2 (Nat.not_le.mpr h.2.2.1)
  · rcases h5 with h' | h'
    · rw [h'] at h
      exact absurd h.2.2 (by decide)
    · exact absurd h' h.1
  · rcases h4 with h' | h'
    · rw [h'] at h
      exact absurd h.1 (by decide)
    · exact absurd h.2 h'
  · rcases h with h | h | h
    · exact absurd h h3.1
    · exact absurd h h3.2.1
    · exact absurd h h3.2.2

/-- The results in which the clauses about a result without a fault find their hypotheses: the shore breaker OPEN with the pilot
broken, with it and the ship not ready or ready; CLOSED with the ship connection OPEN, MOVING or CLOSED and the generators OPEN or
CLOSED, in and out of the sync window. -/
def calm : List ScanResult :=
  [result 0 2 0 0, result 0 3 0 0, result 0 7 0 0, result 1 3 200 20, result 1 3 200 21, result 1 3 200 200, result 9 3 200 0,
    result 5 3 200 0, result 21 3 200 0, result 17 3 200 0]

theorem calm_results :
    (∀ r ∈ calm, (r.shore ≠ .fault ∧ r.shipcon ≠ .fault ∧ r.gens ≠ .fault) ∧ (r.pilot = true ∨ r.shore ≠ .closed) ∧ r.earth = true
        ∧ (r.shore = .closed → 100 ≤ r.vShore ∧ r.vShore ≤ 300)) := by decide

/-- Where each clause of `FreshResultIsAccepted` finds its hypotheses: any state but ADOPTING and LOCKOUT with any of these results
and no claim waiting; the marks, the level, the grant, the sync count and the held writes that some clauses ask for. -/
theorem witness_FreshResultIsAccepted :
    (∀ s breakers cable v x, (seeing s breakers cable v x).lastBerthRead .b0 (some 2) [2, breakers, cable, v, x, 0, 0, 0] 2
        ∧ (2 : Word) = [2, breakers, cable, v, x, 0, 0, 0].getD 0 0 ∧ ((seeing s breakers cable v x).block .b0).status ≠ .unseen
        ∧ ((seeing s breakers cable v x).block .b0).reference ≠ some 2)
      ∧ (∀ m st, ∀ r ∈ calm, st ≠ .adopting → st ≠ .lockout → ∀ breakers cable v x,
        (seeing (at0 m st) breakers cable v x).faultFree .b0 r ∧ Memory.wf (seeing (at0 m st) breakers cable v x).pim = true
          ∧ ((seeing (at0 m st) breakers cable v x).berth .b0).state = st
          ∧ ((seeing (at0 m st) breakers cable v x).berth .b0).mode = m ∧ (seeing (at0 m st) breakers cable v x).budget.claims = [])
      ∧ ((result 0 2 0 0).shore = .open ∧ (result 0 2 0 0).pilot = false
        ∧ (result 0 3 0 0).shore = .open ∧ (result 0 3 0 0).pilot = true ∧ (result 0 3 0 0).earth = true
        ∧ (result 0 3 0 0).ready = false ∧ (result 0 7 0 0).ready = true)
      ∧ ((result 1 3 200 20).shore = .closed ∧ (result 1 3 200 20).shipcon = .open ∧ (result 1 3 200 20).gens = .open
        ∧ (result 9 3 200 0).shipcon = .moving ∧ (result 9 3 200 0).gens = .open
        ∧ (result 5 3 200 0).shipcon = .closed ∧ (result 5 3 200 0).gens = .open
        ∧ (result 21 3 200 0).shipcon = .closed ∧ (result 21 3 200 0).gens = .closed
        ∧ (result 17 3 200 0).shipcon = .open ∧ (result 17 3 200 0).gens = .closed)
      ∧ ((result 1 3 200 20).vShip ≤ run.threshold (run.static .b0).deadBusIndex
        ∧ run.threshold (run.static .b0).deadBusIndex < (result 1 3 200 21).vShip)
      ∧ (run.insideWindow .b0 (result 1 3 200 200) ∧ ¬ run.insideWindow .b0 (result 1 3 200 20))
      ∧ ((run.berth .b0).syncCount + 1 < (run.static .b0).syncPersistence ∧ (run.static .b0).syncPersistence ≤ 1 + 1)
      ∧ (((issued (at0 .auto .syncing)).berth .b0).closeIssued = true ∧ ((at0 .auto .syncing).berth .b0).closeIssued = false)
      ∧ (held (at0 .manual .energized) .shipconBkr .sync).holds = [hold0 .shipconBkr .sync]
      ∧ ((run.berth .b0).settling = false ∧ (run.berth .b0).baseGrant = 0 ∧ (run.berth .b0).level = 0)
      ∧ ((level run 1 2).idleAfter .b0 (result 5 3 200 0) = 1 ∧ 1 = ((level run 1 2).levelEntry 1).downIdle)
      ∧ (claimed (level (at0 .auto .shore) 1 2) .b0 (.level 2) 45).budget.claims
        = [{ berth := .b0, kind := ClaimKind.level 2, credits := 45 }] := by
  refine ⟨fun s _ _ _ _ => ?_, fun m st r hr h1 h2 _ _ _ _ => ⟨?_, rfl, rfl, rfl, rfl⟩, by decide, by decide, by decide, ?_, by decide,
    by decide, rfl, by decide, by decide, rfl⟩
  · exact ⟨⟨rfl, rfl, _, rfl, rfl⟩, rfl, (fun h => by cases h), (fun h => by cases h)⟩
  · obtain ⟨c1, c2, c3, c4⟩ := calm_results r hr
    exact faultFree_of h1 h2 c1 c2 (.inl c3) c4
  · unfold State.insideWindow
    decide

/-- The trip's writes and records with a held write and a request that RSP no longer answers. -/
theorem test_a_trip_writes_and_records :
    (after (.scanReadComplete (some 2)) (seeing (held (at0 .manual .energized) .shipconBkr .sync) 3 3 200 0)).owq.map
        (fun e => (e.address, e.data)) = [(0x10, 1), (0x12, 0), (0x13, 7), (0x21, 17312)]
      ∧ (after (.scanReadComplete (some 2)) (seeing (held (at0 .manual .energized) .shipconBkr .sync) 3 3 200 0)).log.staging.map
          (fun r => r.type) = [.holdCancelled, .trip] := by decide

theorem witness_FaultyResultTrips :
    (Memory.wf (lastRead (at0 .auto .energized) (words 2 1 2 99)).pim = true
        ∧ (lastRead (at0 .auto .energized) (words 2 1 2 99)).freshRead .b0 (some 2) (resultOf (words 2 1 2 99))
        ∧ (lastRead (at0 .auto .energized) (words 2 1 2 99)).phase = .running
        ∧ ((lastRead (at0 .auto .energized) (words 2 1 2 99)).berth .b0).state = .energized
        ∧ (lastRead (at0 .auto .energized) (words 2 1 2 99)).meets .b0 (resultOf (words 2 1 2 99))
          { FaultSet.empty with uv := true, pilot := true })
      ∧ (∀ breakers cable v,
        (lastRead (quiet 3) (words 2 breakers cable v)).freshRead .b0 (some 2) (resultOf (words 2 breakers cable v))
          ∧ ((lastRead (quiet 3) (words 2 breakers cable v)).berth .b0).state = .lockout
          ∧ (lastRead (quiet 3) (words 2 breakers cable v)).noClaim .b0
          ∧ 0 < ((lastRead (quiet 3) (words 2 breakers cable v)).static .b0).quietRequired)
      ∧ (¬ (resultOf (words 2 1 3 200)).isClean ∧ (resultOf (words 2 1 3 200)).lockoutFlags.isEmpty = true)
      ∧ ((resultOf (words 2 3 3 200)).lockoutFlags.minus ((quiet 3).sup .b0).sticky).isEmpty = false
      ∧ ((resultOf (words 2 0 3 0)).isClean ∧ ((quiet 3).sup .b0).release = false
        ∧ (run.static .b0).quietRequired ≤ min 255 (((quiet 3).sup .b0).quiet + 1)
        ∧ min 255 (((quiet 2).sup .b0).quiet + 1) < (run.static .b0).quietRequired) := by
  refine ⟨⟨rfl, freshly _ _ _ _, rfl, rfl, ?_⟩, fun _ _ _ => ⟨freshly _ _ _ _, rfl, noClaim_of_nil rfl, Nat.succ_pos 3⟩, ?_,
    by decide, ?_⟩
  · unfold State.meets
    decide
  · unfold ScanResult.isClean
    decide
  · unfold ScanResult.isClean
    decide

/-- LOCKOUT takes a fresh result: an OPEN returns the base grant, and the fourth clean one recovers a released berth. -/
theorem test_lockout_counts_and_recovers :
    ((after (.scanReadComplete (some 2)) (seeing (quiet 2) 0 3 0 0)).sup .b0).quiet = 3
      ∧ ((after (.scanReadComplete (some 2))
          (seeing ((quiet 3).setSup .b0 { Supervision.blank with quiet := 3, release := true }) 0 3 0 0)).berth .b0).state
        = .cabled := by decide

theorem witness_AdoptionFollowsBreakers :
    (∀ breakers cable v, Memory.wf (lastRead (at0 .auto .adopting) (words 2 breakers cable v)).pim = true
        ∧ (lastRead (at0 .auto .adopting) (words 2 breakers cable v)).freshRead .b0 (some 2) (resultOf (words 2 breakers cable v))
        ∧ (lastRead (at0 .auto .adopting) (words 2 breakers cable v)).phase = .running
        ∧ ((lastRead (at0 .auto .adopting) (words 2 breakers cable v)).berth .b0).state = .adopting
        ∧ ((lastRead (at0 .auto .adopting) (words 2 breakers cable v)).berth .b0).baseGrant = 0
        ∧ (lastRead (at0 .auto .adopting) (words 2 breakers cable v)).noClaim .b0
        ∧ 0 < ((lastRead (at0 .auto .adopting) (words 2 breakers cable v)).static .b0).quietRequired)
      ∧ ((resultOf (words 2 3 3 200)).shore = .fault ∧ (resultOf (words 2 1 2 200)).pilot = false
          ∧ (resultOf (words 2 1 2 200)).shore = .closed
          ∧ (resultOf (words 2 3 1 200)).pilot = true ∧ (resultOf (words 2 3 1 200)).earth = false)
      ∧ ((resultOf (words 2 0 2 0)).pilot = false ∧ (resultOf (words 2 0 2 0)).shore ≠ .closed)
      ∧ ((resultOf (words 2 6 3 0)).pilot = true ∧ (resultOf (words 2 6 3 0)).shore = .moving
        ∧ (resultOf (words 2 6 3 0)).shipcon = .closed)
      ∧ ((resultOf (words 2 1 3 100)).pilot = true ∧ (resultOf (words 2 1 3 100)).shore = .closed
        ∧ (resultOf (words 2 1 3 100)).shipcon ≠ .closed)
      ∧ ((resultOf (words 2 5 3 100)).shipcon = .closed ∧ (resultOf (words 2 5 3 100)).gens = .open)
      ∧ ((resultOf (words 2 21 3 100)).shipcon = .closed ∧ (resultOf (words 2 21 3 100)).gens ≠ .open
          ∧ (resultOf (words 2 21 3 100)).gens ≠ .fault) :=
  ⟨fun _ _ _ => ⟨rfl, freshly _ _ _ _, rfl, rfl, rfl, noClaim_of_nil rfl, Nat.succ_pos 3⟩, by decide, by decide, by decide,
    by decide, by decide, by decide⟩

/-- The voltages at which an adopted berth meets no fault, UV and OV (its persistence is 1), and the lost earth. -/
theorem test_adoption_is_supervised :
    ((after (.scanReadComplete (some 2)) (seeing (at0 .auto .adopting) 1 3 100 0)).berth .b0).state = .energized
      ∧ ((after (.scanReadComplete (some 2)) (seeing (at0 .auto .adopting) 1 3 99 0)).berth .b0).state = .lockout
      ∧ ((after (.scanReadComplete (some 2)) (seeing (at0 .auto .adopting) 1 3 301 0)).berth .b0).state = .lockout
      ∧ ((after (.scanReadComplete (some 2)) (seeing (at0 .auto .adopting) 0 1 0 0)).sup .b0).sticky.earth = true := by decide

/-- The last read of the feeder block in progress, after a reference of SEQ 1 and a stale count. -/
def feederRead (s : State) (stale : Nat) (ws : List Word) : State :=
  busy (s.setScan
    { s.scan with
      pass := some { block := .feeder, words := ws }
      feeder := { status := .accepting, reference := some 1, stale := stale } }) (.scanRead 0x40)

/-- B0 in SHORE at level 1 on top of the Level Stack. -/
def charging : State :=
  (level (at0 .auto .shore) 1 2).setBudget { run.budget with stack := [.b0], highCount := 1 }

/-- B0 in SHORE at level 2 on top of the Level Stack. -/
def charging2 : State :=
  (level (at0 .auto .shore) 2 2).setBudget { run.budget with stack := [.b0], highCount := 1 }

/-- B0 in ENGAGING in AUTO, its claim waiting. -/
def engaging : State := claimed (at0 .auto .engaging) .b0 .engage 10

/-- The state of the shedding steps of a feeder result: C, the load, and a berth on top of the Level Stack. -/
theorem shedding_states :
    (run.budget.stack = [] ∧ engaging.budget.stack = [])
      ∧ ((charging.fed 4 99).budget.shedding = false ∧ (charging.fed 4 99).budget.capacity < (charging.fed 4 99).granted)
      ∧ ((charging.fed 5 100).budget.shedding = true
        ∧ (charging.fed 5 100).granted + (charging.fed 5 100).levelCredits 0
          ≤ (charging.fed 5 100).budget.capacity + (charging.fed 5 100).levelCredits 1)
      ∧ ((charging2.fed 4 100).budget.shedding = true ∧ (charging2.fed 4 100).budget.stack = .b0 :: []
        ∧ (charging2.fed 4 100).budget.claims = [] ∧ 2 ≤ ((charging2.fed 4 100).berth .b0).level
        ∧ (charging2.fed 4 100).budget.capacity + (charging2.fed 4 100).levelCredits 2
          < (charging2.fed 4 100).granted + (charging2.fed 4 100).levelCredits 1) := by decide

/-- A waiting claim as R88 places it. -/
theorem engaging_claims : engaging.claimsSound := by
  refine ⟨by decide, ?_, by decide⟩
  intro c hc
  obtain rfl : c = { berth := .b0, kind := .engage, credits := 10 } := by
    rcases List.mem_singleton.mp (show c ∈ [_] from hc) with h
    exact h
  exact ⟨rfl, rfl, rfl, fun h => by cases h⟩

theorem witness_FeederResultMovesTheBudget :
    (Memory.wf (feederRead charging 0 [2, 100, 5, 1]).pim = true ∧ 0 < charging.tables.n)
      ∧ ((feederRead run 0 [2, 100, 5]).ports.busy = some (.scanRead 0x40)
        ∧ (feederRead run 0 [2, 100, 5]).scan.pass = some { block := .feeder, words := [2, 100, 5] }
        ∧ [2, 100, (5 : Word)].length < 4)
      ∧ ((feederRead charging 0 [2, 100, 5, 1]).lastFeederRead (some 3) [2, 100, 5, 1] 3 ∧ (3 : Word) ≠ [2, 100, 5, 1].getD 0 0)
      ∧ ((feederRead charging 0 [2, 100, 5, 1]).lastFeederRead (some 2) [2, 100, 5, 1] 2 ∧ (2 : Word) = [2, 100, 5, 1].getD 0 0
        ∧ (feederRead charging 0 [2, 100, 5, 1]).scan.feeder.status ≠ .unseen
        ∧ (feederRead charging 0 [2, 100, 5, 1]).scan.feeder.reference ≠ some 2)
      ∧ (({ feederRead run 0 [2, 0, 0, 1] with scan := { run.scan with pass := some { block := .feeder, words := [2, 0, 0, 1] } } } :
            State).lastFeederRead (some 2) [2, 0, 0, 1] 2 ∧ run.scan.feeder.status = .unseen)
      ∧ (charging.budget.claims = [] ∧ charging.budget.stack = .b0 :: [] ∧ charging.capacityOf [2, 100, 5, 1] = 5
        ∧ charging.capacityOf [2, 100, 5, 0] = 0)
      ∧ (∀ n, (feederRead run n [1, 0, 0, 1]).lastFeederRead (some 1) [1, 0, 0, 1] 1
        ∧ (feederRead run n [1, 0, 0, 1]).scan.feeder.status ≠ .unseen
        ∧ (feederRead run n [1, 0, 0, 1]).scan.feeder.reference = some 1 ∧ (feederRead run n [1, 0, 0, 1]).scan.feeder.stale = n) :=
  ⟨by decide, by decide, ⟨⟨rfl, rfl, _, rfl, rfl⟩, by decide⟩, ⟨⟨rfl, rfl, _, rfl, rfl⟩, rfl, by decide, by decide⟩,
    ⟨⟨rfl, rfl, _, rfl, rfl⟩, rfl⟩, by decide, fun _ => ⟨⟨rfl, rfl, _, rfl, rfl⟩, (fun h => by cases h), rfl, rfl⟩⟩

/-- A feeder result that calls for no step ends in a service pass, which grants the waiting claim. -/
theorem test_feeder_result_grants_a_claim :
    ((after (.scanReadComplete (some 2)) (feederRead engaging 0 [2, 60, 9, 1])).berth .b0).baseGrant = 0
      ∧ ((after (.scanReadComplete (some 2)) (feederRead engaging 0 [2, 60, 10, 1])).berth .b0).baseGrant = 10 := by decide

theorem test_feeder_result_sheds_twice_or_not_at_all :
    ((after (.scanReadComplete (some 2)) (feederRead charging2 0 [2, 100, 4, 1])).berth .b0).level = 0
      ∧ (after (.scanReadComplete (some 2)) (feederRead charging2 0 [2, 100, 4, 1])).log.staging.map (fun r => r.type)
        = [.shed, .shed]
      ∧ ((after (.scanReadComplete (some 2)) (feederRead charging 0 [2, 60, 5, 1])).berth .b0).level = 1 := by
  decide

theorem test_feeder_result_sheds_once :
    ((after (.scanReadComplete (some 2)) (feederRead charging 0 [2, 100, 5, 1])).berth .b0).level = 0
      ∧ (after (.scanReadComplete (some 2)) (feederRead charging 0 [2, 100, 5, 1])).log.staging.map (fun r => r.type) = [.shed] := by
  decide

/-! ## Witnesses: time -/

/-- A base F tick under way that has still to reach every count, B0's overlap limit among them. -/
def allOwed : State :=
  { stillOwed with
    timer := { stillOwed.timer with owed := Eight.fill { stepF := true, stepS := false, settle := true, hold := false } } }

/-- A base S tick under way that has still to reach the held writes of every berth. -/
def holdsOwed : State :=
  { held run .shipconBkr .sync with
    timer := { run.timer with sDue := true, owed := Eight.fill { Owed.none with hold := true } } }

/-- B0 in ENERGIZING with 5 left of its settle deadline and a tick that has still to reach it. -/
def settleOwed : State := owing (run.setChan .b0 { Channels.blank with settle := Channel.loaded .settle 5 false })

theorem witness_BaseTicksCountDown :
    (run.phase = .running ∧ run.nothingOwed)
      ∧ (allOwed.phase = .running ∧ allOwed.timer.sDue = false ∧ allOwed.scan.tickDue = false
        ∧ (∀ b, allOwed.owed b = { stepF := true, stepS := false, settle := true, hold := false })
        ∧ (∀ b, 1 < (allOwed.chan b).step.count ∨ (allOwed.chan b).step.status ≠ .running ∨ (allOwed.chan b).step.base ≠ .f)
        ∧ ∀ b, 1 < (allOwed.chan b).settle.count ∨ (allOwed.chan b).settle.status ≠ .running
          ∨ (allOwed.chan b).settle.base ≠ .f)
      ∧ (holdsOwed.phase = .running ∧ holdsOwed.timer.sDue = true ∧ holdsOwed.timer.maint = false
        ∧ (∀ b, (holdsOwed.owed b).hold = true)
        ∧ ∀ h ∈ holdsOwed.holds, ∀ x ∈ holdsOwed.holds, x.berth = h.berth → x = h)
      ∧ ((run.owed .b0).stepF = false ∧ (run.owed .b0).stepS = false ∧ (run.owed .b0).settle = false)
      ∧ ((stillOwed.owed .b0).step (stillOwed.chan .b0).step.base = true ∧ (stillOwed.chan .b0).step.status = .running
        ∧ 1 < (stillOwed.chan .b0).step.count)
      ∧ (run.chan .b0).step.status ≠ .running
      ∧ ((settleOwed.owed .b0).settle = true ∧ (settleOwed.chan .b0).settle.status = .running
        ∧ (settleOwed.chan .b0).settle.base = .f ∧ 1 < (settleOwed.chan .b0).settle.count)
      ∧ (∀ n, (owing (run.setHolds [{ hold0 .shipconBkr .sync with count := n }])).holdsOf .b0
          = [{ hold0 .shipconBkr .sync with count := n }])
      ∧ ((owing run).owed .b0).hold = true ∧ (owing run).timer.maint = false
      ∧ (Channel.loaded .sync 2 false).status = .running ∧ 1 < (Channel.loaded .sync 2 false).count
      ∧ (Channel.loaded .sync 1 false).count = 1 :=
  ⟨⟨rfl, rfl, rfl, rfl⟩, ⟨rfl, rfl, rfl, (fun b => by cases b <;> rfl), (fun b => by cases b <;> decide), fun b => by cases b <;> decide⟩,
    ⟨rfl, rfl, rfl, (fun b => by cases b <;> rfl), by decide⟩, by decide, by decide, by decide, by decide, (fun _ => rfl), rfl, rfl,
    rfl, by decide, rfl⟩

/-- A scan tick due while the feeder block is being read. -/
def overrun (reported : Bool) : State :=
  run.setScan { run.scan with tickDue := true, pass := some { block := .feeder, words := [] }, overrunReported := reported }

theorem witness_ScanTickStartsOrDropsPass :
    (run.setScan { run.scan with tickDue := true }).scan.tickDue = true
      ∧ (run.setScan { run.scan with tickDue := true }).scan.pass = none
      ∧ (∀ r, (overrun r).scan.tickDue = true ∧ (overrun r).scan.pass = some { block := .feeder, words := [] }
          ∧ (overrun r).scan.overrunReported = r) :=
  ⟨rfl, rfl, fun _ => ⟨rfl, rfl, rfl⟩⟩

theorem witness_StepExpiryActsByState :
    (∀ m st d, (stepDue (at0 m st) d).phase = .running ∧ ((stepDue (at0 m st) d).chan .b0).step.status = .running
        ∧ ((stepDue (at0 m st) d).chan .b0).step.count = 1
        ∧ ((stepDue (at0 m st) d).owed .b0).step ((stepDue (at0 m st) d).chan .b0).step.base = true ∧ ((stepDue (at0 m st) d).berth .b0).state = st
        ∧ ((stepDue (at0 m st) d).berth .b0).mode = m ∧ ((stepDue (at0 m st) d).berth .b0).closeIssued = false
        ∧ ((stepDue (at0 m st) d).berth .b0).settling = false ∧ (stepDue (at0 m st) d).noClaim .b0
        ∧ (stepDue (at0 m st) d).budget.claims = [])
      ∧ ((stepDue (issued (at0 .auto .syncing)) .confirm).berth .b0).closeIssued = true :=
  ⟨fun _ _ d => ⟨rfl, by cases d <;> rfl, rfl, by cases d <;> rfl, rfl, rfl, rfl, rfl, noClaim_of_nil rfl, rfl⟩, rfl⟩

/-- B0 in ENERGIZING with its Settle channel due and a shore voltage seen. -/
def settlingAt (v : Nat) : State := settleDue (saw (at0 .auto .energizing) { seen .closed .open .closed true true with vShore := v })

theorem witness_SettleExpiryChecksVoltage :
    (∀ v, (settlingAt v).phase = .running ∧ ((settlingAt v).chan .b0).settle.status = .running
        ∧ ((settlingAt v).chan .b0).settle.base = .f ∧ ((settlingAt v).chan .b0).settle.count = 1
        ∧ ((settlingAt v).owed .b0).settle = true ∧ ((settlingAt v).berth .b0).state = .energizing
        ∧ ((settlingAt v).berth .b0).latest = some { seen .closed .open .closed true true with vShore := v })
      ∧ run.threshold (run.static .b0).uvIndex = 100 ∧ run.threshold (run.static .b0).ovIndex = 300 :=
  ⟨fun _ => ⟨rfl, rfl, rfl, rfl, rfl, rfl, rfl⟩, rfl, rfl⟩

theorem witness_HoldExpiryEndsTheWait :
    (∀ m st w r, (owing (held (at0 m st) w r)).holdsOf .b0 = [hold0 w r]
        ∧ (owing (held (at0 m st) w r)).holdAt (hold0 w r).address = some (hold0 w r) ∧ (hold0 w r).count = 1
        ∧ (hold0 w r).reason = r ∧ ((owing (held (at0 m st) w r)).owed .b0).hold = true
        ∧ (owing (held (at0 m st) w r)).timer.maint = false)
      ∧ (maint (owing (held (at0 .manual .energized) .shipconBkr .sync))).timer.maint = true :=
  ⟨fun _ _ w _ => by cases w <;> exact ⟨rfl, rfl, rfl, rfl, rfl, rfl⟩, rfl⟩

theorem witness_MaintFreezesAndResumes :
    run.phase = .running ∧ run.timer.maint = false ∧ frozen.phase = .running ∧ frozen.timer.maint = true := ⟨rfl, rfl, rfl, rfl⟩

theorem witness_EventsLeaveTheSurroundings :
    run.phase = .running ∧ (Instr.consumerWrite 0).isHostWrite = true ∧ ∃ b, Instr.stepExpiry b = Instr.stepExpiry .b7 :=
  ⟨rfl, rfl, .b7, rfl⟩

theorem witness_OtherBerthsAreLeftAlone :
    (held (at0 .manual .energized) .shipconBkr .sync).phase = .running
      ∧ (held (at0 .manual .energized) .shipconBkr .sync).budget.claims = [] ∧ BerthId.b1 ≠ .b0
      ∧ (held (at0 .manual .energized) .shipconBkr .sync).holdsPlaced .b0 ∧ (Instr.holdExpiry .b0).berth? = some .b0
      ∧ (lastRead run (words 2 1 3 200)).scan.pass = some { block := .berth .b0, words := words 2 1 3 200 }
      ∧ (run.tables.groups.get .g0).members.getLsbD BerthId.b2.toNat = false
      ∧ (ReqCode.connect, Instr.groupConnect .g0 q1) ∈ groupCommands .g0 q1 :=
  ⟨rfl, rfl, by decide, by unfold State.holdsPlaced; decide, rfl, rfl, by decide, by decide⟩

end Sys2Proof.Tests
end

section
/-! Berths and their states (01): PERMn by state (R19), host writes to COMMAND words by mode and value (R8, R118, R136, R137), and
the toggles that start-up reads take over (R22, R113, R165). -/

namespace Sys2Proof.Machine

variable {s : State} {b : BerthId} {a d : Word}

/-! ## PERMn (R19) -/

/-- The nine states of R19, one by one. -/
theorem BState.permits_iff (st : BState) :
    st.permits = true ↔
      st = .energizing ∨ st = .energized ∨ st = .syncing ∨ st = .deadbus ∨ st = .parallel ∨ st = .shore ∨ st = .resyncing
        ∨ st = .unparallel ∨ st = .separating := by
  cases st <;> decide

theorem State.configured_iff : s.configured b = true ↔ b.toNat < s.tables.n := decide_eq_true_iff

theorem State.perm_iff :
    s.perm b = true ↔ s.phase = .running ∧ s.configured b = true ∧ (s.berth b).state.permits = true := by
  unfold State.perm State.berth
  rw [Bool.and_eq_true, Bool.and_eq_true, decide_eq_true_iff, and_assoc]

/-! ## The outcome of a host write to a COMMAND word -/

/-- An event that refuses a write is the refusal (R137). -/
theorem State.endEvent_sink (s : State) (reason : SinkReason) (b : Option BerthId) (a d : Word) :
    (s.clearMarks.sink reason b a d).endEvent = s.refusedWrite reason b a d :=
  State.endEvent_of_quiet rfl rfl

/-- An event that passes a write is the passing (R133). -/
theorem State.endEvent_passWrite (s : State) (a d : Word) : (s.clearMarks.passWrite a d).endEvent = s.passedWrite a d :=
  State.endEvent_of_quiet rfl rfl

/-- In AUTO the part owns every COMMAND word (R8, R136). -/
theorem State.commandWrite_of_auto (h : (s.berth b).mode = .auto) (w : CmdWord) :
    s.commandWrite b w a d = s.sink .owned (some b) a d := by
  cases w <;> simp [State.commandWrite, h]

/-- In MANUAL the host owns GEN_RELEASE (R118). -/
theorem State.commandWrite_genRelease_of_manual (h : (s.berth b).mode = .manual) :
    s.commandWrite b .genRelease a d = s.passWrite a d := by
  simp [State.commandWrite, h]

/-- In MANUAL a breaker word is the Manual Guard's (R118). -/
theorem State.commandWrite_breaker_of_manual (h : (s.berth b).mode = .manual) (w : BreakerWord) :
    s.commandWrite b w.cmd a d = s.guardBreaker b w a d := by
  cases w <;> simp [State.commandWrite, BreakerWord.cmd, h]

/-- A breaker value above CLOSE is none of the three commands (R118, R169). -/
theorem State.guardBreaker_of_unknown (h : 2 < d.toNat) (w : BreakerWord) :
    s.guardBreaker b w a d = s.sink .guard (some b) a d := by
  have hne : ∀ k : Word, k.toNat ≤ 2 → d ≠ k := by
    rintro k hk rfl
    omega
  unfold State.guardBreaker
  rw [if_neg (not_or.mpr ⟨hne cmdOpen (by decide), hne cmdNone (by decide)⟩), if_neg (hne cmdClose (by decide))]

/-- CLOSE to SHORE_BKR with no entry at its address is a manual engage (R118, R119). -/
theorem State.guardBreaker_shoreClose (h : s.holdAt a = none) :
    s.guardBreaker b .shoreBkr a cmdClose = s.manualEngage b a cmdClose := by
  simp [State.guardBreaker, h, cmdClose, cmdOpen, cmdNone]

/-- CLOSE to SHIPCON_BKR with no entry at its address is a manual close of the ship connection (R118, R122). -/
theorem State.guardBreaker_shipconClose (h : s.holdAt a = none) :
    s.guardBreaker b .shipconBkr a cmdClose = s.manualShipcon b a cmdClose := by
  simp [State.guardBreaker, h, cmdClose, cmdOpen, cmdNone]

/-- A manual engage outside CABLED (R119). -/
theorem State.manualEngage_of_not_cabled (h : (s.berth b).state ≠ .cabled) :
    s.manualEngage b a d = s.sink .guard (some b) a d :=
  if_neg fun hc => h hc.1

/-- A manual close of the ship connection outside ENERGIZED (R122). -/
theorem State.manualShipcon_of_not_energized (h : (s.berth b).state ≠ .energized) :
    s.manualShipcon b a d = s.sink .guard (some b) a d :=
  if_neg h

/-- A write to a COMMAND word of a berth in AUTO (R8, R136, R137). -/
theorem State.writesCommand_of_auto (hs : s.serves b) (h : (s.berth b).mode = .auto) (w : CmdWord) (d : Word) :
    s.writesCommand b w d = s.refusedWrite .owned (some b) (s.tables.cmdAddress b w) d := by
  rw [State.writesCommand_of_serves hs, State.commandWrite_of_auto (s := s.clearMarks) h, State.endEvent_sink]

/-- A write to GEN_RELEASE of a berth in MANUAL (R118). -/
theorem State.writesCommand_genRelease_of_manual (hs : s.serves b) (h : (s.berth b).mode = .manual) (d : Word) :
    s.writesCommand b .genRelease d = s.passedWrite (s.tables.cmdAddress b .genRelease) d := by
  rw [State.writesCommand_of_serves hs, State.commandWrite_genRelease_of_manual (s := s.clearMarks) h,
    State.endEvent_passWrite]

/-- A write to a breaker word of a berth in MANUAL that the Manual Guard refuses (R118, R137). -/
theorem State.writesCommand_of_guarded (hs : s.serves b) (h : (s.berth b).mode = .manual) {w : BreakerWord}
    (hg : s.clearMarks.guardBreaker b w (s.tables.cmdAddress b w.cmd) d =
      s.clearMarks.sink .guard (some b) (s.tables.cmdAddress b w.cmd) d) :
    s.writesCommand b w.cmd d = s.refusedWrite .guard (some b) (s.tables.cmdAddress b w.cmd) d := by
  rw [State.writesCommand_of_serves hs, State.commandWrite_breaker_of_manual (s := s.clearMarks) h, hg, State.endEvent_sink]

/-! ## Start-up reads (R165) -/

/-- What entry to RUNNING leaves alone, the attempt leaves alone (R165 step 3). -/
theorem State.tryEnterRunning_field {α : Type} (f : State → α) (hf : ∀ u : State, f u.enterRunning = f u) (s : State) :
    f s.tryEnterRunning = f s := by
  unfold State.tryEnterRunning
  split
  · exact hf s
  · rfl

@[simp] theorem State.tryEnterRunning_berths (s : State) : s.tryEnterRunning.berths = s.berths :=
  State.tryEnterRunning_field State.berths (fun _ => rfl) s

@[simp] theorem State.berth_tryEnterRunning (s : State) (b : BerthId) : s.tryEnterRunning.berth b = s.berth b :=
  State.tryEnterRunning_field (fun u => u.berth b) (fun _ => rfl) s

@[simp] theorem State.tryEnterRunning_groupTaken (s : State) : s.tryEnterRunning.groupTaken = s.groupTaken :=
  State.tryEnterRunning_field State.groupTaken (fun _ => rfl) s

@[simp] theorem State.tryEnterRunning_owq (s : State) : s.tryEnterRunning.owq = s.owq :=
  State.tryEnterRunning_field State.owq (fun _ => rfl) s

@[simp] theorem State.tryEnterRunning_ports (s : State) : s.tryEnterRunning.ports = s.ports :=
  State.tryEnterRunning_field State.ports (fun _ => rfl) s

@[simp] theorem State.tryEnterRunning_reads (s : State) : s.tryEnterRunning.loader.reads = s.loader.reads :=
  State.tryEnterRunning_field (fun u => u.loader.reads) (fun _ => rfl) s

@[simp] theorem State.pimRead_tryEnterRunning (s : State) (a : Word) : s.tryEnterRunning.pimRead a = s.pimRead a :=
  State.tryEnterRunning_field (fun u => u.pimRead a) (fun _ => rfl) s

/-- The start-up read in progress has ended: the port is free and the read is no longer to be made (R165 step 2). -/
def State.readEnded (s : State) : State :=
  (s.setPorts { s.ports with busy := none }).setLoader { s.loader with reads := s.loader.reads.tail }

/-- A start-up read in progress completes with the toggle of the word in memory (R135, R165 step 2). -/
theorem State.startReadDone_of_busy {r : StartRead} (h : s.ports.busy = some (.startRead r)) :
    s.startReadDone =
      (s.readEnded.takeOverToggle r ((s.pimRead (s.tables.startReadAddress r)).getLsbD 15)).tryEnterRunning := by
  unfold State.startReadDone
  rw [h]
  rfl

/-- A start-up read of a berth's REQ word: its record takes the toggle and its first answer is queued (R22, R165 step 2). -/
theorem State.takeOverToggle_req (s : State) (b : BerthId) (x : Bool) :
    (s.takeOverToggle (.req b) x).berth b = { s.berth b with lastTaken := x, answered := x }
      ∧ (∀ c, c ≠ b → (s.takeOverToggle (.req b) x).berth c = s.berth c)
      ∧ (s.takeOverToggle (.req b) x).owq = placeWrite s.owq (s.rspEntry b { s.berth b with lastTaken := x, answered := x })
      ∧ (s.takeOverToggle (.req b) x).ports = s.ports
      ∧ (s.takeOverToggle (.req b) x).loader = s.loader ∧ s.sameMemory (s.takeOverToggle (.req b) x) := by
  refine ⟨State.berth_setBerth_same _ _ _, fun c hc => State.berth_setBerth_of_ne _ _ hc, ?_, rfl, rfl, fun _ => rfl⟩
  simp [State.takeOverToggle, State.queueRsp, State.rspEntry]

/-- A start-up read of a GROUP_REQ word: the group entry takes the toggle and its first answer is queued (R113, R165 step 2). -/
theorem State.takeOverToggle_groupReq (s : State) (g : GroupId) (x : Bool) :
    (s.takeOverToggle (.groupReq g) x).groupTaken.get g = x ∧ (s.takeOverToggle (.groupReq g) x).berths = s.berths
      ∧ (s.takeOverToggle (.groupReq g) x).owq =
        placeWrite s.owq
          { address := s.tables.groupRspAddress g, data := groupRspWord x .none 0 0 0, cls := .report, berth := none }
      ∧ (s.takeOverToggle (.groupReq g) x).loader = s.loader ∧ s.sameMemory (s.takeOverToggle (.groupReq g) x) :=
  ⟨Four.get_set_same _ _ _, rfl, rfl, rfl, fun _ => rfl⟩

end Sys2Proof.Machine

open Sys2Proof Sys2Proof.Machine

/-- Settles O16, by the states of R19. -/
theorem permitLineFollowsState : Obligations.PermitLineFollowsState := by
  intro s b
  rw [State.perm_iff, State.configured_iff, BState.permits_iff]

/-- Settles O36: by mode, then by the row of the Manual Guard. -/
theorem commandWritesByModeAndValue : Obligations.CommandWritesByModeAndValue := by
  intro s b w v hs
  simp only [exec_closeCommand, exec_bkrWriteOpen, exec_bkrWriteNone, exec_bkrWriteInvalidValue, exec_genReleaseWrite,
    exec_shoreBkrClose, exec_shipconBkrClose, Host.Outcome.next.injEq]
  refine ⟨fun hauto => ?_, fun hman => ⟨State.writesCommand_genRelease_of_manual hs hman v, fun hv => ?_, ?_, ?_⟩⟩
  · have owned := State.writesCommand_of_auto hs hauto
    exact ⟨owned _ _, owned _ _, owned _ _, owned _ _, owned _ _⟩
  · exact State.writesCommand_of_guarded hs hman (State.guardBreaker_of_unknown hv w)
  · intro hfree hst
    refine State.writesCommand_of_guarded (w := .shoreBkr) hs hman ?_
    exact (State.guardBreaker_shoreClose (s := s.clearMarks) hfree).trans (State.manualEngage_of_not_cabled hst)
  · intro hfree hst
    refine State.writesCommand_of_guarded (w := .shipconBkr) hs hman ?_
    exact (State.guardBreaker_shipconClose (s := s.clearMarks) hfree).trans (State.manualShipcon_of_not_energized hst)

/-- Settles O21: the toggle is taken over with the read's end, and the attempt to enter RUNNING touches none of it. -/
theorem startupReadTakesToggle : Obligations.StartupReadTakesToggle := by
  intro s w station
  refine ⟨?_, ?_⟩
  · rintro b hbusy rfl
    obtain ⟨hb, hc, hq, hp, hl, hm⟩ :=
      s.readEnded.takeOverToggle_req b ((s.pimRead (s.tables.reqAddress b)).getLsbD 15)
    rw [exec_startupReqRead, State.startReadDone_of_busy hbusy]
    refine ⟨_, rfl, (State.berth_tryEnterRunning _ b).trans hb, ?_, ?_, ?_, ?_, ?_⟩
    · exact fun c hne => (State.berth_tryEnterRunning _ c).trans (hc c hne)
    · rw [State.berth_tryEnterRunning, State.tryEnterRunning_owq]
      exact hq.trans (by rw [← hb]; rfl)
    · exact (State.tryEnterRunning_ports _).trans hp
    · exact (State.tryEnterRunning_reads _).trans (congrArg Loader.reads hl)
    · exact fun x => (State.pimRead_tryEnterRunning _ x).trans (hm x)
  · rintro g hbusy rfl
    obtain ⟨hg, hb, hq, hl, hm⟩ :=
      s.readEnded.takeOverToggle_groupReq g ((s.pimRead (s.tables.groupReqAddress g)).getLsbD 15)
    rw [exec_startupReqRead, State.startReadDone_of_busy hbusy]
    refine ⟨_, rfl, ?_, (State.tryEnterRunning_berths _).trans hb, (State.tryEnterRunning_owq _).trans hq, ?_, ?_⟩
    · exact (congrArg (Four.get · g) (State.tryEnterRunning_groupTaken _)).trans hg
    · exact (State.tryEnterRunning_reads _).trans (congrArg Loader.reads hl)
    · exact fun x => (State.pimRead_tryEnterRunning _ x).trans (hm x)

end

section
/-! What lies outside RUNNING and what an accepted image fixes (R22, R51, R66, R84, R117, R147, R148, R161): the fields that no
access of the memory port touches, the commands that find the part outside RUNNING, and the installation of an image. -/

namespace Sys2Proof.Machine

variable {s : State}

/-! ## What no access of the memory port touches -/

/-- A reading of the state that the memory port's accesses leave alone: it sees none of the fields that they write, and of the
Image Loader the words read alone. -/
structure PortBlind {α : Type} (f : State → α) : Prop where
  pim : ∀ (s : State) m, f { s with pim := m } = f s
  ports : ∀ (s : State) p, f (s.setPorts p) = f s
  owq : ∀ (s : State) q, f (s.setOwq q) = f s
  log : ∀ (s : State) l, f (s.setLog l) = f s
  berth : ∀ (s : State) b r, f (s.setBerth b r) = f s
  group : ∀ (s : State) g x, f (s.setGroupTaken g x) = f s
  loader : ∀ (s : State) l, l.words = s.loader.words → f (s.setLoader l) = f s

namespace PortBlind

variable {α : Type} {f : State → α}

theorem stationWrote (hf : PortBlind f) (s : State) (a w) : f (s.stationWrote a w) = f s :=
  State.stationWrote_field f hf.pim s a w

theorem readArrives (hf : PortBlind f) (s : State) (r) : f (s.readArrives r) = f s := by
  unfold State.readArrives
  split
  · exact hf.ports _ _
  · rfl

theorem grantHost (hf : PortBlind f) (s : State) (a w) : f (s.grantHost a w) = f s := by
  unfold State.grantHost
  split
  · exact hf.ports _ _
  · dsimp only
    split
    · exact (hf.ports _ _).trans (hf.stationWrote _ _ _)
    · exact hf.ports _ _

theorem grantStartupWrite (hf : PortBlind f) (s : State) : f s.grantStartupWrite = f s := by
  refine (hf.ports _ _).trans ((hf.loader _ _ ?_).trans (hf.pim _ _))
  rfl

theorem grantTo (hf : PortBlind f) (s : State) (k w) : f (s.grantTo k w) = f s := by
  unfold State.grantTo
  split
  · exact hf.grantHost _ _ _
  · exact (hf.ports _ _).trans (hf.owq _ _)
  · exact hf.grantStartupWrite _
  · exact hf.ports _ _
  · exact hf.ports _ _
  · exact (hf.ports _ _).trans (hf.log _ _)

/-- A grant (R144, R145). -/
theorem portGrant (hf : PortBlind f) (s : State) (r w first) : f (s.portGrant r w first) = f s := by
  unfold State.portGrant
  dsimp only
  split
  · exact hf.readArrives _ _
  · split
    · exact (hf.grantTo _ _ _).trans (hf.readArrives _ _)
    · exact hf.readArrives _ _

theorem carriageReport (hf : PortBlind f) (s : State) (w) : f (s.carriageReport w) = f s := by
  unfold State.carriageReport
  split
  · rfl
  · split
    · exact hf.berth _ _ _
    · rfl

/-- The carriage of an own write (R141). -/
theorem ownCarried (hf : PortBlind f) (s : State) : f s.ownCarried = f s := by
  unfold State.ownCarried
  split
  · exact (hf.carriageReport _ _).trans ((hf.ports _ _).trans (hf.pim _ _))
  · rfl

/-- The carriage of a host write (R142). -/
theorem hostCarried (hf : PortBlind f) (s : State) : f s.hostCarried = f s := by
  unfold State.hostCarried
  split
  · exact (State.removalReports_field f hf.owq _ _).trans ((hf.ports _ _).trans ((hf.owq _ _).trans (hf.pim _ _)))
  · rfl

theorem takeOverToggle (hf : PortBlind f) (s : State) (r x) : f (s.takeOverToggle r x) = f s := by
  unfold State.takeOverToggle
  split
  · exact (hf.owq _ _).trans (hf.berth _ _ _)
  · exact (hf.owq _ _).trans (hf.group _ _ _)

theorem readEnded (hf : PortBlind f) (s : State) : f s.readEnded = f s := by
  refine (hf.loader _ _ ?_).trans (hf.ports _ _)
  rfl

/-- A completed start-up read leaves all as it was, or tries to enter RUNNING from where all is as it was (R165). -/
theorem startReadDone (hf : PortBlind f) (s : State) :
    s.startReadDone = s ∨ ∃ u : State, f u = f s ∧ s.startReadDone = u.tryEnterRunning := by
  unfold State.startReadDone
  split
  · exact .inr ⟨s.readEnded.takeOverToggle _ _, (hf.takeOverToggle _ _ _).trans (hf.readEnded _), rfl⟩
  · exact .inl rfl

/-- A completed Log Unit write, likewise (R156, R165 step 3). -/
theorem logCarried (hf : PortBlind f) (s : State) :
    s.logCarried = s ∨ ∃ u : State, f u = f s ∧ s.logCarried = u.tryEnterRunning := by
  unfold State.logCarried
  split
  · exact .inr ⟨_, (hf.log _ _).trans ((hf.ports _ _).trans (hf.pim _ _)), rfl⟩
  · exact .inl rfl

end PortBlind

/-- What the attempt to enter RUNNING leaves is the state itself, or RUNNING entered from LOADING with the whole image read. -/
theorem State.tryEnterRunning_cases (s : State) :
    s.tryEnterRunning = s
      ∨ s.tryEnterRunning = s.enterRunning ∧ s.phase = .loading ∧ s.loader.words.length = imageLength := by
  unfold State.tryEnterRunning
  split
  · rename_i h
    exact .inr ⟨rfl, h.1, h.2.1⟩
  · exact .inl rfl

/-! ## An image word (R160, R161) -/

/-- What an image word leaves: nothing changed; BLOCKED; an image that passes every late check installed; or the word stored, short
of the image's length. -/
theorem State.imageWord_cases (s : State) (w : Word) :
    s.imageWord w = s
      ∨ s.phase = .loading ∧
        ((∃ ws e, s.imageWord w = s.enterBlocked ws e)
          ∨ (∃ ws, lateChecks ws = .none ∧ s.imageWord w = s.install ws)
          ∨ ∃ ws, ws.length ≠ imageLength ∧ s.imageWord w = s.setLoader { s.loader with words := ws }) := by
  unfold State.imageWord
  split
  · rename_i h
    refine .inr ⟨h.1, ?_⟩
    dsimp only
    split
    · exact .inl ⟨_, _, rfl⟩
    · rename_i hok
      split
      · rename_i hlen
        refine .inr (.inl ⟨_, ?_, rfl⟩)
        have hdue : checkDue (s.loader.words ++ [w]) = lateChecks (s.loader.words ++ [w]) := by
          simp [checkDue, hlen, imageLength]
        rw [← hdue]
        exact Decidable.not_not.mp hok
      · rename_i hlen
        exact .inr (.inr ⟨_, hlen, rfl⟩)
  · exact .inl rfl

/-! ## Properties of the phase, the image read and the tables -/

/-- A property of how far the part is with its image: of the phase, the image words read and the tables. -/
def State.imageMeets (q : Phase → List Word → Tables → Prop) (s : State) : Prop := q s.phase s.loader.words s.tables

section Meets

variable (q : Phase → List Word → Tables → Prop)

theorem State.imageMeets_portBlind : PortBlind (State.imageMeets q) where
  pim := fun _ _ => rfl
  ports := fun _ _ => rfl
  owq := fun _ _ => rfl
  log := fun _ _ => rfl
  berth := fun _ _ _ => rfl
  group := fun _ _ _ => rfl
  loader := fun s _ h => congrArg (q s.phase · s.tables) h

/-- No effect of an event touches the image, its tables or the phase. -/
theorem State.imageMeets_kept : Kept (State.imageMeets q) where
  berth := fun _ _ _ _ _ _ _ h => h
  sup := fun _ _ _ h => h
  budget := fun _ _ _ h => h
  holds := fun _ _ h => h
  seqWrite := fun _ _ _ _ h => h
  tripWrite := fun _ _ h => h
  queueRsp := fun _ _ h => h
  record := fun _ _ _ _ _ _ h => h
  statusChanged := fun _ h => h
  grantedChanged := fun _ h => h
  enters := fun _ _ _ h => h
  toggle := fun _ _ _ h => h
  loadStep := fun _ _ _ h => h
  stopStep := fun _ _ h => h
  loadSettle := fun _ _ h => h
  stopSettle := fun _ _ h => h
  stopChannels := fun _ _ h => h
  queueGroupRsp := fun _ _ _ h => h
  groupTaken := fun _ _ _ h => h
  passWrite := fun _ _ _ h => h

/-- Nor does an effect of the Scan Engine or a discarded write. -/
theorem State.imageMeets_keptByScan : KeptByScan (State.imageMeets q) := by
  refine (State.imageMeets_kept q).moves.byScan (fun _ _ _ h => h) ?_ (fun _ _ _ h => h) (fun _ _ _ h => h) (fun _ _ h => h) ?_
  · intro s h
    unfold State.discardWrite
    split
    · exact h
    · exact h
  · intro s c h
    unfold State.setCapacity
    split
    · exact h
    · exact h

variable {q}

/-- The attempt to enter RUNNING keeps what its success keeps (R165 step 3). -/
theorem State.imageMeets_tryEnterRunning (entered : ∀ ws t, ws.length = imageLength → q .loading ws t → q .running ws t)
    (h : s.imageMeets q) : s.tryEnterRunning.imageMeets q := by
  rcases s.tryEnterRunning_cases with e | ⟨e, hp, hl⟩
  · rwa [e]
  · unfold State.imageMeets at h
    rw [hp] at h
    rw [e]
    exact entered _ _ hl h

/-- Such a property is kept by every command but RESET_ASSERT and IMAGE_WORD_READ, if RESET_RELEASE and the entry to RUNNING
keep it. -/
theorem State.imageMeets_keptByCommand (released : ∀ ws t, q .resetHeld ws t → q .loading [] t)
    (entered : ∀ ws t, ws.length = imageLength → q .loading ws t → q .running ws t) : KeptByCommand (State.imageMeets q) := by
  have blind := State.imageMeets_portBlind q
  refine
    { State.imageMeets_keptByScan q with
      releaseReset := ?_
      startReadDone := ?_
      portGrant := fun s r w k h => (blind.portGrant s r w k).mpr h
      ownCarried := fun s h => (blind.ownCarried s).mpr h
      hostCarried := fun s h => (blind.hostCarried s).mpr h
      logCarried := ?_
      station := fun s a w h => (blind.stationWrote s a w).mpr h
      portFree := fun _ h => h
      owed := fun _ _ _ h => h
      reload := ?_
      tickFalls := fun _ h => h
      tickStep := fun _ _ _ h => h
      tickSettle := fun _ _ h => h
      assertMaint := ?_
      releaseMaint := ?_ }
  · intro s h
    unfold State.releaseReset
    split
    · rename_i hp
      unfold State.imageMeets at h
      rw [hp] at h
      exact released _ _ h
    · exact h
  · intro s h
    rcases blind.startReadDone s with e | ⟨u, hu, e⟩
    · rwa [e]
    · rw [e]
      exact State.imageMeets_tryEnterRunning entered (hu.mpr h)
  · intro s h
    rcases blind.logCarried s with e | ⟨u, hu, e⟩
    · rwa [e]
    · rw [e]
      exact State.imageMeets_tryEnterRunning entered (hu.mpr h)
  · intro s h
    unfold State.reload
    split
    · exact h
    · exact h
  · intro s h
    unfold State.assertMaint
    dsimp only
    split
    · exact h
    · exact h
  · intro s h
    unfold State.releaseMaint
    dsimp only
    split
    · exact h
    · exact h

end Meets

end Sys2Proof.Machine
end

section
/-! Nothing is under way outside RUNNING (R22, R51, R66, R84, R117, R147, R148). -/

namespace Sys2Proof.Machine

variable {s t : State} {b : BerthId}

/-- What `quietOutside` speaks of: the phase, and the owners of all that can be under way. -/
def State.underWay (s : State) :
    Phase × Eight Channels × List Hold × Budget × Eight Supervision × ScanEngine × TimerBank :=
  (s.phase, s.chans, s.holds, s.budget, s.sups, s.scan, s.timer)

theorem State.quietOutside_of_underWay (h : t.underWay = s.underWay) (hs : s.quietOutside) : t.quietOutside := by
  simp only [State.underWay, Prod.mk.injEq] at h
  obtain ⟨hphase, hchans, hholds, hbudget, hsups, hscan, htimer⟩ := h
  unfold State.quietOutside
  rw [hphase, hchans, hholds, hbudget, hsups, hscan, htimer]
  exact hs

theorem State.quietOutside_of_running (h : s.phase = .running) : s.quietOutside := fun hp => absurd h hp

/-- The memory port's accesses start and end nothing. -/
theorem State.underWay_portBlind : PortBlind State.underWay where
  pim := fun _ _ => rfl
  ports := fun _ _ => rfl
  owq := fun _ _ => rfl
  log := fun _ _ => rfl
  berth := fun _ _ _ => rfl
  group := fun _ _ _ => rfl
  loader := fun _ _ _ => rfl

/-! ## Commands that find the part outside RUNNING -/

/-- A host write outside RUNNING is discarded or not taken at all (R162, R164). -/
theorem State.underWay_hostWrites (hp : s.phase ≠ .running) (k a d) : (s.hostWrites k a d).underWay = s.underWay := by
  have discards : s.discardWrite.underWay = s.underWay := by
    unfold State.discardWrite
    split <;> rfl
  unfold State.hostWrites
  split
  · rfl
  · split
    · rfl
    · exact discards
    · exact discards
    · rename_i h
      exact absurd h hp

theorem State.underWay_berthWrites (hp : s.phase ≠ .running) (b k a d) :
    (s.berthWrites b k a d).underWay = s.underWay := by
  unfold State.berthWrites
  split
  · rfl
  · exact State.underWay_hostWrites hp _ _ _

theorem State.underWay_writesGroup (hp : s.phase ≠ .running) (g code q) :
    (s.writesGroup g code q).underWay = s.underWay := by
  unfold State.writesGroup
  split
  · rfl
  · exact State.underWay_hostWrites hp _ _ _

/-- Every host write outside RUNNING starts nothing (R162, R164). -/
theorem State.underWay_of_hostWrite {c : Instr} (hc : c.isHostWrite = true) (hp : s.phase ≠ .running)
    (ht : exec c s = .next t) : t.underWay = s.underWay := by
  have eq_of : ∀ u : State, exec c s = .next u → t = u := fun u hu => by
    rw [ht] at hu
    exact Host.Outcome.next.inj hu
  rcases exec_hostWrite_cases hc s with ⟨b, code, q, e⟩ | ⟨g, code, q, e⟩ | ⟨b, w, d, e⟩ | ⟨k, a, d, e⟩
  · rw [eq_of _ e]
    exact State.underWay_berthWrites hp _ _ _ _
  · rw [eq_of _ e]
    exact State.underWay_writesGroup hp _ _ _
  · rw [eq_of _ e]
    exact State.underWay_berthWrites hp _ _ _ _
  · rw [eq_of _ e]
    exact State.underWay_hostWrites hp _ _ _

theorem State.quietOutside_tryEnterRunning (h : s.quietOutside) : s.tryEnterRunning.quietOutside := by
  rcases s.tryEnterRunning_cases with e | ⟨e, -, -⟩
  · rwa [e]
  · rw [e]
    exact State.quietOutside_of_running rfl

/-- A completed start-up read leaves a quiet part quiet, or RUNNING (R165). -/
theorem State.quietOutside_startReadDone (h : s.quietOutside) : s.startReadDone.quietOutside := by
  rcases State.underWay_portBlind.startReadDone s with e | ⟨u, hu, e⟩
  · rwa [e]
  · rw [e]
    exact State.quietOutside_tryEnterRunning (State.quietOutside_of_underWay hu h)

/-- A completed Log Unit write leaves a quiet part quiet, or RUNNING (R165 step 3). -/
theorem State.quietOutside_logCarried (h : s.quietOutside) : s.logCarried.quietOutside := by
  rcases State.underWay_portBlind.logCarried s with e | ⟨u, hu, e⟩
  · rwa [e]
  · rw [e]
    exact State.quietOutside_tryEnterRunning (State.quietOutside_of_underWay hu h)

/-- An image word starts nothing: what it writes is the Image Loader's, the tables', the records' and the log's (R160, R164, R165). -/
theorem State.quietOutside_imageWord (h : s.quietOutside) (w : Word) : (s.imageWord w).quietOutside := by
  rcases s.imageWord_cases w with e | ⟨hp, ⟨ws, x, e⟩ | ⟨ws, -, e⟩ | ⟨ws, -, e⟩⟩
  · rwa [e]
  · rw [e]
    exact fun _ => h (by rw [hp]; decide)
  · rw [e]
    exact h
  · rw [e]
    exact h

theorem State.quietOutside_releaseReset (h : s.quietOutside) : s.releaseReset.quietOutside := by
  unfold State.releaseReset
  split
  · rename_i hp
    exact fun _ => h (by rw [hp]; decide)
  · exact h

theorem State.stepExpiry_of_nothing_owed (h : s.owed b = Owed.none) : s.stepExpiry b = s := by
  have none_owed : ∀ base, (s.owed b).step base = false := fun base => by
    rw [h]
    cases base <;> rfl
  rw [State.stepExpiry_of_not_expires (by simp [State.stepExpires, none_owed]), State.reachStep_of_not_owed (none_owed .f),
    State.reachStep_of_not_owed (none_owed .s)]

theorem State.settleExpiry_of_nothing_owed (h : s.owed b = Owed.none) : s.settleExpiry b = s := by
  rw [State.settleExpiry_of_not_expires (by simp [State.settleExpires, h, Owed.none]),
    State.reachSettle_of_not_owed (by rw [h]; rfl)]

theorem State.holdExpiry_of_nothing_owed (h : s.owed b = Owed.none) : s.holdExpiry b = s := by
  rw [State.holdExpiry_of_none (by simp [State.holdExpires, h, Owed.none]), State.reachHolds_of_not_owed (by rw [h]; rfl)]

/-- A part outside RUNNING with nothing under way is left so, or RUNNING, by every command. -/
theorem exec_quietOutside_of_not_running {c : Instr} (hp : s.phase ≠ .running) (hs : s.quietOutside)
    (ht : exec c s = .next t) : t.quietOutside := by
  obtain ⟨-, -, -, -, hscan, htimer⟩ := hs hp
  have howed : ∀ b, s.owed b = Owed.none := fun b => by
    unfold State.owed
    rw [htimer]
    exact Eight.get_fill _ _
  have hpass : s.scan.pass = none := by rw [hscan]; rfl
  have hdue : s.scan.tickDue = false := by rw [hscan]; rfl
  have leaves : ∀ u : State, exec c s = .next u → u.quietOutside → t.quietOutside := fun u hu hq => by
    rw [ht] at hu
    rwa [Host.Outcome.next.inj hu]
  have leavesSame : ∀ u : State, exec c s = .next u → u.underWay = s.underWay → t.quietOutside :=
    fun u hu hq => leaves u hu (State.quietOutside_of_underWay hq hs)
  by_cases hw : c.isHostWrite = true
  · exact State.quietOutside_of_underWay (State.underWay_of_hostWrite hw hp ht) hs
  cases c
  case resetAssert landed => exact leaves _ rfl fun _ => ⟨rfl, rfl, rfl, rfl, rfl, rfl⟩
  case resetRelease => exact leaves _ rfl (State.quietOutside_releaseReset hs)
  case imageWordRead w => exact leaves _ rfl (State.quietOutside_imageWord hs w)
  case startupReqRead => exact leaves _ rfl (State.quietOutside_startReadDone hs)
  case portGrant => exact leavesSame _ rfl (State.underWay_portBlind.portGrant _ _ _ _)
  case ownWriteCarried => exact leavesSame _ rfl (State.underWay_portBlind.ownCarried _)
  case hostWriteCarried => exact leavesSame _ rfl (State.underWay_portBlind.hostCarried _)
  case logWriteComplete => exact leaves _ rfl (State.quietOutside_logCarried hs)
  case baseFTick => exact leaves _ rfl (by rwa [State.baseFTick, if_neg hp])
  case baseSTick => exact leaves _ rfl (by rwa [State.baseSTick, if_neg hp])
  case scanTick => exact leaves _ rfl (by simpa [State.scanTick, hdue] using hs)
  case stepExpiry b => exact leaves _ rfl (by rwa [State.stepExpiry_of_nothing_owed (howed b)])
  case settleExpiry b => exact leaves _ rfl (by rwa [State.settleExpiry_of_nothing_owed (howed b)])
  case holdExpiry b => exact leaves _ rfl (by rwa [State.holdExpiry_of_nothing_owed (howed b)])
  case scanReadComplete => exact leaves _ rfl (by simpa [State.scanReadDone, hpass] using hs)
  case maintAssert =>
    exact leavesSame _ rfl (by rw [State.assertMaint, if_neg fun h => hp h.1]; rfl)
  case maintRelease =>
    exact leavesSame _ rfl (by rw [State.releaseMaint, if_neg fun h => hp h.1]; rfl)
  all_goals exact absurd rfl hw

/-- No command but RESET_ASSERT ends RUNNING (R165). -/
theorem exec_running_of_not_reset {c : Instr} (hp : s.phase = .running) (hc : ∀ l, c ≠ .resetAssert l)
    (ht : exec c s = .next t) : t.phase = .running := by
  have kept : KeptByCommand fun u : State => u.phase = .running :=
    State.imageMeets_keptByCommand (q := fun p _ _ => p = .running) (fun _ _ h => absurd h (by decide)) fun _ _ _ _ => rfl
  refine kept.exec c (fun l h => absurd h (hc l)) (fun w _ => ?_) hp ht
  rcases s.imageWord_cases w with e | ⟨hl, -⟩
  · rwa [e]
  · rw [hp] at hl
    cases hl

/-- Every command leaves nothing under way outside RUNNING. -/
theorem exec_quietOutside {c : Instr} (hs : s.quietOutside) (ht : exec c s = .next t) : t.quietOutside := by
  by_cases hp : s.phase = .running
  · by_cases hc : ∃ l, c = .resetAssert l
    · obtain ⟨l, rfl⟩ := hc
      cases ht
      exact fun _ => ⟨rfl, rfl, rfl, rfl, rfl, rfl⟩
    · exact State.quietOutside_of_running (exec_running_of_not_reset hp (not_exists.mp hc) ht)
  · exact exec_quietOutside_of_not_running hp hs ht

end Sys2Proof.Machine

open Sys2Proof Sys2Proof.Machine

/-- Settles O10: a part outside RUNNING finds nothing to take further, and what a part in RUNNING has under way RESET_ASSERT alone
ends. -/
theorem nothingRunsOutsideRunning : Obligations.NothingRunsOutsideRunning := by
  intro s t hs ht
  unfold step at ht
  split at ht
  · cases ht
    exact hs
  · rename_i c rest _
    have hrest : State.quietOutside { s with pending := rest } := hs
    exact exec_quietOutside hrest ht

end

section
/-! What the checks of R161 leave in the tables of an accepted image, and that every step keeps it. -/

namespace Sys2Proof.Machine

variable {ws : List Word}

/-! ## The checks (R161) -/

/-- A check that gives no code has passed, and so have those after it (R161). -/
theorem check_passed {ok : Bool} {code rest : ErrorCode} (hc : code ≠ .none)
    (h : (if !ok then code else rest) = .none) : ok = true ∧ rest = .none := by
  cases ok
  · exact absurd h hc
  · exact ⟨rfl, h⟩

/-- An image in which no late check fails passes them all (R161). -/
theorem lateChecks_eq_none (h : lateChecks ws = .none) :
    windowsOk ws = true ∧ berthsOk ws = true ∧ feederOk ws = true ∧ thresholdsOk ws = true ∧ groupsOk ws = true
      ∧ timersOk ws = true := by
  unfold lateChecks at h
  split at h
  · cases h
  · obtain ⟨hwindows, h⟩ := check_passed (by decide) h
    obtain ⟨hberths, h⟩ := check_passed (by decide) h
    obtain ⟨hfeeder, h⟩ := check_passed (by decide) h
    obtain ⟨hthresholds, h⟩ := check_passed (by decide) h
    obtain ⟨hgroups, h⟩ := check_passed (by decide) h
    obtain ⟨htimers, -⟩ := check_passed (by decide) h
    exact ⟨hwindows, hberths, hfeeder, hthresholds, hgroups, htimers⟩

theorem field_lt (x lo len : Nat) : field x lo len < 2 ^ len := Nat.mod_lt _ (Nat.two_pow_pos len)

theorem berth_toNat_lt (b : BerthId) : b.toNat < 8 := by cases b <;> decide

theorem group_toNat_lt (g : GroupId) : g.toNat < 4 := by cases g <;> decide

/-! ## The tables installed (R165 step 1) -/

theorem statics_tablesOf (ws : List Word) (b : BerthId) :
    (tablesOf ws).statics.get b = installedStatic ws b.toNat := by
  cases b <;> rfl

theorem groups_tablesOf (ws : List Word) (g : GroupId) : (tablesOf ws).groups.get g = imageGroup ws g.toNat := by
  cases g <;> rfl

theorem statics_tablesOf_of_lt {b : BerthId} (h : b.toNat < imageN ws) :
    (tablesOf ws).statics.get b = imageStatic ws b.toNat := by
  rw [statics_tablesOf, installedStatic, if_pos h]

/-- The static part of a configured berth is one of those checked. -/
theorem imageStatic_mem {b : BerthId} (h : b.toNat < imageN ws) : imageStatic ws b.toNat ∈ imageStatics ws :=
  List.mem_map_of_mem (List.mem_range.mpr (Nat.lt_min.mpr ⟨h, berth_toNat_lt b⟩))

theorem thresholds_tablesOf {i : Nat} (hi : i < 16) (hs : (imageThreshold ws i).isSome = true) :
    ∃ v, (tablesOf ws).thresholds[i]? = some (some v) := by
  obtain ⟨v, hv⟩ := Option.isSome_iff_exists.mp hs
  refine ⟨v, ?_⟩
  show ((List.range 16).map (imageThreshold ws))[i]? = _
  rw [List.getElem?_map, List.getElem?_range hi, Option.map_some, hv]

/-- Checks 5, 7 and 9 leave sound berths (R1, R2, R3, R67). -/
theorem berthsSound_tablesOf (hb : berthsOk ws = true) (ht : thresholdsOk ws = true) (hd : timersOk ws = true) :
    (tablesOf ws).berthsSound := by
  unfold berthsOk at hb
  unfold thresholdsOk at ht
  unfold timersOk at hd
  simp only [Bool.and_eq_true, List.all_eq_true] at hb ht hd
  obtain ⟨hn, hranges⟩ := hb
  obtain ⟨-, hdeadlines⟩ := hd
  refine ⟨hn, fun b hlt => ?_⟩
  have hm := imageStatic_mem hlt
  obtain ⟨⟨huv, hov⟩, hdead⟩ := ht _ hm
  rw [statics_tablesOf_of_lt hlt]
  refine ⟨hranges _ hm, hdeadlines _ hm, ?_⟩
  rintro i (rfl | rfl | rfl)
  · exact thresholds_tablesOf (field_lt _ _ 4) huv
  · exact thresholds_tablesOf (field_lt _ _ 4) hov
  · exact thresholds_tablesOf (field_lt _ _ 4) hdead

/-- Checks 6 and 9 leave a sound Level Table, feeder and periods (R51, R84, R93, R147). -/
theorem budgetSound_tablesOf (hf : feederOk ws = true) (hd : timersOk ws = true) : (tablesOf ws).budgetSound := by
  unfold feederOk at hf
  unfold timersOk at hd
  simp only [Bool.and_eq_true, decide_eq_true_eq] at hf hd
  obtain ⟨⟨⟨hlevels, hccfg⟩, hreserve⟩, hload⟩ := hf
  obtain ⟨⟨⟨hbase, hns⟩, hscan⟩, -⟩ := hd
  exact ⟨hlevels, by simp [tablesOf, imageLevels], hccfg, hreserve, hload, hbase, hns, hscan⟩

/-- A group entry with a window is counted among the GROUP windows (R113, R134). -/
theorem windowCount_group_ne_zero {t : Tables} {g : GroupId} (h : (t.window? .group g.toNat).isSome = true) :
    windowCount t.windowList .group g.toNat ≠ 0 := by
  obtain ⟨w, hw⟩ := Option.isSome_iff_exists.mp h
  have hp := List.find?_some hw
  simp only [Bool.and_eq_true, Bool.or_eq_true, decide_eq_true_eq] at hp
  obtain ⟨hkind, hindex⟩ := hp
  have hidx : w.index = g.toNat := hindex.resolve_left (by rw [hkind]; decide)
  refine Nat.ne_of_gt (List.length_pos_of_mem (a := w) (List.mem_filter.mpr ⟨List.mem_of_find?_eq_some hw, ?_⟩))
  simp [hkind, hidx]

/-- Checks 4 and 8 leave sound windows and groups (R113, R134, R154). -/
theorem windowsSound_tablesOf (hw : windowsOk ws = true) (hg : groupsOk ws = true) : (tablesOf ws).windowsSound := by
  unfold windowsOk at hw
  unfold groupsOk at hg
  simp only [Bool.and_eq_true, Bool.or_eq_true, decide_eq_true_eq, List.all_eq_true, List.mem_range] at hw hg
  obtain ⟨⟨⟨⟨⟨⟨⟨⟨⟨-, -⟩, hindex⟩, hberths⟩, hfeeder⟩, hlog⟩, hgroups⟩, hcap⟩, hbound⟩, hapart⟩ := hw
  refine ⟨hcap, hapart, fun w hm => ⟨hindex w hm, hbound w hm⟩, fun b hb => ?_, hfeeder, hlog, fun g => ⟨?_, fun hs => ?_⟩⟩
  · obtain ⟨⟨hcommand, hrequest⟩, hfield⟩ := hberths b.toNat hb
    exact ⟨hcommand, hrequest, hfield⟩
  · exact hgroups g.toNat (group_toNat_lt g)
  · rw [groups_tablesOf]
    exact (hg g (by cases g <;> decide)).resolve_left (windowCount_group_ne_zero hs)

/-! ## Every step -/

/-- The tables of an accepted image are sound from its last word on, and every step keeps it. -/
theorem State.tablesSound_kept : KeptByStep State.tablesSound where
  toKeptByCommand :=
    State.imageMeets_keptByCommand
      (q := fun p ws t => (p = .running ∨ p = .loading ∧ ws.length = imageLength) →
        t.berthsSound ∧ t.budgetSound ∧ t.windowsSound)
      (fun _ _ _ hi => by
        rcases hi with h | ⟨-, h⟩
        · cases h
        · cases h)
      (fun _ _ hl h _ => h (.inr ⟨rfl, hl⟩))
  queue := fun _ _ h => h
  assertReset := fun _ _ _ hi => by
    rcases hi with h | ⟨h, -⟩
    · cases h
    · cases h
  imageWord := by
    intro s w hs
    rcases s.imageWord_cases w with e | ⟨hp, ⟨ws, x, e⟩ | ⟨ws, hok, e⟩ | ⟨ws, hlen, e⟩⟩
    · rwa [e]
    · rw [e]
      rintro (h | ⟨h, -⟩)
      · cases h
      · cases h
    · rw [e]
      obtain ⟨hwin, hber, hfee, hthr, hgrp, htim⟩ := lateChecks_eq_none hok
      exact fun _ => ⟨berthsSound_tablesOf hber hthr htim, budgetSound_tablesOf hfee htim, windowsSound_tablesOf hwin hgrp⟩
    · rw [e]
      rintro (h | ⟨-, h⟩)
      · rw [State.setLoader_phase, hp] at h
        cases h
      · exact absurd h hlen

end Sys2Proof.Machine

open Sys2Proof Sys2Proof.Machine

/-- Settles O13, by the property that every step keeps. -/
theorem tablesInUseStaySound : Obligations.TablesInUseStaySound := fun _ _ hs ht => State.tablesSound_kept.step hs ht

end

section
/-! The Scan Engine's reads and ticks (03): how a block is judged (R55 to R58), how a read is kept or ends its block (R53, R54),
and what a result that is not delivered leaves (R55, R56, R58, R71, R77). -/

namespace Sys2Proof.Machine

variable {s : State} {b : BerthId} {station : Option Word} {ws : List Word} {last : Word}

/-! ## The judgement of a block (R55 to R58) -/

section Judgement

variable {k : BlockScan} {limit : Nat} {first last : Word}

/-- Unequal SEQ values (R55). -/
theorem BlockScan.judge_torn (h : last ≠ first) : k.judge limit first last = (k, .torn) := if_pos (Ne.symm h)

/-- The first whole reading (R56). -/
theorem BlockScan.judge_unseen (he : last = first) (h : k.status = .unseen) :
    k.judge limit first last = ({ status := .baseline, reference := some last, stale := 0 }, .baseline) := by
  simp [BlockScan.judge, he, h]

/-- A whole reading of a block with a reference is fresh or unchanged (R57, R58). -/
theorem BlockScan.judge_seen (he : last = first) (h : k.status ≠ .unseen) :
    k.judge limit first last = k.judgeSeen limit last := by
  unfold BlockScan.judge
  rw [if_neg fun hne => hne he.symm]
  cases hst : k.status
  case unseen => exact absurd hst h
  case baseline => rfl
  case accepting => rfl

/-- A new SEQ (R57). -/
theorem BlockScan.judge_fresh (he : last = first) (h : k.status ≠ .unseen) (hr : k.reference ≠ some last) :
    k.judge limit first last = ({ status := .accepting, reference := some last, stale := 0 }, .fresh) := by
  rw [BlockScan.judge_seen he h, BlockScan.judgeSeen, if_pos hr]

/-- The same SEQ below the stale limit counts (R58). -/
theorem BlockScan.judge_counted (he : last = first) (h : k.status ≠ .unseen) (hr : k.reference = some last)
    (hl : k.stale + 1 < limit) :
    k.judge limit first last = ({ k with stale := k.stale + 1 }, .unchanged false) := by
  rw [BlockScan.judge_seen he h, BlockScan.judgeSeen, if_neg fun hne => hne hr, if_pos (Nat.lt_of_succ_lt hl),
    decide_eq_false (Nat.ne_of_lt hl)]

/-- The same SEQ that brings the count to the stale limit (R58). -/
theorem BlockScan.judge_reached (he : last = first) (h : k.status ≠ .unseen) (hr : k.reference = some last)
    (hl : k.stale + 1 = limit) :
    k.judge limit first last = ({ k with stale := limit }, .unchanged true) := by
  rw [BlockScan.judge_seen he h, BlockScan.judgeSeen, if_neg fun hne => hne hr, if_pos (Nat.lt_of_succ_le (Nat.le_of_eq hl)),
    decide_eq_true hl, hl]

/-- The same SEQ at the stale limit counts no further (R58). -/
theorem BlockScan.judge_pastLimit (he : last = first) (h : k.status ≠ .unseen) (hr : k.reference = some last)
    (hl : limit ≤ k.stale) : k.judge limit first last = (k, .unchanged false) := by
  rw [BlockScan.judge_seen he h, BlockScan.judgeSeen, if_neg fun hne => hne hr, if_neg (Nat.not_lt.mpr hl)]

/-- A verdict that hands nothing over and reaches no limit (R55, R56, R58). -/
def Verdict.idle : Verdict → Bool
  | .torn => true
  | .baseline => true
  | .fresh => false
  | .unchanged reached => !reached

end Judgement

/-! ## A read of a block (R53, R54) -/

/-- The words of a block with its last: the first stays at its place. -/
theorem getD_append_last_of_lt {i : Nat} (h : i < ws.length) (w : Word) : (ws ++ [w]).getD i 0 = ws.getD i 0 := by
  simp [List.getD, List.getElem?_append_left h]

/-- The words of a block with its last: the last stands behind the others. -/
theorem getD_append_last (ws : List Word) (w : Word) : (ws ++ [w]).getD ws.length 0 = w := by
  simp [List.getD]

/-- A read in progress gives the pass what the station wrote there, or what memory holds (R54, log 2). -/
theorem State.scanReadDone_of_busy {a : Word} {p : Pass} (hm : Memory.wf s.pim = true)
    (hb : s.ports.busy = some (.scanRead a)) (hp : s.scan.pass = some p) :
    s.scanReadDone station = (s.stationWrote a station).portFree.scanWord p (station.getD (s.pimRead a)) := by
  unfold State.scanReadDone
  rw [hb, hp]
  exact congrArg (State.scanWord _ p) (State.pimRead_stationWrote a station hm)

/-- The word that a station wrote at one place leaves the rest of the state. -/
theorem State.stationWrote_portFree (s : State) (a : Word) (station : Option Word) :
    (s.stationWrote a station).portFree =
      { s with pim := (s.stationWrote a station).pim, ports := { s.ports with busy := none } } := by
  cases station <;> rfl

/-- A station's write leaves every other word. -/
theorem State.pimRead_stationWrote_of_ne {a x : Word} (h : x ≠ a) :
    (s.stationWrote a station).pimRead x = s.pimRead x := by
  cases station with
  | none => rfl
  | some w => exact State.pimRead_pimWrite_of_ne s w h

/-- A read that is not its block's last is kept, and nothing else happens (R54). -/
theorem State.scanReadDone_keeps_word {a : Word} {k : Block} (hm : Memory.wf s.pim = true)
    (hb : s.ports.busy = some (.scanRead a)) (hp : s.scan.pass = some { block := k, words := ws })
    (hl : ws.length + 1 < k.reads) :
    ∃ t, exec (.scanReadComplete station) s = .next t
      ∧ t.scan = { s.scan with pass := some { block := k, words := ws ++ [station.getD (s.pimRead a)] } }
      ∧ t.blocks = s.blocks ∧ s.sameBerths t ∧ t.log = s.log ∧ t.owq = s.owq
      ∧ t.ports = { s.ports with busy := none } ∧ t.pimRead a = station.getD (s.pimRead a) ∧ s.sameMemoryBut t a := by
  refine ⟨_, exec_scanReadComplete station s, ?_⟩
  rw [State.scanReadDone_of_busy hm hb hp, State.scanWord]
  dsimp only
  rw [if_pos (by simpa using hl), State.stationWrote_portFree]
  exact ⟨rfl, rfl, ⟨rfl, rfl, rfl, rfl, rfl, rfl⟩, rfl, rfl, rfl, State.pimRead_stationWrote a station hm,
    fun x hx => State.pimRead_stationWrote_of_ne hx⟩

/-- Where the pass goes on, the next block's reads begin (R53). -/
theorem State.passOn_of_next {k c : Block} (h : k.nextIn s.tables.n = some c) :
    s.passOn k = s.setScan { s.scan with pass := some { block := c, words := [] } } := by
  rw [State.passOn, h]

/-- Where it does not, it is complete and the pass number rises (R53, R64). -/
theorem State.passOn_of_none {k : Block} (h : k.nextIn s.tables.n = none) :
    s.passOn k = s.setScan { s.scan with pass := none, passNumber := s.scan.passNumber + 1 } := by
  rw [State.passOn, h]

/-! ## Scan ticks (R52, R53, R63) -/

/-- A scan tick that finds no pass in flight starts one (R53). -/
theorem State.scanTick_of_idle (hd : s.scan.tickDue = true) (hp : s.scan.pass = none) :
    s.scanTick =
      s.setScan { s.scan with
        tickDue := false, timer := s.tables.scanPeriod, overrunReported := false
        pass := some { block := .feeder, words := [] } } := by
  rw [State.scanTick, if_pos hd]
  dsimp only
  rw [hp]

/-- A scan tick that finds a pass in flight is dropped, with a record for the first of a run (R63). -/
theorem State.scanTick_of_inFlight {p : Pass} (hd : s.scan.tickDue = true) (hp : s.scan.pass = some p) :
    s.scanTick =
      if s.scan.overrunReported then s.setScan { s.scan with tickDue := false, timer := s.tables.scanPeriod }
      else
        (s.setScan { s.scan with tickDue := false, timer := s.tables.scanPeriod, overrunReported := true }).record
          .scanOverrun none 0 (blockDetail p.block) 0 := by
  rw [State.scanTick, if_pos hd]
  dsimp only
  rw [hp]

/-! ## The last read of a berth's block -/

/-- The judgement of a berth's block by its own record, its first word and its last (R55). -/
theorem State.readBegun_judge (hl : ws.length = 8) (a : Word) :
    ((s.readBegun a station).block b).judge ((s.readBegun a station).static b).staleLimit ((ws ++ [last]).getD 0 0)
        ((ws ++ [last]).getD 8 0) =
      (s.block b).judge (s.static b).staleLimit (ws.getD 0 0) last := by
  have hlast : (ws ++ [last]).getD 8 0 = last := hl ▸ getD_append_last ws last
  rw [getD_append_last_of_lt (by omega), hlast, readBegun_shape]
  rfl

theorem State.judgeBerth_of_idle {k : BlockScan} {v : Verdict}
    (hj : (s.block b).judge (s.static b).staleLimit (ws.getD 0 0) (ws.getD 8 0) = (k, v)) (hv : v.idle = true) :
    s.judgeBerth b ws = s.setBlock b k := by
  unfold State.judgeBerth
  rw [hj]
  cases v
  case torn => rfl
  case baseline => rfl
  case fresh => cases hv
  case unchanged reached =>
    cases reached
    · rfl
    · cases hv

theorem State.judgeBerth_of_reached {k : BlockScan}
    (hj : (s.block b).judge (s.static b).staleLimit (ws.getD 0 0) (ws.getD 8 0) = (k, .unchanged true)) :
    s.judgeBerth b ws = (s.setBlock b k).staleCondition b := by
  unfold State.judgeBerth
  rw [hj]
  rfl

/-- A judgement touches its own block alone, and what it delivers is an event of the berths (R55 to R58). -/
theorem State.judgeBerth_frame (s : State) (b : BerthId) (ws : List Word) :
    ∃ k, EventFrame (s.setBlock b k) (s.judgeBerth b ws) := by
  refine ⟨((s.block b).judge (s.static b).staleLimit (ws.getD 0 0) (ws.getD 8 0)).1, ?_⟩
  unfold State.judgeBerth
  dsimp only
  generalize (s.block b).judge (s.static b).staleLimit (ws.getD 0 0) (ws.getD 8 0) = j
  have hframe := EventFrame.refl (s.setBlock b j.1)
  have hmoves := (EventFrame.kept (s.setBlock b j.1)).moves
  split
  · exact hframe
  · exact hframe
  · exact hmoves.deliverBerth b _ { hframe with }
  · split
    · exact hmoves.staleCondition b hframe
    · exact hframe

/-- A result that hands nothing over and reaches no limit leaves its block as judged and nothing else changed (R55, R56, R58). -/
theorem State.lastRead_undelivered {k : BlockScan} {v : Verdict} (hm : Memory.wf s.pim = true)
    (h : s.lastBerthRead b station ws last)
    (hj : (s.block b).judge (s.static b).staleLimit (ws.getD 0 0) last = (k, v)) (hv : v.idle = true) :
    ∃ t, exec (.scanReadComplete station) s = .next t ∧ t.blocks = s.blocks.set b k ∧ t.berths = s.berths
      ∧ t.sups = s.sups ∧ t.log = s.log ∧ t.owq = s.owq := by
  obtain ⟨a, -, e⟩ := lastRead_eq hm h
  refine ⟨_, exec_scanReadComplete station s, ?_⟩
  obtain ⟨scan, hpass⟩ := passOn_shape ((s.readBegun a station).judgeBerth b (ws ++ [last])).endEvent (.berth b)
  rw [e, hpass, State.judgeBerth_of_idle ((State.readBegun_judge h.1 a).trans hj) hv, readBegun_shape]
  exact ⟨rfl, rfl, rfl, rfl, rfl⟩

/-- The pass goes on behind the block, or is complete (R53, R64). -/
theorem State.lastRead_passes (hm : Memory.wf s.pim = true) (h : s.lastBerthRead b station ws last) :
    (∀ c, (Block.berth b).nextIn s.tables.n = some c →
        (s.scanReadDone station).scan.pass = some { block := c, words := [] }
          ∧ (s.scanReadDone station).scan.passNumber = s.scan.passNumber)
      ∧ ((Block.berth b).nextIn s.tables.n = none →
        (s.scanReadDone station).scan.pass = none
          ∧ (s.scanReadDone station).scan.passNumber = s.scan.passNumber + 1) := by
  obtain ⟨a, -, e⟩ := lastRead_eq hm h
  obtain ⟨k, hjudged⟩ := (s.readBegun a station).judgeBerth_frame b (ws ++ [last])
  have hended := ((s.readBegun a station).judgeBerth b (ws ++ [last])).endEvent_frame
  rw [e]
  generalize ((s.readBegun a station).judgeBerth b (ws ++ [last])).endEvent = t at hended
  have htables : t.tables = s.tables := by rw [hended.tables, hjudged.tables, readBegun_shape]; rfl
  have hscan : t.scan = s.scan := by rw [hended.scan, hjudged.scan, readBegun_shape]; rfl
  rw [← htables, ← hscan]
  refine ⟨fun c hc => ?_, fun hn => ?_⟩
  · rw [State.passOn_of_next hc]
    exact ⟨rfl, rfl⟩
  · rw [State.passOn_of_none hn]
    exact ⟨rfl, rfl⟩

/-! ## The stale limit (R58, R71, R77) -/

/-- The state in which a berth that has reached its stale limit is reported stale. -/
def State.staleBegun (s : State) (a : Word) (b : BerthId) (station : Option Word) : State :=
  (s.readBegun a station).setBlock b { s.block b with stale := (s.static b).staleLimit }

/-- It is the state before but for memory, port, marks and the block. -/
theorem State.staleBegun_shape (s : State) (a : Word) (b : BerthId) (station : Option Word) :
    s.staleBegun a b station =
      { s with
        pim := (s.stationWrote a station).pim, ports := { s.ports with busy := none }
        budget := { s.budget with serviceDue := false, testDue := false }
        blocks := s.blocks.set b { s.block b with stale := (s.static b).staleLimit } } := by
  unfold State.staleBegun
  rw [readBegun_shape]
  rfl

/-- The unchanged result that brings the count to the limit raises the STALE condition (R58, R71). -/
theorem State.lastRead_reached (hm : Memory.wf s.pim = true) (h : s.lastBerthRead b station ws last)
    (he : last = ws.getD 0 0) (hs : (s.block b).status ≠ .unseen) (hr : (s.block b).reference = some last)
    (hl : (s.block b).stale + 1 = (s.static b).staleLimit) :
    ∃ a, s.scanReadDone station = (((s.staleBegun a b station).staleCondition b).endEvent).passOn (.berth b) := by
  obtain ⟨a, -, e⟩ := lastRead_eq hm h
  refine ⟨a, ?_⟩
  rw [e, State.judgeBerth_of_reached ((State.readBegun_judge h.1 a).trans (BlockScan.judge_reached he hs hr hl))]
  rfl

/-- A repeat fault is no event of the Budget Unit: it ends with its own effects (R77). -/
theorem State.endEvent_repeatFault {f : FaultSet} (h1 : s.budget.serviceDue = false) (h2 : s.budget.testDue = false) :
    (s.repeatFault b f).endEvent = (s.repeatFault b f).clearMarks := by
  have hbudget : (s.repeatFault b f).budget = s.budget := by
    unfold State.repeatFault
    dsimp only
    repeat' split
    all_goals rfl
  exact State.endEvent_of_quiet (hbudget ▸ h1) (hbudget ▸ h2)

/-- STALE again in LOCKOUT: the quiet count restarts (R77). -/
theorem State.repeatFault_stale_known (h : (s.sup b).sticky.stale = true) :
    s.repeatFault b FaultSet.onlyStale = s.setSup b { s.sup b with quiet := 0 } := by
  simp [State.repeatFault, FaultSet.onlyStale, FaultSet.empty, FaultSet.isEmpty, FaultSet.minus, h]

/-- STALE new in LOCKOUT: it joins the sticky set, with the TRIP write and a record with the repeat mark (R77). -/
theorem State.repeatFault_stale_new (h : (s.sup b).sticky.stale = false) :
    s.repeatFault b FaultSet.onlyStale =
      ((s.setSup b
          { s.sup b with
            sticky := { (s.sup b).sticky with stale := true }, quiet := 0, release := (s.static b).autoRelease }).tripWrite
        b).tripRecord b 1 .lockout FaultSet.onlyStale := by
  simp [State.repeatFault, FaultSet.onlyStale, FaultSet.empty, FaultSet.isEmpty, FaultSet.minus, FaultSet.union, h]

/-- The STALE condition leaves the blocks (R58). -/
theorem State.staleBegun_blocks (s : State) (a : Word) (b : BerthId) (station : Option Word) :
    (((s.staleBegun a b station).staleCondition b).endEvent).blocks =
      s.blocks.set b { s.block b with stale := (s.static b).staleLimit } := by
  have hmoves := (EventFrame.kept (s.staleBegun a b station)).moves
  have hframe := hmoves.endEvent (hmoves.staleCondition b (EventFrame.refl _))
  rw [hframe.blocks, State.staleBegun_shape]

/-- STALE outside LOCKOUT trips the berth (R71, R73 to R75). -/
theorem State.staleBegun_trips (s : State) (a : Word) (b : BerthId) (station : Option Word) (hrun : s.phase = .running)
    (hst : (s.berth b).state ≠ .lockout) :
    s.tripped (((s.staleBegun a b station).staleCondition b).endEvent) b FaultSet.onlyStale := by
  have haround : s.staleBegun a b station = s.around (s.staleBegun a b station) := by rw [State.staleBegun_shape]; rfl
  have hberth : (s.staleBegun a b station).berth b = s.berth b := by rw [State.staleBegun_shape]; rfl
  have hphase : (s.staleBegun a b station).phase = s.phase := by rw [State.staleBegun_shape]
  have htrip : (s.staleBegun a b station).tripped
      (((s.staleBegun a b station).tripAction b FaultSet.onlyStale).endEvent) b FaultSet.onlyStale :=
    tripAction_tripped (hphase.trans hrun)
  rw [State.staleCondition, State.tripRequest, hberth, if_neg hst]
  generalize ((s.staleBegun a b station).tripAction b FaultSet.onlyStale).endEvent = t at htrip ⊢
  rw [haround] at htrip
  exact lockedOut_around.mp htrip

/-- STALE in LOCKOUT is a repeat fault (R77): known, it restarts the quiet count; new, it joins the sticky set, with the TRIP write
and a record with the repeat mark. -/
theorem State.staleBegun_repeats (s : State) (a : Word) (b : BerthId) (station : Option Word)
    (hst : (s.berth b).state = .lockout) {t : State} (ht : t = ((s.staleBegun a b station).staleCondition b).endEvent) :
    t.berths = s.berths ∧ t.holds = s.holds
      ∧ ((s.sup b).sticky.stale = true →
        t.sups = s.sups.set b { s.sup b with quiet := 0 } ∧ t.owq = s.owq ∧ t.log = s.log)
      ∧ ((s.sup b).sticky.stale = false →
        t.sups = s.sups.set b
            { s.sup b with
              sticky := { (s.sup b).sticky with stale := true }, quiet := 0, release := (s.static b).autoRelease }
          ∧ t.owq = placeTrip s.owq (s.tripEntry b)
          ∧ t.log = s.log.stage (s.tripRecordOf b 1 .lockout FaultSet.onlyStale)) := by
  rw [State.staleBegun_shape, State.staleCondition, State.tripRequest, if_pos (by exact hst),
    State.endEvent_repeatFault rfl rfl] at ht
  cases hk : (s.sup b).sticky.stale
  · rw [State.repeatFault_stale_new (by exact hk)] at ht
    subst ht
    exact ⟨rfl, rfl, nofun, fun _ => ⟨rfl, rfl, rfl⟩⟩
  · rw [State.repeatFault_stale_known (by exact hk)] at ht
    subst ht
    exact ⟨rfl, rfl, fun _ => ⟨rfl, rfl, rfl⟩, nofun⟩

end Sys2Proof.Machine

open Sys2Proof Sys2Proof.Machine

/-- Settles O54, by the pass that the tick finds and the mark of the run. -/
theorem scanTickStartsOrDropsPass : Obligations.ScanTickStartsOrDropsPass := by
  intro s hd
  simp only [exec_scanTick, Host.Outcome.next.injEq]
  refine ⟨fun hp => State.scanTick_of_idle hd hp, fun p hp hr => ?_, fun p hp hr => ?_⟩
  · rw [State.scanTick_of_inFlight hd hp, if_pos hr]
    rfl
  · rw [State.scanTick_of_inFlight hd hp, if_neg (by simp [hr])]
    cases p.block <;> rfl

/-- Settles O48, by the judgement of the block; at the stale limit by the state that the STALE condition finds. -/
theorem scanReadIsKeptOrJudged : Obligations.ScanReadIsKeptOrJudged := by
  intro s b station ws last hm
  have hsame : s.blocks.set b (s.block b) = s.blocks := Eight.set_get_self _ _
  refine ⟨fun a hb hp hl => State.scanReadDone_keeps_word hm hb hp (Nat.succ_lt_succ hl),
    fun h => ⟨fun ht => ?_, fun he hu => ?_, fun he hs hr hl => ?_, fun he hs hr hl hrun => ?_, fun he hs hr hl => ?_,
      _, exec_scanReadComplete station s, State.lastRead_passes hm h⟩⟩
  · rw [← hsame]
    exact State.lastRead_undelivered hm h (BlockScan.judge_torn ht) rfl
  · exact State.lastRead_undelivered hm h (BlockScan.judge_unseen he hu) rfl
  · exact State.lastRead_undelivered hm h (BlockScan.judge_counted he hs hr hl) rfl
  · obtain ⟨a, e⟩ := State.lastRead_reached hm h he hs hr hl
    obtain ⟨scan, hpass⟩ := passOn_shape (((s.staleBegun a b station).staleCondition b).endEvent) (.berth b)
    have hrepeats := fun hst => State.staleBegun_repeats s a b station hst rfl
    refine ⟨_, exec_scanReadComplete station s, ?_⟩
    rw [e, hpass]
    exact ⟨State.staleBegun_blocks s a b station, State.staleBegun_trips s a b station hrun, hrepeats⟩
  · rw [← hsame]
    exact State.lastRead_undelivered hm h (BlockScan.judge_pastLimit he hs hr hl) rfl

end

section
/-! What a fresh result of a berth's block replaces (R57): its own block and its berth's latest scan result, whole, and no
other's. -/

namespace Sys2Proof.Machine

variable {s : State} {b : BerthId} {station : Option Word} {ws : List Word} {last : Word}

/-- The latest scan result of each berth (R57). -/
def State.latests (s : State) (c : BerthId) : Option ScanResult := (s.berth c).latest

/-- A record that keeps its latest result leaves every berth's. -/
theorem State.latests_setBerth {r : Berth} (h : r.latest = (s.berth b).latest) : (s.setBerth b r).latests = s.latests := by
  funext c
  unfold State.latests
  by_cases hc : c = b
  · rw [hc, State.berth_setBerth_same, h]
  · rw [State.berth_setBerth_of_ne _ _ hc]

/-- Nothing in an event replaces a latest result: its delivery has done so before (R57, R60). -/
theorem State.latests_kept (s : State) : Kept fun t => t.latests = s.latests where
  berth := fun _ _ _ _ _ _ hl h => (State.latests_setBerth hl).trans h
  sup := fun _ _ _ h => h
  budget := fun _ _ _ h => h
  holds := fun _ _ h => h
  seqWrite := fun _ _ _ _ h => h
  tripWrite := fun _ _ h => h
  queueRsp := fun _ _ h => h
  record := fun _ _ _ _ _ _ h => h
  statusChanged := fun _ h => h
  grantedChanged := fun _ h => h
  enters := fun _ _ _ h => (State.latests_setBerth (by rfl)).trans h
  toggle := fun _ _ _ h => (State.latests_setBerth (by rfl)).trans h
  loadStep := fun _ _ _ h => h
  stopStep := fun _ _ h => h
  loadSettle := fun _ _ h => h
  stopSettle := fun _ _ h => h
  stopChannels := fun _ _ h => h
  queueGroupRsp := fun _ _ _ h => h
  groupTaken := fun _ _ _ h => h
  passWrite := fun _ _ _ h => h

/-- What the primitive effects keep, a delivered result and the end of its event keep from the replaced result on (R57). -/
theorem KeptMoves.deliveredResult {P : State → Prop} (h : KeptMoves P) (b : BerthId) (r : ScanResult)
    (hs : P (s.received b r)) : P (s.deliverBerth b r).endEvent :=
  h.endEvent (h.deliverBerth b r hs)

/-- A delivered result is its berth's latest, and no other berth's is replaced (R57). -/
theorem State.latests_delivered (s : State) (b : BerthId) (r : ScanResult) :
    (s.deliverBerth b r).endEvent.latests = (s.received b r).latests :=
  (State.latests_kept _).moves.deliveredResult b r rfl

/-- The delivery of a result touches no block (R57). -/
theorem State.blocks_delivered (s : State) (b : BerthId) (r : ScanResult) :
    (s.deliverBerth b r).endEvent.blocks = s.blocks :=
  ((EventFrame.kept (s.received b r)).moves.deliveredResult b r (EventFrame.refl _)).blocks

/-- A fresh result is accepted: its block takes the new SEQ, its berth the result, and no other block or berth either (R57). -/
theorem State.fresh_accepted (hm : Memory.wf s.pim = true) (h : s.lastBerthRead b station ws last) (he : last = ws.getD 0 0)
    (hs : (s.block b).status ≠ .unseen) (hr : (s.block b).reference ≠ some last) :
    (s.scanReadDone station).blocks = s.blocks.set b { status := .accepting, reference := some last, stale := 0 }
      ∧ (s.scanReadDone station).latests = (s.received b (resultOf ws)).latests := by
  obtain ⟨a, e⟩ := fresh_eq hm h he hs hr
  rw [e]
  generalize hy : (s.readBegun a station).setBlock b { status := .accepting, reference := some last, stale := 0 } = y
  have hblocks : y.blocks = s.blocks.set b { status := .accepting, reference := some last, stale := 0 } := by
    rw [← hy, readBegun_shape]
    rfl
  have hlatests : (y.received b (resultOf ws)).latests = (s.received b (resultOf ws)).latests := by
    rw [← hy, readBegun_shape]
    rfl
  obtain ⟨scan, hpass⟩ := passOn_shape (y.deliverBerth b (resultOf ws)).endEvent (.berth b)
  rw [hpass]
  exact ⟨(y.blocks_delivered b _).trans hblocks, (y.latests_delivered b _).trans hlatests⟩

end Sys2Proof.Machine

open Sys2Proof Sys2Proof.Machine

/-- Settles O49: the block and the latest result by the frame of a delivered result, the berth's course by what follows a result
without a fault. -/
theorem freshResultIsAccepted : Obligations.FreshResultIsAccepted := by
  rintro s b station ws last r hm h he hs hr rfl
  obtain ⟨hblocks, hlatests⟩ := State.fresh_accepted hm h he hs hr
  have hlatest : ∀ c, ((s.scanReadDone station).berth c).latest = ((s.received b (resultOf ws)).berth c).latest :=
    fun c => congrFun hlatests c
  have hblock : ∀ c, (s.scanReadDone station).block c =
      (s.blocks.set b { status := .accepting, reference := some last, stale := 0 }).get c :=
    fun c => congrArg (Eight.get · c) hblocks
  refine ⟨_, exec_scanReadComplete station s, ?_, ?_, fun c hc => ⟨?_, ?_⟩, fun hf => ?_⟩
  · rw [hlatest, State.received, State.berth_setBerth_same]
  · rw [hblock, Eight.get_set_same]
  · rw [hlatest, State.received, State.berth_setBerth_of_ne _ _ hc]
  · rw [hblock, Eight.get_set_of_ne _ _ hc]
    rfl
  · obtain ⟨hsup, hfollowed⟩ := fresh_followed hm h he hs hr hf
    exact ⟨hsup, hfollowed.cable, hfollowed.engaging, hfollowed.energizing, hfollowed.supply, hfollowed.closing,
      hfollowed.sync, hfollowed.opening, hfollowed.generators, hfollowed.shore⟩

end

section
/-! What a feeder result leaves (R59, R85, R100 to R103): the surroundings of its event, the feeder's block and mark, the budget,
and how far the shedding steps lower the levels. -/

namespace Sys2Proof.Machine

variable {s x y : State} {b : BerthId} {station : Option Word} {ws : List Word} {last : Word}

/-! ## The surroundings of a feeder event -/

/-- What no feeder event touches. -/
structure FeederFrame (s t : State) : Prop where
  blocks : t.blocks = s.blocks
  ports : t.ports = s.ports
  tables : t.tables = s.tables
  passNumber : t.scan.passNumber = s.scan.passNumber

theorem FeederFrame.trans (h : FeederFrame s x) (k : FeederFrame x y) : FeederFrame s y :=
  ⟨k.blocks.trans h.blocks, k.ports.trans h.ports, k.tables.trans h.tables, k.passNumber.trans h.passNumber⟩

/-- A new value of C (R84, R85). -/
theorem CalmFrame.setCapacity (h : CalmFrame s x) (c : Nat) : CalmFrame s (x.setCapacity c) := by
  unfold State.setCapacity
  split
  · exact h
  · exact { h with }

/-- A feeder result is a calm event (R102). -/
theorem State.feederResult_frame (s : State) (load cap : Nat) (conv : Converter) :
    CalmFrame s (s.feederResult load cap conv) :=
  (CalmFrame.calm s).feederResult (fun _ c h => h.setCapacity c) load cap conv (CalmFrame.refl s)

theorem State.clearFeederStale_frame (s : State) : FeederFrame s s.clearFeederStale := by
  unfold State.clearFeederStale
  split <;> exact ⟨rfl, rfl, rfl, rfl⟩

theorem CalmFrame.feeder (h : CalmFrame s x) : FeederFrame s x :=
  ⟨h.blocks, h.ports, h.tables, congrArg ScanEngine.passNumber h.scan⟩

theorem State.setFeederStale_frame (s : State) : FeederFrame s s.setFeederStale := by
  have hset : FeederFrame s (s.setScan { s.scan with feederStale := true }) := ⟨rfl, rfl, rfl, rfl⟩
  have hcapacity := hset.trans ((CalmFrame.refl _).setCapacity 0).feeder
  unfold State.setFeederStale
  dsimp only
  generalize (s.setScan { s.scan with feederStale := true }).setCapacity 0 = y at hcapacity ⊢
  exact { hcapacity with }

theorem State.endEvent_feederFrame (s : State) : FeederFrame s s.endEvent :=
  ⟨s.endEvent_frame.blocks, s.endEvent_rest.ports, s.endEvent_frame.tables,
    congrArg ScanEngine.passNumber s.endEvent_frame.scan⟩

/-- The judgement of the feeder block, whatever the verdict. -/
theorem State.judgeFeeder_frame (s : State) (ws : List Word) : FeederFrame s (s.judgeFeeder ws).endEvent := by
  refine FeederFrame.trans ?_ (State.endEvent_feederFrame _)
  unfold State.judgeFeeder
  dsimp only
  generalize s.scan.feeder.judge feederStaleLimit (ws.getD 0 0) (ws.getD 4 0) = j
  have hset : FeederFrame s (s.setScan { s.scan with feeder := j.1 }) := ⟨rfl, rfl, rfl, rfl⟩
  split
  · exact hset
  · exact hset
  · exact (hset.trans (State.clearFeederStale_frame _)).trans (State.feederResult_frame _ _ _ _).feeder
  · split
    · exact hset.trans (State.setFeederStale_frame _)
    · exact hset

/-! ## The last read of the feeder block (R53, R54) -/

/-- The last read is judged, the event ends, and the pass goes on. -/
theorem lastFeeder_judged (hm : Memory.wf s.pim = true) (h : s.lastFeederRead station ws last) :
    ∃ a, s.scanReadDone station = ((s.readBegun a station).judgeFeeder (ws ++ [last])).endEvent.passOn .feeder := by
  obtain ⟨a, scan, hdone, hpass⟩ := lastFeeder_eq hm h
  exact ⟨a, hdone.trans hpass.symm⟩

/-- The judgement of the feeder block by its own record, its first word and its last (R55). -/
theorem State.readBegun_judgeFeeder (hl : ws.length = 4) (a : Word) :
    (s.readBegun a station).scan.feeder.judge feederStaleLimit ((ws ++ [last]).getD 0 0) ((ws ++ [last]).getD 4 0) =
      s.scan.feeder.judge feederStaleLimit (ws.getD 0 0) last := by
  have hlast : (ws ++ [last]).getD 4 0 = last := hl ▸ getD_append_last ws last
  rw [getD_append_last_of_lt (by omega), hlast, readBegun_shape]

theorem State.judgeFeeder_of_idle {k : BlockScan} {v : Verdict}
    (hj : s.scan.feeder.judge feederStaleLimit (ws.getD 0 0) (ws.getD 4 0) = (k, v)) (hv : v.idle = true) :
    s.judgeFeeder ws = s.setScan { s.scan with feeder := k } := by
  unfold State.judgeFeeder
  rw [hj]
  cases v
  case torn => rfl
  case baseline => rfl
  case fresh => cases hv
  case unchanged reached =>
    cases reached
    · rfl
    · cases hv

theorem State.judgeFeeder_of_reached {k : BlockScan}
    (hj : s.scan.feeder.judge feederStaleLimit (ws.getD 0 0) (ws.getD 4 0) = (k, .unchanged true)) :
    s.judgeFeeder ws = (s.setScan { s.scan with feeder := k }).setFeederStale := by
  unfold State.judgeFeeder
  rw [hj]
  rfl

/-- What the pass leaves of the feeder's block and mark, and of the rest, as it goes on behind a block (R53). -/
theorem State.passOn_feeder (s : State) (k : Block) :
    ∃ p n, s.passOn k = { s with scan := { s.scan with pass := p, passNumber := n } } := by
  unfold State.passOn
  split
  · exact ⟨_, _, rfl⟩
  · exact ⟨_, _, rfl⟩

/-- The surroundings of the last read, and the block read next (R53). -/
theorem State.lastFeeder_passes (hm : Memory.wf s.pim = true) (h : s.lastFeederRead station ws last) :
    (s.scanReadDone station).blocks = s.blocks ∧ (s.scanReadDone station).ports = { s.ports with busy := none }
      ∧ (0 < s.tables.n →
        (s.scanReadDone station).scan.pass = some { block := .berth .b0, words := [] }
          ∧ (s.scanReadDone station).scan.passNumber = s.scan.passNumber) := by
  obtain ⟨a, e⟩ := lastFeeder_judged hm h
  have hframe := (s.readBegun a station).judgeFeeder_frame (ws ++ [last])
  rw [e]
  generalize ((s.readBegun a station).judgeFeeder (ws ++ [last])).endEvent = t at hframe
  rw [readBegun_shape] at hframe
  obtain ⟨p, n, hpass⟩ := t.passOn_feeder .feeder
  refine ⟨?_, ?_, fun hn => ?_⟩
  · rw [hpass]
    exact hframe.blocks
  · rw [hpass]
    exact hframe.ports
  · have hnext : Block.nextIn t.tables.n .feeder = some (.berth .b0) := by
      rw [hframe.tables]
      exact if_pos hn
    rw [State.passOn_of_next hnext]
    exact ⟨rfl, hframe.passNumber⟩

/-- A feeder result that hands nothing over and reaches no limit leaves its block as judged and nothing else changed (R55, R56,
R59). -/
theorem State.lastFeeder_undelivered {k : BlockScan} {v : Verdict} (hm : Memory.wf s.pim = true)
    (h : s.lastFeederRead station ws last)
    (hj : s.scan.feeder.judge feederStaleLimit (ws.getD 0 0) last = (k, v)) (hv : v.idle = true) {t : State}
    (ht : t = s.scanReadDone station) :
    t.scan.feeder = k ∧ t.scan.feederStale = s.scan.feederStale ∧ t.berths = s.berths ∧ t.holds = s.holds
      ∧ t.budget = s.clearMarks.budget ∧ t.log = s.log ∧ t.owq = s.owq := by
  obtain ⟨a, e⟩ := lastFeeder_judged hm h
  obtain ⟨p, n, hpass⟩ := ((s.readBegun a station).judgeFeeder (ws ++ [last])).endEvent.passOn_feeder .feeder
  rw [ht, e, hpass, State.judgeFeeder_of_idle ((State.readBegun_judgeFeeder h.1 a).trans hj) hv, readBegun_shape]
  exact ⟨rfl, rfl, rfl, rfl, rfl, rfl, rfl⟩

/-- An unchanged feeder result that does not bring the count to the limit only counts, up to it (R59). -/
theorem State.lastFeeder_unchanged (hm : Memory.wf s.pim = true) (h : s.lastFeederRead station ws last)
    (he : last = ws.getD 0 0) (hs : s.scan.feeder.status ≠ .unseen) (hr : s.scan.feeder.reference = some last)
    (hl : s.scan.feeder.stale ≠ 2) {t : State} (ht : t = s.scanReadDone station) :
    t.scan.feeder =
        (if s.scan.feeder.stale < 2 then { s.scan.feeder with stale := s.scan.feeder.stale + 1 } else s.scan.feeder)
      ∧ t.scan.feederStale = s.scan.feederStale ∧ t.berths = s.berths ∧ t.holds = s.holds
      ∧ t.budget = s.clearMarks.budget ∧ t.log = s.log ∧ t.owq = s.owq := by
  split
  · rename_i hlt
    exact State.lastFeeder_undelivered hm h (BlockScan.judge_counted he hs hr (Nat.succ_lt_succ hlt)) rfl ht
  · rename_i hge
    have hpast : feederStaleLimit ≤ s.scan.feeder.stale := show 3 ≤ _ by omega
    exact State.lastFeeder_undelivered hm h (BlockScan.judge_pastLimit he hs hr hpast) rfl ht

/-! ## FEEDER_STALE (R59, R85) -/

/-- FEEDER_STALE set: C is 0 and the record staged; no service pass is called for (R59, R85, R91). -/
structure FeederStaled (s t : State) : Prop where
  alike : FeedAlike s t
  scan : t.scan = { s.scan with feederStale := true }
  capacity : t.budget.capacity = 0
  shedding : t.budget.shedding = s.budget.shedding
  serviceDue : t.budget.serviceDue = s.budget.serviceDue
  log : (s.log.stage (s.staleRecord 1)).Alike t.log

theorem State.setCapacity_serviceDue (s : State) (c : Nat) :
    (s.setCapacity c).budget.serviceDue = s.budget.serviceDue := by
  unfold State.setCapacity
  split <;> rfl

theorem State.setFeederStale_staled (s : State) : FeederStaled s s.setFeederStale := by
  have hset : FeedAlike s (s.setScan { s.scan with feederStale := true }) :=
    ⟨rfl, rfl, rfl, rfl, rfl, rfl, rfl, rfl, rfl⟩
  have hdue := (s.setScan { s.scan with feederStale := true }).setCapacity_serviceDue 0
  obtain ⟨halike, hscan, hcapacity, hshedding, -, hlog⟩ :=
    setCapacity_spec (s.setScan { s.scan with feederStale := true }) 0
  unfold State.setFeederStale
  dsimp only
  generalize (s.setScan { s.scan with feederStale := true }).setCapacity 0 = y at halike hscan hcapacity hshedding hlog hdue ⊢
  have hrecord : FeedAlike y ((y.statusChanged.record .feederStale none 1 0 0).needTest) :=
    ⟨rfl, rfl, rfl, rfl, rfl, rfl, rfl, rfl, rfl⟩
  refine ⟨(hset.trans halike).trans hrecord, hscan, hcapacity, hshedding, hdue, ?_⟩
  have hpending : s.log.Alike y.statusChanged.log := hlog.trans ⟨rfl, rfl, rfl, rfl⟩
  have hstamp : s.staleRecord 1 = y.staleRecord 1 := by
    unfold State.staleRecord
    rw [hscan]
    rfl
  rw [hstamp]
  exact hpending.stage _

/-- The third unchanged feeder result in a row (R59): FEEDER_STALE with C at 0, its record, and the OVERCOMMIT test alone behind it
(R103, log 18). -/
theorem State.lastFeeder_stale (hm : Memory.wf s.pim = true) (h : s.lastFeederRead station ws last) (he : last = ws.getD 0 0)
    (hs : s.scan.feeder.status ≠ .unseen) (hr : s.scan.feeder.reference = some last) (hl : s.scan.feeder.stale = 2)
    {t : State} (ht : t = s.scanReadDone station) :
    t.scan.feeder = { s.scan.feeder with stale := 3 } ∧ t.scan.feederStale = true ∧ t.budget.capacity = 0
      ∧ t.berths = s.berths ∧ t.holds = s.holds ∧ t.owq = s.owq ∧ t.budget.claims = s.budget.claims
      ∧ t.budget.shedding = s.budget.shedding ∧ t.budget.stack = s.budget.stack ∧ s.stagedOnly t [s.staleRecord 1] := by
  obtain ⟨a, e⟩ := lastFeeder_judged hm h
  have hj := BlockScan.judge_reached (limit := feederStaleLimit) he hs hr (congrArg Nat.succ hl)
  rw [State.judgeFeeder_of_reached ((State.readBegun_judgeFeeder h.1 a).trans hj)] at e
  generalize hy : (s.readBegun a station).setScan
    { (s.readBegun a station).scan with feeder := { s.scan.feeder with stale := feederStaleLimit } } = y at e
  rw [readBegun_shape] at hy
  have hstaled := y.setFeederStale_staled
  generalize y.setFeederStale = z at e hstaled
  have hdue : z.budget.serviceDue = false := hstaled.serviceDue.trans (by rw [← hy]; rfl)
  have htested : Tested z z.endEvent := endEvent_of_pass (by rw [hdue]; rfl)
  obtain ⟨p, n, hpass⟩ := z.endEvent.passOn_feeder .feeder
  rw [hpass] at e
  obtain ⟨more, hmore, hstaging⟩ := htested.staging
  have hscan : z.endEvent.scan = { y.scan with feederStale := true } := htested.scan.trans hstaled.scan
  subst hy
  rw [ht, e]
  refine ⟨?_, ?_, htested.capacity.trans hstaled.capacity, htested.berths.trans hstaled.alike.berths,
    htested.holds.trans hstaled.alike.holds, htested.owq.trans hstaled.alike.owq, htested.claims.trans hstaled.alike.claims,
    htested.shedding.trans hstaled.shedding, htested.stack.trans hstaled.alike.stack,
    more, hmore, hstaging.trans (by rw [hstaled.log.staging]; rfl)⟩
  · exact congrArg ScanEngine.feeder hscan
  · exact congrArg ScanEngine.feederStale hscan

/-! ## A fresh feeder result (R85, R100 to R103) -/

/-- The shedding steps of a fresh feeder result begin where C and the shedding state are those of its words (R85, R100, R102). -/
theorem State.lastFeeder_fed (hm : Memory.wf s.pim = true) (h : s.lastFeederRead station ws last) (he : last = ws.getD 0 0)
    (hs : s.scan.feeder.status ≠ .unseen) (hr : s.scan.feeder.reference ≠ some last) :
    ∃ z : State, s.scanReadDone station = (shedSteps z).endEvent.passOn .feeder
      ∧ Fed (s.fed (s.capacityOf ws) (ws.getD 1 0).toNat) z
      ∧ z.budget.highCount = (s.fed (s.capacityOf ws) (ws.getD 1 0).toNat).budget.highCount
      ∧ z.budget.overcommit = s.budget.overcommit
      ∧ z.scan =
        { s.scan with
          feeder := { status := .accepting, reference := some last, stale := 0 }
          feederStale := false } := by
  obtain ⟨a, e⟩ := lastFeeder_judged hm h
  have hlen := h.1
  have hj := (State.readBegun_judgeFeeder (station := station) hlen a).trans
    (BlockScan.judge_fresh (limit := feederStaleLimit) he hs hr)
  have hresult : (s.readBegun a station).judgeFeeder (ws ++ [last]) =
      shedSteps
        ((((s.readBegun a station).setScan
            { (s.readBegun a station).scan with
              feeder := { status := .accepting, reference := some last, stale := 0 } }).clearFeederStale).fedBy
          (ws.getD 1 0).toNat (ws.getD 2 0).toNat (Converter.ofWord (ws.getD 3 0))) := by
    unfold State.judgeFeeder
    rw [hj, getD_append_last_of_lt (i := 1) (by omega), getD_append_last_of_lt (i := 2) (by omega),
      getD_append_last_of_lt (i := 3) (by omega)]
    exact feederResult_eq _ _ _ _
  rw [hresult] at e
  obtain ⟨hfed, hhigh, hover, hscan⟩ :=
    fedBy_fed
      ((s.readBegun a station).setScan
        { (s.readBegun a station).scan with feeder := { status := .accepting, reference := some last, stale := 0 } })
      (ws.getD 1 0).toNat (ws.getD 2 0).toNat (Converter.ofWord (ws.getD 3 0)) (s.capacityOf ws)
      (by rw [← capacityOf_eq, readBegun_shape]; rfl)
  refine ⟨_, e, ?_, hhigh.trans ?_, hover.trans ?_, hscan.trans ?_⟩
  · generalize State.fedBy _ _ _ _ = z at hfed
    rw [readBegun_shape] at hfed
    exact { hfed with }
  all_goals
    rw [readBegun_shape]
    rfl

/-- The OVERCOMMIT test and a service pass leave what the feeder gave (R85, R100). -/
theorem State.endEvent_feed (s : State) :
    s.endEvent.budget.capacity = s.budget.capacity ∧ s.endEvent.budget.shedding = s.budget.shedding
      ∧ s.endEvent.budget.highCount = s.budget.highCount := by
  have hpass : feedKeeps (if s.budget.serviceDue then s.servicePass else s) = feedKeeps s := by
    split
    · exact serviceWalk_keeps _ _
    · rfl
  have htest : ∀ u : State, u.overcommitTest.budget.capacity = u.budget.capacity
      ∧ u.overcommitTest.budget.shedding = u.budget.shedding ∧ u.overcommitTest.budget.highCount = u.budget.highCount := by
    intro u
    unfold State.overcommitTest
    repeat' split
    all_goals exact ⟨rfl, rfl, rfl⟩
  simp only [feedKeeps, Prod.mk.injEq] at hpass
  obtain ⟨⟨hcapacity, hshedding⟩, ⟨hhigh, -⟩, -⟩ := hpass
  unfold State.endEvent
  dsimp only
  generalize (if s.budget.serviceDue then s.servicePass else s) = u at hcapacity hshedding hhigh ⊢
  rw [← hcapacity, ← hshedding, ← hhigh]
  split
  · exact htest u
  · exact ⟨rfl, rfl, rfl⟩

/-- A grant notice is no affair of the Budget Unit (R29, R120). -/
theorem State.grantNotice_budget (s : State) (b : BerthId) : (s.grantNotice b).budget = s.budget := by
  have hreport : ∀ (u : State) (o : BState) (m : Mode), (u.reportState b o m).budget = u.budget := fun _ _ _ => rfl
  have henter : (s.toEnergizing b).budget = s.budget := rfl
  unfold State.grantNotice
  split
  · split
    · split
      · exact (hreport _ _ _).trans henter
      · rfl
    · rfl
  · refine (hreport _ _ _).trans ?_
    split
    · exact henter
    · exact henter
  · rfl

/-- The base grant's taking calls for the OVERCOMMIT test (R86, R103). -/
theorem State.takeBase_testDue (s : State) (b : BerthId) : (s.takeBase b).budget.testDue = true := rfl

/-- So does a change of level (R94, R103). -/
theorem State.changeLevel_testDue (s : State) (b : BerthId) (n : Nat) : (s.changeLevel b n).budget.testDue = true := rfl

theorem State.queueRsp_budget (s : State) (b : BerthId) : (s.queueRsp b).budget = s.budget := rfl

/-- The walk of a service pass takes back no OVERCOMMIT test that its event calls for (R91, R103). -/
theorem State.serviceWalk_testDue (l : List Claim) (hd : s.budget.testDue = true) :
    (s.serviceWalk l).budget.testDue = true := by
  induction l generalizing s with
  | nil => exact hd
  | cons c rest ih =>
    unfold State.serviceWalk
    split
    · split
      · refine ih ?_
        rw [State.grantEngage, State.grantNotice_budget, State.takeBase_testDue]
      · exact hd
    · split
      · refine ih ?_
        rw [State.grantLevel, State.finalise_budget, State.queueRsp_budget, State.changeLevel_testDue]
      · exact ih hd

theorem State.servicePass_testDue (hd : s.budget.testDue = true) : s.servicePass.budget.testDue = true :=
  State.serviceWalk_testDue s.budget.claims hd

/-- C, the load count, the shedding state and OVERCOMMIT after a fresh feeder result (R85, R100, R103). -/
theorem State.lastFeeder_budget (hm : Memory.wf s.pim = true) (h : s.lastFeederRead station ws last) (he : last = ws.getD 0 0)
    (hs : s.scan.feeder.status ≠ .unseen) (hr : s.scan.feeder.reference ≠ some last) {t : State}
    (ht : t = s.scanReadDone station) :
    t.scan.feeder = { status := .accepting, reference := some last, stale := 0 } ∧ t.scan.feederStale = false
      ∧ t.budget.capacity = s.capacityOf ws
      ∧ t.budget.highCount =
        (if s.tables.highLoad ≤ (ws.getD 1 0).toNat then min 2 (s.budget.highCount + 1) else 0)
      ∧ t.budget.shedding = s.shedAfter (ws.getD 1 0).toNat
      ∧ (t.budget.overcommit = true ↔
        t.budget.capacity < t.granted ∧ (s.budget.overcommit = true ∨ t.budget.stack = [])) := by
  obtain ⟨z, e, hfed, hhigh, hover, hscan⟩ := State.lastFeeder_fed hm h he hs hr
  obtain ⟨hkept, hdue⟩ := shedSteps_keeps z
  simp only [feedKeeps, Prod.mk.injEq] at hkept
  obtain ⟨⟨hcapacity, hshedding⟩, ⟨hhigh', hover'⟩, hscan'⟩ := hkept
  have htest := endEvent_overcommit hdue fun _ => State.servicePass_testDue hdue
  obtain ⟨kcapacity, kshedding, khigh⟩ := (shedSteps z).endEvent_feed
  have kscan : (shedSteps z).endEvent.scan = z.scan := (shedSteps z).endEvent_frame.scan.trans hscan'
  rw [hover', hover] at htest
  obtain ⟨p, n, hpass⟩ := (shedSteps z).endEvent.passOn_feeder .feeder
  rw [hpass] at e
  generalize (shedSteps z).endEvent = x at e htest kcapacity kshedding khigh kscan
  rw [ht, e]
  refine ⟨?_, ?_, kcapacity.trans (hcapacity.trans hfed.capacity), khigh.trans (hhigh'.trans hhigh),
    kshedding.trans (hshedding.trans hfed.shedding), htest⟩
  · exact (congrArg ScanEngine.feeder kscan).trans (by rw [hscan])
  · exact (congrArg ScanEngine.feederStale kscan).trans (by rw [hscan])

/-! ## How far the levels fall (R101, R102) -/

/-- No level has risen, and together they have fallen by `n` at most. -/
structure Lowered (n : Nat) (s t : State) : Prop where
  level : ∀ b, (t.berth b).level ≤ (s.berth b).level
  sum : (BerthId.all.map fun b => (s.berth b).level).sum ≤ (BerthId.all.map fun b => (t.berth b).level).sum + n

theorem Lowered.of_berths {n : Nat} (h : x.berths = s.berths) : Lowered n s x := by
  have hb : ∀ b, x.berth b = s.berth b := fun b => by unfold State.berth; rw [h]
  exact ⟨fun b => Nat.le_of_eq (congrArg Berth.level (hb b)), by simp [hb]⟩

theorem Lowered.trans {m n : Nat} (h : Lowered m s x) (k : Lowered n x y) : Lowered (m + n) s y :=
  ⟨fun b => Nat.le_trans (k.level b) (h.level b), by have := h.sum; have := k.sum; omega⟩

/-- A berth one level down (R94). -/
theorem Lowered.of_stepped (h : x.berths = s.berths.set b (s.berth b).stepped) : Lowered 1 s x := by
  refine ⟨fun c => ?_, ?_⟩
  · unfold State.berth
    rw [h]
    by_cases hc : c = b
    · rw [hc, Eight.get_set_same]
      exact Nat.sub_le _ _
    · exact Nat.le_of_eq (congrArg Berth.level (Eight.get_set_of_ne _ _ hc))
  · have hsum := sum_set s.berths Berth.level b (s.berth b).stepped
    unfold State.berth at *
    rw [h]
    have hstep : (s.berths.get b).stepped.level = (s.berths.get b).level - 1 := rfl
    omega

/-- With no claim waiting a shedding step lowers one berth by one level at most, and no claim comes (R101). -/
theorem State.shedStep_lowered (hc : s.budget.claims = []) (k : ShedCause) :
    Lowered 1 s (s.shedStep k) ∧ (s.shedStep k).budget.claims = [] := by
  cases hst : s.budget.stack with
  | nil =>
    rw [shedStep_nil hst]
    exact ⟨Lowered.of_berths rfl, hc⟩
  | cons b rest =>
    obtain ⟨y, hy, hstands, -⟩ := stepDown_stands s b .shed k.code
    have hnone : y.budget.claims = [] := hstands.claims.trans hc
    have hclaim : y.noClaim b := by
      intro c hmem
      rw [hnone] at hmem
      cases hmem
    rw [shedStep_cons hst, hy, recompute_of_noClaim hclaim]
    exact ⟨Lowered.of_stepped hstands.berths, hnone⟩

/-- With no claim waiting the two shedding steps lower two levels at most (R102). -/
theorem shedSteps_lowered (hc : s.budget.claims = []) :
    Lowered 2 s (shedSteps s) ∧ (shedSteps s).budget.claims = [] := by
  have step : ∀ (u : State) (c : Prop) [Decidable c] (k : ShedCause), u.budget.claims = [] →
      Lowered 1 u (if c then u.shedStep k else u) ∧ (if c then u.shedStep k else u).budget.claims = [] := by
    intro u c _ k hu
    split
    · exact State.shedStep_lowered hu k
    · exact ⟨Lowered.of_berths rfl, hu⟩
  obtain ⟨hload, hclaims⟩ := step s (s.budget.shedding = true) .load hc
  unfold shedSteps
  dsimp only
  generalize (if s.budget.shedding = true then s.shedStep .load else s) = u at hload hclaims ⊢
  obtain ⟨hcapacity, hclaims'⟩ := step u (u.budget.capacity < u.granted) .capacity hclaims
  generalize (if u.budget.capacity < u.granted then u.shedStep .capacity else u) = v at hcapacity hclaims' ⊢
  obtain ⟨hlevel, hsum⟩ := hload.trans hcapacity
  exact ⟨⟨hlevel, hsum⟩, hclaims'⟩

/-- With no claim waiting a fresh feeder result lowers two levels at most (R102). -/
theorem State.lastFeeder_lowered (hm : Memory.wf s.pim = true) (h : s.lastFeederRead station ws last) (he : last = ws.getD 0 0)
    (hs : s.scan.feeder.status ≠ .unseen) (hr : s.scan.feeder.reference ≠ some last) (hc : s.budget.claims = []) :
    Lowered 2 s (s.scanReadDone station) := by
  obtain ⟨z, e, hfed, -⟩ := State.lastFeeder_fed hm h he hs hr
  have hz : Lowered 0 s z := Lowered.of_berths hfed.berths
  obtain ⟨hsteps, hclaims⟩ := shedSteps_lowered (hfed.claims.trans hc)
  have hend : Lowered 0 (shedSteps z) (shedSteps z).endEvent := Lowered.of_berths (end_of_nil hclaims).berths
  obtain ⟨p, n, hpass⟩ := (shedSteps z).endEvent.passOn_feeder .feeder
  rw [hpass] at e
  generalize (shedSteps z).endEvent = x at e hend
  obtain ⟨hlevel, hsum⟩ := (hz.trans hsteps).trans hend
  rw [e]
  exact ⟨hlevel, hsum⟩

end Sys2Proof.Machine

open Sys2Proof Sys2Proof.Machine

/-- Settles O52, by the judgement of the feeder block: kept, undelivered, fresh, or stale. -/
theorem feederResultMovesTheBudget : Obligations.FeederResultMovesTheBudget := by
  intro s station ws last hm
  refine ⟨fun a hb hp hl => State.scanReadDone_keeps_word hm hb hp (Nat.succ_lt_succ hl), fun h => ?_⟩
  obtain ⟨hblocks, hports, hnext⟩ := State.lastFeeder_passes hm h
  refine ⟨_, exec_scanReadComplete station s, hblocks, hports, hnext, fun ht => ?_, fun he hu => ?_, fun he hs hr => ?_,
    fun he hs hr => ⟨fun hl => State.lastFeeder_stale hm h he hs hr hl rfl, fun hl => ?_, fun hl => ?_, fun hl => ?_⟩⟩
  · exact State.lastFeeder_undelivered hm h (BlockScan.judge_torn ht) rfl rfl
  · exact State.lastFeeder_undelivered hm h (BlockScan.judge_unseen he hu) rfl rfl
  · obtain ⟨hfeeder, hmark, hcapacity, hhigh, hshedding, hover⟩ := State.lastFeeder_budget hm h he hs hr rfl
    refine ⟨hfeeder, hmark, hcapacity, hhigh, hshedding, feeder_fresh hm h he hs hr, hover, fun hc => ?_⟩
    obtain ⟨hlevel, hsum⟩ := State.lastFeeder_lowered hm h he hs hr hc
    exact ⟨hlevel, hsum⟩
  · exact (State.lastFeeder_unchanged hm h he hs hr (by omega) rfl).1.trans (if_pos hl)
  · exact (State.lastFeeder_unchanged hm h he hs hr (by omega) rfl).1.trans (if_neg (by omega))
  · exact (State.lastFeeder_unchanged hm h he hs hr hl rfl).2

end

section
/-! Supervision, trip and lockout (04): TRIPn (R76), the release flag and the recovery that a RELEASE completes (R80, R81, R112), and
the outcome of a fresh result with a fault or in LOCKOUT (R68 to R81). -/

namespace Sys2Proof.Machine

variable {s u v : State} {b : BerthId} {toggle : Bool} {code : BitVec 4} {op : BitVec 8} {res : Result}

/-! ## TRIPn (R76) -/

theorem State.trip_iff :
    s.trip b = true ↔ s.phase = .running ∧ s.configured b = true ∧ (s.berth b).state = .lockout := by
  unfold State.trip State.berth
  rw [Bool.and_eq_true, Bool.and_eq_true, decide_eq_true_iff, decide_eq_true_iff, and_assoc]

/-- PERMn is off in LOCKOUT (R19). -/
theorem BState.permits_lockout : BState.lockout.permits = false := rfl

theorem State.trip_eq_false_of_not_lockout (h : (s.berth b).state ≠ .lockout) : s.trip b = false := by
  refine Bool.eq_false_iff.mpr fun ht => ?_
  obtain ⟨-, -, hst⟩ := State.trip_iff.mp ht
  exact h hst

theorem State.perm_eq_false_of_not_permits (h : (s.berth b).state.permits = false) : s.perm b = false := by
  refine Bool.eq_false_iff.mpr fun hp => ?_
  obtain ⟨-, -, hst⟩ := State.perm_iff.mp hp
  exact Bool.false_ne_true (h.symm.trans hst)

/-! ## A final answer (R106, R108) -/

/-- A record answered FINAL with a result (R108). -/
def Berth.concluded (r : Berth) (res : Result) : Berth := { r with phase := .final, result := res }

/-- A final answer is the record's phase and result, and the RSP write. -/
theorem State.answer_final_eq (v : State) (b : BerthId) (code : BitVec 4) (toggle : Bool) (op : BitVec 8) (res : Result) :
    v.answer b code toggle op (.final res) =
      { v with
        berths := v.berths.set b ((v.berth b).concluded res)
        owq := placeWrite v.owq (v.rspEntry b ((v.berth b).concluded res)) } := by
  simp only [State.answer, State.queueRsp, State.berth_setBerth_same]
  rfl

/-- A request that its judgement ends is its judgement's effects, the answer, and the end of the event (R106, R107). -/
theorem State.writesReq_judged {q : ReqBits} (hs : s.serves b) (ht : q.toggle ≠ (s.berth b).lastTaken)
    (hj : ((s.passedWrite (s.tables.reqAddress b) (reqWord code q)).examined b q.toggle).judge b code q.operand =
      (v, .final res)) :
    s.writesReq b code q = (v.answer b code q.toggle q.operand (.final res)).endEvent := by
  rw [State.writesReq_taken hs code q ht, State.takeRequest_eq, hj]

/-! ## RELEASE (R80, R112) -/

/-- The release flag of a berth is set (R80). -/
def State.released (s : State) (b : BerthId) : State := s.setSup b { s.sup b with release := true }

/-- In LOCKOUT with no request in progress RELEASE sets the release flag and is answered DONE, MAINT or not (R107, R112). -/
theorem State.judge_release (hst : (u.berth b).state = .lockout) (hr : (u.berth b).request = none) :
    u.judge b ReqCode.release.code op = ((u.released b).tryRecover b, .final .done) := by
  have hcode : ReqCode.ofCode? ReqCode.release.code = some .release := by decide
  unfold State.judge
  rw [hcode]
  simp [hst, hr, ReqCode.passesMaint, State.owner, State.ownRelease, State.released]

/-- With the release flag set recovery waits for the quiet count alone (R81). -/
theorem State.mayRecover_released :
    (u.released b).mayRecover b = decide ((u.static b).quietRequired ≤ (u.sup b).quiet) := by
  unfold State.mayRecover State.released
  rw [State.sup_setSup_same, State.static_setSup, Bool.and_true]

/-- The state in which a RELEASE is judged. -/
def State.releaseTaken (s : State) (b : BerthId) (q : ReqBits) : State :=
  (s.passedWrite (s.tables.reqAddress b) (reqWord ReqCode.release.code q)).examined b q.toggle

theorem State.berth_releaseTaken (s : State) (b : BerthId) (q : ReqBits) :
    (s.releaseTaken b q).berth b = { s.berth b with lastTaken := q.toggle, answered := q.toggle, phase := .final } :=
  State.berth_examined _ _ _

/-- A RELEASE in LOCKOUT, up to the end of its event. -/
theorem State.writesReq_release {q : ReqBits} (hs : s.serves b) (ht : q.toggle ≠ (s.berth b).lastTaken)
    (hst : (s.berth b).state = .lockout) (hr : (s.berth b).request = none) :
    s.writesReq b ReqCode.release.code q =
      ((((s.releaseTaken b q).released b).tryRecover b).answer b ReqCode.release.code q.toggle q.operand
        (.final .done)).endEvent := by
  refine State.writesReq_judged hs ht (State.judge_release ?_ ?_)
  · exact (congrArg Berth.state (s.berth_releaseTaken b q)).trans hst
  · exact (congrArg Berth.request (s.berth_releaseTaken b q)).trans hr

/-- RELEASE with the quiet count not met sets the flag and is answered, and does nothing else (R80). -/
theorem State.release_sets_flag {q : ReqBits} (hs : s.serves b) (ht : q.toggle ≠ (s.berth b).lastTaken)
    (hst : (s.berth b).state = .lockout) (hr : (s.berth b).request = none)
    (hq : (s.sup b).quiet < (s.static b).quietRequired) :
    s.writesReq b ReqCode.release.code q =
      { s.answeredOnly b q.toggle .done (reqWord 7 q) with sups := s.sups.set b { s.sup b with release := true } } := by
  have hwait : ((s.releaseTaken b q).released b).mayRecover b = false :=
    State.mayRecover_released.trans (decide_eq_false (Nat.not_le_of_lt hq))
  have hberth : ((s.releaseTaken b q).released b).berth b = _ := s.berth_releaseTaken b q
  have hberths : ((s.releaseTaken b q).released b).berths = s.berths.set b _ := rfl
  rw [State.writesReq_release hs ht hst hr, State.tryRecover, hwait, if_neg Bool.false_ne_true, State.answer_final_eq, hberth,
    hberths, Eight.set_set, State.endEvent_of_quiet rfl rfl]
  rfl

/-! ## Recovery (R81) -/

/-- Recovery enters CABLED with the pilot of the latest result closed, else VACANT (R81 step 2). -/
theorem recoveredState_cases (l : Option ScanResult) :
    (recoveredState l = .cabled ∧ ∃ r, l = some r ∧ r.pilot = true)
      ∨ (recoveredState l = .vacant ∧ ¬ ∃ r, l = some r ∧ r.pilot = true) := by
  cases l with
  | none => exact .inr ⟨rfl, by simp⟩
  | some r =>
    cases hp : r.pilot with
    | true => exact .inl ⟨by simp [recoveredState, hp], r, rfl, hp⟩
    | false => exact .inr ⟨by simp [recoveredState, hp], by simp [hp]⟩

/-- The state that recovery enters asserts neither line (R19, R76). -/
theorem recoveredState_lines (l : Option ScanResult) :
    recoveredState l ≠ .lockout ∧ (recoveredState l).permits = false := by
  rcases recoveredState_cases l with ⟨h, -⟩ | ⟨h, -⟩
  · rw [h]
    decide
  · rw [h]
    decide

/-- The RECOVERED record of a berth (R81, R155). -/
def State.recoveredRecord (s : State) (b : BerthId) (st : BState) : Record :=
  { type := .recovered, berth := some b, qualifier := 0, detailA := BitVec.ofNat 16 st.code, detailB := 0,
    stamp := s.scan.passNumber }

/-- The whole effect of a recovery (R81). -/
theorem State.recover_eq (s : State) (b : BerthId) :
    s.recover b =
      { s with
        berths := s.berths.set b ((s.berth b).entered (recoveredState (s.berth b).latest))
        sups := s.sups.set b Supervision.blank
        owq := placeWrite s.owq (s.rspEntry b ((s.berth b).entered (recoveredState (s.berth b).latest)))
        log := s.log.stage (s.recoveredRecord b (recoveredState (s.berth b).latest)) } := by
  unfold State.recover State.queueRsp State.rspEntry State.enter
  simp only [State.record, State.berth_setLog, State.berth_setBerth_same]
  rfl

/-- A final answer after a recovery: one RSP write carries both (R81, R108, R139). -/
theorem State.recover_answer_eq (v : State) (b : BerthId) (code : BitVec 4) (toggle : Bool) (op : BitVec 8) (res : Result) :
    (v.recover b).answer b code toggle op (.final res) =
      { v with
        berths := v.berths.set b (((v.berth b).entered (recoveredState (v.berth b).latest)).concluded res)
        sups := v.sups.set b Supervision.blank
        owq := placeWrite v.owq
          (v.rspEntry b (((v.berth b).entered (recoveredState (v.berth b).latest)).concluded res))
        log := v.log.stage (v.recoveredRecord b (recoveredState (v.berth b).latest)) } := by
  rw [State.answer_final_eq, State.recover_eq]
  generalize (v.berth b).entered (recoveredState (v.berth b).latest) = r
  have hberth : (v.berths.set b r).get b = r := Eight.get_set_same _ _ _
  simp only [State.berth, hberth, Eight.set_set]
  congr 1
  exact rsp_twice v b r (r.concluded res) v.owq

/-- The outcome of a RELEASE that recovers its berth: passed, taken and answered DONE from the state recovered, with the RECOVERED
record (R81, R112). -/
def State.recoveredBy (s : State) (b : BerthId) (q : ReqBits) (st : BState) : State :=
  let r := ((s.berth b).entered st).answeredFinal q.toggle .done
  { s.passedWrite (s.tables.reqAddress b) (reqWord ReqCode.release.code q) with
    berths := s.berths.set b r
    sups := s.sups.set b Supervision.blank
    owq := placeWrite s.owq (s.rspEntry b r)
    log := s.log.stage (s.recoveredRecord b st) }

/-- RELEASE with the quiet count met recovers the berth; the RSP write of the recovery carries the answer (R81, R112, R139). -/
theorem State.release_recovers {q : ReqBits} (hs : s.serves b) (ht : q.toggle ≠ (s.berth b).lastTaken)
    (hst : (s.berth b).state = .lockout) (hr : (s.berth b).request = none)
    (hq : (s.static b).quietRequired ≤ (s.sup b).quiet) :
    s.writesReq b ReqCode.release.code q = s.recoveredBy b q (recoveredState (s.berth b).latest) := by
  have hdue : ((s.releaseTaken b q).released b).mayRecover b = true :=
    State.mayRecover_released.trans (decide_eq_true hq)
  have hberth : ((s.releaseTaken b q).released b).berth b = _ := s.berth_releaseTaken b q
  have hberths : ((s.releaseTaken b q).released b).berths = s.berths.set b _ := rfl
  have hsups : ((s.releaseTaken b q).released b).sups = s.sups.set b _ := rfl
  rw [State.writesReq_release hs ht hst hr, State.tryRecover, hdue, if_pos rfl, State.recover_answer_eq, hberth, hberths, hsups,
    Eight.set_set, Eight.set_set, State.endEvent_of_quiet rfl rfl]
  rfl

end Sys2Proof.Machine

open Sys2Proof Sys2Proof.Machine

/-- Settles O15: TRIPn is the conjunction of RUNNING, a configured berth and LOCKOUT, a state in which PERMn is off. -/
theorem tripLineFollowsLockout : Obligations.TripLineFollowsLockout := by
  intro s b
  refine ⟨fun hrun hconf => ?_, ?_, fun hrun => ?_, fun hn => ?_⟩
  · rw [State.trip_iff]
    exact ⟨fun ⟨_, _, hst⟩ => hst, fun hst => ⟨hrun, hconf, hst⟩⟩
  · rintro ⟨ht, hp⟩
    obtain ⟨-, -, hst⟩ := State.trip_iff.mp ht
    rw [State.perm_eq_false_of_not_permits (hst ▸ BState.permits_lockout)] at hp
    exact Bool.false_ne_true hp
  · refine Bool.eq_false_iff.mpr fun ht => ?_
    obtain ⟨hrunning, -, -⟩ := State.trip_iff.mp ht
    exact hrun hrunning
  · refine Bool.eq_false_iff.mpr fun ht => ?_
    obtain ⟨-, hconf, -⟩ := State.trip_iff.mp ht
    exact absurd (State.configured_iff.mp hconf) (Nat.not_lt_of_le hn)

/-- Settles O31, by the quiet count: the flag alone, or the recovery before the answer. -/
theorem releaseSetsFlagOrRecovers : Obligations.ReleaseSetsFlagOrRecovers := by
  intro s b q hs ht hst hr
  rw [exec_reqRelease]
  refine ⟨fun hq => congrArg _ (State.release_sets_flag hs ht hst hr hq), fun hq => ?_⟩
  have hberth : (s.recoveredBy b q (recoveredState (s.berth b).latest)).berth b = _ := Eight.get_set_same _ _ _
  obtain ⟨hnot, hperm⟩ := recoveredState_lines (s.berth b).latest
  refine ⟨_, recoveredState (s.berth b).latest, congrArg _ (State.release_recovers hs ht hst hr hq),
    recoveredState_cases _, hberth, Eight.get_set_same _ _ _, ?_, ?_, ?_, rfl,
    fun c hc => ⟨Eight.get_set_of_ne _ _ hc, Eight.get_set_of_ne _ _ hc⟩, rfl, fun _ => rfl⟩
  · exact State.trip_eq_false_of_not_lockout (by rw [hberth]; exact hnot)
  · exact State.perm_eq_false_of_not_permits (by rw [hberth]; exact hperm)
  · rw [hberth]
    rfl

/-- Settles O50: outside ADOPTING and LOCKOUT the trip action with the flags met, in LOCKOUT what the Supervision Unit follows there. -/
theorem faultyResultTrips : Obligations.FaultyResultTrips := by
  intro s b station r hm hfresh hrun
  rw [exec_scanReadComplete]
  refine ⟨fun f hadopting hlockout hmeets hflags => ?_, fun hlockout => ?_⟩
  · exact ⟨_, rfl, faulty_trips hm hfresh hrun hadopting hlockout hmeets hflags⟩
  · exact ⟨_, rfl, lockout_follows hm hfresh hlockout⟩

end

section
/-! FEEDER_STALE and C (R59, R85): what moves the mark moves C with it, and nothing else moves either. -/

namespace Sys2Proof.Machine

variable {s : State}

/-- With FEEDER_STALE clear nothing is asked of C (R85). -/
theorem State.staleFeederEmpty_of_fresh (h : s.scan.feederStale = false) : s.staleFeederEmpty := fun hs =>
  absurd (h.symm.trans hs) Bool.false_ne_true

/-- No effect of an event touches FEEDER_STALE or C: a changed Budget Unit keeps its C. -/
theorem State.staleFeederEmpty_kept : Kept State.staleFeederEmpty where
  berth := fun _ _ _ _ _ _ _ h => h
  sup := fun _ _ _ h => h
  budget := fun _ _ hc h hs => hc.trans (h hs)
  holds := fun _ _ h => h
  seqWrite := fun _ _ _ _ h => h
  tripWrite := fun _ _ h => h
  queueRsp := fun _ _ h => h
  record := fun _ _ _ _ _ _ h => h
  statusChanged := fun _ h => h
  grantedChanged := fun _ h => h
  enters := fun _ _ _ h => h
  toggle := fun _ _ _ h => h
  loadStep := fun _ _ _ h => h
  stopStep := fun _ _ h => h
  loadSettle := fun _ _ h => h
  stopSettle := fun _ _ h => h
  stopChannels := fun _ _ h => h
  queueGroupRsp := fun _ _ _ h => h
  groupTaken := fun _ _ _ h => h
  passWrite := fun _ _ _ h => h

/-- A feeder result finds FEEDER_STALE cleared and leaves it so, whatever C becomes (R59, R85). -/
theorem State.feederStale_feederResult (s : State) (load cap : Nat) (conv : Converter) :
    (s.clearFeederStale.feederResult load cap conv).scan.feederStale = false := by
  obtain ⟨-, hcleared, -, -⟩ := clearFeederStale_spec s
  rw [(s.clearFeederStale.feederResult_frame load cap conv).scan, hcleared]

/-- The Scan Engine sets FEEDER_STALE with C at 0, and gives C another value only with FEEDER_STALE clear (R59, R85). -/
theorem State.staleFeederEmpty_keptByScan : KeptByScan State.staleFeederEmpty :=
  { State.staleFeederEmpty_kept.moves with
    consumer := fun _ _ _ h => h
    discard := by
      intro s h
      unfold State.discardWrite
      split
      · exact h
      · exact h
    block := fun _ _ _ h => h
    latest := fun _ _ _ h => h
    scan := fun _ _ he h hs => h (he.symm.trans hs)
    setFeederStale := fun s _ _ => s.setFeederStale_staled.capacity
    feeder := fun s load cap conv _ => State.staleFeederEmpty_of_fresh (s.feederStale_feederResult load cap conv) }

/-- Entry to RUNNING clears FEEDER_STALE (R51); the other commands of start-up, the port, the ticks and MAINT leave both. -/
theorem State.staleFeederEmpty_keptByCommand : KeptByCommand State.staleFeederEmpty := by
  refine State.staleFeederEmpty_keptByScan.byCommand ?_ (fun _ _ h => h) (fun _ _ _ h => h)
    (fun _ _ _ => State.staleFeederEmpty_of_fresh rfl) (fun _ _ _ h => h) (fun _ _ h => h) (fun _ h => h) (fun _ _ h => h)
    (fun _ _ h => h) (fun _ _ _ h => h) (fun _ _ _ h => h) ?_ ?_ (fun _ _ _ h => h) (fun _ _ h => h) ?_ ?_
  · intro s h
    unfold State.releaseReset
    split
    · exact h
    · exact h
  · intro s h
    unfold State.reload
    split
    · exact h
    · exact h
  · intro s h
    have hmark : s.tickFalls.scan.feederStale = s.scan.feederStale := by
      unfold State.tickFalls ScanEngine.tick
      dsimp only
      split
      · rfl
      · rfl
    exact fun hs => h (hmark.symm.trans hs)
  · intro s h
    unfold State.assertMaint
    dsimp only
    split
    · exact h
    · exact h
  · intro s h
    unfold State.releaseMaint
    dsimp only
    split
    · exact h
    · exact h

/-- Every step keeps C at 0 under FEEDER_STALE: a reset clears the mark, an image word touches neither (R160, R162). -/
theorem State.staleFeederEmpty_keptByStep : KeptByStep State.staleFeederEmpty where
  toKeptByCommand := State.staleFeederEmpty_keptByCommand
  queue := fun _ _ h => h
  assertReset := fun _ _ _ => State.staleFeederEmpty_of_fresh rfl
  imageWord := fun _ w h => imageWord_of State.staleFeederEmpty w (fun _ _ h => h) (fun _ _ _ _ h => h) (fun _ _ _ _ h => h) h

end Sys2Proof.Machine

open Sys2Proof Sys2Proof.Machine

/-- Settles O12, by the property that every step keeps. -/
theorem staleFeederHoldsCapacityAtZero : Obligations.StaleFeederHoldsCapacityAtZero := fun _ _ hs ht =>
  State.staleFeederEmpty_keptByStep.step hs ht

end

section
/-! SET_LEVEL in SHORE (R87 to R89, R94 to R96): how it is judged by the rows of R95, what a lower level leaves, and what the service
pass that ends the event makes of the LEVEL claim for a higher one. -/

namespace Sys2Proof.Machine

variable {s u t : State} {b : BerthId} {q : ReqBits} {n : Nat} {c : Claim}

/-! ## The rows of R95 -/

section Rows

variable (hst : (u.berth b).state = .shore)
include hst

theorem State.ownSetLevel_invalid (hv : u.levelValid n = false) : u.ownSetLevel b n = (u, .final .invalid) := by
  rw [State.ownSetLevel, if_pos hst, hv]
  rfl

theorem State.ownSetLevel_same (hv : u.levelValid n = true) (hn : n = (u.berth b).level) :
    u.ownSetLevel b n = (u, .final .done) := by
  rw [State.ownSetLevel, if_pos hst, hv, if_neg (by decide), if_pos hn]

theorem State.ownSetLevel_lower (hv : u.levelValid n = true) (hn : n < (u.berth b).level) :
    u.ownSetLevel b n = (u.changeLevel b n, .final .done) := by
  rw [State.ownSetLevel, if_pos hst, hv, if_neg (by decide), if_neg (Nat.ne_of_lt hn), if_pos hn]

/-- A level above the berth's own is judged by its residency, then by the limit of a LEVEL claim (R88, R95). -/
theorem State.ownSetLevel_higher (hv : u.levelValid n = true) (hn : (u.berth b).level < n) :
    u.ownSetLevel b n =
      if (u.berth b).residency < (u.levelEntry (u.berth b).level).upResidency then (u, .final .toosoon)
      else if u.levelLimit < u.levelCredits n - u.levelCredits (u.berth b).level then (u, .final .nobudget)
      else (u.placeClaim
        { berth := b, kind := .level n, credits := u.levelCredits n - u.levelCredits (u.berth b).level }, .pending) := by
  rw [State.ownSetLevel, if_pos hst, hv, if_neg (by decide), if_neg (Nat.ne_of_gt hn), if_neg (Nat.not_lt_of_gt hn)]

end Rows

/-! ## Judgement -/

/-- A new SET_LEVEL of a served berth in SHORE, with no request in progress and MAINT released. -/
structure State.AsksLevel (s : State) (b : BerthId) (q : ReqBits) : Prop where
  serves : s.serves b
  fresh : q.toggle ≠ (s.berth b).lastTaken
  maint : s.timer.maint = false
  shore : (s.berth b).state = .shore
  idle : (s.berth b).request = none

/-- The state in which a SET_LEVEL is judged. -/
def State.levelTaken (s : State) (b : BerthId) (q : ReqBits) : State :=
  (s.passedWrite (s.tables.reqAddress b) (reqWord ReqCode.setLevel.code q)).examined b q.toggle

theorem State.berth_levelTaken (s : State) (b : BerthId) (q : ReqBits) :
    (s.levelTaken b q).berth b = { s.berth b with lastTaken := q.toggle, answered := q.toggle, phase := .final } :=
  State.berth_examined _ _ _

theorem State.level_levelTaken (s : State) (b : BerthId) (q : ReqBits) :
    ((s.levelTaken b q).berth b).level = (s.berth b).level := by
  rw [State.berth_levelTaken]

theorem State.residency_levelTaken (s : State) (b : BerthId) (q : ReqBits) :
    ((s.levelTaken b q).berth b).residency = (s.berth b).residency := by
  rw [State.berth_levelTaken]

/-- With no request in progress and MAINT released SET_LEVEL comes to its owner (R107, R110). -/
theorem State.judge_setLevel {op : BitVec 8} (hst : (u.berth b).state = .shore) (hr : (u.berth b).request = none)
    (hm : u.timer.maint = false) : u.judge b ReqCode.setLevel.code op = u.ownSetLevel b op.toNat := by
  unfold State.judge
  rw [ReqCode.ofCode?_code]
  simp [hst, hr, hm, State.owner]

namespace State.AsksLevel

theorem shore_taken (h : s.AsksLevel b q) : ((s.levelTaken b q).berth b).state = .shore :=
  (congrArg Berth.state (s.berth_levelTaken b q)).trans h.shore

theorem judged (h : s.AsksLevel b q) :
    (s.levelTaken b q).judge b ReqCode.setLevel.code q.operand = (s.levelTaken b q).ownSetLevel b q.operand.toNat :=
  State.judge_setLevel h.shore_taken ((congrArg Berth.request (s.berth_levelTaken b q)).trans h.idle) h.maint

/-- A row of R95 that ends the request without an effect. -/
theorem answered {res : Result} (h : s.AsksLevel b q)
    (ho : (s.levelTaken b q).ownSetLevel b q.operand.toNat = (s.levelTaken b q, .final res)) :
    exec (.reqSetLevel b q) s = .next (s.answeredOnly b q.toggle res (reqWord 5 q)) := by
  rw [exec_reqSetLevel]
  refine congrArg _ (State.writesReq_answered h.serves h.fresh ?_)
  rintro _ rfl
  exact h.judged.trans ho

end State.AsksLevel

/-- A request leaves the PIM, whatever its event does. -/
theorem State.writesReq_sameMemory (hs : s.serves b) (ht : q.toggle ≠ (s.berth b).lastTaken) (code : BitVec 4) :
    s.sameMemory (s.writesReq b code q) := by
  have hmoves := (EventFrame.kept (s.passedWrite (s.tables.reqAddress b) (reqWord code q))).moves
  have hframe := hmoves.endEvent (hmoves.takeRequest b code q.toggle q.operand (EventFrame.refl _))
  rw [State.writesReq_taken hs code q ht]
  intro a
  unfold State.pimRead
  rw [hframe.pim]
  rfl

/-! ## Answers (R106, R108) -/

section Answers

variable (v : State) (b : BerthId) (code : BitVec 4) (toggle : Bool) (op : BitVec 8) (res : Result)

/-- A final answer touches the berth's record and the Own Write Queue alone (R108). -/
theorem State.berth_answer_final :
    (v.answer b code toggle op (.final res)).berth b = (v.berth b).concluded res := by
  rw [State.answer_final_eq]
  exact Eight.get_set_same _ _ _

theorem State.owq_answer_final :
    (v.answer b code toggle op (.final res)).owq =
      placeWrite v.owq (v.rspEntry b ((v.answer b code toggle op (.final res)).berth b)) := by
  rw [State.berth_answer_final, State.answer_final_eq]

theorem State.chan_answer_final : (v.answer b code toggle op (.final res)).chan b = v.chan b := rfl

theorem State.budget_answer_final : (v.answer b code toggle op (.final res)).budget = v.budget := rfl

/-- The record of a berth whose SET_LEVEL is answered PENDING (R4, R108). -/
def Berth.levelPending (r : Berth) (toggle : Bool) (op : BitVec 8) : Berth :=
  { r with
    request := some { code := .setLevel, toggle := toggle, operand := some op }, phase := .pending, result := .none }

/-- A SET_LEVEL that runs on keeps its operand, and RSP says PENDING (R4, R108). -/
theorem State.answer_pending_setLevel :
    v.answer b ReqCode.setLevel.code toggle op .pending =
      { v with
        berths := v.berths.set b ((v.berth b).levelPending toggle op)
        owq := placeWrite v.owq (v.rspEntry b ((v.berth b).levelPending toggle op)) } := by
  simp only [State.answer, State.queueRsp, State.berth_setBerth_same, ReqCode.ofCode?_code]
  rfl

end Answers

/-! ## A lower level (R94, R95) -/

/-- The record of a berth whose SET_LEVEL has ended DONE with a new level (R94, R96). -/
def Berth.levelSet (r : Berth) (n : Nat) (toggle : Bool) : Berth :=
  ({ r with level := n, residency := 0, idle := 0 } : Berth).answeredFinal toggle .done

/-- A SET_LEVEL below the berth's level, up to the end of its event. -/
def State.levelLowered (s : State) (b : BerthId) (q : ReqBits) : State :=
  ((s.levelTaken b q).changeLevel b q.operand.toNat).answer b ReqCode.setLevel.code q.toggle q.operand (.final .done)

theorem State.berth_levelLowered (s : State) (b : BerthId) (q : ReqBits) :
    (s.levelLowered b q).berth b = (s.berth b).levelSet q.operand.toNat q.toggle := by
  rw [State.levelLowered, State.berth_answer_final, State.berth_changeLevel_same, State.berth_levelTaken]
  rfl

theorem State.chan_levelLowered (s : State) (b : BerthId) (q : ReqBits) : (s.levelLowered b q).chan b = s.chan b := by
  rw [State.levelLowered, State.chan_answer_final, State.chan_changeLevel]
  rfl

theorem State.claims_levelLowered (s : State) (b : BerthId) (q : ReqBits) :
    (s.levelLowered b q).budget.claims = s.budget.claims := by
  rw [State.levelLowered, State.budget_answer_final, State.changeLevel_claims]
  rfl

theorem State.stack_levelLowered (s : State) (b : BerthId) (q : ReqBits) :
    (s.levelLowered b q).budget.stack = stackAfter s.budget.stack b (s.berth b).level q.operand.toNat := by
  rw [State.levelLowered, State.budget_answer_final, State.changeLevel_stack, State.level_levelTaken]
  rfl

/-- CHARGE_LIMIT is queued before the answer DONE (R94, R108). -/
theorem State.owq_levelLowered (s : State) (b : BerthId) (q : ReqBits) :
    (s.levelLowered b q).owq =
      placeWrite (placeWrite s.owq (s.seqEntry b .chargeLimit (s.levelEntry q.operand.toNat).limit))
        (s.rspEntry b ((s.levelLowered b q).berth b)) := by
  have htables : ((s.levelTaken b q).changeLevel b q.operand.toNat).tables = s.tables := State.changeLevel_tables _ _ _
  rw [State.levelLowered, State.owq_answer_final, State.changeLevel_owq, rspEntry_congr htables]
  rfl

/-- A SET_LEVEL below the berth's level is `levelLowered` before the end of its event (R95). -/
theorem State.AsksLevel.lowers (h : s.AsksLevel b q) (hv : s.levelValid q.operand.toNat = true)
    (hn : q.operand.toNat < (s.berth b).level) :
    s.writesReq b ReqCode.setLevel.code q = (s.levelLowered b q).endEvent := by
  have hbelow : q.operand.toNat < ((s.levelTaken b q).berth b).level := (s.level_levelTaken b q).symm ▸ hn
  exact State.writesReq_judged h.serves h.fresh (h.judged.trans (State.ownSetLevel_lower h.shore_taken hv hbelow))

/-- A SET_LEVEL for a lower level ends DONE; where no claim waits CHARGE_LIMIT is queued before its answer, and the Level Stack stands
but for a berth that comes to level 0 (R94, R95, R99). -/
theorem State.levelLowered_ends (hl : q.operand.toNat < (s.berth b).level) (hn : s.noClaim b) {t : State}
    (ht : t = (s.levelLowered b q).endEvent) :
    t.berth b = (s.berth b).levelSet q.operand.toNat q.toggle ∧ t.chan b = s.chan b
      ∧ (s.budget.claims = [] →
        t.owq = placeWrite (placeWrite s.owq (s.seqEntry b .chargeLimit (s.levelEntry q.operand.toNat).limit))
            (s.rspEntry b (t.berth b))
          ∧ (q.operand.toNat = 0 → b ∉ t.budget.stack)
          ∧ (q.operand.toNat ≠ 0 → t.budget.stack = s.budget.stack)) := by
  have hclaim : (s.levelLowered b q).noClaim b := by
    unfold State.noClaim
    rw [State.claims_levelLowered]
    exact hn
  have hapart := Apart.endEvent hclaim
  rw [← ht] at hapart
  refine ⟨hapart.berth.trans (s.berth_levelLowered b q), hapart.chan.trans (s.chan_levelLowered b q), fun hc => ?_⟩
  have htested := end_of_nil ((s.claims_levelLowered b q).trans hc)
  rw [← ht] at htested
  rw [htested.owq, htested.stack, State.owq_levelLowered, State.stack_levelLowered, hapart.berth]
  refine ⟨rfl, fun hzero => ?_, fun hpos => ?_⟩
  · rw [hzero]
    exact stackAfter_zero_not_mem _ _
  · rw [stackAfter, if_neg (Nat.not_lt_of_gt hl), if_neg hpos]

/-! ## A higher level: the claim (R88, R95) -/

/-- The LEVEL claim of a SET_LEVEL (R88). -/
def State.levelClaim (s : State) (b : BerthId) (n : Nat) : Claim :=
  { berth := b, kind := .level n, credits := s.levelCredits n - s.levelCredits (s.berth b).level }

/-- The record of a berth whose SET_LEVEL runs on (R106). -/
def Berth.levelAsked (r : Berth) (q : ReqBits) : Berth := r.answeredPending q.toggle .setLevel (some q.operand)

/-- A SET_LEVEL whose claim is placed, up to the service pass that ends its event (R88, R91). -/
def State.levelClaimed (s : State) (b : BerthId) (q : ReqBits) : State :=
  { s.passedWrite (s.tables.reqAddress b) (reqWord ReqCode.setLevel.code q) with
    berths := s.berths.set b ((s.berth b).levelAsked q)
    owq := placeWrite s.owq (s.rspEntry b ((s.berth b).levelAsked q))
    budget := { s.budget with
      claims := s.budget.claims ++ [s.levelClaim b q.operand.toNat], serviceDue := true, testDue := false } }

theorem State.berth_levelClaimed (s : State) (b : BerthId) (q : ReqBits) :
    (s.levelClaimed b q).berth b = (s.berth b).levelAsked q :=
  Eight.get_set_same _ _ _

/-- G counts no waiting claim (R86). -/
theorem State.granted_levelClaimed (s : State) (b : BerthId) (q : ReqBits) : (s.levelClaimed b q).granted = s.granted := by
  have hsum : (s.levelClaimed b q).granted + s.held b = s.granted + s.held b :=
    State.granted_of (x := (s.berth b).levelAsked q) rfl rfl
  exact Nat.add_right_cancel hsum

/-- Whether the claim fits is a matter of C − R − G (R87). -/
theorem State.fits_levelClaimed (s : State) (b : BerthId) (q : ReqBits) (n : Nat) :
    (s.levelClaimed b q).fits (s.levelClaim b n) = true ↔
      ((s.levelCredits n - s.levelCredits (s.berth b).level : Nat) : Int)
        ≤ (s.budget.capacity : Int) - s.tables.reserve - s.granted := by
  rw [← s.granted_levelClaimed b q]
  exact decide_eq_true_iff

/-- A claim placed is one more in the Budget Wait Queue and a service pass due; the answer to its SET_LEVEL is PENDING (R88, R91,
R108). -/
theorem State.placeClaim_answer_eq (v : State) (b : BerthId) (c : Claim) (toggle : Bool) (op : BitVec 8) :
    (v.placeClaim c).answer b ReqCode.setLevel.code toggle op .pending =
      { v with
        berths := v.berths.set b ((v.berth b).levelPending toggle op)
        owq := placeWrite v.owq (v.rspEntry b ((v.berth b).levelPending toggle op))
        budget := { v.budget with claims := v.budget.claims ++ [c], serviceDue := true } } :=
  State.answer_pending_setLevel _ _ _ _

/-- A SET_LEVEL whose claim is placed is `levelClaimed` before its service pass. -/
theorem State.levelClaimed_eq (s : State) (b : BerthId) (q : ReqBits) :
    ((s.levelTaken b q).placeClaim (s.levelClaim b q.operand.toNat)).answer b ReqCode.setLevel.code q.toggle q.operand .pending =
      s.levelClaimed b q := by
  have hrecord : ((s.levelTaken b q).berth b).levelPending q.toggle q.operand = (s.berth b).levelAsked q := by
    rw [State.berth_levelTaken]
    rfl
  have hberths : (s.levelTaken b q).berths = s.berths.set b _ := rfl
  rw [State.placeClaim_answer_eq, hrecord, hberths, Eight.set_set]
  rfl

/-- A SET_LEVEL above the berth's level, as its owner finds it (R95). -/
theorem State.AsksLevel.owned (h : s.AsksLevel b q) (hv : s.levelValid q.operand.toNat = true)
    (hn : (s.berth b).level < q.operand.toNat) :
    (s.levelTaken b q).ownSetLevel b q.operand.toNat =
      if (s.berth b).residency < (s.levelEntry (s.berth b).level).upResidency then (s.levelTaken b q, .final .toosoon)
      else if s.levelLimit < s.levelCredits q.operand.toNat - s.levelCredits (s.berth b).level then
        (s.levelTaken b q, .final .nobudget)
      else ((s.levelTaken b q).placeClaim (s.levelClaim b q.operand.toNat), .pending) := by
  have hlevel := s.level_levelTaken b q
  rw [State.ownSetLevel_higher h.shore_taken hv (hlevel.symm ▸ hn), hlevel, s.residency_levelTaken b q]
  rfl

/-- With its residency served and its claim within the limit a SET_LEVEL places its claim (R88, R95). -/
theorem State.AsksLevel.claims (h : s.AsksLevel b q) (hv : s.levelValid q.operand.toNat = true)
    (hn : (s.berth b).level < q.operand.toNat)
    (hres : (s.levelEntry (s.berth b).level).upResidency ≤ (s.berth b).residency)
    (hlimit : s.levelCredits q.operand.toNat - s.levelCredits (s.berth b).level ≤ s.levelLimit) :
    s.writesReq b ReqCode.setLevel.code q = (s.levelClaimed b q).endEvent := by
  have hplaces := h.owned hv hn
  rw [if_neg (Nat.not_lt_of_le hres), if_neg (Nat.not_lt_of_le hlimit)] at hplaces
  rw [State.writesReq_taken h.serves _ q h.fresh, State.takeRequest_eq]
  show State.endEvent (State.answer ((s.levelTaken b q).judge b _ _).1 _ _ _ _ ((s.levelTaken b q).judge b _ _).2) = _
  rw [h.judged, hplaces, State.levelClaimed_eq]

/-! ## A higher level: the service pass (R89, R96) -/

/-- A LEVEL claim at the tail of the Budget Wait Queue waits on behind what the others were granted, or is granted as the last; alone
in the queue it waits only while shedding is on or it does not fit (R89, R96). -/
theorem serviceWalk_append_level (hk : c.kind = .level n) (l : List Claim) (s : State) :
    (s.serviceWalk (l ++ [c]) = s.serviceWalk l ∧ (l = [] → ¬ (s.budget.shedding = false ∧ s.fits c = true)))
      ∨ s.serviceWalk (l ++ [c]) = (s.serviceWalk l).grantLevel c n ∧ (s.serviceWalk l).budget.shedding = false
        ∧ (s.serviceWalk l).fits c = true := by
  induction l generalizing s with
  | nil =>
    by_cases hg : s.budget.shedding = false ∧ s.fits c = true
    · refine .inr ⟨?_, hg⟩
      simp [State.serviceWalk, hk, hg]
    · refine .inl ⟨?_, fun _ => hg⟩
      simp only [List.nil_append, State.serviceWalk, hk]
      rw [if_neg (by simpa using hg)]
  | cons d rest ih =>
    have goes_on : ∀ x : State,
        (x.serviceWalk (rest ++ [c]) = x.serviceWalk rest
            ∧ (d :: rest = [] → ¬ (s.budget.shedding = false ∧ s.fits c = true)))
          ∨ x.serviceWalk (rest ++ [c]) = (x.serviceWalk rest).grantLevel c n
            ∧ (x.serviceWalk rest).budget.shedding = false ∧ (x.serviceWalk rest).fits c = true := fun x => by
      rcases ih x with ⟨hsame, -⟩ | hgranted
      · exact .inl ⟨hsame, nofun⟩
      · exact .inr hgranted
    rw [List.cons_append, State.serviceWalk, State.serviceWalk]
    split
    · split
      · exact goes_on _
      · exact .inl ⟨rfl, nofun⟩
    · split
      · exact goes_on _
      · exact goes_on _

/-- What the end of its event makes of a SET_LEVEL whose claim was placed: it waits, or it is granted behind the claims before it. -/
theorem State.levelClaimed_ends (s : State) (b : BerthId) (q : ReqBits) :
    (Tested ((s.levelClaimed b q).serviceWalk s.budget.claims) (s.levelClaimed b q).endEvent
        ∧ (s.budget.claims = [] → ¬ (s.budget.shedding = false
          ∧ (s.levelClaimed b q).fits (s.levelClaim b q.operand.toNat) = true)))
      ∨ Tested
          (((s.levelClaimed b q).serviceWalk s.budget.claims).grantLevel (s.levelClaim b q.operand.toNat) q.operand.toNat)
          (s.levelClaimed b q).endEvent
        ∧ s.budget.shedding = false
        ∧ ((s.levelClaimed b q).serviceWalk s.budget.claims).fits (s.levelClaim b q.operand.toNat) = true := by
  have hkeeps := serviceWalk_keeps s.budget.claims (s.levelClaimed b q)
  have hshed : ((s.levelClaimed b q).serviceWalk s.budget.claims).budget.shedding = s.budget.shedding :=
    congrArg (fun k => k.1.2) hkeeps
  rcases serviceWalk_append_level (c := s.levelClaim b q.operand.toNat) rfl s.budget.claims (s.levelClaimed b q) with
    ⟨hpass, hwaits⟩ | ⟨hpass, hoff, hfits⟩
  · exact .inl ⟨endEvent_of_pass hpass, hwaits⟩
  · exact .inr ⟨endEvent_of_pass hpass, hshed.symm.trans hoff, hfits⟩

/-- A SET_LEVEL that waits is answered PENDING with its claim in the queue (R95). -/
theorem State.levelClaimed_waits (hn : s.noClaim b)
    (ht : Tested ((s.levelClaimed b q).serviceWalk s.budget.claims) t) :
    t.berth b = (s.berth b).levelAsked q ∧ t.chan b = s.chan b ∧ s.levelClaim b q.operand.toNat ∈ t.budget.claims := by
  have hapart : Apart b (s.levelClaimed b q) ((s.levelClaimed b q).serviceWalk s.budget.claims) := Apart.serviceWalk hn
  refine ⟨?_, ?_, ?_⟩
  · rw [State.berth, ht.berths]
    exact hapart.berth.trans (s.berth_levelClaimed b q)
  · rw [State.chan, ht.chans]
    exact hapart.chan
  · have hmine : s.levelClaim b q.operand.toNat ∈
        (s.levelClaimed b q).budget.claims.filter fun c => decide (c.berth = b) := by
      simp [State.levelClaimed, State.levelClaim]
    rw [← hapart.claims] at hmine
    rw [ht.claims]
    exact (List.mem_filter.mp hmine).1

/-- The level granted and the answer DONE, of a berth whose SET_LEVEL ran on (R96, R109). -/
theorem Berth.finalised_levelAsked {r : Berth} (hr : r.request = none) (n : Nat) :
    ({ r.levelAsked q with level := n, residency := 0, idle := 0 } : Berth).finalised .done = r.levelSet n q.toggle := by
  cases r
  subst hr
  rfl

/-- A berth that rises is on top of the Level Stack (R99). -/
theorem stackAfter_head_of_lt {stack : List BerthId} {old new : Nat} (h : old < new) :
    (stackAfter stack b old new).head? = some b := by
  rw [stackAfter, if_pos h, List.head?_cons]

/-- A SET_LEVEL whose claim is granted ends DONE, its berth on top of the Level Stack (R94, R96, R99). -/
theorem State.levelClaimed_granted (hr : (s.berth b).request = none) (hn : s.noClaim b)
    (hl : (s.berth b).level < q.operand.toNat)
    (ht : Tested (((s.levelClaimed b q).serviceWalk s.budget.claims).grantLevel (s.levelClaim b q.operand.toNat)
      q.operand.toNat) t) :
    t.berth b = (s.berth b).levelSet q.operand.toNat q.toggle ∧ t.chan b = s.chan b ∧ t.noClaim b
      ∧ t.budget.stack.head? = some b := by
  have hapart : Apart b (s.levelClaimed b q) ((s.levelClaimed b q).serviceWalk s.budget.claims) := Apart.serviceWalk hn
  have hberth := hapart.berth.trans (s.berth_levelClaimed b q)
  have hchan := hapart.chan
  generalize (s.levelClaimed b q).serviceWalk s.budget.claims = w at ht hberth hchan
  obtain ⟨hberths, hchans, -, -, -, -, -, -, hclaims, hstack, -, -⟩ :=
    grantLevel_granted w (s.levelClaim b q.operand.toNat) q.operand.toNat
  refine ⟨?_, ?_, ?_, ?_⟩
  · rw [State.berth, ht.berths, hberths]
    refine (Eight.get_set_same _ _ _).trans ?_
    show Berth.finalised { w.berth b with level := _, residency := 0, idle := 0 } .done = _
    rw [hberth, Berth.finalised_levelAsked hr]
  · rw [State.chan, ht.chans, hchans]
    exact hchan
  · unfold State.noClaim
    rw [ht.claims, hclaims]
    exact fun c hc => of_decide_eq_true (List.mem_filter.mp hc).2
  · rw [ht.stack, hstack]
    refine stackAfter_head_of_lt ?_
    show (w.berth b).level < _
    rw [hberth]
    exact hl

/-- Alone in the queue and granted, a SET_LEVEL queues CHARGE_LIMIT between its two answers (R94, R108). -/
theorem State.levelClaimed_granted_owq (hr : (s.berth b).request = none)
    (ht : Tested ((s.levelClaimed b q).grantLevel (s.levelClaim b q.operand.toNat) q.operand.toNat) t) :
    t.owq = placeAll s.owq
      [s.rspEntry b ((s.berth b).levelAsked q), s.seqEntry b .chargeLimit (s.levelEntry q.operand.toNat).limit,
        s.rspEntry b ((s.berth b).levelSet q.operand.toNat q.toggle)] := by
  have hanswer : Berth.finalised
      { (s.levelClaimed b q).berth b with level := q.operand.toNat, residency := 0, idle := 0 } .done =
        (s.berth b).levelSet q.operand.toNat q.toggle := by
    rw [State.berth_levelClaimed, Berth.finalised_levelAsked hr]
  rw [ht.owq, (grantLevel_granted (s.levelClaimed b q) (s.levelClaim b q.operand.toNat) q.operand.toNat).owq, ← hanswer]
  rfl

/-- A SET_LEVEL for a higher level, within its limit: it waits with the answer PENDING or is granted; alone in the queue, by shedding
and C − R − G (R87, R89, R96). -/
theorem State.AsksLevel.higher (h : s.AsksLevel b q) (hn : s.noClaim b) (hl : (s.berth b).level < q.operand.toNat) {t : State}
    (ht : t = (s.levelClaimed b q).endEvent) :
    t.chan b = s.chan b
      ∧ (t.berth b = (s.berth b).levelAsked q ∧ s.levelClaim b q.operand.toNat ∈ t.budget.claims
        ∨ t.berth b = (s.berth b).levelSet q.operand.toNat q.toggle ∧ s.budget.shedding = false ∧ t.noClaim b
          ∧ t.budget.stack.head? = some b)
      ∧ (s.budget.claims = [] →
        (t.noClaim b ↔ s.budget.shedding = false
            ∧ ((s.levelCredits q.operand.toNat - s.levelCredits (s.berth b).level : Nat) : Int)
              ≤ (s.budget.capacity : Int) - s.tables.reserve - s.granted)
          ∧ (¬ t.noClaim b → t.owq = placeWrite s.owq (s.rspEntry b (t.berth b)))
          ∧ (t.noClaim b →
            t.owq = placeAll s.owq
              [s.rspEntry b ((s.berth b).levelAsked q), s.seqEntry b .chargeLimit (s.levelEntry q.operand.toNat).limit,
                s.rspEntry b (t.berth b)])) := by
  have hfit := s.fits_levelClaimed b q q.operand.toNat
  rcases s.levelClaimed_ends b q with ⟨htested, hwaits⟩ | ⟨htested, hoff, hfits⟩
  · rw [← ht] at htested
    obtain ⟨hberth, hchan, hmem⟩ := State.levelClaimed_waits hn htested
    have hclaim : ¬ t.noClaim b := fun hnone => hnone _ hmem rfl
    refine ⟨hchan, .inl ⟨hberth, hmem⟩, fun hc => ⟨?_, fun _ => ?_, fun hnone => absurd hnone hclaim⟩⟩
    · rw [← hfit]
      exact iff_of_false hclaim (hwaits hc)
    · rw [hc] at htested
      rw [htested.owq, hberth]
      rfl
  · rw [← ht] at htested
    obtain ⟨hberth, hchan, hnone, hstack⟩ := State.levelClaimed_granted h.idle hn hl htested
    refine ⟨hchan, .inr ⟨hberth, hoff, hnone, hstack⟩, fun hc => ⟨?_, fun hclaim => absurd hnone hclaim, fun _ => ?_⟩⟩
    · rw [hc] at hfits
      exact iff_of_true hnone ⟨hoff, hfit.mp hfits⟩
    · rw [hc] at htested
      rw [hberth]
      exact State.levelClaimed_granted_owq h.idle htested

end Sys2Proof.Machine

open Sys2Proof Sys2Proof.Machine

/-- Settles O29, by the rows of R95: four end the request at once, a lower level is changed to, and a higher one is left to the service
pass that ends the event. -/
theorem setLevelByRow : Obligations.SetLevelByRow := by
  intro s b q hs ht hm hst hr
  have h : s.AsksLevel b q := ⟨hs, ht, hm, hst, hr⟩
  have hlevel := s.level_levelTaken b q
  refine ⟨fun hbad => h.answered (State.ownSetLevel_invalid h.shore_taken ?_), fun hle hvalid => ?_⟩
  · show (decide (_ < 8) && (s.levelEntry _).valid) = false
    rcases hbad with hbad | hbad
    · rw [decide_eq_false (by omega), Bool.false_and]
    · rw [hbad, Bool.and_false]
  have hv : s.levelValid q.operand.toNat = true := by
    rw [State.levelValid, decide_eq_true (by omega), hvalid, Bool.true_and]
  have hmemory := State.writesReq_sameMemory hs ht ReqCode.setLevel.code
  refine ⟨fun he => h.answered (State.ownSetLevel_same h.shore_taken hv (he.trans hlevel.symm)), fun hn hclaim => ?_,
    fun hn => ⟨fun hsoon => h.answered ?_, fun hres => ⟨fun hdear => h.answered ?_, fun hlimit hclaim => ?_⟩⟩⟩
  · obtain ⟨hberth, hchan, howq⟩ := State.levelLowered_ends hn hclaim rfl
    rw [h.lowers hv hn] at hmemory
    exact ⟨_, (exec_reqSetLevel b q s).trans (congrArg _ (h.lowers hv hn)), hberth, hmemory, hchan, howq⟩
  · rw [h.owned hv hn, if_pos hsoon]
  · rw [h.owned hv hn, if_neg (Nat.not_lt_of_le hres)]
    exact if_pos hdear
  · obtain ⟨hchan, houtcome, hqueue⟩ := h.higher hclaim hn rfl
    rw [h.claims hv hn hres hlimit] at hmemory
    exact ⟨_, (exec_reqSetLevel b q s).trans (congrArg _ (h.claims hv hn hres hlimit)), hmemory, hchan, houtcome, hqueue⟩

end

section
/-! Group requests (06, section 6.5): a repeated toggle is passed and taken for nothing, a code outside the six is answered INVALID, and
the fan-out of one of the six counts every member once (R114 to R116). -/

namespace Sys2Proof

/-- How many berths of a list are members; of all berths, the group's size. -/
def GroupEntry.membersIn (e : GroupEntry) (l : List BerthId) : Nat := (l.filter fun b => e.members.getLsbD b.toNat).length

theorem GroupEntry.membersIn_all (e : GroupEntry) : e.membersIn BerthId.all = e.size := rfl

theorem GroupEntry.membersIn_cons_of_member {e : GroupEntry} {b : BerthId} (h : e.members.getLsbD b.toNat = true)
    (rest : List BerthId) : e.membersIn (b :: rest) = e.membersIn rest + 1 :=
  congrArg List.length (List.filter_cons_of_pos (p := fun b : BerthId => e.members.getLsbD b.toNat) h)

theorem GroupEntry.membersIn_cons_of_not_member {e : GroupEntry} {b : BerthId} (h : ¬ e.members.getLsbD b.toNat = true)
    (rest : List BerthId) : e.membersIn (b :: rest) = e.membersIn rest :=
  congrArg List.length (List.filter_cons_of_neg (p := fun b : BerthId => e.members.getLsbD b.toNat) h)

end Sys2Proof

namespace Sys2Proof.Machine

variable {s : State} {g : GroupId} {code : BitVec 4} {q : ReqBits}

/-! ## Taken or passed (R114) -/

/-- A GROUP_REQ write that is passed and whose toggle is taken, before anything is offered or answered (R114). -/
def State.groupAsked (s : State) (g : GroupId) (code : BitVec 4) (q : ReqBits) : State :=
  { s.passedWrite (s.tables.groupReqAddress g) (reqWord code q) with groupTaken := s.groupTaken.set g q.toggle }

/-- The entry's last-taken toggle again is passed and taken for nothing. -/
theorem State.writesGroup_repeated (h : s.takesHostWrite) (hg : s.groupInUse g = true) (ht : q.toggle = s.groupTaken.get g) :
    s.writesGroup g code q = s.passedWrite (s.tables.groupReqAddress g) (reqWord code q) := by
  rw [State.writesGroup_of_inUse h hg, State.examineGroup, toggleOf_reqWord, State.passedWrite_groupTaken, if_pos ht,
    State.endEvent_of_quiet rfl rfl]
  rfl

/-- A new toggle is taken, whatever the code. -/
theorem State.writesGroup_taken (h : s.takesHostWrite) (hg : s.groupInUse g = true) (ht : q.toggle ≠ s.groupTaken.get g) :
    s.writesGroup g code q =
      ((s.passedWrite (s.tables.groupReqAddress g) (reqWord code q)).takeGroup g code q.toggle q.operand).endEvent := by
  rw [State.writesGroup_of_inUse h hg, State.examineGroup, toggleOf_reqWord, codeOf_reqWord, operandOf_reqWord,
    State.passedWrite_groupTaken, if_neg ht]

/-- An answer composed with the event's marks clear ends the event as it stands (R116). -/
theorem State.groupAnswered_ends (h1 : s.budget.serviceDue = false) (h2 : s.budget.testDue = false) (data : Word) :
    (s.groupAnswered g data).endEvent = s.groupAnswered g data :=
  (State.endEvent_of_quiet (s := s.groupAnswered g data) h1 h2).trans (clearMarks_quiet (s.groupAnswered g data) h1 h2)

/-- A code outside the six is answered INVALID, and no member is offered anything (R114). -/
theorem State.writesGroup_invalid (h : s.takesHostWrite) (hg : s.groupInUse g = true) (ht : q.toggle ≠ s.groupTaken.get g)
    (hc : isGroupCode code = false) :
    s.writesGroup g code q = (s.groupAsked g code q).groupAnswered g (groupRspWord q.toggle .invalid 0 0 0) := by
  rw [State.writesGroup_taken h hg ht, State.takeGroup, fansOutCode_eq_isGroupCode, hc]
  exact State.groupAnswered_ends (s := s.groupAsked g code q) rfl rfl _

/-! ## The fan-out (R115) -/

/-- The members that have had their turn. -/
def GroupCount.total (n : GroupCount) : Nat := n.taken + n.refused + n.blocked

/-- The fan-out of a group request that has just been taken. -/
def State.fannedOut (s : State) (g : GroupId) (code : BitVec 4) (op : BitVec 8) : State × GroupCount :=
  s.fanOut { taken := 0, refused := 0, blocked := 0 } (s.tables.groups.get g) code op BerthId.all

/-- A member's turn is counted once, as taken, refused or blocked. -/
theorem State.fanOne_total (s : State) (n : GroupCount) (e : GroupEntry) (b : BerthId) (code : BitVec 4) (op : BitVec 8) :
    (s.fanOne n e b code op).2.total = n.total + 1 := by
  unfold State.fanOne
  split
  · exact (Nat.add_assoc _ _ _).symm
  · dsimp only
    split
    · simp only [GroupCount.total]
      omega
    · simp only [GroupCount.total]
      omega

/-- A fan-out counts every member of the list once, whatever the turns do. -/
theorem State.fanOut_total (e : GroupEntry) (code : BitVec 4) (op : BitVec 8) (l : List BerthId) (s : State) (n : GroupCount) :
    (s.fanOut n e code op l).2.total = n.total + e.membersIn l := by
  induction l generalizing s n with
  | nil => rfl
  | cons b rest ih =>
    unfold State.fanOut
    split
    · next hm =>
      rw [ih, State.fanOne_total, GroupEntry.membersIn_cons_of_member hm]
      omega
    · next hm => rw [ih, GroupEntry.membersIn_cons_of_not_member hm]

/-- Where every member is blocked a fan-out changes nothing and counts them all as blocked. -/
theorem State.fanOut_blocked (e : GroupEntry) (code : BitVec 4) (op : BitVec 8) (l : List BerthId) (n : GroupCount)
    (h : ∀ b : BerthId, e.members.getLsbD b.toNat = true →
      e.blocked.getLsbD b.toNat = true ∨ (s.berth b).state = .lockout) :
    s.fanOut n e code op l =
      (s, { n with blocked := n.blocked + e.membersIn l }) := by
  induction l generalizing n with
  | nil => rfl
  | cons b rest ih =>
    unfold State.fanOut
    split
    · next hm =>
      rw [State.fanOne, if_pos (h b hm), ih, GroupEntry.membersIn_cons_of_member hm, Nat.add_assoc, Nat.add_comm 1]
    · next hm => rw [ih, GroupEntry.membersIn_cons_of_not_member hm]

/-- A group request with one of the six codes is its fan-out and the answer DONE with its counts (R115, R116). -/
theorem State.writesGroup_fans (h : s.takesHostWrite) (hg : s.groupInUse g = true) (ht : q.toggle ≠ s.groupTaken.get g)
    (hc : fansOutCode code = true) {x : State × GroupCount} (hx : x = (s.groupAsked g code q).fannedOut g code q.operand) :
    s.writesGroup g code q = x.1.groupAnswered g (groupRspWord q.toggle .done x.2.taken x.2.refused x.2.blocked) := by
  obtain ⟨hservice, htest⟩ := fanOut_quiet (s.tables.groups.get g) code q.operand BerthId.all (s.groupAsked g code q)
    { taken := 0, refused := 0, blocked := 0 } ⟨rfl, rfl⟩
  rw [State.writesGroup_taken h hg ht, State.takeGroup, hc, hx]
  exact State.groupAnswered_ends hservice htest _

end Sys2Proof.Machine

open Sys2Proof Sys2Proof.Machine

/-- Settles O34, by the toggle: a new one with another code is answered INVALID, the last-taken one is passed. -/
theorem groupInvalidTouchesNoMember : Obligations.GroupInvalidTouchesNoMember := by
  intro s g code q h hg
  rw [exec_groupInvalid]
  exact ⟨fun ht hc => congrArg _ (State.writesGroup_invalid h hg ht hc),
    fun ht => congrArg _ (State.writesGroup_repeated h hg ht)⟩

/-- Settles O35: the turns of the members are the fan-out's, which counts each once; with all blocked it is nothing. -/
theorem groupRequestCountsEveryMember : Obligations.GroupRequestCountsEveryMember := by
  intro s g q p h hg hp
  obtain ⟨hexec, hfans⟩ := exec_groupCommands hp s
  have hcode : fansOutCode p.1.code = true := by rw [fansOutCode, ReqCode.ofCode?_code]; exact hfans
  rw [hexec]
  refine ⟨fun ht => congrArg _ (State.writesGroup_repeated h hg ht), fun ht hconf x hx => ?_, fun ht hblocked => ?_⟩
  · have hturns : x = (s.groupAsked g p.1.code q).fannedOut g p.1.code q.operand :=
      hx.trans (fold_eq (s.tables.groups.get g) p.1 q.operand BerthId.all (s.groupAsked g p.1.code q) _ h.1 hconf)
    have hframe : EventFrame (s.groupAsked g p.1.code q) x.1 :=
      hturns ▸ (EventFrame.kept _).moves.fanOut _ _ _ _ _ (EventFrame.refl _)
    refine ⟨congrArg _ (State.writesGroup_fans h hg ht hcode hturns), ?_, fun a => ?_⟩
    · have htotal := State.fanOut_total (s.tables.groups.get g) p.1.code q.operand BerthId.all (s.groupAsked g p.1.code q)
        { taken := 0, refused := 0, blocked := 0 }
      rw [hturns]
      exact htotal.trans (Nat.zero_add _)
    · rw [State.pimRead, hframe.pim]
      rfl
  · have hnone := State.fanOut_blocked (s := s.groupAsked g p.1.code q) (s.tables.groups.get g) p.1.code q.operand BerthId.all
      { taken := 0, refused := 0, blocked := 0 } hblocked
    rw [State.writesGroup_fans h hg ht hcode hnone.symm, Nat.zero_add]
    rfl

end

section
/-! The intake (06, sections 6.1, 6.2 and 6.4): the rows of R107 by which a new request is judged, and SET_MODE (R9, R111) with what a
change of mode leaves. -/

namespace Sys2Proof.Machine

variable {s u w : State} {b : BerthId} {q : ReqBits} {code : BitVec 4} {k : ReqCode} {op : BitVec 8} {res : Result}

/-! ## The rows of R107 -/

/-- Row 1: a code field of 9 to 15 is no request code. -/
theorem State.judge_of_unknown (h : 9 ≤ code.toNat) : u.judge b code op = (u, .final .invalid) := by
  rw [State.judge, ReqCode.ofCode?_of_unknown h]

/-- Row 2: NONE. -/
theorem State.judge_none : u.judge b ReqCode.none.code op = (u, .final .none) := by
  rw [State.judge, ReqCode.ofCode?_code]
  exact if_pos rfl

/-- The rows below the second, of a known code that is not NONE. -/
theorem State.judge_known (hk : k ≠ .none) :
    u.judge b k.code op =
      if (u.berth b).state = .adopting then (u, .final .busy)
      else if (u.berth b).request.isSome ∧ k ≠ .abort then (u, .final .busy)
      else if u.timer.maint ∧ k.passesMaint = false then (u, .final .maint)
      else u.owner b k op := by
  rw [State.judge, ReqCode.ofCode?_code]
  exact if_neg hk

/-- Row 3: a berth in ADOPTING. -/
theorem State.judge_of_adopting (hk : k ≠ .none) (h : (u.berth b).state = .adopting) :
    u.judge b k.code op = (u, .final .busy) := by
  rw [State.judge_known hk, if_pos h]

/-- Row 4: a request in progress, which ABORT alone may end. -/
theorem State.judge_of_request (hk : k ≠ .none) (hst : (u.berth b).state ≠ .adopting) (hr : (u.berth b).request ≠ none)
    (ha : k ≠ .abort) : u.judge b k.code op = (u, .final .busy) := by
  rw [State.judge_known hk, if_neg hst, if_pos ⟨Option.isSome_iff_ne_none.mpr hr, ha⟩]

/-- Rows 5 and 6, with no request in progress. -/
theorem State.judge_of_idle (hk : k ≠ .none) (hst : (u.berth b).state ≠ .adopting) (hr : (u.berth b).request = none) :
    u.judge b k.code op =
      if u.timer.maint ∧ k.passesMaint = false then (u, .final .maint) else u.owner b k op := by
  rw [State.judge_known hk, if_neg hst, if_neg]
  rintro ⟨hsome, -⟩
  exact Option.isSome_iff_ne_none.mp hsome hr

/-- Row 5 leaves ABORT, DISCONNECT and RELEASE alone. -/
theorem ReqCode.passesMaint_eq_false (h1 : k ≠ .abort) (h2 : k ≠ .disconnect) (h3 : k ≠ .release) :
    k.passesMaint = false := by
  cases k
  case abort => exact absurd rfl h1
  case disconnect => exact absurd rfl h2
  case release => exact absurd rfl h3
  all_goals rfl

/-- Row 5: MAINT. -/
theorem State.judge_of_maint (hk : k ≠ .none) (hst : (u.berth b).state ≠ .adopting) (hr : (u.berth b).request = none)
    (hm : u.timer.maint = true) (hp : k.passesMaint = false) : u.judge b k.code op = (u, .final .maint) := by
  rw [State.judge_of_idle hk hst hr, if_pos ⟨hm, hp⟩]

/-- Row 6: with MAINT released and no request in progress a code comes to its owner (R110). -/
theorem State.judge_of_free (hk : k ≠ .none) (hst : (u.berth b).state ≠ .adopting) (hr : (u.berth b).request = none)
    (hm : u.timer.maint = false) : u.judge b k.code op = u.owner b k op := by
  rw [State.judge_of_idle hk hst hr, if_neg]
  rintro ⟨hmaint, -⟩
  exact Bool.false_ne_true (hm.symm.trans hmaint)

/-! ## A taken request -/

/-- The state in which a new request is judged: its write passed and its toggles taken (R106). -/
def State.reqTaken (s : State) (b : BerthId) (code : BitVec 4) (q : ReqBits) : State :=
  (s.passedWrite (s.tables.reqAddress b) (reqWord code q)).examined b q.toggle

theorem State.berth_reqTaken (s : State) (b : BerthId) (code : BitVec 4) (q : ReqBits) :
    (s.reqTaken b code q).berth b = { s.berth b with lastTaken := q.toggle, answered := q.toggle, phase := .final } :=
  State.berth_examined _ _ _

/-- The taking of a request shows in the toggles and the answer phase alone (R106). -/
theorem State.state_reqTaken (s : State) (b : BerthId) (code : BitVec 4) (q : ReqBits) :
    ((s.reqTaken b code q).berth b).state = (s.berth b).state := by rw [State.berth_reqTaken]

theorem State.request_reqTaken (s : State) (b : BerthId) (code : BitVec 4) (q : ReqBits) :
    ((s.reqTaken b code q).berth b).request = (s.berth b).request := by rw [State.berth_reqTaken]

theorem State.mode_reqTaken (s : State) (b : BerthId) (code : BitVec 4) (q : ReqBits) :
    ((s.reqTaken b code q).berth b).mode = (s.berth b).mode := by rw [State.berth_reqTaken]

/-- A request that is judged without an effect is answered, and changes nothing else (R107). -/
theorem State.writesReq_answeredOnly (hs : s.serves b) (ht : q.toggle ≠ (s.berth b).lastTaken)
    (hj : (s.reqTaken b code q).judge b code q.operand = (s.reqTaken b code q, .final res)) :
    s.writesReq b code q = s.answeredOnly b q.toggle res (reqWord code q) :=
  State.writesReq_answered hs ht fun _ hu => hu ▸ hj

/-! ## SET_MODE (R111) -/

/-- SET_MODE in a state that takes it, with an operand that names no mode. -/
theorem State.ownSetMode_invalid (h : (u.berth b).state.takesMode = true) (ho : modeOfOperand op = none) :
    u.ownSetMode b op = (u, .final .invalid) := by
  rw [State.ownSetMode, if_pos h, ho]

/-- With the berth's own mode. -/
theorem State.ownSetMode_same (h : (u.berth b).state.takesMode = true) (ho : modeOfOperand op = some (u.berth b).mode) :
    u.ownSetMode b op = (u, .final .done) := by
  rw [State.ownSetMode, if_pos h, ho]
  exact if_pos rfl

/-- With the other mode. -/
theorem State.ownSetMode_other {m : Mode} (h : (u.berth b).state.takesMode = true) (ho : modeOfOperand op = some m)
    (hm : m ≠ (u.berth b).mode) : u.ownSetMode b op = (u.changeMode b m, .final .done) := by
  rw [State.ownSetMode, if_pos h, ho]
  exact if_neg hm

/-- An operand above 1 names no mode (R169). -/
theorem modeOfOperand_of_gt (h : 1 < op.toNat) : modeOfOperand op = none := by
  rw [modeOfOperand, if_neg (by rintro rfl; exact absurd h (by decide)), if_neg (by rintro rfl; exact absurd h (by decide))]

/-- A new SET_MODE of a served berth in a state that takes it, with no request in progress and MAINT released. -/
structure State.AsksMode (s : State) (b : BerthId) (q : ReqBits) : Prop where
  serves : s.serves b
  fresh : q.toggle ≠ (s.berth b).lastTaken
  maint : s.timer.maint = false
  idle : (s.berth b).request = none
  takes : (s.berth b).state.takesMode = true

/-- The state in which a SET_MODE is judged. -/
abbrev State.modeTaken (s : State) (b : BerthId) (q : ReqBits) : State := s.reqTaken b ReqCode.setMode.code q

namespace State.AsksMode

/-- SET_MODE comes to its owner (R107, R110). -/
theorem judged (h : s.AsksMode b q) :
    (s.modeTaken b q).judge b ReqCode.setMode.code q.operand = (s.modeTaken b q).ownSetMode b q.operand := by
  have hne : (s.berth b).state ≠ .adopting := fun he => by
    have htakes := h.takes
    rw [he] at htakes
    exact Bool.false_ne_true htakes
  refine State.judge_of_free (by decide) ?_ ?_ h.maint
  · rwa [State.state_reqTaken]
  · rw [State.request_reqTaken, h.idle]

theorem takes_taken (h : s.AsksMode b q) : ((s.modeTaken b q).berth b).state.takesMode = true := by
  rw [State.state_reqTaken, h.takes]

/-- An operand that names no mode is answered INVALID without an effect. -/
theorem invalid (h : s.AsksMode b q) (ho : modeOfOperand q.operand = none) :
    s.writesReq b ReqCode.setMode.code q = s.answeredOnly b q.toggle .invalid (reqWord ReqCode.setMode.code q) :=
  State.writesReq_answeredOnly h.serves h.fresh (h.judged.trans (State.ownSetMode_invalid h.takes_taken ho))

/-- The berth's own mode is answered DONE without an effect. -/
theorem same (h : s.AsksMode b q) (ho : modeOfOperand q.operand = some (s.berth b).mode) :
    s.writesReq b ReqCode.setMode.code q = s.answeredOnly b q.toggle .done (reqWord ReqCode.setMode.code q) := by
  refine State.writesReq_answeredOnly h.serves h.fresh (h.judged.trans (State.ownSetMode_same h.takes_taken ?_))
  rw [State.mode_reqTaken, ho]

/-- Another mode is changed to and answered DONE. -/
theorem changes {m : Mode} (h : s.AsksMode b q) (ho : modeOfOperand q.operand = some m) (hm : m ≠ (s.berth b).mode) :
    s.writesReq b ReqCode.setMode.code q =
      (((s.modeTaken b q).changeMode b m).answer b ReqCode.setMode.code q.toggle q.operand (.final .done)).endEvent := by
  refine State.writesReq_judged h.serves h.fresh (h.judged.trans (State.ownSetMode_other h.takes_taken ho ?_))
  rwa [State.mode_reqTaken]

end State.AsksMode

/-! ## A change of mode (R9, R111) -/

/-- What a change of mode brings to a berth before its report (R9, R111). -/
def State.modeSet (u : State) (b : BerthId) (m : Mode) : State := u.setBerth b { u.berth b with mode := m }

/-- On a change to AUTO the held writes are cancelled, and in SHORE GEN_RELEASE=RELEASE is queued. -/
def State.autoSet (u : State) (b : BerthId) : State :=
  if (u.berth b).state = .shore then ((u.modeSet b .auto).cancelHolds b).seqWrite b .genRelease genRelease
  else (u.modeSet b .auto).cancelHolds b

theorem State.changeMode_manual (u : State) (b : BerthId) :
    u.changeMode b .manual = (u.modeSet b .manual).reportState b (u.berth b).state (u.berth b).mode := rfl

/-- No state that takes SET_MODE has a manual ENGAGE claim to withdraw. -/
theorem State.changeMode_auto (h : (u.berth b).state.takesMode = true) :
    u.changeMode b .auto = (u.autoSet b).reportState b (u.berth b).state (u.berth b).mode := by
  have hn : (u.berth b).state ≠ .engaging := fun he => by
    rw [he] at h
    exact Bool.false_ne_true h
  unfold State.changeMode
  dsimp only
  rw [if_neg hn]
  rfl

/-- The outcome of a request that ends DONE with a STATE report, from the state `w` that its effects leave: one RSP write and the
STATE record. -/
def State.reportedDone (w : State) (b : BerthId) (old : BState) (m : Mode) : State :=
  { w with
    berths := w.berths.set b ((w.berth b).concluded .done)
    owq := placeWrite w.owq (w.rspEntry b ((w.berth b).concluded .done))
    log := w.log.stage (w.stateRecord b old m (w.berth b).state (w.berth b).mode) }

/-- A STATE report and the answer DONE: one RSP write carries both (R21, R24, R108, R139). -/
theorem State.reportState_answer_eq (w : State) (b : BerthId) (old : BState) (m : Mode) (code : BitVec 4) (toggle : Bool)
    (op : BitVec 8) : (w.reportState b old m).answer b code toggle op (.final .done) = w.reportedDone b old m := by
  rw [State.answer_final_eq, State.reportedDone]
  congr 1
  exact rsp_twice w b (w.berth b) ((w.berth b).concluded .done) w.owq

/-- With the event's marks clear it is the whole outcome (R91, R103). -/
theorem State.reportedDone_ends (h1 : w.budget.serviceDue = false) (h2 : w.budget.testDue = false) (old : BState) (m : Mode)
    (code : BitVec 4) (toggle : Bool) (op : BitVec 8) :
    ((w.reportState b old m).answer b code toggle op (.final .done)).endEvent = w.reportedDone b old m := by
  rw [State.reportState_answer_eq]
  exact (State.endEvent_of_quiet (s := w.reportedDone b old m) h1 h2).trans (clearMarks_quiet (w.reportedDone b old m) h1 h2)

/-- The record of a berth whose SET_MODE has changed its mode (R111). -/
def Berth.modeAnswered (r : Berth) (m : Mode) (toggle : Bool) : Berth := ({ r with mode := m } : Berth).answeredFinal toggle .done

theorem State.berth_modeSet (s : State) (b : BerthId) (q : ReqBits) (m : Mode) :
    ((s.modeTaken b q).modeSet b m).berth b =
      { s.berth b with lastTaken := q.toggle, answered := q.toggle, phase := .final, mode := m } := by
  rw [State.modeSet, State.berth_setBerth_same, State.berth_reqTaken]

theorem State.berths_modeSet (s : State) (b : BerthId) (q : ReqBits) (m : Mode) (r : Berth) :
    ((s.modeTaken b q).modeSet b m).berths.set b r = s.berths.set b r := by
  have hberths : ((s.modeTaken b q).modeSet b m).berths = (s.berths.set b _).set b _ := rfl
  rw [hberths, Eight.set_set, Eight.set_set]

/-! ## To MANUAL -/

/-- A change to MANUAL is the mode field, the answer and the STATE record (R111). -/
theorem State.reportedDone_manual (s : State) (b : BerthId) (q : ReqBits) :
    ((s.modeTaken b q).modeSet b .manual).reportedDone b (s.berth b).state .auto =
      { s.passedWrite (s.tables.reqAddress b) (reqWord ReqCode.setMode.code q) with
        berths := s.berths.set b ((s.berth b).modeAnswered .manual q.toggle)
        owq := placeWrite s.owq (s.rspEntry b ((s.berth b).modeAnswered .manual q.toggle))
        log := s.log.stage (s.stateRecord b (s.berth b).state .auto (s.berth b).state .manual) } := by
  rw [State.reportedDone, State.berths_modeSet, State.berth_modeSet]
  rfl

/-! ## To AUTO -/

/-- The Own Write Queue, the Hold Queue and the log apart, a change to AUTO is the mode field. -/
theorem State.autoSet_field {α : Type} (f : State → α) (hq : ∀ (u : State) q, f (u.setOwq q) = f u)
    (hl : ∀ (u : State) l g, f ((u.setHolds l).setLog g) = f u) (u : State) (b : BerthId) :
    f (u.autoSet b) = f (u.modeSet b .auto) := by
  have hcancel : f ((u.modeSet b .auto).cancelHolds b) = f (u.modeSet b .auto) := State.cancelList_field f hl _ _
  unfold State.autoSet
  split
  · exact (hq _ _).trans hcancel
  · exact hcancel

theorem State.autoSet_holds (u : State) (b : BerthId) : (u.autoSet b).holds = ((u.modeSet b .auto).cancelHolds b).holds := by
  unfold State.autoSet
  split
  · rfl
  · rfl

theorem State.autoSet_log (u : State) (b : BerthId) : (u.autoSet b).log = ((u.modeSet b .auto).cancelHolds b).log := by
  unfold State.autoSet
  split
  · rfl
  · rfl

theorem State.autoSet_owq_of_shore (h : (u.berth b).state = .shore) :
    (u.autoSet b).owq = placeWrite u.owq (u.seqEntry b .genRelease genRelease) := by
  have htables : ((u.modeSet b .auto).cancelHolds b).tables = u.tables := State.cancelHolds_tables _ _
  rw [State.autoSet, if_pos h]
  show placeWrite _ (State.seqEntry _ b .genRelease genRelease) = _
  rw [State.cancelHolds_owq, seqEntry_congr htables]
  rfl

theorem State.autoSet_owq_of_not_shore (h : (u.berth b).state ≠ .shore) : (u.autoSet b).owq = u.owq := by
  rw [State.autoSet, if_neg h, State.cancelHolds_owq]
  rfl

/-- What a change to AUTO leaves (R9, R111, R127). -/
theorem State.reportedDone_auto (s : State) (b : BerthId) (q : ReqBits) {t : State}
    (ht : t = ((s.modeTaken b q).autoSet b).reportedDone b (s.berth b).state .manual) :
    t.berth b = (s.berth b).modeAnswered .auto q.toggle ∧ (∀ h ∈ t.holds, h.berth ≠ b) ∧ t.chans = s.chans ∧ t.sups = s.sups
      ∧ s.sameMemory t ∧ (∀ c, c ≠ b → t.berth c = s.berth c)
      ∧ ((s.berth b).state = .shore →
        t.owq = placeWrite (placeWrite s.owq (s.seqEntry b .genRelease genRelease)) (s.rspEntry b (t.berth b)))
      ∧ ((s.berth b).state ≠ .shore → t.owq = placeWrite s.owq (s.rspEntry b (t.berth b)))
      ∧ t.log = (s.log.stageAll ((s.holdsOf b).map fun h => s.holdRecord .holdCancelled h)).stage
        (s.stateRecord b (s.berth b).state .manual (s.berth b).state .auto) := by
  have field := fun {α : Type} (f : State → α) hq hl => State.autoSet_field f hq hl (s.modeTaken b q) b
  have hset : ((s.modeTaken b q).autoSet b).berth b = _ :=
    (field (fun u => u.berth b) (fun _ _ => rfl) (fun _ _ _ => rfl)).trans (s.berth_modeSet b q .auto)
  have hberths : ((s.modeTaken b q).autoSet b).berths = _ := field State.berths (fun _ _ => rfl) (fun _ _ _ => rfl)
  have htables : ((s.modeTaken b q).autoSet b).tables = s.tables := field State.tables (fun _ _ => rfl) (fun _ _ _ => rfl)
  have hscan : ((s.modeTaken b q).autoSet b).scan = s.scan := field State.scan (fun _ _ => rfl) (fun _ _ _ => rfl)
  have hpim : ((s.modeTaken b q).autoSet b).pim = s.pim := field State.pim (fun _ _ => rfl) (fun _ _ _ => rfl)
  have hanswer : t.berths = s.berths.set b ((s.berth b).modeAnswered .auto q.toggle) := by
    rw [ht, State.reportedDone, hset, hberths, State.berths_modeSet]
    rfl
  have hown : t.berth b = (s.berth b).modeAnswered .auto q.toggle := by
    rw [State.berth, hanswer, Eight.get_set_same]
  have howq : t.owq = placeWrite ((s.modeTaken b q).autoSet b).owq (s.rspEntry b (t.berth b)) := by
    rw [hown, ht, State.reportedDone, hset, rspEntry_congr htables]
    rfl
  refine ⟨hown, fun h hm => ?_, ?_, ?_, fun a => ?_, fun c hc => ?_, fun hst => ?_, fun hst => ?_, ?_⟩
  · rw [ht, State.reportedDone, State.autoSet_holds] at hm
    exact (State.no_hold_of_cancelHolds hm).2
  · rw [ht, State.reportedDone]
    exact field State.chans (fun _ _ => rfl) (fun _ _ _ => rfl)
  · rw [ht, State.reportedDone]
    exact field State.sups (fun _ _ => rfl) (fun _ _ _ => rfl)
  · rw [State.pimRead, ht, State.reportedDone, hpim]
    rfl
  · rw [State.berth, hanswer, Eight.get_set_of_ne _ _ hc]
    rfl
  · rw [howq, State.autoSet_owq_of_shore ((s.state_reqTaken b _ q).trans hst)]
    rfl
  · rw [howq, State.autoSet_owq_of_not_shore (fun h => hst ((s.state_reqTaken b _ q).symm.trans h))]
    rfl
  · have hrecord : ((s.modeTaken b q).autoSet b).stateRecord b (s.berth b).state .manual (s.berth b).state .auto =
        s.stateRecord b (s.berth b).state .manual (s.berth b).state .auto := by
      rw [State.stateRecord, hscan, State.stateRecord]
    have hlog : ((s.modeTaken b q).autoSet b).log =
        s.log.stageAll ((s.holdsOf b).map fun h => s.holdRecord .holdCancelled h) := by
      rw [State.autoSet_log, State.cancelHolds_log]
      rfl
    rw [ht, State.reportedDone, hset, hrecord, hlog]

end Sys2Proof.Machine

open Sys2Proof Sys2Proof.Machine

/-- Settles O23, by the toggle, then by the first row of R107 that applies. -/
theorem intakeRowsAnswerAtOnce : Obligations.IntakeRowsAnswerAtOnce := by
  intro s b q hs
  have answered : ∀ {k : ReqCode} {res : Result}, q.toggle ≠ (s.berth b).lastTaken →
      (s.reqTaken b k.code q).judge b k.code q.operand = (s.reqTaken b k.code q, .final res) →
      exec (reqCommand k b q) s = .next (s.answeredOnly b q.toggle res (reqWord k.code q)) := fun ht hj =>
    (exec_reqCommand _ b q s).trans (congrArg _ (State.writesReq_answeredOnly hs ht hj))
  refine ⟨fun ht => ⟨fun k => ?_, fun code => ?_⟩, fun ht => ⟨fun code hcode => ?_, ?_, fun k hk => ⟨fun hst => ?_,
    fun hst hr ha => ?_, fun hst hr hm h1 h2 h3 => ?_⟩⟩⟩
  · exact (exec_reqCommand k b q s).trans (congrArg _ (State.writesReq_repeated hs k.code q ht))
  · exact (exec_reqInvalidCode b code q s).trans (congrArg _ (State.writesReq_repeated hs code q ht))
  · exact (exec_reqInvalidCode b code q s).trans
      (congrArg _ (State.writesReq_answeredOnly hs ht (State.judge_of_unknown hcode)))
  · exact answered ht State.judge_none
  · exact answered ht (State.judge_of_adopting hk ((s.state_reqTaken b _ q).trans hst))
  · refine answered ht (State.judge_of_request hk ?_ ?_ ha)
    · rwa [State.state_reqTaken]
    · rwa [State.request_reqTaken]
  · refine answered ht (State.judge_of_maint hk ?_ ?_ hm (ReqCode.passesMaint_eq_false h1 h2 h3))
    · rwa [State.state_reqTaken]
    · rwa [State.request_reqTaken]

/-- Settles O30, by the operand: no mode, the berth's own mode, MANUAL, AUTO. -/
theorem setModeChangesModeAlone : Obligations.SetModeChangesModeAlone := by
  intro s b q hs ht hm hr hst
  have htakes : (s.berth b).state.takesMode = true := by
    rcases hst with h | h | h | h | h
    all_goals rw [h]; rfl
  have h : s.AsksMode b q := ⟨hs, ht, hm, hr, htakes⟩
  rw [exec_reqSetMode]
  refine ⟨fun ho => congrArg _ (h.invalid (modeOfOperand_of_gt ho)), fun ho => congrArg _ (h.same ?_), fun ho hmode => ?_,
    fun ho hmode => ?_⟩
  · rcases ho with ⟨ho, hmode⟩ | ⟨ho, hmode⟩
    · rw [ho, hmode]
      rfl
    · rw [ho, hmode]
      rfl
  · have hmanual : modeOfOperand q.operand = some .manual := by
      rw [ho]
      rfl
    rw [h.changes hmanual (by rw [hmode]; decide), State.changeMode_manual, State.state_reqTaken, State.mode_reqTaken, hmode,
      State.reportedDone_ends rfl rfl, State.reportedDone_manual]
    rfl
  · have hauto : modeOfOperand q.operand = some .auto := by
      rw [ho]
      rfl
    have hbudget : ((s.modeTaken b q).autoSet b).budget = s.clearMarks.budget :=
      State.autoSet_field State.budget (fun _ _ => rfl) (fun _ _ _ => rfl) _ _
    rw [h.changes hauto (by rw [hmode]; decide), State.changeMode_auto h.takes_taken, State.state_reqTaken,
      State.mode_reqTaken, hmode, State.reportedDone_ends (by rw [hbudget]; rfl) (by rw [hbudget]; rfl)]
    obtain ⟨hberth, hholds, hchans, hsups, hpim, hothers, hshore, helse, hlog⟩ := s.reportedDone_auto b q rfl
    refine ⟨_, rfl, hberth, hholds, hchans, hsups, hpim, hothers, hshore, helse, fun hnone => ?_, fun x hone => ?_⟩
    · rw [hlog, hnone]
      rfl
    · rw [hlog, hone]
      rfl

end

section
/-! The last-taken and the answered toggle of a berth (R105): every effect that writes the one writes the other with it, and no command
but an image word and a reset builds a record anew. -/

namespace Sys2Proof.Machine

variable {s t : State}

/-- Equal toggles are a matter of the Berth Records alone. -/
theorem State.togglesEqual_of_berths (h : t.berths = s.berths) (hs : s.togglesEqual) : t.togglesEqual := by
  unfold State.togglesEqual State.berth
  rw [h]
  exact hs

/-- A record with equal toggles keeps them equal. -/
theorem State.togglesEqual_setBerth {b : BerthId} {r : Berth} (hr : r.lastTaken = r.answered) (hs : s.togglesEqual) :
    (s.setBerth b r).togglesEqual := by
  intro c
  by_cases hc : c = b
  · rw [hc, State.berth_setBerth_same]
    exact hr
  · rw [State.berth_setBerth_of_ne _ _ hc]
    exact hs c

/-- No effect of an event parts the toggles: a request takes both (R106), and nothing else writes either. -/
theorem State.togglesEqual_kept : Kept State.togglesEqual where
  berth := fun _ b _ _ htaken hanswered _ h => State.togglesEqual_setBerth (htaken.trans ((h b).trans hanswered.symm)) h
  sup := fun _ _ _ h => h
  budget := fun _ _ _ h => h
  holds := fun _ _ h => h
  seqWrite := fun _ _ _ _ h => h
  tripWrite := fun _ _ h => h
  queueRsp := fun _ _ h => h
  record := fun _ _ _ _ _ _ h => h
  statusChanged := fun _ h => h
  grantedChanged := fun _ h => h
  enters := fun _ b _ h => State.togglesEqual_setBerth (h b) h
  toggle := fun _ _ _ h => State.togglesEqual_setBerth rfl h
  loadStep := fun _ _ _ h => h
  stopStep := fun _ _ h => h
  loadSettle := fun _ _ h => h
  stopSettle := fun _ _ h => h
  stopChannels := fun _ _ h => h
  queueGroupRsp := fun _ _ _ h => h
  groupTaken := fun _ _ _ h => h
  passWrite := fun _ _ _ h => h

/-! ## What leaves every Berth Record alone -/

theorem State.berths_discardWrite (s : State) : s.discardWrite.berths = s.berths := by
  unfold State.discardWrite
  split
  · rfl
  · rfl

theorem State.berths_setCapacity (s : State) (c : Nat) : (s.setCapacity c).berths = s.berths := by
  unfold State.setCapacity
  split
  · rfl
  · rfl

theorem State.berths_releaseReset (s : State) : s.releaseReset.berths = s.berths := by
  unfold State.releaseReset
  split
  · rfl
  · rfl

theorem State.berths_reload (s : State) : s.reload.berths = s.berths := by
  unfold State.reload
  split
  · rfl
  · rfl

theorem State.berths_assertMaint (s : State) : s.assertMaint.berths = s.berths := by
  unfold State.assertMaint
  dsimp only
  split
  · rfl
  · rfl

theorem State.berths_releaseMaint (s : State) : s.releaseMaint.berths = s.berths := by
  unfold State.releaseMaint
  dsimp only
  split
  · rfl
  · rfl

/-! ## Every step -/

/-- The Scan Engine replaces the latest result of a record and none of its toggles. -/
theorem State.togglesEqual_keptByScan : KeptByScan State.togglesEqual :=
  State.togglesEqual_kept.moves.byScan (fun _ _ _ h => h) (fun s h => State.togglesEqual_of_berths s.berths_discardWrite h)
    (fun _ _ _ h => h) (fun _ b _ h => State.togglesEqual_setBerth (h b) h) (fun _ _ h => h)
    (fun s c h => State.togglesEqual_of_berths (s.berths_setCapacity c) h)

/-- A start-up read takes both toggles (R22, R165); the other commands of start-up, the port, the ticks and MAINT leave every toggle. -/
theorem State.togglesEqual_keptByCommand : KeptByCommand State.togglesEqual :=
  State.togglesEqual_keptByScan.byCommand
    (releaseReset := fun s h => State.togglesEqual_of_berths s.berths_releaseReset h)
    (loader := fun _ _ h => h)
    (toggles := fun _ _ _ h => State.togglesEqual_setBerth rfl h)
    (running := fun _ _ h => h)
    (pim := fun _ _ _ h => h)
    (ports := fun _ _ h => h)
    (owqTail := fun _ h => h)
    (owqRemove := fun _ _ h => h)
    (logGranted := fun _ _ h => h)
    (logCompleted := fun _ _ _ h => h)
    (owed := fun _ _ _ h => h)
    (reload := fun s h => State.togglesEqual_of_berths s.berths_reload h)
    (tickFalls := fun _ h => h)
    (tickStep := fun _ _ _ h => h)
    (tickSettle := fun _ _ h => h)
    (assertMaint := fun s h => State.togglesEqual_of_berths s.berths_assertMaint h)
    (releaseMaint := fun s h => State.togglesEqual_of_berths s.berths_releaseMaint h)

/-- A record built from the image starts with both toggles at 0 (R22). -/
theorem builtBerth_toggles (t : Tables) (b : BerthId) : (builtBerth t b).lastTaken = (builtBerth t b).answered := by
  unfold builtBerth
  split
  · rfl
  · rfl

theorem State.berth_install (s : State) (ws : List Word) (b : BerthId) : (s.install ws).berth b = builtBerth (tablesOf ws) b := by
  cases b <;> rfl

/-- Every record that a reset leaves is the blank one (R162). -/
theorem State.togglesEqual_assertReset (s : State) (landed : Bool) : (s.assertReset landed).togglesEqual := by
  intro b
  have hblank : (s.assertReset landed).berth b = Berth.blank := Eight.get_fill _ b
  rw [hblank]
  rfl

/-- Every step keeps the toggles equal: the records that an image word or a reset builds start with both toggles alike. -/
theorem State.togglesEqual_keptByStep : KeptByStep State.togglesEqual where
  toKeptByCommand := State.togglesEqual_keptByCommand
  queue := fun _ _ h => h
  assertReset := fun s landed _ => s.togglesEqual_assertReset landed
  imageWord := fun _ w h => imageWord_of State.togglesEqual w (fun _ _ h => h) (fun _ _ _ _ h => h)
    (fun s ws _ _ _ b => by rw [s.berth_install ws b]; exact builtBerth_toggles _ b) h

end Sys2Proof.Machine

open Sys2Proof Sys2Proof.Machine

/-- Settles O11, by the property that every step keeps. -/
theorem togglesStayEqual : Obligations.TogglesStayEqual := fun _ _ hs ht => State.togglesEqual_keptByStep.step hs ht

end

section
/-! The Manual Guard's rows for a berth in MANUAL and the end of a held write (07, sections 7.2 to 7.5): an OPEN, NONE or CLOSE by hand,
and the expiry of a held write, with what a berth leaves as its BUDGET entry goes (R118, R122, R124 to R126). -/

namespace Sys2Proof.Machine

variable {s u v : State} {b : BerthId} {a d : Word} {w : BreakerWord} {h x : Hold} {c : Claim}

/-! ## The Hold Queue through the end of an event -/

theorem mem_dropHold {l : List Hold} : x ∈ dropHold l a ↔ x ∈ l ∧ x.address ≠ a := by
  simp [dropHold]

/-- A grant notice takes at most the entry released from the Hold Queue, one of its own berth (R120). -/
theorem State.grantNotice_holds (s : State) (b : BerthId) :
    (s.grantNotice b).holds = s.holds
      ∨ ∃ e ∈ s.holds, e.berth = b ∧ (s.grantNotice b).holds = dropHold s.holds e.address := by
  unfold State.grantNotice
  split
  · split
    · split
      · exact .inl rfl
      · exact .inl rfl
    · exact .inl rfl
  · dsimp only
    split
    · next e hfor =>
      have hown := List.find?_some hfor
      rw [Bool.and_eq_true, decide_eq_true_eq, decide_eq_true_eq] at hown
      exact .inr ⟨e, List.mem_of_find?_eq_some hfor, hown.1, rfl⟩
    · exact .inl rfl
  · exact .inl rfl

/-- A granted ENGAGE claim takes at most the entry released from the Hold Queue, one of its own berth (R90, R120). -/
theorem State.grantEngage_holds (s : State) (c : Claim) :
    (s.grantEngage c).holds = s.holds
      ∨ ∃ e ∈ s.holds, e.berth = c.berth ∧ (s.grantEngage c).holds = dropHold s.holds e.address :=
  State.grantNotice_holds ((s.setBudget { s.budget with claims := dropClaim s.budget.claims c.berth }).takeBase c.berth) c.berth

theorem State.mem_of_mem_grantEngage (hx : x ∈ (s.grantEngage c).holds) : x ∈ s.holds := by
  rcases s.grantEngage_holds c with hsame | ⟨e, -, -, hdrop⟩
  · rwa [hsame] at hx
  · rw [hdrop] at hx
    exact (mem_dropHold.mp hx).1

/-- A service pass adds nothing to the Hold Queue (R89). -/
theorem State.mem_of_mem_serviceWalk {l : List Claim} (hx : x ∈ (s.serviceWalk l).holds) : x ∈ s.holds := by
  induction l generalizing s with
  | nil => exact hx
  | cons c rest ih =>
    rw [State.serviceWalk] at hx
    split at hx
    · split at hx
      · exact State.mem_of_mem_grantEngage (ih hx)
      · exact hx
    · split at hx
      · have hmem := ih hx
        rwa [(grantLevel_granted s c _).holds] at hmem
      · exact ih hx

/-- The end of an event adds nothing to the Hold Queue (R91). -/
theorem State.mem_of_mem_endEvent (hx : x ∈ s.endEvent.holds) : x ∈ s.holds := by
  rw [(endEvent_of_pass (s := s) rfl).holds] at hx
  split at hx
  · exact State.mem_of_mem_serviceWalk hx
  · exact hx

/-! ## Out of ENGAGING in MANUAL (R120, R125, R126, R128) -/

/-- What a MANUAL berth leaves as it goes from ENGAGING to CABLED: its claim withdrawn or its grant returned, its state reported. -/
structure LeftManual (u v : State) (b : BerthId) : Prop where
  berth : v.berth b = { (u.berth b).entered .cabled with baseGrant := 0 }
  noClaim : v.noClaim b
  claims : ∀ c ∈ v.budget.claims, c ∈ u.budget.claims
  chans : v.chans = u.chans
  holds : v.holds = u.holds
  owq : v.owq = placeWrite u.owq (u.rspEntry b (v.berth b))
  staging : ∃ more, v.log.staging = u.log.staging ++ more
  tables : v.tables = u.tables
  pim : v.pim = u.pim

theorem State.leaveManualEngaging_left (u : State) (b : BerthId) : LeftManual u (u.leaveManualEngaging b .cabled) b := by
  obtain ⟨hnone, hclaims⟩ := giveUp_noClaim (u.enter b .cabled) b
  have hlog := (giveUp_log (u.enter b .cabled) b).staging
  have htables : ((u.enter b .cabled).giveUpGrant b).tables = u.tables := by simp [State.giveUpGrant, State.enter]
  have howq : ((u.enter b .cabled).giveUpGrant b).owq = u.owq := by simp [State.giveUpGrant, State.enter]
  refine ⟨?_, hnone, hclaims, ?_, ?_, ?_, ?_, htables, ?_⟩
  · show ((u.enter b .cabled).giveUpGrant b).berth b = _
    rw [State.giveUpGrant, State.berth_returnBase_same, State.berth_withdrawClaim, berth_enter]
  · show ((u.enter b .cabled).giveUpGrant b).chans = _
    simp [State.giveUpGrant, State.enter]
  · show ((u.enter b .cabled).giveUpGrant b).holds = _
    simp [State.giveUpGrant, State.enter]
  · show placeWrite _ (State.rspEntry _ b (((u.enter b .cabled).giveUpGrant b).berth b)) = _
    rw [howq, rspEntry_congr htables]
    rfl
  · obtain ⟨more, hmore⟩ := Log.stage_staging ((u.enter b .cabled).giveUpGrant b).log
      (((u.enter b .cabled).giveUpGrant b).stateRecord b .engaging (u.berth b).mode
        (((u.enter b .cabled).giveUpGrant b).berth b).state (((u.enter b .cabled).giveUpGrant b).berth b).mode)
    exact ⟨more, hmore.trans (congrArg (· ++ more) hlog)⟩
  · show ((u.enter b .cabled).giveUpGrant b).pim = _
    simp [State.giveUpGrant, State.enter]

theorem State.ports_leaveManualEngaging (u : State) (b : BerthId) : (u.leaveManualEngaging b .cabled).ports = u.ports := by
  show ((u.enter b .cabled).giveUpGrant b).ports = _
  simp [State.giveUpGrant, State.enter]

/-- A write passed on the way stands at the host port alone. -/
theorem LeftManual.passWrite (hleft : LeftManual u v b) (a d : Word) : LeftManual u (v.passWrite a d) b :=
  { hleft with }

/-- What the end of a BUDGET entry leaves at the end of its event: CABLED, no claim, the entry gone with its record. -/
structure BudgetHoldEnded (u t : State) (b : BerthId) (k : RecType) (h : Hold) : Prop where
  berth : t.berth b = { (u.berth b).entered .cabled with baseGrant := 0 }
  noClaim : t.noClaim b
  gone : ∀ x ∈ t.holds, x.address ≠ h.address
  staging : ∃ more, t.log.staging = (u.log.stage (u.holdRecord k h)).staging ++ more
  memory : u.sameMemory t
  chan : t.chan b = u.chan b

/-- A BUDGET entry ends with a record, and its berth goes to CABLED (R125, R126). -/
theorem LeftManual.ends {k : RecType} (hleft : LeftManual (u.endHold k h) v b) : BudgetHoldEnded u v.endEvent b k h := by
  have hapart := Apart.endEvent hleft.noClaim
  refine ⟨hapart.berth.trans hleft.berth, hapart.noClaim hleft.noClaim, fun x hx => ?_, ?_,
    fun a => ?_, ?_⟩
  · have hheld := State.mem_of_mem_endEvent hx
    rw [hleft.holds] at hheld
    exact (mem_dropHold.mp hheld).2
  · obtain ⟨m1, h1⟩ := hleft.staging
    obtain ⟨m2, h2⟩ := hapart.staging
    refine ⟨m1 ++ m2, h2.trans ?_⟩
    rw [← List.append_assoc]
    exact congrArg (· ++ m2) h1
  · rw [State.pimRead, (State.endEvent_frame _).pim]
    exact congrArg (Memory.read · a.toNat) hleft.pim
  · rw [hapart.chan]
    exact congrArg (Eight.get · b) hleft.chans

/-! ## The rows of R118 -/

/-- A write to a breaker word of a berth in MANUAL is the Manual Guard's row (R118). -/
theorem State.writesCommand_of_manual (hs : s.serves b) (hm : (s.berth b).mode = .manual) (w : BreakerWord) (d : Word) :
    s.writesCommand b w.cmd d = (s.clearMarks.guardBreaker b w (s.tables.cmdAddress b w.cmd) d).endEvent := by
  rw [State.writesCommand_of_serves hs, State.commandWrite_breaker_of_manual (s := s.clearMarks) hm]

/-- OPEN or NONE with no entry at the address is passed (R118). -/
theorem State.guardBreaker_opening_free (hd : d = cmdOpen ∨ d = cmdNone) (hfree : s.holdAt a = none) :
    s.guardBreaker b w a d = s.passWrite a d := by
  simp only [State.guardBreaker, if_pos hd, hfree]

/-- OPEN or NONE over an entry cancels it first (R125). -/
theorem State.guardBreaker_opening_held (hd : d = cmdOpen ∨ d = cmdNone) (hheld : s.holdAt a = some h) :
    s.guardBreaker b w a d = (s.cancelByHost b h).passWrite a d := by
  simp only [State.guardBreaker, if_pos hd, hheld]

/-- CLOSE over an entry supersedes it (R124). -/
theorem State.guardBreaker_close_held (hheld : s.holdAt a = some h) : s.guardBreaker b w a cmdClose = s.supersede a cmdClose := by
  simp [State.guardBreaker, hheld, cmdClose, cmdOpen, cmdNone]

/-- A SYNC entry that is cancelled leaves its berth as it is (R125). -/
theorem State.cancelByHost_sync (hr : h.reason = .sync) : s.cancelByHost b h = s.endHold .holdCancelled h := by
  rw [State.cancelByHost, hr]

/-- A BUDGET entry that is cancelled brings its berth to CABLED (R125). -/
theorem State.cancelByHost_budget (hr : h.reason = .budget) :
    s.cancelByHost b h = (s.endHold .holdCancelled h).leaveManualEngaging b .cabled := by
  rw [State.cancelByHost, hr]

/-- A dead ship bus passes a manual close of the ship connection (R122). -/
theorem State.manualShipcon_dead {r : ScanResult} (hst : (s.berth b).state = .energized) (hl : (s.berth b).latest = some r)
    (hv : r.vShip ≤ s.threshold (s.static b).deadBusIndex) : s.manualShipcon b a d = s.passWrite a d := by
  rw [State.manualShipcon, if_pos hst, State.latestDeadBus, hl]
  exact if_pos (decide_eq_true hv)

/-- A live ship bus has it held for synchronism (R122). -/
theorem State.manualShipcon_live {r : ScanResult} (hst : (s.berth b).state = .energized) (hl : (s.berth b).latest = some r)
    (hv : s.threshold (s.static b).deadBusIndex < r.vShip) :
    s.manualShipcon b a d = (s.placeHold b .shipconBkr d .sync).setSyncCount b 0 := by
  have hlive : ¬ s.deadBus b r.vShip = true := fun hdead => absurd (of_decide_eq_true hdead) (Nat.not_le_of_lt hv)
  rw [State.manualShipcon, if_pos hst, State.latestDeadBus, hl]
  exact if_neg hlive

/-! ## The expiry of a held write (R126) -/

/-- The one entry of a berth, of count 1, is the entry that the tick brings to its expiry. -/
theorem State.lastHold_of_one (hone : s.holdsOf b = [h]) (hc : h.count = 1) : s.lastHold b = some h := by
  have hlast : s.lastHold b = (s.holdsOf b).find? fun x => decide (x.count ≤ 1) := by
    simp [State.lastHold, State.holdsOf, List.find?_filter]
  rw [hlast, hone]
  exact List.find?_cons_of_pos (p := fun x : Hold => decide (x.count ≤ 1)) (decide_eq_true (Nat.le_of_eq hc))

theorem State.berth_of_one (hone : s.holdsOf b = [h]) : h.berth = b := by
  have hmem : h ∈ s.holdsOf b := hone ▸ List.mem_singleton_self h
  exact of_decide_eq_true (List.mem_filter.mp hmem).2

/-- Under MAINT a tick that comes to held writes is spent there (R151; log 6). -/
theorem State.holdExpiry_under_maint (ho : (s.owed b).hold = true) (hm : s.timer.maint = true) :
    s.holdExpiry b = s.setOwed b { s.owed b with hold := false } := by
  have hnone : s.holdExpires b = none := by simp [State.holdExpires, hm]
  rw [State.holdExpiry_of_none hnone, State.reachHolds, if_pos ho, if_pos hm]

/-- With MAINT released the entry expires in an event of its own (R126). -/
theorem State.holdExpiry_expires (ho : (s.owed b).hold = true) (hm : s.timer.maint = false) (hl : s.lastHold b = some h) :
    s.holdExpiry b = ((s.setOwed b { s.owed b with hold := false }).clearMarks.expireHold h).endEvent := by
  have hsome : s.holdExpires b = some h := by simp [State.holdExpires, ho, hm, hl]
  rw [State.holdExpiry, hsome]
  rfl

end Sys2Proof.Machine

open Sys2Proof Sys2Proof.Machine

/-- Settles O39, by the Manual Guard's row for a CLOSE over an entry. -/
theorem closingWriteSupersedes : Obligations.ClosingWriteSupersedes := by
  intro s b w h hs hm hheld
  rw [exec_closeCommand, State.writesCommand_of_manual hs hm, State.guardBreaker_close_held (s := s.clearMarks) hheld,
    State.endEvent_of_quiet rfl rfl]
  rfl

/-- Settles O38, by the ship bus in the latest result. -/
theorem manualShipconPassedOrHeld : Obligations.ManualShipconPassedOrHeld := by
  intro s b r hs hm hst hfree hl
  have hguard : s.writesCommand b .shipconBkr cmdClose =
      (s.clearMarks.manualShipcon b (s.tables.cmdAddress b .shipconBkr) cmdClose).endEvent := by
    rw [← State.guardBreaker_shipconClose (s := s.clearMarks) hfree]
    exact State.writesCommand_of_manual hs hm .shipconBkr cmdClose
  rw [exec_shipconBkrClose]
  refine ⟨fun hdead => congrArg _ (hguard.trans ?_), fun hlive => congrArg _ (hguard.trans ?_)⟩
  · rw [State.manualShipcon_dead (s := s.clearMarks) hst hl hdead, State.endEvent_passWrite]
  · rw [State.manualShipcon_live (s := s.clearMarks) hst hl hlive, State.endEvent_of_quiet rfl rfl]
    rfl

/-- Settles O40, by the entry at the address: none, SYNC or BUDGET. -/
theorem openingWriteCancelsAndPasses : Obligations.OpeningWriteCancelsAndPasses := by
  intro s b w c d hs hm hc
  have hd : d = cmdOpen ∨ d = cmdNone := hc.imp And.right And.right
  have hexec : exec c s = .next (s.clearMarks.guardBreaker b w (s.tables.cmdAddress b w.cmd) d).endEvent := by
    rw [← State.writesCommand_of_manual hs hm]
    rcases hc with ⟨rfl, rfl⟩ | ⟨rfl, rfl⟩
    · exact exec_bkrWriteOpen b w s
    · exact exec_bkrWriteNone b w s
  rw [hexec]
  refine ⟨fun hfree => ?_, fun h hheld hr => ?_, fun h hheld hr => ?_⟩
  · rw [State.guardBreaker_opening_free (s := s.clearMarks) hd hfree, State.endEvent_passWrite]
  · rw [State.guardBreaker_opening_held (s := s.clearMarks) hd hheld, State.cancelByHost_sync hr,
      State.endEvent_of_quiet rfl rfl]
    rfl
  · rw [State.guardBreaker_opening_held (s := s.clearMarks) hd hheld, State.cancelByHost_budget hr]
    have hleft := (s.clearMarks.endHold .holdCancelled h).leaveManualEngaging_left b
    obtain ⟨hberth, hclaim, hgone, hlog, hmemory, hchan⟩ := (hleft.passWrite (s.tables.cmdAddress b w.cmd) d).ends
    refine ⟨_, rfl, hberth, hclaim, hgone, hlog, (State.endEvent_rest _).ports.trans ?_, hmemory, hchan⟩
    rw [State.passWrite, State.ports_leaveManualEngaging]
    rfl

/-- Settles O57: under MAINT the tick is spent on the entry; with MAINT released it expires by its reason. -/
theorem holdExpiryEndsTheWait : Obligations.HoldExpiryEndsTheWait := by
  intro s b h hone _ hcount howed
  have hlast := State.lastHold_of_one hone hcount
  rw [exec_holdExpiry]
  refine ⟨fun hm => congrArg _ (State.holdExpiry_under_maint howed hm), fun hm hr => ?_, fun hm hr => ?_⟩
  · rw [State.holdExpiry_expires howed hm hlast, State.expireHold, hr, State.endEvent_of_quiet rfl rfl]
    rfl
  · rw [State.holdExpiry_expires howed hm hlast, State.expireHold, hr, State.berth_of_one hone]
    obtain ⟨hberth, hclaim, hgone, hlog, hmemory, hchan⟩ := (State.leaveManualEngaging_left _ b).ends
    exact ⟨_, rfl, hberth, hgone, hlog, hclaim, hchan, hmemory⟩

end

section
/-! ABORT of a berth in MANUAL (07, section 7.6; R128): its held writes cancelled, a manual claim or a LEVEL claim withdrawn, nothing
opened, and the answer by whether anything changed. -/

namespace Sys2Proof.Machine

variable {s u v : State} {b : BerthId} {q : ReqBits} {c : Claim}

/-! ## Does a LEVEL claim wait? -/

theorem State.levelClaimWaits_of_noClaim (hn : u.noClaim b) : u.levelClaimWaits b = false := by
  have hnone : u.claimOf b = none := List.find?_eq_none.mpr fun c hc => by simpa using hn c hc
  rw [State.levelClaimWaits, hnone]

/-- A berth whose claims are one LEVEL claim has a LEVEL claim waiting. -/
theorem State.levelClaimWaits_of_level (hc : c ∈ u.budget.claims) (hb : c.berth = b) (hk : c.kind ≠ .engage)
    (hone : ∀ x ∈ u.budget.claims, x.berth = b → x = c) : u.levelClaimWaits b = true := by
  have hsome : u.claimOf b = some c := by
    cases hfind : u.claimOf b with
    | none => exact absurd (decide_eq_true hb) (List.find?_eq_none.mp hfind c hc)
    | some x =>
      have hx : x.berth = b := by simpa using List.find?_some hfind
      rw [hone x (List.mem_of_find?_eq_some hfind) hx]
  rw [State.levelClaimWaits, hsome]
  exact decide_eq_true hk

/-! ## ABORT in MANUAL by the state found (R128) -/

theorem State.abortManual_engaging (hst : (u.berth b).state = .engaging) :
    u.abortManual b = ((u.cancelHolds b).leaveManualEngaging b .cabled, .final .done) := by
  rw [State.abortManual, hst]

theorem State.abortManual_level (hst : (u.berth b).state = .shore) (hw : u.levelClaimWaits b = true) :
    u.abortManual b = ((u.cancelHolds b).abortLevel b, .final .done) := by
  rw [State.abortManual, hst, hw]
  rfl

/-- With no claim to withdraw it cancels the held writes and answers by whether there were any. -/
theorem State.abortManual_holds (hst : (u.berth b).state ≠ .engaging) (hn : (u.berth b).state = .shore → u.noClaim b) :
    u.abortManual b = (u.cancelHolds b, .final (if u.holdsOf b = [] then .refused else .done)) := by
  have hanswer : (if (!(u.holdsOf b).isEmpty) = true then Result.done else .refused) =
      if u.holdsOf b = [] then .refused else .done := by
    cases u.holdsOf b with
    | nil => rfl
    | cons e rest => rfl
  unfold State.abortManual
  dsimp only
  split
  · next he => exact absurd he hst
  · next he => rw [State.levelClaimWaits_of_noClaim (hn he), if_neg Bool.false_ne_true, hanswer]
  · rw [hanswer]

/-! ## Judgement -/

/-- A new ABORT of a served berth in MANUAL outside ADOPTING. -/
structure State.AbortsManual (s : State) (b : BerthId) (q : ReqBits) : Prop where
  serves : s.serves b
  fresh : q.toggle ≠ (s.berth b).lastTaken
  manual : (s.berth b).mode = .manual
  adopted : (s.berth b).state ≠ .adopting

/-- The state in which an ABORT is judged. -/
abbrev State.abortTaken (s : State) (b : BerthId) (q : ReqBits) : State := s.reqTaken b ReqCode.abort.code q

/-- ABORT comes to its owner, whatever request is in progress and whatever MAINT (R46, R107, R110). -/
theorem State.AbortsManual.judged (ha : s.AbortsManual b q) :
    (s.abortTaken b q).judge b ReqCode.abort.code q.operand = (s.abortTaken b q).abortManual b := by
  have hst : ((s.abortTaken b q).berth b).state ≠ .adopting := by
    rw [State.state_reqTaken]
    exact ha.adopted
  have hmode : ((s.abortTaken b q).berth b).mode = .manual := (s.mode_reqTaken b _ q).trans ha.manual
  rw [State.judge_known (by decide), if_neg hst, if_neg (fun hb => hb.2 rfl), if_neg (fun hp => by cases hp.2), State.owner,
    State.ownAbort, hmode]

/-- An ABORT is its effects, the answer, and the end of the event. -/
theorem State.AbortsManual.ends {res : Result} (ha : s.AbortsManual b q)
    (hv : (s.abortTaken b q).abortManual b = (v, .final res)) :
    s.writesReq b ReqCode.abort.code q = (v.answer b ReqCode.abort.code q.toggle q.operand (.final res)).endEvent :=
  State.writesReq_judged ha.serves ha.fresh (ha.judged.trans hv)

/-! ## Effects that leave the berth without a claim -/

/-- What a final answer and the end of the event leave of a berth without a claim (R91, R108). -/
structure AnsweredEnd (v t : State) (b : BerthId) (res : Result) : Prop where
  berth : t.berth b = (v.berth b).concluded res
  noClaim : t.noClaim b
  chan : t.chan b = v.chan b
  holds : ∀ x ∈ t.holds, x ∈ v.holds
  staging : ∃ more, t.log.staging = v.log.staging ++ more
  owq : v.budget.claims = [] → t.owq = placeWrite v.owq (v.rspEntry b (t.berth b))

theorem State.answer_final_ends (hn : v.noClaim b) (code : BitVec 4) (toggle : Bool) (op : BitVec 8) (res : Result) :
    AnsweredEnd v (v.answer b code toggle op (.final res)).endEvent b res := by
  have hapart : Apart b (v.answer b code toggle op (.final res)) _ := Apart.endEvent hn
  have hberth := hapart.berth.trans (v.berth_answer_final b code toggle op res)
  refine ⟨hberth, hapart.noClaim hn, hapart.chan, fun x hx => ?_, hapart.staging, fun hc => ?_⟩
  · exact State.mem_of_mem_endEvent (s := v.answer b code toggle op (.final res)) hx
  · rw [(end_of_nil (z := v.answer b code toggle op (.final res)) hc).owq, State.owq_answer_final, hapart.berth]

/-- Where only this berth's claims waited, none waits once the berth has none (R92). -/
theorem State.claims_eq_nil (ho : ∀ c ∈ s.budget.claims, c.berth = b) (hn : v.noClaim b)
    (hsub : ∀ c ∈ v.budget.claims, c ∈ s.budget.claims) : v.budget.claims = [] :=
  List.eq_nil_iff_forall_not_mem.mpr fun c hc => hn c hc (ho c (hsub c hc))

/-- A record that RSP answers no longer for the request that ends loses the request alone (R109). -/
theorem Berth.finalised_of_final {r : Berth} (hp : r.phase = .final) (res : Result) :
    r.finalised res = { r with request := none } := by
  cases hr : r.request with
  | none =>
    rw [Berth.finalised_none _ hr, ← hr]
  | some rq => exact Berth.finalised_final _ hr hp

/-- What the end of a LEVEL claim leaves of a berth whose RSP answers another request (R92, R109, R128). -/
structure LevelAborted (u v : State) (b : BerthId) : Prop where
  berth : v.berth b = { u.berth b with request := none }
  noClaim : v.noClaim b
  claims : ∀ c ∈ v.budget.claims, c ∈ u.budget.claims
  chans : v.chans = u.chans
  holds : v.holds = u.holds
  owq : v.owq = u.owq
  log : v.log = u.log.stageAll (u.finalRecords b .aborted)
  tables : v.tables = u.tables

theorem State.abortLevel_aborted (hp : (u.berth b).phase = .final) : LevelAborted u (u.abortLevel b) b := by
  have hberth : (u.withdrawClaim b).berth b = u.berth b := State.berth_withdrawClaim u b b
  unfold State.abortLevel
  refine ⟨?_, finalise_noClaim _ (State.noClaim_withdrawClaim u b), fun c hc => ?_, by simp, by simp, ?_, ?_, by simp⟩
  · rw [State.berth_finalise_same, hberth, Berth.finalised_of_final hp]
  · rw [State.finalise_budget] at hc
    exact withdraw_sub u b c hc
  · have howq : (u.withdrawClaim b).owq = u.owq := State.withdrawClaim_owq u b
    cases hr : (u.berth b).request with
    | none => rw [State.finalise_of_none _ (hberth ▸ hr), howq]
    | some rq =>
      rw [State.finalise_of_final _ (hberth ▸ hr) (hberth ▸ hp)]
      exact howq
  · rw [State.finalise_log, State.withdrawClaim_log, State.finalRecords, hberth]
    simp only [State.finalRecord, State.withdrawClaim_scan]
    rfl

/-! ## The outcomes -/

namespace State.AbortsManual

variable (ha : s.AbortsManual b q)
include ha

/-- In ENGAGING the manual claim is withdrawn and the berth goes to CABLED. -/
theorem withdraws_engage (hst : (s.berth b).state = .engaging) {t : State} (ht : t = s.writesReq b ReqCode.abort.code q) :
    t.berth b = { ((s.berth b).entered .cabled).answeredFinal q.toggle .done with baseGrant := 0 }
      ∧ (∀ h ∈ t.holds, h.berth ≠ b) ∧ t.noClaim b ∧ t.chan b = s.chan b ∧ s.sameMemory t
      ∧ (∀ h, s.holdsOf b = [h] →
        ∃ more, t.log.staging = (s.log.stage (s.holdRecord .holdCancelled h)).staging ++ more)
      ∧ ((∀ c ∈ s.budget.claims, c.berth = b) → t.owq = placeWrite s.owq (s.rspEntry b (t.berth b))) := by
  have hmemory := State.writesReq_sameMemory ha.serves ha.fresh ReqCode.abort.code
  rw [← ht] at hmemory
  have hleft := ((s.abortTaken b q).cancelHolds b).leaveManualEngaging_left b
  rw [ha.ends (State.abortManual_engaging ((s.state_reqTaken b _ q).trans hst))] at ht
  generalize ((s.abortTaken b q).cancelHolds b).leaveManualEngaging b .cabled = v at hleft ht
  have hend := State.answer_final_ends hleft.noClaim ReqCode.abort.code q.toggle q.operand .done
  rw [← ht] at hend
  refine ⟨?_, fun h hm => ?_, hend.noClaim, ?_, hmemory, fun h hone => ?_, fun ho => ?_⟩
  · rw [hend.berth, hleft.berth, State.berth_cancelHolds, State.berth_reqTaken]
    rfl
  · have hheld := hend.holds h hm
    rw [hleft.holds] at hheld
    exact (State.no_hold_of_cancelHolds hheld).2
  · rw [hend.chan, State.chan, hleft.chans, State.cancelHolds_chans]
    rfl
  · obtain ⟨m1, h1⟩ := hleft.staging
    obtain ⟨m2, h2⟩ := hend.staging
    rw [State.cancelHolds_of_one (s := s.abortTaken b q) hone] at h1
    refine ⟨m1 ++ m2, ?_⟩
    rw [h2, h1, List.append_assoc]
    rfl
  · have hnil : v.budget.claims = [] := State.claims_eq_nil ho hleft.noClaim fun c hc => by
      have hmem := hleft.claims c hc
      rwa [State.cancelHolds_budget] at hmem
    have htables : v.tables = s.tables := hleft.tables.trans (State.cancelHolds_tables _ _)
    have htaken : ((s.abortTaken b q).cancelHolds b).tables = s.tables := State.cancelHolds_tables _ _
    rw [hend.owq hnil, hleft.owq, rspEntry_congr htables, rspEntry_congr htaken, rsp_twice, State.cancelHolds_owq]
    rfl

/-- In SHORE a LEVEL claim is withdrawn, and its SET_LEVEL ends ABORTED in the log. -/
theorem withdraws_level (hst : (s.berth b).state = .shore) (hw : s.levelClaimWaits b = true) {t : State}
    (ht : t = s.writesReq b ReqCode.abort.code q) :
    t.berth b = { (s.berth b).answeredFinal q.toggle .done with request := none }
      ∧ t.noClaim b ∧ (∀ h ∈ t.holds, h.berth ≠ b) ∧ t.chan b = s.chan b ∧ s.sameMemory t
      ∧ (∀ rq, (s.berth b).request = some rq → s.holdsOf b = [] →
        ∃ more, t.log.staging = (s.log.stage (s.finalRecord b rq .aborted)).staging ++ more)
      ∧ ((∀ c ∈ s.budget.claims, c.berth = b) → t.owq = placeWrite s.owq (s.rspEntry b (t.berth b))) := by
  have hmemory := State.writesReq_sameMemory ha.serves ha.fresh ReqCode.abort.code
  rw [← ht] at hmemory
  have hberth : ((s.abortTaken b q).cancelHolds b).berth b = _ :=
    (State.berth_cancelHolds _ b b).trans (s.berth_reqTaken b ReqCode.abort.code q)
  have habort := State.abortLevel_aborted (u := (s.abortTaken b q).cancelHolds b) (b := b) (by rw [hberth])
  rw [ha.ends (State.abortManual_level ((s.state_reqTaken b _ q).trans hst) hw)] at ht
  generalize ((s.abortTaken b q).cancelHolds b).abortLevel b = v at habort ht
  have hend := State.answer_final_ends habort.noClaim ReqCode.abort.code q.toggle q.operand .done
  rw [← ht] at hend
  refine ⟨?_, hend.noClaim, fun h hm => ?_, ?_, hmemory, fun rq hrq hnone => ?_, fun ho => ?_⟩
  · rw [hend.berth, habort.berth, hberth]
    rfl
  · have hheld := hend.holds h hm
    rw [habort.holds] at hheld
    exact (State.no_hold_of_cancelHolds hheld).2
  · rw [hend.chan, State.chan, habort.chans, State.cancelHolds_chans]
    rfl
  · have hrecords : (s.abortTaken b q).finalRecords b .aborted = [s.finalRecord b rq .aborted] := by
      rw [State.finalRecords, State.berth_reqTaken, hrq]
      rfl
    obtain ⟨more, hmore⟩ := hend.staging
    rw [habort.log, State.cancelHolds_of_none (s := s.abortTaken b q) hnone, hrecords] at hmore
    exact ⟨more, hmore⟩
  · have hnil : v.budget.claims = [] := State.claims_eq_nil ho habort.noClaim fun c hc => by
      have hmem := habort.claims c hc
      rwa [State.cancelHolds_budget] at hmem
    have htables : v.tables = s.tables := habort.tables.trans (State.cancelHolds_tables _ _)
    rw [hend.owq hnil, habort.owq, rspEntry_congr htables, State.cancelHolds_owq]
    rfl

/-- With no claim to withdraw the held writes are cancelled, and the answer DONE is all that the Own Write Queue is given. -/
theorem cancels (hst : (s.berth b).state ≠ .engaging) (hn : (s.berth b).state = .shore → s.noClaim b)
    (hheld : s.holdsOf b ≠ []) {t : State} (ht : t = s.writesReq b ReqCode.abort.code q) :
    t.berth b = (s.berth b).answeredFinal q.toggle .done ∧ (∀ h ∈ t.holds, h.berth ≠ b) ∧ t.chans = s.chans
      ∧ s.sameMemory t ∧ t.owq = placeWrite s.owq (s.rspEntry b (t.berth b)) := by
  have hmemory := State.writesReq_sameMemory ha.serves ha.fresh ReqCode.abort.code
  rw [← ht] at hmemory
  have hcancels : (s.abortTaken b q).abortManual b = ((s.abortTaken b q).cancelHolds b, .final .done) := by
    rw [State.abortManual_holds (by rwa [State.state_reqTaken]) (by rwa [State.state_reqTaken])]
    exact congrArg (fun r => (_, Answer.final r)) (if_neg hheld)
  have hbudget : ((s.abortTaken b q).cancelHolds b).budget = s.clearMarks.budget := State.cancelHolds_budget _ _
  have htables : ((s.abortTaken b q).cancelHolds b).tables = s.tables := State.cancelHolds_tables _ _
  have hquiet := State.endEvent_of_quiet
    (s := ((s.abortTaken b q).cancelHolds b).answer b ReqCode.abort.code q.toggle q.operand (.final .done))
    (by rw [State.budget_answer_final, hbudget]; rfl) (by rw [State.budget_answer_final, hbudget]; rfl)
  rw [ha.ends hcancels, hquiet] at ht
  have hberth : t.berth b = (((s.abortTaken b q).cancelHolds b).berth b).concluded .done := by
    rw [ht, State.berth_clearMarks, State.berth_answer_final]
  refine ⟨?_, fun h hm => ?_, ?_, hmemory, ?_⟩
  · rw [hberth, State.berth_cancelHolds, State.berth_reqTaken]
    rfl
  · rw [ht] at hm
    exact (State.no_hold_of_cancelHolds hm).2
  · rw [ht]
    exact State.cancelHolds_chans _ _
  · rw [hberth, ht]
    show State.owq (State.answer _ b _ _ _ _) = _
    rw [State.owq_answer_final, State.berth_answer_final, rspEntry_congr htables, State.cancelHolds_owq]
    rfl

/-- With nothing held and no claim to withdraw it is refused (R128). -/
theorem refused (hst : (s.berth b).state ≠ .engaging) (hn : (s.berth b).state = .shore → s.noClaim b)
    (hnone : s.holdsOf b = []) :
    s.writesReq b ReqCode.abort.code q = s.answeredOnly b q.toggle .refused (reqWord ReqCode.abort.code q) := by
  refine State.writesReq_answeredOnly ha.serves ha.fresh (ha.judged.trans ?_)
  rw [State.abortManual_holds (by rwa [State.state_reqTaken]) (by rwa [State.state_reqTaken]),
    State.cancelHolds_of_none (s := s.abortTaken b q) hnone]
  exact congrArg (fun r => (_, Answer.final r)) (if_pos hnone)

end State.AbortsManual

end Sys2Proof.Machine

open Sys2Proof Sys2Proof.Machine

/-- Settles O33, by the state found and what the berth holds: nothing, a manual claim, held writes, or a LEVEL claim. -/
theorem abortInManualCancelsHolds : Obligations.AbortInManualCancelsHolds := by
  intro s b q hs ht hm hst
  have ha : s.AbortsManual b q := ⟨hs, ht, hm, hst⟩
  rw [exec_reqAbort]
  refine ⟨fun he hnone hn => congrArg _ (ha.refused he hn hnone), fun he => ⟨_, rfl, ha.withdraws_engage he rfl⟩,
    fun he hn hheld => ⟨_, rfl, ha.cancels he hn hheld rfl⟩, fun n k hshore hc hone => ?_⟩
  have hw : s.levelClaimWaits b = true := State.levelClaimWaits_of_level hc rfl nofun hone
  exact ⟨_, rfl, ha.withdraws_level hshore hw rfl⟩

end

section
/-! A manual engage (07, section 7.3; R119, R120): the CLOSE is held with its ENGAGE claim, and the service pass that ends the event leaves
it waiting or releases it as the claim is granted (R87, R89). -/

namespace Sys2Proof.Machine

variable {s w t : State} {b : BerthId} {a d : Word} {e : Hold} {c : Claim}

/-! ## The claim and the held write -/

/-- The ENGAGE claim of a berth (R88). -/
def State.engageClaim (s : State) (b : BerthId) : Claim :=
  { berth := b, kind := .engage, credits := (s.static b).baseCredits }

/-- The entry of a CLOSE to SHORE_BKR that waits for its claim (R119). -/
def State.engageHold (s : State) (b : BerthId) : Hold :=
  { address := s.tables.cmdAddress b .shoreBkr, berth := b, word := .shoreBkr, data := cmdClose, reason := .budget,
    count := (s.static b).holdLimit }

/-- A manual engage up to the service pass that ends its event: ENGAGING reported, the write held, the claim placed (R88, R91, R119). -/
def State.engageHeld (s : State) (b : BerthId) : State :=
  { s with
    berths := s.berths.set b ((s.berth b).entered .engaging)
    holds := s.holds ++ [s.engageHold b]
    owq := placeWrite s.owq (s.rspEntry b ((s.berth b).entered .engaging))
    log := s.log.stage (s.stateRecord b .cabled (s.berth b).mode .engaging (s.berth b).mode)
    budget := { s.budget with claims := s.budget.claims ++ [s.engageClaim b], serviceDue := true, testDue := false } }

/-- The report of a state whose berth has a given record (R20, R21). -/
def State.reportWith (s : State) (b : BerthId) (old : BState) (m : Mode) (r : Berth) : State :=
  { s with
    owq := placeWrite s.owq (s.rspEntry b r)
    log := s.log.stage (s.stateRecord b old m r.state r.mode) }

theorem State.reportState_eq (s : State) (b : BerthId) (old : BState) (m : Mode) :
    s.reportState b old m = s.reportWith b old m (s.berth b) := rfl

/-- A manual engage above Ccfg is refused (R119). -/
theorem State.manualEngage_of_above (h : s.tables.ccfg < (s.static b).baseCredits) :
    s.manualEngage b a d = s.sink .guard (some b) a d :=
  if_neg fun hc => absurd hc.2 (Nat.not_le_of_lt h)

/-- A manual engage in CABLED within Ccfg is held (R119). -/
theorem State.manualEngage_held (hst : (s.berth b).state = .cabled) (hc : (s.static b).baseCredits ≤ s.tables.ccfg) :
    s.clearMarks.manualEngage b (s.tables.cmdAddress b .shoreBkr) cmdClose = s.engageHeld b := by
  have hentered : (((s.clearMarks.enter b .engaging).placeHold b .shoreBkr cmdClose .budget).placeClaim
      (s.engageClaim b)).berth b = (s.berth b).entered .engaging := berth_enter (w := s.clearMarks) _
  have hheld : s.clearMarks.manualEngage b (s.tables.cmdAddress b .shoreBkr) cmdClose =
      (((s.clearMarks.enter b .engaging).placeHold b .shoreBkr cmdClose .budget).placeClaim
        (s.engageClaim b)).reportState b .cabled (s.berth b).mode := if_pos ⟨hst, hc⟩
  rw [hheld, State.reportState_eq, hentered]
  simp only [State.reportWith, State.placeClaim, State.needService, State.placeHold, State.enter, State.setBudget,
    State.setHolds, State.setBerth, State.clearMarks]
  rfl

theorem State.berth_engageHeld (s : State) (b : BerthId) : (s.engageHeld b).berth b = (s.berth b).entered .engaging :=
  Eight.get_set_same _ _ _

/-- G counts no waiting claim (R86). -/
theorem State.granted_engageHeld (s : State) (b : BerthId) : (s.engageHeld b).granted = s.granted := by
  have hsum : (s.engageHeld b).granted + s.held b = s.granted + s.held b :=
    State.granted_of (x := (s.berth b).entered .engaging) rfl rfl
  exact Nat.add_right_cancel hsum

/-- Whether the claim fits is a matter of C − G (R87). -/
theorem State.fits_engageHeld (s : State) (b : BerthId) :
    (s.engageHeld b).fits (s.engageClaim b) = true ↔
      ((s.static b).baseCredits : Int) ≤ (s.budget.capacity : Int) - s.granted := by
  rw [← s.granted_engageHeld b]
  exact decide_eq_true_iff

/-! ## The service pass (R89) -/

/-- An ENGAGE claim at the tail of the Budget Wait Queue waits on behind what the others were granted, or is granted as the last; alone
in the queue it waits only where it does not fit (R89). -/
theorem serviceWalk_append_engage (hk : c.kind = .engage) (l : List Claim) (s : State) :
    (s.serviceWalk (l ++ [c]) = s.serviceWalk l ∧ (l = [] → ¬ s.fits c = true))
      ∨ s.serviceWalk (l ++ [c]) = (s.serviceWalk l).grantEngage c ∧ (s.serviceWalk l).fits c = true := by
  induction l generalizing s with
  | nil =>
    by_cases hfits : s.fits c = true
    · exact .inr ⟨by simp [State.serviceWalk, hk, hfits], hfits⟩
    · exact .inl ⟨by simp [State.serviceWalk, hk, hfits], fun _ => hfits⟩
  | cons x rest ih =>
    have goes_on : ∀ y : State,
        (y.serviceWalk (rest ++ [c]) = y.serviceWalk rest ∧ (x :: rest = [] → ¬ s.fits c = true))
          ∨ y.serviceWalk (rest ++ [c]) = (y.serviceWalk rest).grantEngage c ∧ (y.serviceWalk rest).fits c = true :=
      fun y => (ih y).imp (fun hwaits => ⟨hwaits.1, nofun⟩) id
    rw [List.cons_append, State.serviceWalk, State.serviceWalk]
    split
    · split
      · exact goes_on _
      · exact .inl ⟨rfl, nofun⟩
    · split
      · exact goes_on _
      · exact goes_on _

/-- A service pass over the claims of other berths leaves an entry held whose address no other entry has (R117, R120). -/
theorem State.mem_serviceWalk_holds {l : List Claim} (hl : ∀ c ∈ l, c.berth ≠ e.berth)
    (honly : ∀ x ∈ s.holds, x.address = e.address → x = e) (he : e ∈ s.holds) : e ∈ (s.serviceWalk l).holds := by
  induction l generalizing s with
  | nil => exact he
  | cons c rest ih =>
    have hrest : ∀ x ∈ rest, x.berth ≠ e.berth := fun x hx => hl x (List.mem_cons_of_mem _ hx)
    have hgranted : e ∈ (s.grantEngage c).holds := by
      rcases s.grantEngage_holds c with hsame | ⟨x, hx, hown, hdrop⟩
      · rwa [hsame]
      · rw [hdrop]
        refine mem_dropHold.mpr ⟨he, fun haddress => hl c (List.mem_cons_self ..) ?_⟩
        rw [← hown, honly x hx haddress.symm]
    rw [State.serviceWalk]
    split
    · split
      · exact ih hrest (fun x hx => honly x (State.mem_of_mem_grantEngage hx)) hgranted
      · exact he
    · next n _ =>
      split
      · have hholds := (grantLevel_granted s c n).holds
        exact ih hrest (hholds ▸ honly) (hholds ▸ he)
      · exact ih hrest honly he

/-! ## The grant of a held CLOSE (R90, R120) -/

/-- The one entry of a berth is the entry that its grant notice finds. -/
theorem State.holdFor_of_only (he : e ∈ w.holds) (hb : e.berth = b) (hr : e.reason = .budget)
    (honly : ∀ x ∈ w.holds, x.berth = b → x = e) : w.holdFor b .budget = some e := by
  cases hfind : w.holdFor b .budget with
  | none => exact absurd (List.find?_eq_none.mp hfind e he) (by simp [hb, hr])
  | some x =>
    have hx : x.berth = b ∧ x.reason = .budget := by simpa using List.find?_some hfind
    rw [honly x (List.mem_of_find?_eq_some hfind) hx.1]

/-- What a granted ENGAGE claim leaves of a MANUAL berth: ENERGIZING with its grant, the held CLOSE queued as a SEQ write (R120). -/
structure ReleasedByGrant (w v : State) (c : Claim) (e : Hold) : Prop where
  berth : v.berth c.berth =
    { (w.berth c.berth).entered .energizing with baseGrant := (w.static c.berth).baseCredits }
  step : (v.chan c.berth).step = loadedChannel false .f (w.static c.berth).breakerConfirm w.timer.maint
  noClaim : v.noClaim c.berth
  holds : v.holds = dropHold w.holds e.address
  owq : v.owq = placeWrite (placeWrite w.owq (w.seqEntry e.berth e.word.cmd e.data))
    (w.rspEntry c.berth (v.berth c.berth))

theorem State.grantEngage_releases (hst : (w.berth c.berth).state = .engaging) (hm : (w.berth c.berth).mode = .manual)
    (hfor : w.holdFor c.berth .budget = some e) : ReleasedByGrant w (w.grantEngage c) c e := by
  generalize hy : (w.setBudget { w.budget with claims := dropClaim w.budget.claims c.berth }).takeBase c.berth = y
  have hberth : y.berth c.berth = { w.berth c.berth with baseGrant := (w.static c.berth).baseCredits } := by
    rw [← hy, takeBase_berth]
    rfl
  have hgrant : w.grantEngage c = ((y.toEnergizing c.berth).releaseHold e).reportState c.berth .engaging .manual := by
    have hholds : y.holdFor c.berth .budget = some e := by
      rw [← hy]
      exact hfor
    rw [State.grantEngage, hy]
    simp only [State.grantNotice, hberth, hst, hm, hholds]
  have hentered : (y.toEnergizing c.berth).berth c.berth = (y.berth c.berth).entered .energizing := berth_enter _
  rw [hgrant]
  refine ⟨?_, ?_, ?_, ?_, ?_⟩
  · refine hentered.trans ?_
    rw [hberth]
    rfl
  · refine (congrArg Channels.step (Eight.get_set_same _ _ _)).trans ?_
    rw [← hy]
    rfl
  · rw [← hy]
    exact fun x hx => of_decide_eq_true (List.mem_filter.mp hx).2
  · exact congrArg (dropHold · e.address) (hy ▸ rfl : y.holds = w.holds)
  · have htables : y.tables = w.tables := hy ▸ rfl
    have howq : y.owq = w.owq := hy ▸ rfl
    rw [State.reportState_eq, ← seqEntry_congr htables, ← rspEntry_congr htables, ← howq]
    rfl

/-! ## The two outcomes -/

/-- A CLOSE by hand that a berth in CABLED and MANUAL may hold: within Ccfg, with no claim and no entry of the berth, and none at its
address. -/
structure State.EngagesManual (s : State) (b : BerthId) : Prop where
  manual : (s.berth b).mode = .manual
  cabled : (s.berth b).state = .cabled
  free : s.holdAt (s.tables.cmdAddress b .shoreBkr) = none
  within : (s.static b).baseCredits ≤ s.tables.ccfg
  noClaim : s.noClaim b
  noHold : ∀ h ∈ s.holds, h.berth ≠ b

namespace State.EngagesManual

variable (hg : s.EngagesManual b)
include hg

theorem hold_of_address {x : Hold} (hx : x ∈ (s.engageHeld b).holds) (ha : x.address = (s.engageHold b).address) :
    x = s.engageHold b := by
  rcases List.mem_append.mp hx with hold | hnew
  · exact absurd (decide_eq_true ha) (List.find?_eq_none.mp hg.free x hold)
  · exact List.mem_singleton.mp hnew

theorem hold_of_berth {x : Hold} (hx : x ∈ (s.engageHeld b).holds) (hb : x.berth = b) : x = s.engageHold b := by
  rcases List.mem_append.mp hx with hold | hnew
  · exact absurd hb (hg.noHold x hold)
  · exact List.mem_singleton.mp hnew

/-- The claims that stood before the berth's own leave its entry held. -/
theorem hold_mem : s.engageHold b ∈ ((s.engageHeld b).serviceWalk s.budget.claims).holds :=
  State.mem_serviceWalk_holds hg.noClaim (fun _ => hg.hold_of_address)
    (List.mem_append_right _ (List.mem_singleton_self _))

/-- What the claims that stood before the berth's own leave of it. -/
theorem apart : Apart b (s.engageHeld b) ((s.engageHeld b).serviceWalk s.budget.claims) := Apart.serviceWalk hg.noClaim

/-- A claim that waits leaves the berth in ENGAGING with its write held (R119). -/
theorem waits (ht : Tested ((s.engageHeld b).serviceWalk s.budget.claims) t) :
    t.berth b = (s.berth b).entered .engaging ∧ t.chan b = s.chan b ∧ s.engageClaim b ∈ t.budget.claims
      ∧ s.engageHold b ∈ t.holds := by
  refine ⟨?_, ?_, ?_, ?_⟩
  · rw [State.berth, ht.berths]
    exact hg.apart.berth.trans (s.berth_engageHeld b)
  · rw [State.chan, ht.chans]
    exact hg.apart.chan
  · have hmine : s.engageClaim b ∈ (s.engageHeld b).budget.claims.filter fun c => decide (c.berth = b) := by
      simp [State.engageHeld, State.engageClaim]
    rw [← hg.apart.claims] at hmine
    rw [ht.claims]
    exact (List.mem_filter.mp hmine).1
  · rw [ht.holds]
    exact hg.hold_mem

/-- What the grant of its claim leaves of the berth and its entry (R120). -/
theorem releases : ReleasedByGrant ((s.engageHeld b).serviceWalk s.budget.claims)
    (((s.engageHeld b).serviceWalk s.budget.claims).grantEngage (s.engageClaim b)) (s.engageClaim b) (s.engageHold b) := by
  have hberth := hg.apart.berth.trans (s.berth_engageHeld b)
  refine State.grantEngage_releases (congrArg Berth.state hberth) ((congrArg Berth.mode hberth).trans hg.manual) ?_
  exact State.holdFor_of_only hg.hold_mem rfl rfl fun x hx => hg.hold_of_berth (State.mem_of_mem_serviceWalk hx)

/-- A claim that is granted brings the berth to ENERGIZING with its write released (R120). -/
theorem released
    (ht : Tested (((s.engageHeld b).serviceWalk s.budget.claims).grantEngage (s.engageClaim b)) t) :
    t.berth b = { (s.berth b).entered .energizing with baseGrant := (s.static b).baseCredits }
      ∧ (t.chan b).step = loadedChannel false .f (s.static b).breakerConfirm s.timer.maint ∧ t.noClaim b
      ∧ (∀ h ∈ t.holds, h.berth ≠ b)
      ∧ (s.budget.claims = [] →
        t.owq = placeWrite (placeWrite (placeWrite s.owq (s.rspEntry b ((s.berth b).entered .engaging)))
          (s.seqEntry b .shoreBkr cmdClose)) (s.rspEntry b (t.berth b))) := by
  have hgrant := hg.releases
  have hberth := hg.apart.berth.trans (s.berth_engageHeld b)
  have hstatic : ((s.engageHeld b).serviceWalk s.budget.claims).static b = s.static b :=
    congrArg (Eight.get · b) (congrArg Tables.statics hg.apart.tables)
  have hown : t.berth b = _ := (congrArg (Eight.get · b) ht.berths).trans hgrant.berth
  refine ⟨?_, ?_, ?_, fun h hm hb => ?_, fun hc => ?_⟩
  · rw [hown]
    dsimp only [State.engageClaim]
    rw [hstatic, hberth]
    rfl
  · rw [State.chan, ht.chans]
    refine hgrant.step.trans ?_
    rw [hg.apart.maint]
    show loadedChannel _ _ (State.static _ b).breakerConfirm _ = _
    rw [hstatic]
    rfl
  · unfold State.noClaim
    rw [ht.claims]
    exact hgrant.noClaim
  · rw [ht.holds, hgrant.holds] at hm
    obtain ⟨hheld, haddress⟩ := mem_dropHold.mp hm
    exact haddress (congrArg Hold.address (hg.hold_of_berth (State.mem_of_mem_serviceWalk hheld) hb))
  · have howq := ht.owq.trans hgrant.owq
    rw [← hgrant.berth] at hown
    rw [howq, hown, hc]
    rfl

/-- A manual engage within Ccfg: it waits or is granted; alone in the queue, by C − G (R87, R89). -/
theorem ends (ht : t = (s.engageHeld b).endEvent) :
    (t.berth b = (s.berth b).entered .engaging ∧ t.chan b = s.chan b ∧ s.engageClaim b ∈ t.budget.claims
          ∧ s.engageHold b ∈ t.holds
        ∨ t.berth b = { (s.berth b).entered .energizing with baseGrant := (s.static b).baseCredits }
          ∧ (t.chan b).step = loadedChannel false .f (s.static b).breakerConfirm s.timer.maint
          ∧ t.noClaim b ∧ (∀ h ∈ t.holds, h.berth ≠ b)
          ∧ (s.budget.claims = [] →
            t.owq = placeWrite (placeWrite (placeWrite s.owq (s.rspEntry b ((s.berth b).entered .engaging)))
              (s.seqEntry b .shoreBkr cmdClose)) (s.rspEntry b (t.berth b))))
      ∧ (s.budget.claims = [] →
        (t.noClaim b ↔ ((s.static b).baseCredits : Int) ≤ (s.budget.capacity : Int) - s.granted)
          ∧ (¬ t.noClaim b → t.owq = placeWrite s.owq (s.rspEntry b (t.berth b)))) := by
  have hfit := s.fits_engageHeld b
  rcases serviceWalk_append_engage (c := s.engageClaim b) rfl s.budget.claims (s.engageHeld b) with
    ⟨hpass, hwaits⟩ | ⟨hpass, hfits⟩
  · have htested : Tested _ t := ht ▸ endEvent_of_pass (s := s.engageHeld b) hpass
    obtain ⟨hberth, hchan, hclaim, hhold⟩ := hg.waits htested
    refine ⟨.inl ⟨hberth, hchan, hclaim, hhold⟩, fun hc => ⟨?_, fun _ => ?_⟩⟩
    · rw [← hfit]
      exact iff_of_false (fun hnone => hnone _ hclaim rfl) (hwaits hc)
    · rw [hc] at htested
      rw [htested.owq, hberth]
      rfl
  · have htested : Tested _ t := ht ▸ endEvent_of_pass (s := s.engageHeld b) hpass
    obtain ⟨hberth, hstep, hnone, hholds, howq⟩ := hg.released htested
    refine ⟨.inr ⟨hberth, hstep, hnone, hholds, howq⟩, fun hc => ⟨?_, fun hclaim => absurd hnone hclaim⟩⟩
    rw [hc] at hfits
    exact iff_of_true hnone (hfit.mp hfits)

end State.EngagesManual

end Sys2Proof.Machine

open Sys2Proof Sys2Proof.Machine

/-- Settles O37: above Ccfg the Manual Guard refuses; within it the CLOSE is held, and the service pass that ends the event decides. -/
theorem manualEngageHoldsOrGrants : Obligations.ManualEngageHoldsOrGrants := by
  intro s b hs hm hst hfree
  have hguard : s.writesCommand b .shoreBkr cmdClose =
      (s.clearMarks.manualEngage b (s.tables.cmdAddress b .shoreBkr) cmdClose).endEvent := by
    rw [← State.guardBreaker_shoreClose (s := s.clearMarks) hfree]
    exact State.writesCommand_of_manual hs hm .shoreBkr cmdClose
  rw [exec_shoreBkrClose]
  refine ⟨fun habove => congrArg _ (hguard.trans ?_), fun hwithin hn hnone => ?_⟩
  · rw [State.manualEngage_of_above (s := s.clearMarks) habove, State.endEvent_sink]
  · have hg : s.EngagesManual b := ⟨hm, hst, hfree, hwithin, hn, hnone⟩
    rw [hguard, State.manualEngage_held hst hwithin]
    obtain ⟨houtcome, hqueue⟩ := hg.ends rfl
    refine ⟨_, rfl, (State.endEvent_rest _).ports, fun a => ?_, houtcome, hqueue⟩
    rw [State.pimRead, (State.endEvent_frame _).pim]
    rfl

end

section
/-! The PIM and the Own Write Queue through every step (R133, R138 to R143, R165): what writes, placements and removals keep of the two, every
command keeps. The PIM's canonical form, the queue's order and its addresses are three such properties. -/

namespace Sys2Proof.Machine

variable {s t : State}

/-! ## The addresses the queue carries (R143) -/

theorem berth_mem_all (b : BerthId) : b ∈ BerthId.all := by cases b <;> decide

theorem group_mem_all (g : GroupId) : g ∈ GroupId.all := by cases g <;> decide

theorem mem_ownAddresses_iff {k : Tables} {a : Word} :
    a ∈ ownAddresses k ↔ (∃ b w, a = k.cmdAddress b w) ∨ (∃ b, a = k.rspAddress b) ∨ ∃ g, a = k.groupRspAddress g := by
  unfold ownAddresses
  rw [List.mem_append, List.mem_flatMap, List.mem_map]
  constructor
  · rintro (⟨b, -, hb⟩ | ⟨g, -, rfl⟩)
    · simp only [List.mem_cons, List.not_mem_nil, or_false] at hb
      rcases hb with rfl | rfl | rfl | rfl | rfl
      · exact .inl ⟨b, _, rfl⟩
      · exact .inl ⟨b, _, rfl⟩
      · exact .inl ⟨b, _, rfl⟩
      · exact .inl ⟨b, _, rfl⟩
      · exact .inr (.inl ⟨b, rfl⟩)
    · exact .inr (.inr ⟨g, rfl⟩)
  · rintro (⟨b, w, rfl⟩ | ⟨b, rfl⟩ | ⟨g, rfl⟩)
    · exact .inl ⟨b, berth_mem_all b, by cases w <;> simp⟩
    · exact .inl ⟨b, berth_mem_all b, by simp⟩
    · exact .inr ⟨g, group_mem_all g, rfl⟩

theorem cmdAddress_mem_ownAddresses (k : Tables) (b : BerthId) (w : CmdWord) : k.cmdAddress b w ∈ ownAddresses k :=
  mem_ownAddresses_iff.mpr (.inl ⟨b, w, rfl⟩)

theorem rspAddress_mem_ownAddresses (k : Tables) (b : BerthId) : k.rspAddress b ∈ ownAddresses k :=
  mem_ownAddresses_iff.mpr (.inr (.inl ⟨b, rfl⟩))

theorem groupRspAddress_mem_ownAddresses (k : Tables) (g : GroupId) : k.groupRspAddress g ∈ ownAddresses k :=
  mem_ownAddresses_iff.mpr (.inr (.inr ⟨g, rfl⟩))

/-- Four COMMAND words and an RSP word of eight berths, and four GROUP_RSP words (R143). -/
theorem length_ownAddresses (k : Tables) : (ownAddresses k).length = 44 := rfl

/-! ## What survives every write, placement and removal -/

/-- A property of the PIM, the tables and the Own Write Queue together. -/
def State.storeMeets (q : Memory → Tables → List OwnWrite → Prop) (s : State) : Prop := q s.pim s.tables s.owq

/-- The property is kept by every write of a PIM word, by every placement at an address of the queue's (R139, R140, R143), and by the
queue's losing entries (R141, R142). -/
structure StoreRule (q : Memory → Tables → List OwnWrite → Prop) : Prop where
  write : ∀ {m k l} (a w : Word), q m k l → q (Memory.write m a.toNat w) k l
  place : ∀ {m k l} (e : OwnWrite), e.cls ≠ .trip → e.address ∈ ownAddresses k → q m k l → q m k (placeWrite l e)
  placeTrip : ∀ {m k l} (e : OwnWrite), e.cls = .trip → e.address ∈ ownAddresses k → q m k l → q m k (placeTrip l e)
  lose : ∀ {m k l p}, List.Sublist p l → q m k l → q m k p

/-- PIM, tables and Own Write Queue are as they were. -/
structure SameStore (s t : State) : Prop where
  pim : t.pim = s.pim
  tables : t.tables = s.tables
  owq : t.owq = s.owq

theorem SameStore.discardWrite (s : State) : SameStore s s.discardWrite := by
  unfold State.discardWrite
  split <;> exact ⟨rfl, rfl, rfl⟩

theorem SameStore.setCapacity (s : State) (c : Nat) : SameStore s (s.setCapacity c) := by
  unfold State.setCapacity
  split <;> exact ⟨rfl, rfl, rfl⟩

theorem SameStore.releaseReset (s : State) : SameStore s s.releaseReset := by
  unfold State.releaseReset
  split <;> exact ⟨rfl, rfl, rfl⟩

theorem SameStore.reload (s : State) : SameStore s s.reload := by
  unfold State.reload
  split <;> exact ⟨rfl, rfl, rfl⟩

theorem SameStore.assertMaint (s : State) : SameStore s s.assertMaint := by
  unfold State.assertMaint
  dsimp only
  split <;> exact ⟨rfl, rfl, rfl⟩

theorem SameStore.releaseMaint (s : State) : SameStore s s.releaseMaint := by
  unfold State.releaseMaint
  dsimp only
  split <;> exact ⟨rfl, rfl, rfl⟩

theorem SameStore.storeMeets {q : Memory → Tables → List OwnWrite → Prop} (h : SameStore s t) (hs : s.storeMeets q) :
    t.storeMeets q := by
  unfold State.storeMeets
  rw [h.pim, h.tables, h.owq]
  exact hs

namespace StoreRule

variable {q : Memory → Tables → List OwnWrite → Prop}

/-- The effects of an event place writes at the queue's own addresses, and touch neither the PIM nor the tables. -/
theorem kept (h : StoreRule q) : Kept (State.storeMeets q) where
  berth := fun _ _ _ _ _ _ _ hs => hs
  sup := fun _ _ _ hs => hs
  budget := fun _ _ _ hs => hs
  holds := fun _ _ hs => hs
  seqWrite := fun _ b w _ hs => h.place _ nofun (cmdAddress_mem_ownAddresses _ b w) hs
  tripWrite := fun _ b hs => h.placeTrip _ rfl (cmdAddress_mem_ownAddresses _ b .shoreBkr) hs
  queueRsp := fun _ b hs => h.place _ nofun (rspAddress_mem_ownAddresses _ b) hs
  record := fun _ _ _ _ _ _ hs => hs
  statusChanged := fun _ hs => hs
  grantedChanged := fun _ hs => hs
  enters := fun _ _ _ hs => hs
  toggle := fun _ _ _ hs => hs
  loadStep := fun _ _ _ hs => hs
  stopStep := fun _ _ hs => hs
  loadSettle := fun _ _ hs => hs
  stopSettle := fun _ _ hs => hs
  stopChannels := fun _ _ hs => hs
  queueGroupRsp := fun _ g _ hs => h.place _ nofun (groupRspAddress_mem_ownAddresses _ g) hs
  groupTaken := fun _ _ _ hs => hs
  passWrite := fun _ _ _ hs => hs

/-- The Scan Engine and discarded writes touch neither the PIM nor the queue. -/
theorem keptByScan (h : StoreRule q) : KeptByScan (State.storeMeets q) :=
  h.kept.moves.byScan (fun _ _ _ hs => hs) (fun s hs => (SameStore.discardWrite s).storeMeets hs) (fun _ _ _ hs => hs)
    (fun _ _ _ hs => hs) (fun _ _ hs => hs) (fun s c hs => (SameStore.setCapacity s c).storeMeets hs)

/-- Every command but RESET_ASSERT and IMAGE_WORD_READ keeps the property: the port writes words, takes the head entry and removes
entries (R141, R142, R144). -/
theorem keptByCommand (h : StoreRule q) : KeptByCommand (State.storeMeets q) :=
  h.keptByScan.byCommand
    (releaseReset := fun s hs => (SameStore.releaseReset s).storeMeets hs)
    (loader := fun _ _ hs => hs)
    (toggles := fun _ _ _ hs => hs)
    (running := fun _ _ hs => hs)
    (pim := fun _ a w hs => h.write a w hs)
    (ports := fun _ _ hs => hs)
    (owqTail := fun _ hs => h.lose (List.tail_sublist _) hs)
    (owqRemove := fun _ _ hs => h.lose List.filter_sublist hs)
    (logGranted := fun _ _ hs => hs)
    (logCompleted := fun _ _ _ hs => hs)
    (owed := fun _ _ _ hs => hs)
    (reload := fun s hs => (SameStore.reload s).storeMeets hs)
    (tickFalls := fun _ hs => hs)
    (tickStep := fun _ _ _ hs => hs)
    (tickSettle := fun _ _ hs => hs)
    (assertMaint := fun s hs => (SameStore.assertMaint s).storeMeets hs)
    (releaseMaint := fun s hs => (SameStore.releaseMaint s).storeMeets hs)

end StoreRule

/-! ## The canonical form of the PIM (log 1) -/

theorem canonical_storeRule : StoreRule fun m _ _ => Memory.wf m = true where
  write := fun a w h => Memory.wf_write w h a.isLt
  place := fun _ _ _ h => h
  placeTrip := fun _ _ _ h => h
  lose := fun _ h => h

/-- A reset leaves the PIM, or lands the write in progress (R141, log 10). -/
theorem State.wf_pimAtReset (s : State) (landed : Bool) (h : Memory.wf s.pim = true) :
    Memory.wf (s.pimAtReset landed) = true := by
  have lands : ∀ a w : Word, Memory.wf (if landed then Memory.write s.pim a.toNat w else s.pim) = true := by
    intro a w
    split
    · exact Memory.wf_write w h a.isLt
    · exact h
  unfold State.pimAtReset
  split
  · exact lands _ _
  · exact lands _ _
  · exact h
  · exact h
  · exact h
  · exact h

/-- No image word reaches the PIM (R160). -/
theorem State.pim_imageWord (s : State) (w : Word) : (s.imageWord w).pim = s.pim :=
  imageWord_of (fun t => t.pim = s.pim) w (fun _ _ h => h) (fun _ _ _ _ h => h) (fun _ _ _ _ h => h) rfl

/-- No image word queues an own write (R165 step 1). -/
theorem State.owq_imageWord (s : State) (w : Word) : (s.imageWord w).owq = s.owq :=
  imageWord_of (fun t => t.owq = s.owq) w (fun _ _ h => h) (fun _ _ _ _ h => h) (fun _ _ _ _ h => h) rfl

theorem canonical_keptByStep : KeptByStep fun s => Memory.wf s.pim = true where
  toKeptByCommand := canonical_storeRule.keptByCommand
  queue := fun _ _ h => h
  assertReset := fun s landed h => s.wf_pimAtReset landed h
  imageWord := fun s w h => by rwa [s.pim_imageWord w]

/-! ## The queue's order (R138) -/

theorem ordered_storeRule : StoreRule fun _ _ l => ownWritesOrdered l where
  write := fun _ _ h => h
  place := fun _ he _ h => ownWritesOrdered_placeWrite h he
  placeTrip := fun _ he _ h => ownWritesOrdered_placeTrip h he
  lose := fun hp h => ownWritesOrdered_sublist h hp

theorem ordered_keptByStep : KeptByStep fun s => ownWritesOrdered s.owq where
  toKeptByCommand := ordered_storeRule.keptByCommand
  queue := fun _ _ h => h
  assertReset := fun _ _ _ => ⟨List.nodup_nil, List.Pairwise.nil⟩
  imageWord := fun s w h => by rwa [s.owq_imageWord w]

/-! ## Before an image is installed (R138, R165) -/

/-- No own write is queued, and the Image Loader makes and has made no start-up read. -/
structure State.OwnsNothing (s : State) : Prop where
  queue : s.owq = []
  reads : s.loader.reads = []
  busy : ∀ r, s.ports.busy ≠ some (.startRead r)

/-- With an image installed the Image Loader reads no word of it further (R160). -/
theorem State.imageWord_of_installed (h : s.imageInstalled) (w : Word) : s.imageWord w = s := by
  refine if_neg ?_
  rintro ⟨hl, hlt⟩
  rcases h with hr | ⟨-, hfull⟩
  · rw [hl] at hr
    cases hr
  · omega

/-- No command but RESET_ASSERT takes an installed image back (R162, R165). -/
theorem exec_imageInstalled {c : Instr} (hs : s.imageInstalled) (hc : ∀ l, c ≠ .resetAssert l)
    (ht : exec c s = .next t) : t.imageInstalled := by
  have kept : KeptByCommand State.imageInstalled :=
    State.imageMeets_keptByCommand (q := fun p ws _ => p = .running ∨ p = .loading ∧ ws.length = imageLength)
      (fun _ _ h => by rcases h with h | ⟨h, -⟩ <;> cases h) fun _ _ _ _ => .inl rfl
  refine kept.exec c (fun l h => absurd h (hc l)) (fun w _ => ?_) hs ht
  rwa [State.imageWord_of_installed hs]

/-- A write discarded queues nothing and asks for no start-up read (R162, R164). -/
theorem State.ownsNothing_discardWrite (h : s.OwnsNothing) : s.discardWrite.OwnsNothing := by
  unfold State.discardWrite
  split <;> exact ⟨h.queue, h.reads, h.busy⟩

theorem State.hostWrites_outside (hp : s.phase ≠ .running) (k a d) :
    s.hostWrites k a d = s ∨ s.hostWrites k a d = s.discardWrite := by
  unfold State.hostWrites
  split
  · exact .inl rfl
  · split
    · exact .inl rfl
    · exact .inr rfl
    · exact .inr rfl
    · rename_i hr
      exact absurd hr hp

/-- A host write outside RUNNING is discarded, or not taken at all (R162, R164). -/
theorem exec_hostWrite_outside {c : Instr} (hc : c.isHostWrite = true) (hp : s.phase ≠ .running)
    (ht : exec c s = .next t) : t = s ∨ t = s.discardWrite := by
  have eq_of : ∀ u : State, exec c s = .next u → t = u := fun u hu => by
    rw [ht] at hu
    exact Host.Outcome.next.inj hu
  rcases exec_hostWrite_cases hc s with ⟨b, code, q, e⟩ | ⟨g, code, q, e⟩ | ⟨b, w, d, e⟩ | ⟨k, a, d, e⟩
  · rw [eq_of _ e, State.writesReq, State.berthWrites, if_neg fun h => hp h.1]
    exact State.hostWrites_outside hp _ _ _
  · rw [eq_of _ e, State.writesGroup, if_neg fun h => hp h.1]
    exact State.hostWrites_outside hp _ _ _
  · rw [eq_of _ e, State.writesCommand, State.berthWrites, if_neg fun h => hp h.1]
    exact State.hostWrites_outside hp _ _ _
  · rw [eq_of _ e]
    exact State.hostWrites_outside hp _ _ _

/-- What a grantee says of the state it is chosen in: its access waits (R144). -/
def State.presents (s : State) (first : Bool) : Grantee → Prop
  | .host a => s.ports.host = some a
  | .own w => s.owq.head? = some w
  | .loader a => s.loader.next first = some a
  | .scan p => s.scan.pass = some p
  | .log k => s.log.next = some k

theorem State.presents_of_chooseOwn {first : Bool} {g : Grantee} (h : s.chooseOwn first = some g) : s.presents first g := by
  unfold State.chooseOwn at h
  split at h <;> cases h
  case h_1 hloader => exact hloader
  case h_2 hqueue => exact congrArg List.head? hqueue
  case h_3 hpass => exact hpass
  case h_4 hlog => exact hlog
  case h_5 hhost => exact hhost

/-- A grant goes to an access that waits (R144). -/
theorem State.presents_of_choose {first : Bool} {g : Grantee} (h : s.choose first = some g) : s.presents first g := by
  have host : s.chooseHost first = some g → s.presents first g := by
    intro hg
    unfold State.chooseHost at hg
    split at hg
    · rename_i a ha
      split at hg
      · cases hg
        exact ha
      · exact State.presents_of_chooseOwn hg
    · exact State.presents_of_chooseOwn hg
  unfold State.choose at h
  split at h
  · rename_i w rest hqueue
    split at h
    · cases h
      exact congrArg List.head? hqueue
    · exact host h
  · exact host h

theorem Loader.next_ne_read (l : Loader) (h : l.reads = []) (first : Bool) (r : StartRead) :
    l.next first ≠ some (.read r) := by
  unfold Loader.next
  rw [h]
  cases l.startupWaiting <;> nofun

/-- A grant takes neither an own write from an empty queue nor a start-up read where none is to be made (R144). -/
theorem State.ownsNothing_portGrant (h : s.OwnsNothing) (r w first) : (s.portGrant r w first).OwnsNothing := by
  have harrive : (s.readArrives r).OwnsNothing := by
    unfold State.readArrives
    split <;> exact ⟨h.queue, h.reads, h.busy⟩
  unfold State.portGrant
  dsimp only
  generalize s.readArrives r = u at harrive
  split
  · exact harrive
  · split
    · rename_i g hg
      have hwaits := State.presents_of_choose hg
      cases g with
      | host a =>
        cases a with
        | write a d => exact ⟨harrive.queue, harrive.reads, nofun⟩
        | read a =>
          show State.OwnsNothing (State.setPorts _ _)
          split
          · cases w <;> exact ⟨harrive.queue, harrive.reads, harrive.busy⟩
          · exact ⟨harrive.queue, harrive.reads, harrive.busy⟩
      | own x =>
        rw [State.presents, harrive.queue] at hwaits
        cases hwaits
      | loader a =>
        cases a with
        | startupWrite => exact ⟨harrive.queue, harrive.reads, harrive.busy⟩
        | read r => exact absurd hwaits (u.loader.next_ne_read harrive.reads first r)
      | scan p => exact ⟨harrive.queue, harrive.reads, nofun⟩
      | log k => exact ⟨harrive.queue, harrive.reads, nofun⟩
    · exact harrive

/-- An own write's carriage queues nothing (R141). -/
theorem State.ownsNothing_ownCarried (h : s.OwnsNothing) : s.ownCarried.OwnsNothing := by
  unfold State.ownCarried
  split
  · unfold State.carriageReport
    split
    · exact ⟨h.queue, h.reads, nofun⟩
    · split
      · exact ⟨h.queue, h.reads, nofun⟩
      · exact ⟨h.queue, h.reads, nofun⟩
  · exact h

/-- A host write's carriage finds no entry to remove and queues none again (R142). -/
theorem State.ownsNothing_hostCarried (h : s.OwnsNothing) : s.hostCarried.OwnsNothing := by
  unfold State.hostCarried
  split
  · rw [h.queue]
    exact ⟨rfl, h.reads, nofun⟩
  · exact h

theorem State.ownsNothing_tryEnterRunning (h : s.OwnsNothing) : s.tryEnterRunning.OwnsNothing :=
  ⟨s.tryEnterRunning_owq.trans h.queue, s.tryEnterRunning_reads.trans h.reads, by
    rw [s.tryEnterRunning_ports]
    exact h.busy⟩

theorem State.ownsNothing_logCarried (h : s.OwnsNothing) : s.logCarried.OwnsNothing := by
  unfold State.logCarried
  split
  · exact State.ownsNothing_tryEnterRunning ⟨h.queue, h.reads, nofun⟩
  · exact h

/-- With no start-up read in progress none completes (R165). -/
theorem State.startReadDone_of_ownsNothing (h : s.OwnsNothing) : s.startReadDone = s := by
  unfold State.startReadDone
  split
  · rename_i r hr
    exact absurd hr (h.busy r)
  · rfl

/-- An image word queues no own write, and asks for start-up reads as the image's last alone (R165 step 1). -/
theorem State.ownWritesAfterImage_imageWord (h : s.OwnsNothing) (w : Word) : (s.imageWord w).ownWritesAfterImage := by
  unfold State.imageWord
  split
  · rename_i hp
    dsimp only
    split
    · exact fun _ => ⟨h.queue, h.reads, h.busy⟩
    · split
      · rename_i hlen
        exact fun hi => absurd (.inr ⟨hp.1, hlen⟩) hi
      · exact fun _ => ⟨h.queue, h.reads, h.busy⟩
  · exact fun _ => ⟨h.queue, h.reads, h.busy⟩

/-- Until an image is installed no command queues an own write or makes a start-up read: nothing is under way whose event could
(R22, R138, R165). -/
theorem exec_ownWritesAfterImage_of_none {c : Instr} (hi : ¬ s.imageInstalled) (hquiet : s.quietOutside) (h : s.OwnsNothing)
    (ht : exec c s = .next t) : t.ownWritesAfterImage := by
  have hp : s.phase ≠ .running := fun hr => hi (.inl hr)
  obtain ⟨-, -, -, -, hscan, htimer⟩ := hquiet hp
  have howed : ∀ b, s.owed b = Owed.none := fun b => by
    unfold State.owed
    rw [htimer]
    exact Eight.get_fill _ _
  have hpass : s.scan.pass = none := by rw [hscan]; rfl
  have hdue : s.scan.tickDue = false := by rw [hscan]; rfl
  have leaves : ∀ u : State, exec c s = .next u → u.OwnsNothing → t.ownWritesAfterImage := fun u hu hq => by
    rw [ht] at hu
    rw [Host.Outcome.next.inj hu]
    exact fun _ => ⟨hq.queue, hq.reads, hq.busy⟩
  by_cases hw : c.isHostWrite = true
  · rcases exec_hostWrite_outside hw hp ht with rfl | rfl
    · exact leaves _ ht h
    · exact leaves _ ht (State.ownsNothing_discardWrite h)
  cases c
  case resetAssert landed => exact leaves _ rfl ⟨rfl, rfl, nofun⟩
  case resetRelease =>
    refine leaves _ rfl ?_
    unfold State.releaseReset
    split
    · exact ⟨h.queue, rfl, h.busy⟩
    · exact h
  case imageWordRead w =>
    cases ht
    exact State.ownWritesAfterImage_imageWord h w
  case startupReqRead => exact leaves _ rfl (by rwa [State.startReadDone_of_ownsNothing h])
  case portGrant => exact leaves _ rfl (State.ownsNothing_portGrant h _ _ _)
  case ownWriteCarried => exact leaves _ rfl (State.ownsNothing_ownCarried h)
  case hostWriteCarried => exact leaves _ rfl (State.ownsNothing_hostCarried h)
  case logWriteComplete => exact leaves _ rfl (State.ownsNothing_logCarried h)
  case baseFTick => exact leaves _ rfl (by rwa [State.baseFTick, if_neg hp])
  case baseSTick => exact leaves _ rfl (by rwa [State.baseSTick, if_neg hp])
  case scanTick => exact leaves _ rfl (by simpa [State.scanTick, hdue] using h)
  case stepExpiry b => exact leaves _ rfl (by rwa [State.stepExpiry_of_nothing_owed (howed b)])
  case settleExpiry b => exact leaves _ rfl (by rwa [State.settleExpiry_of_nothing_owed (howed b)])
  case holdExpiry b => exact leaves _ rfl (by rwa [State.holdExpiry_of_nothing_owed (howed b)])
  case scanReadComplete => exact leaves _ rfl (by simpa [State.scanReadDone, hpass] using h)
  case maintAssert => exact leaves _ rfl (by rw [State.assertMaint, if_neg fun h => hp h.1]; exact ⟨h.queue, h.reads, h.busy⟩)
  case maintRelease => exact leaves _ rfl (by rw [State.releaseMaint, if_neg fun h => hp h.1]; exact ⟨h.queue, h.reads, h.busy⟩)
  all_goals exact absurd rfl hw

/-- No command makes an own write or a start-up read before an image is installed: RESET_ASSERT, which takes the image back, empties
the queue (R138, R162, R165). -/
theorem exec_ownWritesAfterImage {c : Instr} (hquiet : s.quietOutside) (hs : s.ownWritesAfterImage)
    (ht : exec c s = .next t) : t.ownWritesAfterImage := by
  by_cases hi : s.imageInstalled
  · by_cases hc : ∃ l, c = .resetAssert l
    · obtain ⟨l, rfl⟩ := hc
      cases ht
      exact fun _ => ⟨rfl, rfl, nofun⟩
    · exact fun hn => absurd (exec_imageInstalled hi (not_exists.mp hc) ht) hn
  · obtain ⟨hqueue, hreads, hbusy⟩ := hs hi
    exact exec_ownWritesAfterImage_of_none hi hquiet ⟨hqueue, hreads, hbusy⟩ ht

/-! ## The queue's addresses (R143) -/

/-- Every entry stands at one of the queue's addresses. -/
def addressesOwn (k : Tables) (l : List OwnWrite) : Prop := ∀ e ∈ l, e.address ∈ ownAddresses k

theorem addressesOwn_nil (k : Tables) : addressesOwn k [] := nofun

/-- A placement adds at most its own address (R139, R140). -/
theorem addressesOwn_of_adds {k : Tables} {l p : List OwnWrite} {e : OwnWrite} (he : e.address ∈ ownAddresses k)
    (hp : ∀ x ∈ p, x.address = e.address ∨ ∃ y ∈ l, y.address = x.address) (h : addressesOwn k l) : addressesOwn k p := by
  intro x hx
  rcases hp x hx with hxe | ⟨y, hy, hyx⟩
  · exact hxe ▸ he
  · exact hyx ▸ h y hy

theorem addressesOwn_storeRule : StoreRule fun _ k l => addressesOwn k l where
  write := fun _ _ h => h
  place := fun _ _ he h => addressesOwn_of_adds he (fun _ => mem_placeWrite) h
  placeTrip := fun _ _ he h => addressesOwn_of_adds he (fun _ => mem_placeTrip) h
  lose := fun hp h e he => h e (hp.subset he)

/-- An image word changes the tables only where no own write is queued (R165 step 1). -/
theorem State.addressesOwn_imageWord (hs : s.ownWritesAfterImage) (h : addressesOwn s.tables s.owq) (w : Word) :
    addressesOwn (s.imageWord w).tables (s.imageWord w).owq := by
  rw [s.owq_imageWord w]
  by_cases hi : s.imageInstalled
  · rwa [State.imageWord_of_installed hi]
  · obtain ⟨hqueue, -, -⟩ := hs hi
    rw [hqueue]
    exact addressesOwn_nil _

theorem exec_addressesOwn {c : Instr} (hs : s.ownWritesAfterImage) (h : addressesOwn s.tables s.owq)
    (ht : exec c s = .next t) : addressesOwn t.tables t.owq :=
  addressesOwn_storeRule.keptByCommand.exec c (fun _ _ => addressesOwn_nil _)
    (fun w _ => State.addressesOwn_imageWord hs h w) h ht

/-- Addresses without repetition, all taken from a list, are no more than that list holds. (Core Lean has no such lemma, and the
package imports core Lean alone.) -/
theorem length_le_of_nodup_of_subset {l m : List Word} (hn : l.Nodup) (hs : l ⊆ m) : l.length ≤ m.length := by
  induction l generalizing m with
  | nil => exact Nat.zero_le _
  | cons a rest ih =>
    obtain ⟨hnot, hrest⟩ := List.nodup_cons.mp hn
    have ha : a ∈ m := hs (.head _)
    have herase : rest ⊆ m.erase a := by
      intro x hx
      have hne : x ≠ a := fun e => hnot (e ▸ hx)
      exact (List.mem_erase_of_ne hne).mpr (hs (.tail _ hx))
    have hle := ih hrest herase
    have hpos := List.length_pos_of_mem ha
    rw [List.length_erase_of_mem ha] at hle
    rw [List.length_cons]
    omega

/-- A queue with one entry per address, at no address but its own, holds at most 44 entries (R143). -/
theorem length_le_of_addressesOwn {k : Tables} {l : List OwnWrite} (ho : ownWritesOrdered l) (h : addressesOwn k l) :
    l.length ≤ 44 := by
  have hsub : (l.map fun e => e.address) ⊆ ownAddresses k := by
    intro a ha
    obtain ⟨e, he, rfl⟩ := List.mem_map.mp ha
    exact h e he
  have hlen := length_le_of_nodup_of_subset ho.1 hsub
  rwa [List.length_map, length_ownAddresses] at hlen

end Sys2Proof.Machine

open Sys2Proof Sys2Proof.Machine

/-- Settles O4: every write of the PIM keeps its form, and a reset lands at most the write in progress. -/
theorem memoryStaysCanonical : Obligations.MemoryStaysCanonical := fun _ _ hs ht => canonical_keptByStep.step hs ht

/-- Settles O5: every placement and removal keeps the order, and no command changes the queue in another way. -/
theorem ownWriteQueueStaysOrdered : Obligations.OwnWriteQueueStaysOrdered := fun _ _ hs ht => ordered_keptByStep.step hs ht

/-- Settles O6: the queue is empty until its tables are fixed, then every placement is at one of their 44 addresses, one entry each. -/
theorem ownWriteQueueNeverFills : Obligations.OwnWriteQueueNeverFills := by
  intro s t hordered hquiet hafter hown ht
  have hlen : addressesOwn t.tables t.owq → t.owq.length ≤ 44 :=
    length_le_of_addressesOwn (ordered_keptByStep.step hordered ht)
  unfold step at ht
  split at ht
  · cases ht
    exact ⟨hafter, hown, hlen hown⟩
  · rename_i c rest _
    have hquiet' : State.quietOutside { s with pending := rest } := hquiet
    have hafter' : State.ownWritesAfterImage { s with pending := rest } := hafter
    have hown' : addressesOwn t.tables t.owq := exec_addressesOwn hafter' hown ht
    exact ⟨exec_ownWritesAfterImage hquiet' hafter' ht, hown', hlen hown'⟩

end

section
/-! The memory port (R141, R142, R144, R145): who waits for a grant, in the order of R144, what each grantee's grant leaves, and what the
carriage of an own write and of a host write leaves. -/

namespace Sys2Proof.Machine

variable {s : State} {first : Bool} {station : Option Word} {a d : Word} {w : OwnWrite} {rest : List OwnWrite}

/-! ## What the Image Loader and the Log Unit present (R144, R154, R156) -/

theorem Loader.next_startupWrite {l : Loader} (hw : l.startupWaiting = true)
    (hf : l.reads = [] ∨ first = false ∨ l.firstWaiting = true) : l.next first = some .startupWrite := by
  unfold Loader.next
  rw [hw]
  cases hr : l.reads with
  | nil => rfl
  | cons r rest =>
    rcases hf with h | h | h
    · rw [h] at hr
      cases hr
    · simp [h]
    · simp [h]

theorem Loader.next_read {l : Loader} {r : StartRead} {rest : List StartRead} (hr : l.reads = r :: rest)
    (hf : l.startupWaiting = false ∨ first = true ∧ l.firstWaiting = false) : l.next first = some (.read r) := by
  unfold Loader.next
  rw [hr]
  cases hw : l.startupWaiting with
  | false => rfl
  | true =>
    rcases hf with h | ⟨h, hn⟩
    · rw [h] at hw
      cases hw
    · simp [h, hn]

theorem Loader.next_none {l : Loader} (hw : l.startupWaiting = false) (hr : l.reads = []) (first : Bool) :
    l.next first = none := by
  simp [Loader.next, hw, hr]

theorem Log.next_firstHeader {l : Log} {h : HeaderWord} {rest : List HeaderWord} (hh : l.firstHeaders = h :: rest) :
    l.next = some (.firstHeader h) := by
  simp [Log.next, hh]

theorem Log.next_producer {l : Log} (hh : l.firstHeaders = []) (hp : l.producerWaiting = true) :
    l.next = some .producerWord := by
  simp [Log.next, hh, hp]

theorem Log.next_record {l : Log} {r : Record} {rest : List Record} (hh : l.firstHeaders = [])
    (hp : l.producerWaiting = false) (hs : l.staging = r :: rest) : l.next = some (.recordWord l.wordIndex) := by
  simp [Log.next, hh, hp, hs]

/-- With no other access of its own the Log Unit presents the pending header words: STATUS, GRANTED, CAPACITY (R154). -/
theorem Log.next_pending {l : Log} (hh : l.firstHeaders = []) (hp : l.producerWaiting = false) (hs : l.staging = []) :
    l.next =
      if l.statusPending then some (.headerWord .status)
      else if l.grantedPending then some (.headerWord .granted)
      else if l.capacityPending then some (.headerWord .capacity) else none := by
  simp [Log.next, hh, hp, hs]

theorem Log.next_of_quiet {l : Log} (h : l.quiet) : l.next = none := by
  obtain ⟨hheaders, hproducer, hstaging, hstatus, hgranted, hcapacity⟩ := h
  simp [Log.next_pending hheaders hproducer hstaging, hstatus, hgranted, hcapacity]

/-! ## The grant order (R144) -/

/-- First a TRIP entry at the head of the Own Write Queue. -/
theorem State.choose_of_trip (hq : s.owq = w :: rest) (ht : w.cls = .trip) (first : Bool) :
    s.choose first = some (.own w) := by
  simp [State.choose, hq, ht]

/-- Then the host, while its streak is below 4. -/
theorem State.choose_of_host {x : HostAccess} (hno : ∀ w rest, s.owq = w :: rest → w.cls ≠ .trip)
    (hh : s.ports.host = some x) (hlt : s.ports.streak < 4) (first : Bool) : s.choose first = some (.host x) := by
  rw [State.choose_of_noTrip s first hno, State.chooseHost, hh]
  exact if_pos hlt

theorem State.chooseOwn_of_loader {x : LoaderAccess} (hl : s.loader.next first = some x) :
    s.chooseOwn first = some (.loader x) := by
  simp [State.chooseOwn, hl]

theorem State.chooseOwn_of_queue (hl : s.loader.next first = none) (hq : s.owq = w :: rest) :
    s.chooseOwn first = some (.own w) := by
  simp [State.chooseOwn, hl, hq]

theorem State.chooseOwn_of_pass {p : Pass} (hl : s.loader.next first = none) (hq : s.owq = []) (hp : s.scan.pass = some p) :
    s.chooseOwn first = some (.scan p) := by
  simp [State.chooseOwn, hl, hq, hp]

theorem State.chooseOwn_of_log {k : LogWrite} (hl : s.loader.next first = none) (hq : s.owq = [])
    (hp : s.scan.pass = none) (hk : s.log.next = some k) : s.chooseOwn first = some (.log k) := by
  simp [State.chooseOwn, hl, hq, hp, hk]

/-- Last the host, whose streak held it back. -/
theorem State.chooseOwn_of_quiet (hl : s.loader.next first = none) (hq : s.owq = []) (hp : s.scan.pass = none)
    (hk : s.log.next = none) : s.chooseOwn first = s.ports.host.map .host := by
  unfold State.chooseOwn
  rw [hl, hq, hp, hk]
  cases s.ports.host <;> rfl

/-- No own requester waits (R145). -/
theorem State.ownWaits_of_quiet (hl : s.loader.next false = none) (hq : s.owq = []) (hp : s.scan.pass = none)
    (hk : s.log.next = none) : s.ownWaits = false := by
  simp [State.ownWaits, hl, hq, hp, hk]

/-! ## A host read's arrival (R133, log 8) -/

theorem State.readArrives_of_free (hh : s.ports.host = none) (a : Word) :
    s.readArrives (some a) = { s with ports := { s.ports with host := some (.read a) } } := by
  unfold State.readArrives
  rw [hh]
  rfl

/-- A host port that holds an access takes no other. -/
theorem State.readArrives_of_busy (hh : s.ports.host ≠ none) (a : Word) : s.readArrives (some a) = s := by
  obtain ⟨x, hx⟩ := Option.ne_none_iff_exists'.mp hh
  unfold State.readArrives
  rw [hx]

/-- With no read arriving, the grant finds the state as it is. -/
theorem State.readArrives_none (s : State) : s.readArrives none = s := rfl

/-- A grant acts on the state that the arrival leaves. -/
theorem State.portGrant_arrived (s : State) (read : Option Word) :
    s.portGrant read station first = (s.readArrives read).portGrant none station first := rfl

/-- A busy port grants nothing. -/
theorem State.portGrant_of_busy (hb : s.ports.busy ≠ none) : s.portGrant none station first = s := by
  obtain ⟨x, hx⟩ := Option.ne_none_iff_exists'.mp hb
  unfold State.portGrant
  rw [State.readArrives_none]
  dsimp only
  rw [hx]

/-! ## What a grant leaves (R144, R145) -/

/-- The port is free, no TRIP entry is first, and the host waits for no access or has had its four in a row: the grant is one of
items 3 to 7 of the order. -/
structure State.OwnTurn (s : State) : Prop where
  free : s.ports.busy = none
  noTrip : ∀ w rest, s.owq = w :: rest → w.cls ≠ .trip
  host : s.ports.host = none ∨ 4 ≤ s.ports.streak

theorem State.OwnTurn.grant (h : s.OwnTurn) {g : Grantee} (hg : s.chooseOwn first = some g) (station : Option Word) :
    exec (.portGrant none station first) s = .next (s.grantTo g station) :=
  portGrant_of_choose s station first h.free g ((State.choose_of_noHost s first h.noTrip h.host).trans hg)

/-- A granted Log Unit write takes the port with its address and its data (R154, R156). -/
theorem State.grantTo_log {k : LogWrite} {place : Nat} (h : s.logTarget k = (s.tables.logAddress place, d))
    (station : Option Word) : s.grantTo (.log k) station = s.logGranted k place d (s.log.granted k) := by
  unfold State.grantTo
  dsimp only
  rw [h]
  rfl

/-- The Log Unit's turn: no access of R144's items 3 to 5 waits. -/
structure State.LogTurn (s : State) (first : Bool) : Prop extends s.OwnTurn where
  loader : s.loader.next first = none
  queue : s.owq = []
  pass : s.scan.pass = none

theorem State.LogTurn.grant (h : s.LogTurn first) {k : LogWrite} {place : Nat} (hk : s.log.next = some k)
    (ht : s.logTarget k = (s.tables.logAddress place, d)) (station : Option Word) :
    exec (.portGrant none station first) s = .next (s.logGranted k place d (s.log.granted k)) := by
  rw [h.toOwnTurn.grant (State.chooseOwn_of_log h.loader h.queue h.pass hk), State.grantTo_log ht]

/-- A header word is written with its value at the grant (R154). -/
theorem State.LogTurn.grant_header (h : s.LogTurn first) {k : LogWrite} {x : HeaderWord} (hk : s.log.next = some k)
    (ht : s.logTarget k = (s.tables.logAddress (headerPlace x), s.headerValue x)) (station : Option Word) :
    ∃ d, s.headerReads x d
      ∧ exec (.portGrant none station first) s = .next (s.logGranted k (headerPlace x) d (s.log.granted k)) :=
  ⟨_, s.headerReads_value x, h.grant hk ht station⟩

theorem State.LogTurn.grant_firstHeader (h : s.LogTurn first) {x : HeaderWord} {rest : List HeaderWord}
    (hh : s.log.firstHeaders = x :: rest) (station : Option Word) :
    ∃ d, s.headerReads x d
      ∧ exec (.portGrant none station first) s = .next (s.logGranted (.firstHeader x) (headerPlace x) d s.log) :=
  h.grant_header (Log.next_firstHeader hh) (by rw [← x.offset_place]; rfl) station

/-- The words of the head record go to the place of the producer index (R156). -/
theorem State.LogTurn.grant_record (h : s.LogTurn first) {r : Record} {rest : List Record}
    (hh : s.log.firstHeaders = []) (hp : s.log.producerWaiting = false) (hs : s.log.staging = r :: rest)
    (station : Option Word) :
    exec (.portGrant none station first) s =
      .next (s.logGranted (.recordWord s.log.wordIndex) (5 + 4 * s.log.producer + s.log.wordIndex)
        (r.word s.log.wordIndex) s.log) :=
  h.grant (Log.next_record hh hp hs) (by unfold State.logTarget; rw [hs]; rfl) station

/-- The start-up word write completes in its grant, with the values current now (R162, R163, log 8). -/
theorem State.grantStartupWrite_leaves (hm : Memory.wf s.pim = true) :
    s.grantStartupWrite.pimRead 0xFFFF = startupWord s.phase s.loader.error s.loader.reportedN s.loader.discarded
      ∧ s.sameMemoryBut s.grantStartupWrite 0xFFFF
      ∧ s.grantStartupWrite.loader = { s.loader with startupWaiting := false, firstWaiting := false }
      ∧ s.grantStartupWrite.ports = { s.ports with streak := 0 } ∧ s.sameBerths s.grantStartupWrite
      ∧ s.grantStartupWrite.log = s.log :=
  ⟨State.pimRead_pimWrite_same startupAddress _ hm, fun _ hx => State.pimRead_pimWrite_of_ne s _ hx, rfl, rfl,
    ⟨rfl, rfl, rfl, rfl, rfl, rfl⟩, rfl⟩

/-- With nothing of the part's own waiting, the grant is the host's, whose streak starts anew (R144, R145). -/
theorem State.LogTurn.grant_quiet (h : s.LogTurn first) (hl : s.loader.next false = none) (hq : s.log.quiet)
    (hm : Memory.wf s.pim = true) (station : Option Word) :
    (∀ a d, s.ports.host = some (.write a d) →
        exec (.portGrant none station first) s =
          .next { s with ports := { s.ports with busy := some (.hostWrite a d), streak := 0 } })
      ∧ (∀ a, s.ports.host = some (.read a) →
        ∃ t, exec (.portGrant none station first) s = .next t ∧ s.readAnswered t a station 0)
      ∧ (s.ports.host = none → exec (.portGrant none station first) s = .next s) := by
  have hnext := Log.next_of_quiet hq
  have hchoose := State.chooseOwn_of_quiet h.loader h.queue h.pass hnext
  have hstreak : s.streakAfterHost = 0 := by
    rw [State.streakAfterHost, State.ownWaits_of_quiet hl h.queue h.pass hnext]
    rfl
  refine ⟨fun a d hh => ?_, fun a hh => ?_, fun hh => ?_⟩
  · rw [hh] at hchoose
    rw [h.toOwnTurn.grant hchoose, ← hstreak]
    rfl
  · rw [hh] at hchoose
    rw [← hstreak]
    exact ⟨_, h.toOwnTurn.grant hchoose station, readAnswered_of_read s a station hm _⟩
  · rw [hh] at hchoose
    exact portGrant_of_none s station first h.free ((State.choose_of_noHost s first h.noTrip h.host).trans hchoose)

/-! ## Own writes carried (R141) -/

/-- The carriage of an own write is an opening issued (R6): SHIPCON_BKR=OPEN of a berth in SEPARATING. -/
theorem State.berth_carriageReport (s : State) (w : OwnWrite) (b : BerthId) :
    (s.carriageReport w).berth b =
      if w.berth = some b ∧ w.address = s.tables.cmdAddress b .shipconBkr ∧ w.data = cmdOpen ∧ (s.berth b).state = .separating
      then { s.berth b with openingIssued := true } else s.berth b := by
  unfold State.carriageReport
  cases hb : w.berth with
  | none => simp
  | some c =>
    by_cases hc : c = b
    · subst hc
      by_cases hcond : w.address = s.tables.cmdAddress c .shipconBkr ∧ w.data = cmdOpen ∧ (s.berth c).state = .separating
      · simp [hcond]
      · simp [hcond]
    · rw [if_neg fun h => hc (Option.some.inj h.1)]
      dsimp only
      split
      · exact State.berth_setBerth_of_ne _ _ (Ne.symm hc)
      · rfl

/-- The report of a carriage writes Berth Records alone. -/
theorem State.carriageReport_field {α : Type} (f : State → α) (hf : ∀ (s : State) b r, f (s.setBerth b r) = f s) (s : State)
    (w : OwnWrite) : f (s.carriageReport w) = f s := by
  unfold State.carriageReport
  split
  · rfl
  · split
    · exact hf _ _ _
    · rfl

/-! ## Host writes carried (R142) -/

theorem mem_removedBy {q : List OwnWrite} {x : OwnWrite} : x ∈ removedBy q a ↔ x ∈ q ∧ x.address = a ∧ x.cls ≠ .trip := by
  simp [removedBy]

/-- A removal is reported to no berth in SEPARATING with its opening not issued. -/
theorem State.removalReport_of_not (h : ∀ b, w.berth = some b →
      ¬ (w.address = s.tables.cmdAddress b .shipconBkr ∧ (s.berth b).state = .separating ∧ (s.berth b).openingIssued = false)) :
    s.removalReport w = s := by
  unfold State.removalReport
  split
  · rfl
  · rename_i b hb
    exact if_neg (h b hb)

theorem State.removalReports_of_not {l : List OwnWrite} (h : ∀ w ∈ l, s.removalReport w = s) : s.removalReports l = s := by
  induction l with
  | nil => rfl
  | cons w rest ih =>
    rw [State.removalReports, h w (.head _)]
    exact ih fun x hx => h x (.tail _ hx)

/-- An entry at an address is the part's SHIPCON_BKR=OPEN, queued again after a removal there (R6). -/
def requeuedAt (q : List OwnWrite) (a : Word) : Prop := ∀ x ∈ q, x.address = a → x.data = cmdOpen ∧ x.cls = .seq

/-- What a removal leaves holds no SEQ or REPORT entry at its address, and no TRIP entry where none was. -/
theorem requeuedAt_removeAt {q : List OwnWrite} (h : tripAt q a = false) : requeuedAt (removeAt q a) a := by
  intro x hx hxa
  simp only [removeAt, List.mem_filter, Bool.or_eq_true, decide_eq_true_eq] at hx
  obtain ⟨hq, hne | htrip⟩ := hx
  · exact absurd hxa hne
  · have : tripAt q a = true := tripAt_iff.mpr ⟨x, hq, hxa, htrip⟩
    rw [h] at this
    cases this

/-- SHIPCON_BKR=OPEN queued again joins the entry that was queued again before it, or stands at the tail (R139). -/
theorem requeuedAt_placeWrite {q : List OwnWrite} {e : OwnWrite} (ha : e.address = a) (hd : e.data = cmdOpen) (hc : e.cls = .seq)
    (h : requeuedAt q a) : requeuedAt (placeWrite q e) a ∧ entryAt (placeWrite q e) a = true := by
  have hnoTrip : tripAt q a = false := by
    rw [Bool.eq_false_iff]
    intro ht
    obtain ⟨x, hx, hxa, htrip⟩ := tripAt_iff.mp ht
    obtain ⟨-, hseq⟩ := h x hx hxa
    rw [hseq] at htrip
    cases htrip
  unfold placeWrite
  rw [ha, hnoTrip, if_neg Bool.false_ne_true]
  split
  · rename_i hentry
    obtain ⟨y, hy, hya⟩ := entryAt_iff.mp hentry
    refine ⟨?_, entryAt_iff.mpr ⟨_, List.mem_map_of_mem hy, by simp [hya]⟩⟩
    intro x hx hxa
    obtain ⟨z, hz, rfl⟩ := List.mem_map.mp hx
    by_cases hza : z.address = a
    · obtain ⟨-, hseq⟩ := h z hz hza
      simp [hza, hd, hseq]
    · simp only [if_neg hza] at hxa
      exact absurd hxa hza
  · refine ⟨?_, entryAt_iff.mpr ⟨e, by simp, ha⟩⟩
    intro x hx hxa
    rcases List.mem_append.mp hx with hx | hx
    · exact h x hx hxa
    · rw [List.mem_singleton.mp hx]
      exact ⟨hd, hc⟩

/-- Reporting removals at an address queues SHIPCON_BKR=OPEN again there, once the report of one of them calls for it (R6, R142). -/
theorem State.requeuedAt_removalReports {l : List OwnWrite} (hl : ∀ w ∈ l, w.address = a) (hq : requeuedAt s.owq a) :
    requeuedAt (s.removalReports l).owq a
      ∧ (entryAt s.owq a = true
          ∨ (∃ w ∈ l, ∃ b, w.berth = some b ∧ a = s.tables.cmdAddress b .shipconBkr ∧ (s.berth b).state = .separating
              ∧ (s.berth b).openingIssued = false) →
        entryAt (s.removalReports l).owq a = true) := by
  induction l generalizing s with
  | nil => exact ⟨hq, fun h => h.resolve_right nofun⟩
  | cons w rest ih =>
    have hwa := hl w (.head _)
    have hrest := fun x hx => hl x (.tail _ hx)
    rw [State.removalReports]
    unfold State.removalReport
    split
    · rename_i hnone
      obtain ⟨hkeep, hfind⟩ := ih hrest hq
      refine ⟨hkeep, fun h => hfind (h.imp_right ?_)⟩
      rintro ⟨x, hx, b, hb, hcond⟩
      cases hx with
      | head => rw [hnone] at hb; cases hb
      | tail _ hx => exact ⟨x, hx, b, hb, hcond⟩
    · rename_i b hb
      split
      · rename_i hcond
        obtain ⟨hplaced, hentry⟩ :=
          requeuedAt_placeWrite (e := s.seqEntry b .shipconBkr cmdOpen) (hcond.1.symm.trans hwa) rfl rfl hq
        obtain ⟨hkeep, hfind⟩ := ih (s := s.seqWrite b .shipconBkr cmdOpen) hrest hplaced
        exact ⟨hkeep, fun _ => hfind (.inl hentry)⟩
      · rename_i hcond
        obtain ⟨hkeep, hfind⟩ := ih hrest hq
        refine ⟨hkeep, fun h => hfind (h.imp_right ?_)⟩
        rintro ⟨x, hx, c, hc, hxcond⟩
        cases hx with
        | head =>
          rw [hb] at hc
          cases hc
          exact absurd (hwa ▸ hxcond) hcond
        | tail _ hx => exact ⟨x, hx, c, hc, hxcond⟩

/-- A passed host write in progress ends: memory has taken it, the host access and the port's are over, and the SEQ and REPORT entries
at its address are gone (R142). -/
def State.hostWriteEnded (s : State) (a d : Word) : State :=
  ((s.pimWrite a d).setOwq (removeAt s.owq a)).setPorts { s.ports with busy := none, host := none }

theorem State.hostCarried_of_busy (h : s.ports.busy = some (.hostWrite a d)) :
    s.hostCarried = (s.hostWriteEnded a d).removalReports (removedBy s.owq a) := by
  unfold State.hostCarried
  rw [h]
  rfl

/-! ## Host writes to a word that no other command names (R136, R137) -/

theorem classify_of_uncovered {k : Tables} (ha : a ≠ startupAddress) (h : ∀ w ∈ k.windowList, w.covers k.logCapacity a.toNat = false) :
    k.classify a = .plain := by
  have hnone : k.windowList.find? (fun w => w.covers k.logCapacity a.toNat) = none :=
    List.find?_eq_none.mpr fun w hw => by simp [h w hw]
  unfold Tables.classify
  rw [if_neg ha, hnone]

theorem classify_startupAddress (k : Tables) : k.classify startupAddress = .startup := if_pos rfl

/-- A host write whose class refuses it (R137). -/
theorem State.hostWrites_refused (hs : s.takesHostWrite) {c : WordClass} {reason : SinkReason} {b : Option BerthId}
    (h : s.clearMarks.decideWrite c a d = s.clearMarks.sink reason b a d) :
    s.hostWrites c a d = s.refusedWrite reason b a d := by
  rw [State.hostWrites_of_takes hs, h, State.endEvent_sink]

end Sys2Proof.Machine

open Sys2Proof Sys2Proof.Machine

/-- Settles O42, by the class of the word. -/
theorem otherWritesByClass : Obligations.OtherWritesByClass := by
  intro s a d hs
  simp only [exec_hostWrite, Host.Outcome.next.injEq]
  refine ⟨fun ha hnone => ?_, ?_, fun b hc => ?_, fun b hc => ?_, fun b hc => ?_, fun g hc => ?_, fun hc => ?_⟩
  · rw [classify_of_uncovered ha hnone, State.hostWrites_of_takes hs]
    exact State.endEvent_passWrite s a d
  · rintro rfl
    have hclass : s.tables.classify 0xFFFF = .startup := classify_startupAddress s.tables
    rw [hclass]
    exact State.hostWrites_refused hs rfl
  all_goals
    rw [hc]
    exact State.hostWrites_refused hs rfl

/-- Settles O45: the word, the port, and the report to the Berth Sequencer. -/
theorem ownWriteCarriageStoresItsWord : Obligations.OwnWriteCarriageStoresItsWord := by
  intro s w hm hbusy
  have hdone : s.ownCarried = (s.pimWrite w.address w.data).portFree.carriageReport w := by
    unfold State.ownCarried
    rw [hbusy]
  rw [exec_ownWriteCarried, hdone]
  generalize hu : (s.pimWrite w.address w.data).portFree = u
  have field : ∀ {α : Type} (f : State → α), (∀ (s : State) b r, f (s.setBerth b r) = f s) → f (u.carriageReport w) = f u :=
    fun f hf => State.carriageReport_field f hf u w
  subst hu
  refine ⟨_, rfl, ?_, fun x hx => ?_, field State.ports fun _ _ _ => rfl, field State.owq fun _ _ _ => rfl,
    field State.log fun _ _ _ => rfl, field State.budget fun _ _ _ => rfl, field State.chans fun _ _ _ => rfl,
    field State.sups fun _ _ _ => rfl, field State.holds fun _ _ _ => rfl, fun b => State.berth_carriageReport _ w b⟩
  · exact (field (fun t => t.pimRead w.address) fun _ _ _ => rfl).trans (State.pimRead_pimWrite_same _ _ hm)
  · exact (field (fun t => t.pimRead x) fun _ _ _ => rfl).trans (State.pimRead_pimWrite_of_ne _ _ hx)

/-- Settles O46: the removals' reports touch the queue alone, and queue again what R6 says. -/
theorem hostWriteCarriageRemovesQueuedWrites : Obligations.HostWriteCarriageRemovesQueuedWrites := by
  intro s a d hm hbusy
  rw [exec_hostWriteCarried, State.hostCarried_of_busy hbusy]
  have field : ∀ {α : Type} (f : State → α), (∀ (s : State) q, f (s.setOwq q) = f s) →
      f ((s.hostWriteEnded a d).removalReports (removedBy s.owq a)) = f (s.hostWriteEnded a d) :=
    fun f hf => State.removalReports_field f hf _ _
  refine ⟨_, rfl, ?_, fun x hx => ?_, field State.ports fun _ _ => rfl, ?_, field State.log fun _ _ => rfl, fun hnone => ?_,
    fun b hb hst hopen htrip ⟨x, hx, hxa, hxb⟩ => ?_⟩
  · exact (field (fun t => t.pimRead a) fun _ _ => rfl).trans (State.pimRead_pimWrite_same (s := s) _ _ hm)
  · exact (field (fun t => t.pimRead x) fun _ _ => rfl).trans (State.pimRead_pimWrite_of_ne s _ hx)
  · exact ⟨field State.berths fun _ _ => rfl, field State.sups fun _ _ => rfl, field State.chans fun _ _ => rfl,
      field State.holds fun _ _ => rfl, field State.groupTaken fun _ _ => rfl, field State.budget fun _ _ => rfl⟩
  · rw [State.removalReports_of_not]
    · rfl
    · intro w hw
      obtain ⟨hq, hwa, hc⟩ := mem_removedBy.mp hw
      exact State.removalReport_of_not fun b hb => hwa.symm ▸ hnone w hq hwa hc b hb
  · have hgone : x ∈ removedBy s.owq a := by
      refine mem_removedBy.mpr ⟨hx, hxa, fun hc => ?_⟩
      rw [tripAt_iff.mpr ⟨x, hx, hxa, hc⟩] at htrip
      cases htrip
    have hplace : ∀ w ∈ removedBy s.owq a, w.address = a := fun w hw =>
      have ⟨_, hwa, _⟩ := mem_removedBy.mp hw
      hwa
    obtain ⟨hkeep, hfind⟩ :=
      State.requeuedAt_removalReports (s := s.hostWriteEnded a d) hplace (requeuedAt_removeAt htrip)
    obtain ⟨y, hy, hya⟩ := entryAt_iff.mp (hfind (.inr ⟨x, hgone, b, hxb, hb, hst, hopen⟩))
    exact ⟨y, hy, hya, hkeep y hy hya⟩

/-- Settles O44: the grantee by the order of R144, then what its grant leaves. -/
theorem grantFollowsOrder : Obligations.GrantFollowsOrder := by
  intro s station first hm
  refine ⟨fun a => ⟨fun hh => ?_, fun hh => ?_⟩, fun hb => ?_, fun w rest hb hq ht => ?_, fun hb hno => ⟨?_, ?_, fun hturn => ?_⟩⟩
  · rw [exec_portGrant, exec_portGrant, State.portGrant_arrived, State.readArrives_of_free hh]
  · rw [exec_portGrant, exec_portGrant, State.portGrant_arrived, State.readArrives_of_busy hh]
  · rw [exec_portGrant, State.portGrant_of_busy hb]
  · rw [portGrant_of_choose s station first hb _ (State.choose_of_trip hq ht first)]
    simp only [State.grantTo, hq]
    rfl
  · intro a d hh hlt
    rw [portGrant_of_choose s station first hb _ (State.choose_of_host hno hh hlt first)]
    rfl
  · intro a hh hlt
    exact ⟨_, portGrant_of_choose s station first hb _ (State.choose_of_host hno hh hlt first),
      readAnswered_of_read s a station hm _⟩
  · have hown : s.OwnTurn := ⟨hb, hno, hturn⟩
    refine ⟨fun hw hf => ?_, fun r rest hr hf => ?_, fun hw hr => ⟨fun w rest hq => ?_, fun p hq hp => ?_, fun hq hp => ?_⟩⟩
    · exact ⟨_, hown.grant (State.chooseOwn_of_loader (Loader.next_startupWrite hw hf)) station,
        State.grantStartupWrite_leaves hm⟩
    · rw [hown.grant (State.chooseOwn_of_loader (Loader.next_read hr hf))]
      rfl
    · rw [hown.grant (State.chooseOwn_of_queue (Loader.next_none hw hr first) hq)]
      simp only [State.grantTo, hq]
      rfl
    · rw [hown.grant (State.chooseOwn_of_pass (Loader.next_none hw hr first) hq hp)]
      rfl
    · have hlog : s.LogTurn first := { hown with loader := Loader.next_none hw hr first, queue := hq, pass := hp }
      refine ⟨fun x rest hh => hlog.grant_firstHeader hh station, fun hh hprod => ?_,
        fun r rest hh hprod hs => hlog.grant_record hh hprod hs station, fun hh hprod hs => ?_,
        fun hquiet => hlog.grant_quiet (Loader.next_none hw hr false) hquiet hm station⟩
      · exact hlog.grant_header (x := .producer) (Log.next_producer hh hprod) rfl station
      · have hnext := Log.next_pending hh hprod hs
        refine ⟨fun h1 => ?_, fun h1 h2 => ?_, fun h1 h2 h3 => ?_⟩
        · exact hlog.grant_header (x := .status) (k := .headerWord .status) (by simp [hnext, h1]) rfl station
        · exact hlog.grant_header (x := .granted) (k := .headerWord .granted) (by simp [hnext, h1, h2]) rfl station
        · exact hlog.grant_header (x := .capacity) (k := .headerWord .capacity) (by simp [hnext, h1, h2, h3]) rfl station

end

section
/-! The surroundings of host writes, expiries and ticks (R133, R144, R147): an expiry passes no write and takes no group request, and none of
these events stores a word or touches the tables, the Image Loader or the access at the memory port. -/

namespace Sys2Proof.Machine

variable {s t u : State} {b : BerthId} {f : State → State}

/-! ## An expiry passes no write and takes no group request -/

namespace EndFrame

theorem refl (s : State) : EndFrame s s := ⟨rfl, rfl⟩

/-- The effects that move no berth and load no channel pass no write and take no group request. -/
theorem calm (s : State) : KeptCalm (EndFrame s) where
  berth := fun _ _ _ _ _ _ _ h => { h with }
  sup := fun _ _ _ h => { h with }
  budget := fun _ _ _ h => { h with }
  holds := fun _ _ h => { h with }
  seqWrite := fun _ _ _ _ h => { h with }
  tripWrite := fun _ _ h => { h with }
  queueRsp := fun _ _ h => { h with }
  record := fun _ _ _ _ _ _ h => { h with }
  statusChanged := fun _ h => { h with }
  grantedChanged := fun _ h => { h with }

theorem enter (h : EndFrame s t) (b : BerthId) (st : BState) : EndFrame s (t.enter b st) := { h with }

theorem setChan (h : EndFrame s t) (b : BerthId) (c : Channels) : EndFrame s (t.setChan b c) := { h with }

/-- The trip action (R73 to R75). -/
theorem tripAction (h : EndFrame s t) (b : BerthId) (f : FaultSet) : EndFrame s (t.tripAction b f) := by
  have k := calm s
  have hstopped := (k.cancelHolds b (k.withdrawClaim b (k.changeLevel b 0 (k.seqWrite _ b .genRelease genHold
    (k.tripWrite _ b h))))).setChan b Channels.blank
  exact k.queueRsp _ b (k.tripRecord b _ _ _ (k.finalise b _ (k.sup _ b _ (k.setSyncCount b 0 (hstopped.enter b .lockout)))))

theorem tripRequest (h : EndFrame s t) (b : BerthId) (f : FaultSet) : EndFrame s (t.tripRequest b f) := by
  unfold State.tripRequest
  split
  · exact (calm s).repeatFault b f h
  · exact h.tripAction b f

theorem leaveManualEngaging (h : EndFrame s t) (b : BerthId) (st : BState) : EndFrame s (t.leaveManualEngaging b st) :=
  (calm s).reportState b _ _ ((calm s).giveUpGrant b (h.enter b st))

theorem leaveEngaging (h : EndFrame s t) (b : BerthId) (st : BState) (res : Result) :
    EndFrame s (t.leaveEngaging b st res) :=
  (calm s).reportState b _ _ ((calm s).finalise b _ ((calm s).giveUpGrant b ((h.enter b st).setChan b _)))

/-- A MANUAL close that failed (R121). -/
theorem manualNoclose (h : EndFrame s t) (b : BerthId) : EndFrame s (t.manualNoclose b) :=
  (calm s).record _ _ _ _ _ _ ((calm s).reportState b _ _ ((calm s).seqWrite _ b .shoreBkr cmdOpen
    ((calm s).returnBase b ((h.enter b .cabled).setChan b _))))

theorem toEnergized (h : EndFrame s t) (b : BerthId) : EndFrame s (t.toEnergized b) := (h.enter b _).setChan b _

theorem transferGivenUp (h : EndFrame s t) (b : BerthId) (res : Result) : EndFrame s (t.transferGivenUp b res) := by
  refine (calm s).reportState b _ _ ((calm s).finalise b _ ?_)
  split
  · exact (calm s).seqWrite _ b .genRelease genHold (h.toEnergized b)
  · exact h.toEnergized b

theorem toSeparating (h : EndFrame s t) (b : BerthId) : EndFrame s (t.toSeparating b) :=
  (calm s).seqWrite _ b _ _ ((calm s).seqWrite _ b _ _ ((h.enter b _).setChan b _))

theorem toShore (h : EndFrame s t) (b : BerthId) : EndFrame s (t.toShore b) := by
  have hlevel := (calm s).shoreLevelZero b ((h.enter b .shore).setChan b { t.chan b with step := Channel.idle })
  unfold State.toShore
  dsimp only
  split
  · exact (calm s).seqWrite _ b _ _ hlevel
  · exact hlevel

/-- A Step expiry, by the state found (R26, R150). -/
theorem stepExpired (h : EndFrame s t) (b : BerthId) : EndFrame s (t.stepExpired b) := by
  unfold State.stepExpired
  dsimp only
  split
  · exact h.leaveEngaging b _ _
  · split
    · exact h
    · split
      · exact h.tripRequest b _
      · exact h.manualNoclose b
  · split
    · exact h.tripRequest b _
    · exact h.transferGivenUp b _
  · split
    · exact h.tripRequest b _
    · exact h.transferGivenUp b _
  · exact (calm s).reportState b _ _ ((calm s).finalise b _ (h.toSeparating b))
  · exact (calm s).reportState b _ _ ((calm s).finalise b _ (h.toShore b))
  · exact h.tripRequest b _
  · exact h.tripRequest b _
  · exact h.tripRequest b _
  all_goals exact h

/-- A Settle expiry (R33). -/
theorem settleExpired (h : EndFrame s t) (b : BerthId) : EndFrame s (t.settleExpired b) := by
  unfold State.settleExpired
  split
  · dsimp only
    split
    · exact (calm s).reportState b _ _ ((calm s).finalise b _ (h.toEnergized b))
    · exact h.tripRequest b _
  · exact h

/-- A held write's expiry (R126). -/
theorem expireHold (h : EndFrame s t) (e : Hold) : EndFrame s (t.expireHold e) := by
  unfold State.expireHold
  dsimp only
  split
  · exact EndFrame.leaveManualEngaging ((calm s).endHold .holdExpired e h) _ _
  · exact (calm s).endHold .holdExpired e h

/-- An event passes no write and takes no group request where its own effects do not. -/
theorem event (hf : ∀ t, EndFrame s t → EndFrame s (f t)) : EndFrame s (s.event f) :=
  have hown := hf s.clearMarks { EndFrame.refl s with }
  have hend := State.endEvent_rest (f s.clearMarks)
  ⟨hend.ports.trans hown.ports, hend.groupTaken.trans hown.groupTaken⟩

end EndFrame

/-! ## What ticks and MAINT leave alone -/

/-- What no tick and no edge of MAINT touches, whatever expiries the tick takes first. -/
structure TimeFrame (s t : State) : Prop where
  pim : t.pim = s.pim
  tables : t.tables = s.tables
  loader : t.loader = s.loader
  ports : t.ports = s.ports
  blocks : t.blocks = s.blocks
  groupTaken : t.groupTaken = s.groupTaken
  plant : t.plant = s.plant

namespace TimeFrame

theorem refl (s : State) : TimeFrame s s := ⟨rfl, rfl, rfl, rfl, rfl, rfl, rfl⟩

theorem trans (h : TimeFrame s t) (g : TimeFrame t u) : TimeFrame s u :=
  ⟨g.pim.trans h.pim, g.tables.trans h.tables, g.loader.trans h.loader, g.ports.trans h.ports, g.blocks.trans h.blocks,
    g.groupTaken.trans h.groupTaken, g.plant.trans h.plant⟩

theorem of_event (h : EventFrame s t) (g : EndFrame s t) : TimeFrame s t :=
  ⟨h.pim, h.tables, h.loader, g.ports, h.blocks, g.groupTaken, h.plant⟩

theorem of_tick (h : TickFrame s t) : TimeFrame s t := by
  rw [h]
  exact ⟨rfl, rfl, rfl, rfl, rfl, rfl, rfl⟩

/-- A tick's marks are the Timer Bank's. -/
theorem setOwed (s : State) (b : BerthId) (o : Owed) : TimeFrame s (s.setOwed b o) := ⟨rfl, rfl, rfl, rfl, rfl, rfl, rfl⟩

theorem stepExpiry (s : State) (b : BerthId) : TimeFrame s (s.stepExpiry b) := by
  unfold State.stepExpiry
  split
  · exact (setOwed s b _).trans (of_event (event_frame fun _ ht => (EventFrame.kept _).moves.stepExpired _ b ht)
      (EndFrame.event fun _ ht => (ht.setChan b _).stepExpired b))
  · exact of_tick ((s.reachStep_frame b .f).trans (State.reachStep_frame _ b .s))

theorem settleExpiry (s : State) (b : BerthId) : TimeFrame s (s.settleExpiry b) := by
  unfold State.settleExpiry
  split
  · exact (setOwed s b _).trans (of_event (event_frame fun _ ht => (EventFrame.kept _).moves.settleExpired _ b ht)
      (EndFrame.event fun _ ht => (ht.setChan b _).settleExpired b))
  · exact of_tick (s.reachSettle_frame b)

theorem holdExpiry (s : State) (b : BerthId) : TimeFrame s (s.holdExpiry b) := by
  unfold State.holdExpiry
  split
  · exact (setOwed s b _).trans (of_event (event_frame fun _ ht => (EventFrame.kept _).moves.expireHold _ ht)
      (EndFrame.event fun _ ht => ht.expireHold _))
  · exact of_tick (s.reachHolds_frame b)

theorem reload (s : State) : TimeFrame s s.reload := by
  unfold State.reload
  split <;> exact ⟨rfl, rfl, rfl, rfl, rfl, rfl, rfl⟩

theorem scanTick (s : State) : TimeFrame s s.scanTick := by
  unfold State.scanTick
  split
  · dsimp only
    split
    · exact ⟨rfl, rfl, rfl, rfl, rfl, rfl, rfl⟩
    · split <;> exact ⟨rfl, rfl, rfl, rfl, rfl, rfl, rfl⟩
  · exact refl s

theorem tickFalls (s : State) : TimeFrame s s.tickFalls := ⟨rfl, rfl, rfl, rfl, rfl, rfl, rfl⟩

theorem takeOwedByAll (s : State) (l : List BerthId) : TimeFrame s (s.takeOwedByAll l) := by
  induction l generalizing s with
  | nil => exact refl s
  | cons b rest ih => exact (((stepExpiry s b).trans (settleExpiry _ b)).trans (holdExpiry _ b)).trans (ih _)

/-- A base F tick falls after what the one before it still owes (R147, log 6). -/
theorem baseFTick (s : State) : TimeFrame s s.baseFTick := by
  unfold State.baseFTick
  split
  · have howed : TimeFrame s s.takeOwed := ((reload s).trans (scanTick _)).trans (takeOwedByAll _ _)
    exact howed.trans (tickFalls _)
  · exact refl s

theorem baseSTick (s : State) : TimeFrame s s.baseSTick := by
  unfold State.baseSTick
  split
  · exact (reload s).trans (of_tick (State.reachBerths_frame _ _))
  · exact refl s

theorem assertMaint (s : State) : TimeFrame s s.assertMaint := by
  unfold State.assertMaint
  dsimp only
  split <;> exact ⟨rfl, rfl, rfl, rfl, rfl, rfl, rfl⟩

theorem releaseMaint (s : State) : TimeFrame s s.releaseMaint := by
  unfold State.releaseMaint
  dsimp only
  split <;> exact ⟨rfl, rfl, rfl, rfl, rfl, rfl, rfl⟩

end TimeFrame

/-! ## What an expiry leaves alone -/

/-- What neither an event of the berths touches nor the tick that reaches a count of one berth, but for that berth's marks. -/
structure ExpiryFrame (b : BerthId) (s t : State) : Prop where
  pim : t.pim = s.pim
  tables : t.tables = s.tables
  loader : t.loader = s.loader
  maintPin : t.maintPin = s.maintPin
  plant : t.plant = s.plant
  timer : t.timer = { s.timer with owed := t.timer.owed }
  owed : ∀ x, x ≠ b → t.owed x = s.owed x
  scan : t.scan = s.scan
  blocks : t.blocks = s.blocks
  busy : t.ports.busy = s.ports.busy
  streak : t.ports.streak = s.ports.streak
  hostData : t.ports.hostData = s.ports.hostData

namespace ExpiryFrame

/-- An event after the tick has marked that it reached a count. -/
theorem of_setOwed {o : Owed} (h : EventFrame (s.setOwed b o) t) : ExpiryFrame b s t :=
  ⟨h.pim, h.tables, h.loader, h.maintPin, h.plant, by rw [h.timer]; rfl,
    fun x hx => by rw [State.owed, h.timer]; exact State.owed_setOwed_of_ne s o hx,
    h.scan, h.blocks, h.busy, h.streak, h.hostData⟩

theorem of_event (h : EventFrame s t) : ExpiryFrame b s t :=
  ⟨h.pim, h.tables, h.loader, h.maintPin, h.plant, by rw [h.timer], fun x _ => by rw [State.owed, h.timer]; rfl,
    h.scan, h.blocks, h.busy, h.streak, h.hostData⟩

theorem of_tick (h : TickFrame s t) (ho : ∀ x, x ≠ b → t.owed x = s.owed x) : ExpiryFrame b s t := by
  refine ⟨?_, ?_, ?_, ?_, ?_, ?_, ho, ?_, ?_, ?_, ?_, ?_⟩ <;> rw [h]

theorem stepExpiry (s : State) (b : BerthId) : ExpiryFrame b s (s.stepExpiry b) := by
  unfold State.stepExpiry
  split
  · exact of_setOwed (event_frame fun _ ht => (EventFrame.kept _).moves.stepExpired _ b ht)
  · exact of_tick ((s.reachStep_frame b .f).trans (State.reachStep_frame _ b .s))
      fun _ hx => (State.owed_reachStep_of_ne hx).trans (State.owed_reachStep_of_ne hx)

theorem settleExpiry (s : State) (b : BerthId) : ExpiryFrame b s (s.settleExpiry b) := by
  unfold State.settleExpiry
  split
  · exact of_setOwed (event_frame fun _ ht => (EventFrame.kept _).moves.settleExpired _ b ht)
  · exact of_tick (s.reachSettle_frame b) fun _ hx => State.owed_reachSettle_of_ne hx

theorem holdExpiry (s : State) (b : BerthId) : ExpiryFrame b s (s.holdExpiry b) := by
  unfold State.holdExpiry
  split
  · exact of_setOwed (event_frame fun _ ht => (EventFrame.kept _).moves.expireHold _ ht)
  · exact of_tick (s.reachHolds_frame b) fun _ hx => State.owed_reachHolds_of_ne hx

end ExpiryFrame

/-! ## Host writes in RUNNING -/

/-- A host write in RUNNING is one event, or is not taken (R133, R136). -/
theorem State.hostWrites_frame (hp : s.phase = .running) (k : WordClass) (a d : Word) : EventFrame s (s.hostWrites k a d) := by
  unfold State.hostWrites
  rw [hp]
  split
  · exact EventFrame.refl s
  · exact event_frame fun _ ht =>
      (EventFrame.kept s).moves.decideWrite (fun _ _ _ hu => { hu with }) k a d ht

theorem State.berthWrites_frame (hp : s.phase = .running) (b : BerthId) (k : WordClass) (a d : Word) :
    EventFrame s (s.berthWrites b k a d) := by
  unfold State.berthWrites
  split
  · exact EventFrame.refl s
  · exact State.hostWrites_frame hp k a d

theorem State.writesGroup_frame (hp : s.phase = .running) (g : GroupId) (code : BitVec 4) (q : ReqBits) :
    EventFrame s (s.writesGroup g code q) := by
  unfold State.writesGroup
  split
  · exact EventFrame.refl s
  · exact State.hostWrites_frame hp _ _ _

/-- Every host write in RUNNING leaves the surroundings of an event. -/
theorem exec_hostWrite_frame {c : Instr} (hc : c.isHostWrite = true) (hp : s.phase = .running) :
    ∃ t, exec c s = .next t ∧ EventFrame s t := by
  rcases exec_hostWrite_cases hc s with ⟨b, code, q, e⟩ | ⟨g, code, q, e⟩ | ⟨b, w, d, e⟩ | ⟨k, a, d, e⟩
  · exact ⟨_, e, State.berthWrites_frame hp _ _ _ _⟩
  · exact ⟨_, e, State.writesGroup_frame hp _ _ _⟩
  · exact ⟨_, e, State.berthWrites_frame hp _ _ _ _⟩
  · exact ⟨_, e, State.hostWrites_frame hp _ _ _⟩

theorem State.sameMemory_of_pim (h : t.pim = s.pim) : s.sameMemory t := fun a => by rw [State.pimRead, h]; rfl

end Sys2Proof.Machine

open Sys2Proof Sys2Proof.Machine

/-- Settles O59: host writes and expiries by the frame of an event, ticks and MAINT by what the expiries they take leave alone. -/
theorem eventsLeaveTheSurroundings : Obligations.EventsLeaveTheSurroundings := by
  intro c s hp
  refine ⟨fun b hc => ?_, fun hc => ?_⟩
  · obtain ⟨t, ht, hframe, htimer⟩ : ∃ t, exec c s = .next t ∧ ExpiryFrame b s t ∧ (c.isHostWrite = true → t.timer = s.timer) := by
      rcases hc with hw | rfl | rfl | rfl
      · obtain ⟨t, ht, hframe⟩ := exec_hostWrite_frame hw hp
        exact ⟨t, ht, ExpiryFrame.of_event hframe, fun _ => hframe.timer⟩
      · exact ⟨_, rfl, ExpiryFrame.stepExpiry s b, nofun⟩
      · exact ⟨_, rfl, ExpiryFrame.settleExpiry s b, nofun⟩
      · exact ⟨_, rfl, ExpiryFrame.holdExpiry s b, nofun⟩
    exact ⟨t, ht, State.sameMemory_of_pim hframe.pim, hframe.tables, hframe.loader, hframe.maintPin, hframe.plant, hframe.timer,
      htimer, hframe.owed, hframe.scan, hframe.blocks, hframe.busy, hframe.streak, hframe.hostData⟩
  · obtain ⟨t, ht, hframe⟩ : ∃ t, exec c s = .next t ∧ TimeFrame s t := by
      rcases hc with rfl | rfl | rfl | rfl | rfl
      · exact ⟨_, rfl, TimeFrame.baseFTick s⟩
      · exact ⟨_, rfl, TimeFrame.baseSTick s⟩
      · exact ⟨_, rfl, TimeFrame.scanTick s⟩
      · exact ⟨_, rfl, TimeFrame.assertMaint s⟩
      · exact ⟨_, rfl, TimeFrame.releaseMaint s⟩
    exact ⟨t, ht, State.sameMemory_of_pim hframe.pim, hframe.tables, hframe.loader, hframe.ports, hframe.blocks,
      hframe.groupTaken, hframe.plant⟩

end

section
/-! The freeze under MAINT (09, sections 9.2 and 9.3): which channels a load, a tick, and the two edges of MAINT leave FROZEN (R149 to
R152), and that a part outside RUNNING has no channel loaded when it samples MAINT (R148, R151, R165). -/

namespace Sys2Proof.Machine

variable {s t : State} {b : BerthId} {m : Bool}

/-! ## The freeze class of one channel -/

/-- A Step channel follows MAINT: FROZEN only with a freezable deadline under MAINT, and under MAINT RUNNING only with a fixed one. -/
structure Channel.FollowsMaint (m : Bool) (c : Channel) : Prop where
  frozen : c.status = .frozen → c.freezable = true ∧ m = true
  running : m = true → c.status = .running → c.freezable = false

/-- A Settle channel counts a fixed deadline of base F and is not FROZEN (R148). -/
structure Channel.CountsSettle (c : Channel) : Prop where
  notFrozen : c.status ≠ .frozen
  fixed : c.freezable = false
  base : c.base = .f

namespace Channel

theorem followsMaint_idle (m : Bool) : Channel.idle.FollowsMaint m := ⟨nofun, fun _ => nofun⟩

theorem countsSettle_idle : Channel.idle.CountsSettle := ⟨nofun, rfl, rfl⟩

/-- A load is FROZEN exactly where the deadline is freezable and MAINT is asserted (R149). -/
theorem followsMaint_loaded (d : Deadline) (n : Nat) (m : Bool) : (Channel.loaded d n m).FollowsMaint m := by
  unfold Channel.loaded
  cases hd : d.freezable with
  | false => exact ⟨nofun, fun _ _ => rfl⟩
  | true =>
    cases m with
    | false => exact ⟨nofun, nofun⟩
    | true => exact ⟨fun _ => ⟨rfl, rfl⟩, fun _ => nofun⟩

theorem countsSettle_loaded (n : Nat) (m : Bool) : (Channel.loaded .settle n m).CountsSettle := ⟨nofun, rfl, rfl⟩

/-! ### What a tick and the edges of MAINT change of a channel -/

/-- A tick changes a count and nothing else of a channel (R150). -/
theorem tick_eq (c : Channel) (base : TickBase) : ∃ n, c.tick base = { c with count := n } := by
  unfold Channel.tick
  split
  · exact ⟨_, rfl⟩
  · exact ⟨c.count, rfl⟩

theorem FollowsMaint.tick {c : Channel} (h : c.FollowsMaint m) (base : TickBase) : (c.tick base).FollowsMaint m := by
  obtain ⟨n, hn⟩ := c.tick_eq base
  rw [hn]
  exact ⟨h.frozen, h.running⟩

theorem CountsSettle.tick {c : Channel} (h : c.CountsSettle) (base : TickBase) : (c.tick base).CountsSettle := by
  obtain ⟨n, hn⟩ := c.tick_eq base
  rw [hn]
  exact ⟨h.notFrozen, h.fixed, h.base⟩

@[simp] theorem freeze_count (c : Channel) : c.freeze.count = c.count := by
  unfold Channel.freeze
  split <;> rfl

theorem freeze_status (c : Channel) :
    c.freeze.status = if c.status = .running ∧ c.freezable = true then .frozen else c.status := by
  unfold Channel.freeze
  split <;> rfl

@[simp] theorem freeze_freezable (c : Channel) : c.freeze.freezable = c.freezable := by
  unfold Channel.freeze
  split <;> rfl

@[simp] theorem resume_count (c : Channel) : c.resume.count = c.count := by
  unfold Channel.resume
  split <;> rfl

theorem resume_status (c : Channel) : c.resume.status = if c.status = .frozen then .running else c.status := by
  unfold Channel.resume
  split <;> rfl

/-- As MAINT rises the RUNNING freezable counts freeze, and no channel was FROZEN before (R151). -/
theorem FollowsMaint.freeze {c : Channel} (h : c.FollowsMaint false) : c.freeze.FollowsMaint true := by
  by_cases hc : c.status = .running ∧ c.freezable = true
  · have hstatus : c.freeze.status = .frozen := by rw [freeze_status, if_pos hc]
    exact ⟨fun _ => ⟨c.freeze_freezable.trans hc.2, rfl⟩, fun _ hr => by rw [hstatus] at hr; cases hr⟩
  · have hstatus : c.freeze.status = c.status := by rw [freeze_status, if_neg hc]
    refine ⟨fun hf => ?_, fun _ hr => ?_⟩
    · exact absurd (h.frozen (hstatus ▸ hf)).2 Bool.false_ne_true
    · rw [freeze_freezable]
      exact Bool.eq_false_iff.mpr fun hz => hc ⟨hstatus ▸ hr, hz⟩

/-- Once MAINT has fallen no channel is FROZEN (R152). -/
theorem resume_status_ne_frozen (c : Channel) : c.resume.status ≠ .frozen := by
  rw [resume_status]
  split
  · exact nofun
  · assumption

theorem followsMaint_resume (c : Channel) : c.resume.FollowsMaint false :=
  ⟨fun hf => absurd hf c.resume_status_ne_frozen, nofun⟩

end Channel

/-! ## All channels of the Timer Bank -/

/-- Both channels of a berth follow MAINT. -/
structure Channels.FollowMaint (m : Bool) (c : Channels) : Prop where
  step : c.step.FollowsMaint m
  settle : c.settle.CountsSettle

theorem Channels.followMaint_blank (m : Bool) : Channels.blank.FollowMaint m :=
  ⟨Channel.followsMaint_idle m, Channel.countsSettle_idle⟩

theorem State.freezeFollowsMaint_iff : s.freezeFollowsMaint ↔ ∀ b, (s.chan b).FollowMaint s.timer.maint := by
  constructor
  · intro h b
    obtain ⟨hfrozen, hrunning, hnot, hfixed, hbase⟩ := h b
    exact ⟨⟨hfrozen, hrunning⟩, ⟨hnot, hfixed, hbase⟩⟩
  · intro h b
    obtain ⟨hstep, hsettle⟩ := h b
    exact ⟨hstep.frozen, hstep.running, hsettle.notFrozen, hsettle.fixed, hsettle.base⟩

/-- With both channels of every berth IDLE there is nothing to freeze, whatever MAINT is. -/
theorem State.freezeFollowsMaint_of_blank (h : s.chans = Eight.fill Channels.blank) : s.freezeFollowsMaint := by
  rw [State.freezeFollowsMaint_iff]
  intro b
  have hb : s.chan b = Channels.blank := by
    unfold State.chan
    rw [h]
    exact Eight.get_fill _ b
  rw [hb]
  exact Channels.followMaint_blank _

/-- The part is in RUNNING and the freeze follows MAINT: what a part in RUNNING keeps until RESET_ASSERT. -/
structure State.RunsWithFreeze (s : State) : Prop where
  running : s.phase = .running
  freeze : ∀ b, (s.chan b).FollowMaint s.timer.maint

namespace State.RunsWithFreeze

theorem setChan {c : Channels} (h : s.RunsWithFreeze) (hc : c.FollowMaint s.timer.maint) : (s.setChan b c).RunsWithFreeze := by
  refine ⟨h.running, fun x => ?_⟩
  by_cases hx : x = b
  · rw [hx, State.chan_setChan_same]
    exact hc
  · rw [State.chan_setChan_of_ne _ _ hx]
    exact h.freeze x

/-- Where phase, channels and the sampled MAINT are as they were, so is the freeze. -/
theorem of_same (h : s.RunsWithFreeze) (hp : t.phase = s.phase) (hc : t.chans = s.chans) (hm : t.timer.maint = s.timer.maint) :
    t.RunsWithFreeze := by
  refine ⟨hp.trans h.running, fun b => ?_⟩
  have hb : t.chan b = s.chan b := congrArg (·.get b) hc
  rw [hb, hm]
  exact h.freeze b

/-- The edges of MAINT change the Step channels of all berths together. -/
theorem edge {f : Channel → Channel} (h : s.RunsWithFreeze) (hf : ∀ c : Channel, c.FollowsMaint s.timer.maint → (f c).FollowsMaint m)
    (hp : t.phase = s.phase) (hc : t.chans = s.chans.map fun c => { c with step := f c.step }) (hm : t.timer.maint = m) :
    t.RunsWithFreeze := by
  refine ⟨hp.trans h.running, fun b => ?_⟩
  have hb : t.chan b = { s.chan b with step := f (s.chan b).step } := by
    unfold State.chan
    rw [hc]
    exact Eight.get_map _ _ _
  rw [hb, hm]
  exact ⟨hf _ (h.freeze b).step, (h.freeze b).settle⟩

theorem assertMaint (h : s.RunsWithFreeze) : s.assertMaint.RunsWithFreeze := by
  unfold State.assertMaint
  dsimp only
  split
  · rename_i hrises
    exact h.edge (f := Channel.freeze) (m := true) (fun c hc => Channel.FollowsMaint.freeze (hrises.2 ▸ hc)) rfl rfl rfl
  · exact h.of_same rfl rfl rfl

theorem releaseMaint (h : s.RunsWithFreeze) : s.releaseMaint.RunsWithFreeze := by
  unfold State.releaseMaint
  dsimp only
  split
  · exact h.edge (f := Channel.resume) (m := false) (fun c _ => c.followsMaint_resume) rfl rfl rfl
  · exact h.of_same rfl rfl rfl

/-! ## Every effect of an event and of a command -/

/-- Of the effects of an event the loads and stops alone touch a channel, and none touches the sampled MAINT (R149). -/
theorem kept : Kept State.RunsWithFreeze where
  berth := fun _ _ _ _ _ _ _ h => ⟨h.running, h.freeze⟩
  sup := fun _ _ _ h => ⟨h.running, h.freeze⟩
  budget := fun _ _ _ h => ⟨h.running, h.freeze⟩
  holds := fun _ _ h => ⟨h.running, h.freeze⟩
  seqWrite := fun _ _ _ _ h => ⟨h.running, h.freeze⟩
  tripWrite := fun _ _ h => ⟨h.running, h.freeze⟩
  queueRsp := fun _ _ h => ⟨h.running, h.freeze⟩
  record := fun _ _ _ _ _ _ h => ⟨h.running, h.freeze⟩
  statusChanged := fun _ h => ⟨h.running, h.freeze⟩
  grantedChanged := fun _ h => ⟨h.running, h.freeze⟩
  enters := fun _ _ _ h => ⟨h.running, h.freeze⟩
  toggle := fun _ _ _ h => ⟨h.running, h.freeze⟩
  loadStep := fun _ b _ h => h.setChan ⟨Channel.followsMaint_loaded _ _ _, (h.freeze b).settle⟩
  stopStep := fun _ b h => h.setChan ⟨Channel.followsMaint_idle _, (h.freeze b).settle⟩
  loadSettle := fun _ b h => h.setChan ⟨(h.freeze b).step, Channel.countsSettle_loaded _ _⟩
  stopSettle := fun _ b h => h.setChan ⟨(h.freeze b).step, Channel.countsSettle_idle⟩
  stopChannels := fun _ _ h => h.setChan (Channels.followMaint_blank _)
  queueGroupRsp := fun _ _ _ h => ⟨h.running, h.freeze⟩
  groupTaken := fun _ _ _ h => ⟨h.running, h.freeze⟩
  passWrite := fun _ _ _ h => ⟨h.running, h.freeze⟩

theorem discardWrite (h : s.RunsWithFreeze) : s.discardWrite.RunsWithFreeze := by
  unfold State.discardWrite
  split <;> exact h.of_same rfl rfl rfl

theorem setCapacity (h : s.RunsWithFreeze) (c : Nat) : (s.setCapacity c).RunsWithFreeze := by
  unfold State.setCapacity
  split <;> exact h.of_same rfl rfl rfl

theorem keptByScan : KeptByScan State.RunsWithFreeze :=
  kept.moves.byScan (fun _ _ _ h => ⟨h.running, h.freeze⟩) (fun _ h => h.discardWrite) (fun _ _ _ h => ⟨h.running, h.freeze⟩)
    (fun _ _ _ h => ⟨h.running, h.freeze⟩) (fun _ _ h => ⟨h.running, h.freeze⟩) (fun _ c h => h.setCapacity c)

theorem releaseReset (h : s.RunsWithFreeze) : s.releaseReset.RunsWithFreeze := by
  unfold State.releaseReset
  split
  · rename_i hp
    rw [h.running] at hp
    cases hp
  · exact h

theorem reload (h : s.RunsWithFreeze) : s.reload.RunsWithFreeze := by
  unfold State.reload
  split <;> exact h.of_same rfl rfl rfl

end State.RunsWithFreeze

/-- The divider's count of a tick leaves the sampled MAINT (R147). -/
@[simp] theorem TimerBank.tick_maint (k : TimerBank) : k.tick.maint = k.maint := by
  unfold TimerBank.tick
  split <;> rfl

namespace State.RunsWithFreeze

/-- A part in RUNNING enters it no second time; a tick changes counts, and the edges of MAINT what R151 and R152 say. -/
theorem keptByCommand : KeptByCommand State.RunsWithFreeze :=
  keptByScan.byCommand
    (releaseReset := fun _ h => h.releaseReset)
    (loader := fun _ _ h => ⟨h.running, h.freeze⟩)
    (toggles := fun _ _ _ h => ⟨h.running, h.freeze⟩)
    (running := fun _ hl h => by rw [h.running] at hl; cases hl)
    (pim := fun _ _ _ h => ⟨h.running, h.freeze⟩)
    (ports := fun _ _ h => ⟨h.running, h.freeze⟩)
    (owqTail := fun _ h => ⟨h.running, h.freeze⟩)
    (owqRemove := fun _ _ h => ⟨h.running, h.freeze⟩)
    (logGranted := fun _ _ h => ⟨h.running, h.freeze⟩)
    (logCompleted := fun _ _ _ h => ⟨h.running, h.freeze⟩)
    (owed := fun _ _ _ h => ⟨h.running, h.freeze⟩)
    (reload := fun _ h => h.reload)
    (tickFalls := fun s h => h.of_same rfl rfl s.timer.tick_maint)
    (tickStep := fun _ b base h => h.setChan ⟨(h.freeze b).step.tick base, (h.freeze b).settle⟩)
    (tickSettle := fun _ b h => h.setChan ⟨(h.freeze b).step, (h.freeze b).settle.tick .f⟩)
    (assertMaint := fun _ h => h.assertMaint)
    (releaseMaint := fun _ h => h.releaseMaint)

end State.RunsWithFreeze

/-! ## Outside RUNNING -/

theorem State.chans_of_underWay (h : t.underWay = s.underWay) : t.chans = s.chans := congrArg (fun w => w.2.1) h

/-- Entry to RUNNING loads no channel (R165 step 3). -/
theorem State.chans_of_tryEnterRunning {u : State} (hu : u.underWay = s.underWay) : u.tryEnterRunning.chans = s.chans :=
  (State.tryEnterRunning_field State.chans (fun _ => rfl) u).trans (State.chans_of_underWay hu)

/-- The end of a reset loads no channel (R162). -/
theorem State.chans_releaseReset (s : State) : s.releaseReset.chans = s.chans := by
  unfold State.releaseReset
  split <;> rfl

/-- No image word loads a channel (R160, R165 step 1). -/
theorem State.chans_imageWord (s : State) (w : Word) : (s.imageWord w).chans = s.chans :=
  imageWord_of (fun t => t.chans = s.chans) w (fun _ _ h => h) (fun _ _ _ _ h => h) (fun _ _ _ _ h => h) rfl

/-- No command loads a channel of a part outside RUNNING, its entry to RUNNING included (R148, R165). -/
theorem exec_chans_of_not_running {c : Instr} (hp : s.phase ≠ .running) (hs : s.quietOutside) (ht : exec c s = .next t) :
    t.chans = Eight.fill Channels.blank := by
  obtain ⟨hblank, -, -, -, hscan, htimer⟩ := hs hp
  have howed : ∀ b, s.owed b = Owed.none := fun b => by
    unfold State.owed
    rw [htimer]
    exact Eight.get_fill _ _
  have leaves : ∀ u : State, exec c s = .next u → u.chans = s.chans → t.chans = Eight.fill Channels.blank := fun u hu hc => by
    rw [ht] at hu
    rw [Host.Outcome.next.inj hu, hc, hblank]
  by_cases hw : c.isHostWrite = true
  · exact leaves t ht (State.chans_of_underWay (State.underWay_of_hostWrite hw hp ht))
  have blind := State.underWay_portBlind
  cases c
  case resetAssert => cases ht; rfl
  case resetRelease => exact leaves _ rfl (State.chans_releaseReset s)
  case imageWordRead w => exact leaves _ rfl (State.chans_imageWord s w)
  case startupReqRead =>
    rcases blind.startReadDone s with e | ⟨u, hu, e⟩
    · exact leaves _ rfl (congrArg State.chans e)
    · exact leaves _ rfl (e ▸ State.chans_of_tryEnterRunning hu)
  case logWriteComplete =>
    rcases blind.logCarried s with e | ⟨u, hu, e⟩
    · exact leaves _ rfl (congrArg State.chans e)
    · exact leaves _ rfl (e ▸ State.chans_of_tryEnterRunning hu)
  case portGrant => exact leaves _ rfl (State.chans_of_underWay (blind.portGrant _ _ _ _))
  case ownWriteCarried => exact leaves _ rfl (State.chans_of_underWay (blind.ownCarried _))
  case hostWriteCarried => exact leaves _ rfl (State.chans_of_underWay (blind.hostCarried _))
  case scanReadComplete => exact leaves _ rfl (by simp [State.scanReadDone, hscan, ScanEngine.blank])
  case scanTick => exact leaves _ rfl (by simp [State.scanTick, hscan, ScanEngine.blank])
  case baseFTick => exact leaves _ rfl (by rw [State.baseFTick, if_neg hp])
  case baseSTick => exact leaves _ rfl (by rw [State.baseSTick, if_neg hp])
  case stepExpiry b => exact leaves _ rfl (congrArg State.chans (State.stepExpiry_of_nothing_owed (howed b)))
  case settleExpiry b => exact leaves _ rfl (congrArg State.chans (State.settleExpiry_of_nothing_owed (howed b)))
  case holdExpiry b => exact leaves _ rfl (congrArg State.chans (State.holdExpiry_of_nothing_owed (howed b)))
  case maintAssert => exact leaves _ rfl (by rw [State.assertMaint, if_neg fun h => hp h.1])
  case maintRelease => exact leaves _ rfl (by rw [State.releaseMaint, if_neg fun h => hp h.1])
  all_goals exact absurd rfl hw

/-- Every command leaves the freeze following MAINT: in RUNNING by the effects, outside it with no channel loaded. -/
theorem exec_freezeFollowsMaint {c : Instr} (hq : s.quietOutside) (hs : s.freezeFollowsMaint) (ht : exec c s = .next t) :
    t.freezeFollowsMaint := by
  by_cases hp : s.phase = .running
  · by_cases hc : ∃ l, c = .resetAssert l
    · obtain ⟨l, rfl⟩ := hc
      cases ht
      exact State.freezeFollowsMaint_of_blank rfl
    · have hruns : s.RunsWithFreeze := ⟨hp, State.freezeFollowsMaint_iff.mp hs⟩
      have himage : ∀ w, s.imageWord w = s := State.imageWord_of_installed (.inl hp)
      have hafter := State.RunsWithFreeze.keptByCommand.exec c (fun l h => absurd ⟨l, h⟩ hc)
        (fun w _ => by rwa [himage w]) hruns ht
      exact State.freezeFollowsMaint_iff.mpr hafter.freeze
  · exact State.freezeFollowsMaint_of_blank (exec_chans_of_not_running hp hq ht)

end Sys2Proof.Machine

open Sys2Proof Sys2Proof.Machine

/-- Settles O9: in RUNNING by what every effect keeps, outside RUNNING, the entry to it included, with no channel loaded. -/
theorem freezeFollowsMaint : Obligations.FreezeFollowsMaint := by
  intro s t hq hs ht
  unfold step at ht
  split at ht
  · cases ht
    exact hs
  · rename_i c rest _
    have hquiet : State.quietOutside { s with pending := rest } := hq
    have hfreeze : State.freezeFollowsMaint { s with pending := rest } := hs
    exact exec_freezeFollowsMaint hquiet hfreeze ht

end

section
/-! What MAINT changes in RUNNING (09, section 9.3; R151, R152): the Step channels of all berths, the sampled MAINT, and STATUS. -/

namespace Sys2Proof.Machine

variable {s : State}

/-- An edge of MAINT that a part in RUNNING samples: the line and the sample take the level, each Step channel follows, and STATUS is
to be rewritten (R151, R152). -/
def State.maintEdge (s : State) (m : Bool) (f : Channel → Channel) : State :=
  { s with
    maintPin := m
    timer := { s.timer with maint := m }
    chans := s.chans.map fun c => { c with step := f c.step }
    log := { s.log with statusPending := true } }

theorem State.assertMaint_of_running (hp : s.phase = .running) (hm : s.timer.maint = false) :
    s.assertMaint = s.maintEdge true Channel.freeze :=
  if_pos ⟨hp, hm⟩

theorem State.releaseMaint_of_running (hp : s.phase = .running) (hm : s.timer.maint = true) :
    s.releaseMaint = s.maintEdge false Channel.resume :=
  if_pos ⟨hp, hm⟩

@[simp] theorem State.chan_maintEdge (s : State) (m : Bool) (f : Channel → Channel) (b : BerthId) :
    (s.maintEdge m f).chan b = { s.chan b with step := f (s.chan b).step } :=
  Eight.get_map _ _ _

end Sys2Proof.Machine

open Sys2Proof Sys2Proof.Machine

/-- Settles O58: either edge of MAINT changes the Step channels as `Channel.freeze` and `Channel.resume` do, and no count. -/
theorem maintFreezesAndResumes : Obligations.MaintFreezesAndResumes := by
  intro s hp
  refine ⟨fun hm => ?_, fun hm => ?_⟩
  · rw [exec_maintAssert, State.assertMaint_of_running hp hm]
    refine ⟨_, rfl, rfl, rfl, rfl, fun b => ?_, rfl, rfl, rfl, rfl, rfl, rfl, rfl, fun _ => rfl⟩
    rw [State.chan_maintEdge]
    exact ⟨rfl, (s.chan b).step.freeze_count, (s.chan b).step.freeze_status⟩
  · rw [exec_maintRelease, State.releaseMaint_of_running hp hm]
    refine ⟨_, rfl, rfl, rfl, rfl, rfl, fun b => ?_, rfl, rfl, rfl, rfl, rfl, rfl, fun _ => rfl⟩
    rw [State.chan_maintEdge]
    exact ⟨rfl, (s.chan b).step.resume_count, (s.chan b).step.resume_status⟩

end

section
/-! One tick (09, sections 9.1 and 9.2): what BASE_F_TICK, BASE_S_TICK and the expiry commands do to a count that the tick reaches short
of its expiry (R52, R126, R147, R150; log 6, log 7). -/

namespace Sys2Proof.Machine

variable {s t : State} {b : BerthId} {base : TickBase} {k : Channel} {h : Hold}

/-! ## One setter after another -/

@[simp] theorem State.setOwed_setOwed (s : State) (b : BerthId) (o p : Owed) :
    (s.setOwed b o).setOwed b p = s.setOwed b p := by
  simp [State.setOwed, State.setTimer]

@[simp] theorem State.setChan_setChan (s : State) (b : BerthId) (c d : Channels) :
    (s.setChan b c).setChan b d = s.setChan b d := by
  simp [State.setChan]

/-- The channels and the marks are apart. -/
theorem State.setChan_setOwed (s : State) (b : BerthId) (o : Owed) (c : Channels) :
    (s.setOwed b o).setChan b c = (s.setChan b c).setOwed b o := rfl

@[simp] theorem State.setChan_chan (s : State) (b : BerthId) : s.setChan b (s.chan b) = s := by
  simp [State.setChan, State.chan]

@[simp] theorem State.setOwed_owed (s : State) (b : BerthId) : s.setOwed b (s.owed b) = s := by
  simp [State.setOwed, State.owed, State.setTimer]

/-! ## What a tick that reaches counts leaves -/

/-- What stands as it was, field by field, where a tick has reached counts (R147). -/
structure TickRest (s t : State) : Prop where
  pim : t.pim = s.pim
  divider : t.timer.divider = s.timer.divider
  sDue : t.timer.sDue = s.timer.sDue
  maint : t.timer.maint = s.timer.maint
  scan : t.scan = s.scan
  berths : t.berths = s.berths
  sups : t.sups = s.sups
  budget : t.budget = s.budget
  owq : t.owq = s.owq
  ports : t.ports = s.ports
  log : t.log = s.log

theorem TickFrame.rest (hf : TickFrame s t) : TickRest s t := by
  rw [hf]
  exact ⟨rfl, rfl, rfl, rfl, rfl, rfl, rfl, rfl, rfl, rfl, rfl⟩

/-! ## A channel's count -/

theorem Channel.ticks_iff : k.ticks base = true ↔ k.status = .running ∧ k.base = base := by
  unfold Channel.ticks
  rw [Bool.and_eq_true, decide_eq_true_iff, decide_eq_true_iff]

theorem Channel.ticks_eq_false_iff : k.ticks base = false ↔ k.status ≠ .running ∨ k.base ≠ base := by
  rw [← Bool.not_eq_true, Channel.ticks_iff, Decidable.not_and_iff_or_not]

theorem Channel.tick_of_not_ticks (hk : k.ticks base = false) : k.tick base = k := by simp [Channel.tick, hk]

theorem Channel.tick_of_ticks (hk : k.ticks base = true) (hc : 1 < k.count) : k.tick base = { k with count := k.count - 1 } := by
  simp [Channel.tick, hk, hc]

theorem Channel.tick_of_last (hc : k.count ≤ 1) : k.tick base = k := by simp [Channel.tick, Nat.not_lt_of_le hc]

/-- A tick of the base does not bring the channel to its expiry: it counts more than 1, or does not count the base. -/
def Channel.Outlasts (k : Channel) (base : TickBase) : Prop := 1 < k.count ∨ k.status ≠ .running ∨ k.base ≠ base

theorem Channel.Outlasts.count_of_ticks (hk : k.Outlasts base) (ht : k.ticks base = true) : 1 < k.count := by
  rcases hk with hc | hn
  · exact hc
  · exact absurd ht (Bool.eq_false_iff.mp (Channel.ticks_eq_false_iff.mpr hn))

/-! ## The marks of a tick that reaches a count -/

theorem Owed.afterStep_of_ticks {o : Owed} (ht : k.ticks base = true) (hc : 1 < k.count) : o.afterStep k base = o.stepTaken := by
  simp [Owed.afterStep, ht, hc]

theorem Owed.afterStep_of_not_ticks {o : Owed} (ht : k.ticks base = false) : o.afterStep k base = o.stepPassed base := by
  simp [Owed.afterStep, ht]

theorem Owed.afterSettle_of_outlasts {o : Owed} (hk : k.Outlasts .f) : o.afterSettle k = { o with settle := false } := by
  refine if_neg fun hlast => ?_
  obtain ⟨ht, hc⟩ := Bool.and_eq_true_iff.mp hlast
  exact Nat.not_lt_of_le (of_decide_eq_true hc) (hk.count_of_ticks ht)

@[simp] theorem Owed.afterStep_hold (o : Owed) (k : Channel) (base : TickBase) : (o.afterStep k base).hold = o.hold := by
  unfold Owed.afterStep
  split
  · split <;> rfl
  · cases base <;> rfl

/-- A channel that the tick passes over keeps its count; marks that are clear already stay so. -/
theorem State.reachStep_of_not_ticks (ht : (s.chan b).step.ticks base = false) :
    s.reachStep b base = s.setOwed b ((s.owed b).stepPassed base) := by
  by_cases ho : (s.owed b).step base = true
  · rw [State.reachStep_of_owed ho, Channel.tick_of_not_ticks ht, Owed.afterStep_of_not_ticks ht]
    exact congrArg (State.setOwed · b _) (s.setChan_chan b)
  · have ho' : (s.owed b).step base = false := Bool.eq_false_iff.mpr ho
    have hpassed : (s.owed b).stepPassed base = s.owed b := by
      cases base
      case f => exact congrArg (fun x => { s.owed b with stepF := x }) (show false = (s.owed b).stepF from ho'.symm)
      case s => exact congrArg (fun x => { s.owed b with stepS := x }) (show false = (s.owed b).stepS from ho'.symm)
    rw [State.reachStep_of_not_owed ho', hpassed, State.setOwed_owed]

/-! ## STEP_EXPIRY short of the expiry -/

theorem State.stepExpires_eq_false (hr : (s.chan b).step.status ≠ .running ∨ 1 < (s.chan b).step.count) :
    s.stepExpires b = false := by
  rcases hr with hr | hc
  · simp [State.stepExpires, hr]
  · simp [State.stepExpires, Nat.not_le_of_lt hc]

theorem State.stepExpiry_of_not_owed (hf : (s.owed b).stepF = false) (hs : (s.owed b).stepS = false) : s.stepExpiry b = s := by
  have none_owed : ∀ base, (s.owed b).step base = false := fun base => by
    cases base
    case f => exact hf
    case s => exact hs
  rw [State.stepExpiry_of_not_expires (by simp [State.stepExpires, none_owed]), State.reachStep_of_not_owed (none_owed .f),
    State.reachStep_of_not_owed (none_owed .s)]

/-- A channel that does not run is passed over as a channel of either base (R150). -/
theorem State.stepExpiry_of_not_running (hr : (s.chan b).step.status ≠ .running) :
    s.stepExpiry b = s.setOwed b (s.owed b).stepTaken := by
  have hticks : ∀ base, (s.chan b).step.ticks base = false := fun _ => Channel.ticks_eq_false_iff.mpr (.inl hr)
  have hticksAfter : ((s.setOwed b ((s.owed b).stepPassed .f)).chan b).step.ticks .s = false := hticks .s
  rw [State.stepExpiry_of_not_expires (State.stepExpires_eq_false (.inl hr)), State.reachStep_of_not_ticks (hticks .f),
    State.reachStep_of_not_ticks hticksAfter, State.owed_setOwed_same, State.setOwed_setOwed]
  rfl

/-- A channel that runs is taken down by 1, once, whichever its base (R147, R150). -/
theorem State.stepExpiry_of_counting (ho : (s.owed b).step (s.chan b).step.base = true)
    (hr : (s.chan b).step.status = .running) (hc : 1 < (s.chan b).step.count) :
    s.stepExpiry b =
      (s.setChan b { s.chan b with step := { (s.chan b).step with count := (s.chan b).step.count - 1 } }).setOwed b
        (s.owed b).stepTaken := by
  rw [State.stepExpiry_of_not_expires (State.stepExpires_eq_false (.inr hc))]
  cases hb : (s.chan b).step.base with
  | f =>
    rw [hb] at ho
    have hticks := Channel.ticks_iff.mpr ⟨hr, hb⟩
    rw [State.reachStep_of_owed ho, Channel.tick_of_ticks hticks hc, Owed.afterStep_of_ticks hticks hc]
    refine State.reachStep_of_not_owed ?_
    rw [State.owed_setOwed_same]
    rfl
  | s =>
    rw [hb] at ho
    have hpassed : (s.chan b).step.ticks .f = false := Channel.ticks_eq_false_iff.mpr (.inr (by rw [hb]; nofun))
    have hticks := Channel.ticks_iff.mpr ⟨hr, hb⟩
    rw [State.reachStep_of_not_ticks hpassed, State.reachStep_of_owed (by rw [State.owed_setOwed_same]; exact ho),
      State.owed_setOwed_same, State.chan_setOwed, Channel.tick_of_ticks hticks hc, Owed.afterStep_of_ticks hticks hc,
      State.setChan_setOwed, State.setOwed_setOwed]
    rfl

/-! ## SETTLE_EXPIRY short of the expiry -/

theorem State.settleExpires_eq_false (hk : (s.chan b).settle.Outlasts .f) : s.settleExpires b = false := by
  cases ht : (s.chan b).settle.ticks .f with
  | false => simp [State.settleExpires, ht]
  | true => simp [State.settleExpires, Nat.not_le_of_lt (hk.count_of_ticks ht)]

theorem State.settleExpiry_of_not_owed (ho : (s.owed b).settle = false) : s.settleExpiry b = s := by
  rw [State.settleExpiry_of_not_expires (by simp [State.settleExpires, ho]), State.reachSettle_of_not_owed ho]

theorem State.settleExpiry_of_outlasts (ho : (s.owed b).settle = true) (hk : (s.chan b).settle.Outlasts .f) :
    s.settleExpiry b =
      (s.setChan b { s.chan b with settle := (s.chan b).settle.tick .f }).setOwed b { s.owed b with settle := false } := by
  rw [State.settleExpiry_of_not_expires (State.settleExpires_eq_false hk), State.reachSettle_of_owed ho,
    Owed.afterSettle_of_outlasts hk]

/-! ## Held writes -/

theorem State.lastHold_eq_none (hl : ∀ x ∈ s.holds, x.berth = b → 1 < x.count) : s.lastHold b = none := by
  refine List.find?_eq_none.mpr fun x hx hlast => ?_
  obtain ⟨hb, hc⟩ := Bool.and_eq_true_iff.mp hlast
  exact Nat.not_lt_of_le (of_decide_eq_true hc) (hl x hx (of_decide_eq_true hb))

theorem State.of_lastHold_eq_some (hl : s.lastHold b = some h) : h ∈ s.holds ∧ h.berth = b ∧ h.count ≤ 1 := by
  have hp : (decide (h.berth = b) && decide (h.count ≤ 1)) = true :=
    List.find?_some (p := fun x : Hold => decide (x.berth = b) && decide (x.count ≤ 1)) hl
  obtain ⟨hb, hc⟩ := Bool.and_eq_true_iff.mp hp
  exact ⟨List.mem_of_find?_eq_some hl, of_decide_eq_true hb, of_decide_eq_true hc⟩

/-- Held writes of which none is at its expiry are ticked together (R126). -/
theorem State.reachHolds_of_counting (ho : (s.owed b).hold = true) (hm : s.timer.maint = false) (hl : s.lastHold b = none) :
    s.reachHolds b = (s.setHolds (tickHolds s.holds b)).setOwed b { s.owed b with hold := false } := by
  simp [State.reachHolds, ho, hm, hl]

theorem Hold.tick_of_last (hc : h.count ≤ 1) : h.tick = h := if_neg (Nat.not_lt_of_le hc)

theorem Hold.tick_of_counting (hc : 1 < h.count) : h.tick = { h with count := h.count - 1 } := if_pos hc

@[simp] theorem Hold.tick_berth (h : Hold) : h.tick.berth = h.berth := by
  unfold Hold.tick
  split <;> rfl

/-- No berth has two different held writes. -/
def oneHoldEach (l : List Hold) : Prop := ∀ h ∈ l, ∀ x ∈ l, x.berth = h.berth → x = h

theorem oneHoldEach_tickHolds {l : List Hold} (hl : oneHoldEach l) (b : BerthId) : oneHoldEach (tickHolds l b) := by
  have berth_eq : ∀ x : Hold, (if x.berth = b then x.tick else x).berth = x.berth := fun x => by
    split
    · exact x.tick_berth
    · rfl
  unfold oneHoldEach tickHolds
  intro h hh x hx hb
  obtain ⟨h', hh', rfl⟩ := List.mem_map.mp hh
  obtain ⟨x', hx', rfl⟩ := List.mem_map.mp hx
  rw [berth_eq, berth_eq] at hb
  rw [hl h' hh' x' hx' hb]

/-- A held write of count 1 is the berth's only one, so that leaving it to its expiry leaves none uncounted (R126). -/
theorem State.holds_reachHolds (ho : (s.owed b).hold = true) (hm : s.timer.maint = false) (hone : oneHoldEach s.holds) :
    (s.reachHolds b).holds = tickHolds s.holds b := by
  cases hlast : s.lastHold b with
  | none =>
    rw [State.reachHolds_of_counting ho hm hlast]
    rfl
  | some h =>
    have hsame : s.reachHolds b = s := by simp [State.reachHolds, ho, hm, hlast]
    obtain ⟨hmem, hb, hc⟩ := State.of_lastHold_eq_some hlast
    have hticked : ∀ x ∈ s.holds, (if x.berth = b then x.tick else x) = x := by
      intro x hx
      split
      · rename_i hxb
        have hxh : x = h := hone h hmem x hx (hxb.trans hb.symm)
        exact Hold.tick_of_last (hxh ▸ hc)
      · rfl
    rw [hsame, tickHolds, List.map_congr_left hticked, List.map_id']

theorem State.holds_reachHolds_of_maint (hm : s.timer.maint = true) : (s.reachHolds b).holds = s.holds := by
  unfold State.reachHolds
  rw [if_pos hm]
  split <;> rfl

@[simp] theorem State.holds_reachStep (s : State) (b : BerthId) (base : TickBase) : (s.reachStep b base).holds = s.holds := by
  unfold State.reachStep
  split <;> rfl

/-- A tick that reaches a Step channel leaves the marks of the held writes. -/
@[simp] theorem State.owed_hold_reachStep (s : State) (b : BerthId) (base : TickBase) :
    ((s.reachStep b base).owed b).hold = (s.owed b).hold := by
  unfold State.reachStep
  split
  · simp
  · rfl

theorem State.holds_reachBerth (ho : (s.owed b).hold = true) (hm : s.timer.maint = false) (hone : oneHoldEach s.holds) :
    (s.reachBerth b).holds = tickHolds s.holds b := by
  have hm' : (s.reachStep b .s).timer.maint = false := (s.reachStep_frame b .s).rest.maint.trans hm
  unfold State.reachBerth
  rw [State.holds_reachHolds (by simpa using ho) hm' (by simpa using hone), State.holds_reachStep]

/-- A base S tick takes down the held writes of the berths that it reaches (R126). -/
theorem State.holds_reachBerths {l : List BerthId} (hn : l.Nodup) (ho : ∀ b ∈ l, (s.owed b).hold = true)
    (hm : s.timer.maint = false) (hone : oneHoldEach s.holds) :
    (s.reachBerths l).holds = s.holds.map fun h => if h.berth ∈ l then h.tick else h := by
  induction l generalizing s with
  | nil => simp [State.reachBerths]
  | cons b rest ih =>
    obtain ⟨hb, hrest⟩ := List.nodup_cons.mp hn
    have hholds := State.holds_reachBerth (ho b (.head _)) hm hone
    have howed : ∀ x ∈ rest, ((s.reachBerth b).owed x).hold = true := fun x hx => by
      have hne : x ≠ b := fun e => hb (e ▸ hx)
      rw [State.owed_reachBerth_of_ne hne]
      exact ho x (.tail _ hx)
    show ((s.reachBerth b).reachBerths rest).holds = _
    rw [ih hrest howed ((s.reachBerth_frame b).rest.maint.trans hm) (hholds ▸ oneHoldEach_tickHolds hone b), hholds, tickHolds,
      List.map_map]
    refine List.map_congr_left fun h _ => ?_
    by_cases hh : h.berth = b
    · simp [hh, hb]
    · simp [hh]

theorem State.holds_reachBerths_all (ho : ∀ b, (s.owed b).hold = true) (hm : s.timer.maint = false) (hone : oneHoldEach s.holds) :
    (s.reachBerths BerthId.all).holds = s.holds.map Hold.tick := by
  rw [State.holds_reachBerths (by decide) (fun b _ => ho b) hm hone]
  exact List.map_congr_left fun h _ => if_pos (berth_mem_all h.berth)

/-- Under MAINT no held write is counted (R151). -/
theorem State.holds_reachBerths_of_maint (l : List BerthId) (hm : s.timer.maint = true) : (s.reachBerths l).holds = s.holds := by
  induction l generalizing s with
  | nil => rfl
  | cons b rest ih =>
    have hholds : (s.reachBerth b).holds = s.holds :=
      (State.holds_reachHolds_of_maint ((s.reachStep_frame b .s).rest.maint.trans hm)).trans (s.holds_reachStep b .s)
    exact (ih ((s.reachBerth_frame b).rest.maint.trans hm)).trans hholds

/-- The held writes of a berth that has one, of more than 1, are counted in an event of their own (R126). -/
theorem State.holdExpiry_of_counting (ho : (s.owed b).hold = true) (hm : s.timer.maint = false) (hone : s.holdsOf b = [h])
    (hc : 1 < h.count) :
    s.holdExpiry b =
      (s.setHolds (s.holds.map fun x => if x.berth = b then { x with count := x.count - 1 } else x)).setOwed b
        { s.owed b with hold := false } := by
  have hcount : ∀ x ∈ s.holds, x.berth = b → 1 < x.count := fun x hx hb => by
    have hmem : x ∈ s.holdsOf b := List.mem_filter.mpr ⟨hx, decide_eq_true hb⟩
    rw [hone, List.mem_singleton] at hmem
    rwa [hmem]
  have hlast := State.lastHold_eq_none hcount
  have hticked : tickHolds s.holds b = s.holds.map fun x => if x.berth = b then { x with count := x.count - 1 } else x :=
    List.map_congr_left fun x hx => by
      split
      · exact Hold.tick_of_counting (hcount x hx ‹_›)
      · rfl
  rw [State.holdExpiry_of_none (by simp [State.holdExpires, hlast]), State.reachHolds_of_counting ho hm hlast, hticked]

/-! ## What a base F tick still owes (R147) -/

/-- The base F tick under way owes a berth both channels and brings neither to its expiry. -/
structure State.OwesCounts (s : State) (b : BerthId) : Prop where
  owed : s.owed b = { stepF := true, stepS := false, settle := true, hold := false }
  step : (s.chan b).step.Outlasts .f
  settle : (s.chan b).settle.Outlasts .f

theorem State.stepExpiry_of_owesCounts (h : s.OwesCounts b) :
    s.stepExpiry b =
      (s.setChan b { s.chan b with step := (s.chan b).step.tick .f }).setOwed b
        { stepF := false, stepS := false, settle := true, hold := false } := by
  have hexpires : s.stepExpires b = false := by
    refine Bool.eq_false_iff.mpr fun he => ?_
    obtain ⟨hrun, howes⟩ := Bool.and_eq_true_iff.mp he
    obtain ⟨hr, hc⟩ := Bool.and_eq_true_iff.mp hrun
    rw [h.owed] at howes
    have hb : (s.chan b).step.base = .f := by
      cases hbase : (s.chan b).step.base with
      | f => rfl
      | s =>
        rw [hbase] at howes
        cases howes
    exact Nat.not_lt_of_le (of_decide_eq_true hc) (h.step.count_of_ticks (Channel.ticks_iff.mpr ⟨of_decide_eq_true hr, hb⟩))
  have hmarks : (s.owed b).afterStep (s.chan b).step .f = { stepF := false, stepS := false, settle := true, hold := false } := by
    cases ht : (s.chan b).step.ticks .f with
    | false =>
      rw [Owed.afterStep_of_not_ticks ht, h.owed]
      rfl
    | true =>
      rw [Owed.afterStep_of_ticks ht (h.step.count_of_ticks ht), h.owed]
      rfl
  rw [State.stepExpiry_of_not_expires hexpires, State.reachStep_of_owed (base := .f) (by rw [h.owed]; rfl), hmarks]
  exact State.reachStep_of_not_owed (by rw [State.owed_setOwed_same]; rfl)

/-- The next base F tick takes both channels down first, each by 1, and finds no held write owed. -/
theorem State.takeOwedBy_of_owesCounts (h : s.OwesCounts b) :
    s.takeOwedBy b =
      (s.setChan b { step := (s.chan b).step.tick .f, settle := (s.chan b).settle.tick .f }).setOwed b Owed.none := by
  unfold State.takeOwedBy
  rw [State.stepExpiry_of_owesCounts h, State.settleExpiry_of_outlasts (by rw [State.owed_setOwed_same]) (by simpa using h.settle),
    State.holdExpiry_of_nothing_owed (by rw [State.owed_setOwed_same, State.owed_setOwed_same]; rfl)]
  simp [State.setChan_setOwed, Owed.none]

/-- What a base F tick has taken of the counts of some berths: both channels of each, and nothing else but its own marks. -/
structure CountsTaken (l : List BerthId) (s t : State) : Prop where
  frame : TickFrame s t
  holds : t.holds = s.holds
  reached : ∀ b ∈ l, t.chan b = { step := (s.chan b).step.tick .f, settle := (s.chan b).settle.tick .f }
  others : ∀ b, b ∉ l → t.chan b = s.chan b

theorem State.takeOwedByAll_takes {l : List BerthId} (hn : l.Nodup) (h : ∀ b ∈ l, s.OwesCounts b) :
    CountsTaken l s (s.takeOwedByAll l) := by
  induction l generalizing s with
  | nil => exact ⟨TickFrame.refl s, rfl, nofun, fun _ _ => rfl⟩
  | cons b rest ih =>
    obtain ⟨hb, hrest⟩ := List.nodup_cons.mp hn
    have htaken := State.takeOwedBy_of_owesCounts (h b (.head _))
    have hother : ∀ x, x ≠ b → (s.takeOwedBy b).chan x = s.chan x ∧ (s.takeOwedBy b).owed x = s.owed x := fun x hx => by
      rw [htaken]
      simp [hx]
    have hleft : ∀ x ∈ rest, (s.takeOwedBy b).OwesCounts x := fun x hx => by
      obtain ⟨hchan, howed⟩ := hother x fun e => hb (e ▸ hx)
      have hx' := h x (.tail _ hx)
      exact ⟨howed.trans hx'.owed, hchan ▸ hx'.step, hchan ▸ hx'.settle⟩
    obtain ⟨hframe, hholds, hreached, hothers⟩ := ih hrest hleft
    refine ⟨TickFrame.trans (by rw [htaken]; rfl) hframe, hholds.trans (by rw [htaken]; rfl), fun x hx => ?_, fun x hx => ?_⟩
    · by_cases hxb : x = b
      · subst hxb
        refine (hothers x hb).trans ?_
        rw [htaken]
        simp
      · have hxr : x ∈ rest := (List.mem_cons.mp hx).resolve_left hxb
        rw [← (hother x hxb).1]
        exact hreached x hxr
    · have hxb : x ≠ b := fun e => hx (e ▸ .head _)
      have hxr : x ∉ rest := fun hm => hx (.tail _ hm)
      exact (hothers x hxr).trans (hother x hxb).1

/-- With neither a base S tick nor a scan tick due, a tick owes the berths alone. -/
theorem State.takeOwed_of_none_due (h1 : s.timer.sDue = false) (h2 : s.scan.tickDue = false) :
    s.takeOwed = s.takeOwedByAll BerthId.all := by
  have hreload : s.reload = s := by simp [State.reload, h1]
  have hscan : s.scanTick = s := by simp [State.scanTick, h2]
  rw [State.takeOwed, hreload, hscan]

/-! ## The ticks in RUNNING -/

/-- BASE_S_TICK reaches no Settle channel, and the Step channels that the tick owes (R148, R150). -/
theorem State.channels_reachBerths (b : BerthId) :
    ((s.reachBerths BerthId.all).chan b).settle = (s.chan b).settle
      ∧ ((s.reachBerths BerthId.all).chan b).step
        = if (s.owed b).stepS then (s.chan b).step.tick .s else (s.chan b).step := by
  rw [State.chan_reachBerths]
  split
  · exact ⟨rfl, rfl⟩
  · exact ⟨rfl, rfl⟩

theorem TimerBank.tick_divider (k : TimerBank) : k.tick.divider = if k.divider ≤ 1 then k.divider else k.divider - 1 := by
  unfold TimerBank.tick
  split <;> rfl

/-- With no base S tick due, one falls due exactly where the divider comes to 0 (R147). -/
theorem TimerBank.tick_sDue {k : TimerBank} (hk : k.sDue = false) : k.tick.sDue = decide (k.divider ≤ 1) := by
  unfold TimerBank.tick
  split
  · exact (decide_eq_true ‹_›).symm
  · exact hk.trans (decide_eq_false ‹_›).symm

theorem State.reload_of_due (h : s.timer.sDue = true) :
    s.reload = s.setTimer { s.timer with divider := s.tables.ns, sDue := false } := if_pos h

/-- A base F tick in RUNNING finds what the one before it left, and falls (R147). -/
theorem State.baseFTick_of_running (hp : s.phase = .running) : s.baseFTick = s.takeOwed.tickFalls := if_pos hp

theorem State.baseSTick_of_running (hp : s.phase = .running) : s.baseSTick = s.reload.reachBerths BerthId.all := if_pos hp

end Sys2Proof.Machine

open Sys2Proof Sys2Proof.Machine

/-- Settles O53, command by command: the tick that falls, the two ticks that reach many counts, and the expiries that reach one. -/
theorem baseTicksCountDown : Obligations.BaseTicksCountDown := by
  intro s hp
  simp only [exec_baseFTick, exec_baseSTick, exec_stepExpiry, exec_settleExpiry, exec_holdExpiry,
    State.baseFTick_of_running hp, State.baseSTick_of_running hp]
  refine ⟨fun hnone => ?falls, fun hdue hscan howed hstep hsettle => ?takesOwed, fun hdue => ?reachesS,
    fun b => ⟨fun hf hs => ?stepReached, fun ho hr hc => ?stepCounts, fun hr => ?stepPassed⟩,
    fun b => ⟨fun ho => ?settleReached, fun ho hr hb hc => ?settleCounts⟩, fun b h ho hm hone hc => ?holdCounts,
    fun k base => ⟨fun hk => ?passed, fun hr hb hc => ?counts, fun hc => ?last⟩⟩
  case falls =>
    rw [State.takeOwed_of_nothingOwed hnone]
    obtain ⟨hdue, -, -⟩ := hnone
    exact ⟨_, rfl, s.timer.tick_divider, TimerBank.tick_sDue hdue, s.timer.tick_maint, rfl, fun b => Eight.get_fill _ b,
      ⟨rfl, rfl, rfl, rfl, rfl, rfl⟩, rfl, rfl, rfl, fun _ => rfl⟩
  case takesOwed =>
    obtain ⟨hframe, hholds, hreached, -⟩ := State.takeOwedByAll_takes (s := s) (l := BerthId.all) (by decide)
      fun b _ => ⟨howed b, hstep b, hsettle b⟩
    rw [State.takeOwed_of_none_due hdue hscan]
    generalize s.takeOwedByAll BerthId.all = t at hframe hholds hreached ⊢
    have hrest := hframe.rest
    exact ⟨_, rfl, fun b => hreached b (berth_mem_all b), hrest.berths, hrest.sups, hholds, hrest.budget, hrest.owq, hrest.ports,
      hrest.log, State.sameMemory_of_pim hrest.pim⟩
  case reachesS =>
    have hrest := (s.reload.reachBerths_frame BerthId.all).rest
    rw [State.reload_of_due hdue] at hrest ⊢
    exact ⟨_, rfl, hrest.divider, hrest.sDue, hrest.maint, State.channels_reachBerths,
      fun hm => State.holds_reachBerths_of_maint _ hm, fun hm ho hone => State.holds_reachBerths_all ho hm hone, hrest.scan,
      hrest.berths, hrest.sups, hrest.budget, hrest.owq, hrest.ports, hrest.log, State.sameMemory_of_pim hrest.pim⟩
  case stepReached =>
    rw [State.stepExpiry_of_not_owed hf hs]
  case stepCounts =>
    rw [State.stepExpiry_of_counting ho hr hc]
    rfl
  case stepPassed =>
    rw [State.stepExpiry_of_not_running hr]
    rfl
  case settleReached =>
    rw [State.settleExpiry_of_not_owed ho]
  case settleCounts =>
    rw [State.settleExpiry_of_outlasts ho (.inl hc), Channel.tick_of_ticks (Channel.ticks_iff.mpr ⟨hr, hb⟩) hc]
    rfl
  case holdCounts =>
    rw [State.holdExpiry_of_counting ho hm hone hc]
    rfl
  case passed =>
    exact Channel.tick_of_not_ticks (Channel.ticks_eq_false_iff.mpr hk)
  case counts =>
    exact Channel.tick_of_ticks (Channel.ticks_iff.mpr ⟨hr, hb⟩) hc
  case last =>
    exact Channel.tick_of_last (Nat.le_of_eq hc)

end

section
/-! The event log and the status header (10): the lines ATTN, READY and WAIT (R133, R159, R162), the judgement of CONSUMER (R157), the
completion of a Log Unit write (R154, R156, R158, R165), and the bounds of the ring and of the staging list through every step. -/

namespace Sys2Proof.Machine

variable {s t : State} {l : Log} {r : Record} {rest : List Record} {k : LogWrite} {a d : Word} {stamp : Word} {v : Nat}

/-! ## The lines (R133, R159, R162) -/

/-- In RUNNING ATTN is on for a record in the ring and for OVERCOMMIT (R159). -/
theorem State.attn_iff_of_running (h : s.phase = .running) :
    s.attn = true ↔ s.log.producer ≠ s.log.consumer ∨ s.budget.overcommit = true := by
  unfold State.attn
  rw [h]
  simp only [Bool.or_eq_true, decide_eq_true_eq]

theorem State.attn_of_blocked (h : s.phase = .blocked) : s.attn = true := by
  unfold State.attn
  rw [h]

/-- From reset through LOADING no log exists (R159). -/
theorem State.attn_of_no_log (h : s.phase = .loading ∨ s.phase = .resetHeld) : s.attn = false := by
  unfold State.attn
  rcases h with h | h
  · rw [h]
  · rw [h]

theorem State.ready_iff : s.ready = true ↔ s.phase = .running := decide_eq_true_iff

/-- A host access is a read or a passed write (R133). -/
theorem State.wait_iff :
    s.wait = true ↔ (∃ a, s.ports.host = some (.read a)) ∨ ∃ a d, s.ports.host = some (.write a d) := by
  unfold State.wait
  rw [Option.isSome_iff_exists]
  constructor
  · rintro ⟨x, hx⟩
    cases x with
    | read a => exact .inl ⟨a, hx⟩
    | write a d => exact .inr ⟨a, d, hx⟩
  · rintro (⟨a, h⟩ | ⟨a, d, h⟩)
    · exact ⟨_, h⟩
    · exact ⟨_, h⟩

/-! ## CONSUMER (R157) -/

/-- The accepted range: from the consumer index to the producer index, circularly, below the capacity. -/
theorem Log.acceptsConsumer_iff :
    l.acceptsConsumer v = true ↔
      v < l.capacity ∧ (v + l.capacity - l.consumer) % l.capacity ≤ (l.producer + l.capacity - l.consumer) % l.capacity := by
  unfold Log.acceptsConsumer Log.ringCount
  simp only [Bool.and_eq_true, decide_eq_true_eq]

/-- The index itself changes nothing. -/
theorem Log.setConsumer_self (h : v = l.consumer) (stamp : Word) : l.setConsumer v stamp = l := if_pos h

/-- Another index frees room at once (R157, R158). -/
theorem Log.setConsumer_of_ne (h : v ≠ l.consumer) (stamp : Word) :
    l.setConsumer v stamp = { l with consumer := v }.roomFreed stamp := if_neg h

/-- An accepted value sets the index, and the write is passed (R157). -/
theorem State.consumerWrite_accepted (hs : s.takesHostWrite) (ha : s.log.acceptsConsumer d.toNat = true) :
    s.hostWrites .consumer a d = { s.passedWrite a d with log := s.log.setConsumer d.toNat s.scan.passNumber } := by
  have hdecided : s.clearMarks.decideWrite .consumer a d =
      (s.clearMarks.setLog (s.log.setConsumer d.toNat s.scan.passNumber)).passWrite a d := if_pos ha
  rw [State.hostWrites_of_takes hs, hdecided, State.endEvent_of_quiet rfl rfl]
  rfl

/-- Any other value is refused RANGE (R137, R157). -/
theorem State.consumerWrite_refused (hs : s.takesHostWrite) (ha : ¬ s.log.acceptsConsumer d.toNat = true) :
    s.hostWrites .consumer a d = s.refusedWrite .range none a d :=
  State.hostWrites_refused hs (if_neg ha)

/-! ## What a completed Log Unit write leaves of the log (R154, R156, R158) -/

/-- Freed room leaves the first header words. -/
@[simp] theorem Log.firstHeaders_roomFreed (l : Log) (stamp : Word) : (l.roomFreed stamp).firstHeaders = l.firstHeaders := by
  unfold Log.roomFreed
  split
  · rfl
  · rfl

/-- A completed record goes to the ring and frees its staging place; an OVERFLOW record with nothing dropped since clears the flag
first (R156, R158, log 17). -/
theorem Log.recordDone_of_staged (hst : l.staging = r :: rest) :
    l.recordDone stamp =
      (if r.type = .overflow ∧ l.dropCount = 0 then { l.headStored with overflow := false, statusPending := true }
        else l.headStored).roomFreed stamp := by
  unfold Log.recordDone
  simp only [hst, Log.headStored, Bool.and_eq_true, decide_eq_true_eq]

/-- With the flag cleared no further OVERFLOW record follows (R158). -/
theorem Log.recordDone_of_overflow (hst : l.staging = r :: rest) (hr : r.type = .overflow) (hd : l.dropCount = 0) :
    l.recordDone stamp = { l.headStored with overflow := false, statusPending := true } := by
  rw [Log.recordDone_of_staged hst, if_pos ⟨hr, hd⟩]
  exact Log.roomFreed_of_no_overflow stamp rfl

theorem Log.recordDone_of_other (hst : l.staging = r :: rest) (h : r.type ≠ .overflow ∨ l.dropCount ≠ 0) :
    l.recordDone stamp = l.headStored.roomFreed stamp := by
  rw [Log.recordDone_of_staged hst, if_neg fun hc => h.elim (fun hr => hr hc.1) fun hd => hd hc.2]

/-- No completion of a record touches the first header words. -/
@[simp] theorem Log.firstHeaders_recordDone (l : Log) (stamp : Word) : (l.recordDone stamp).firstHeaders = l.firstHeaders := by
  unfold Log.recordDone
  simp only [Log.firstHeaders_roomFreed, apply_ite Log.firstHeaders, ite_self]

/-- Only a first header word is done with as one (R154). -/
theorem Log.firstHeaders_completed (h : ∀ x, k ≠ .firstHeader x) (l : Log) (stamp : Word) :
    (l.completed k stamp).firstHeaders = l.firstHeaders := by
  cases k with
  | firstHeader x => exact absurd rfl (h x)
  | recordWord i =>
    unfold Log.completed
    dsimp only
    split
    · rfl
    · exact l.firstHeaders_recordDone stamp
  | producerWord => rfl
  | headerWord x => rfl

/-! ## What a completed Log Unit write leaves of the part -/

/-- A Log Unit write has ended: memory has its word, the port is free, and the log has gone on (R156). -/
def State.logWriteEnded (s : State) (k : LogWrite) (a d : Word) : State :=
  (s.pimWrite a d).portFree.setLog (s.log.completed k s.scan.passNumber)

theorem State.logCarried_of_busy (h : s.ports.busy = some (.logWrite k a d)) :
    s.logCarried = (s.logWriteEnded k a d).tryEnterRunning := by
  unfold State.logCarried
  rw [h]
  rfl

/-- With no Log Unit write in progress nothing completes (log 3). -/
theorem State.logCarried_of_not_busy (h : ∀ k a d, s.ports.busy ≠ some (.logWrite k a d)) : s.logCarried = s := by
  unfold State.logCarried
  split
  · rename_i hb
    exact absurd hb (h _ _ _)
  · rfl

theorem State.tryEnterRunning_of_ready (hp : s.phase = .loading) (hw : s.loader.words.length = imageLength)
    (hr : s.loader.reads = []) (hh : s.log.firstHeaders = []) : s.tryEnterRunning = s.enterRunning := if_pos ⟨hp, hw, hr, hh⟩

/-- The start waits for the image, for the start-up reads and for the first header words (R165 step 3). -/
theorem State.tryEnterRunning_of_not_ready
    (h : s.phase ≠ .loading ∨ s.loader.words.length ≠ imageLength ∨ s.loader.reads ≠ [] ∨ s.log.firstHeaders ≠ []) :
    s.tryEnterRunning = s := by
  refine if_neg ?_
  rintro ⟨hp, hw, hr, hh⟩
  rcases h with h | h | h | h
  · exact h hp
  · exact h hw
  · exact h hr
  · exact h hh

/-- A completion that does not complete the start leaves the write's end and nothing more. -/
theorem State.logCarried_of_not_ready (hb : s.ports.busy = some (.logWrite k a d))
    (h : s.phase ≠ .loading ∨ s.loader.words.length ≠ imageLength ∨ s.loader.reads ≠ []
      ∨ (∃ x, k = .firstHeader x) ∧ s.log.firstHeaders.tail ≠ []
      ∨ (∀ x, k ≠ .firstHeader x) ∧ s.log.firstHeaders ≠ []) : s.logCarried = s.logWriteEnded k a d := by
  rw [State.logCarried_of_busy hb]
  refine State.tryEnterRunning_of_not_ready (h.imp_right (Or.imp_right (Or.imp_right ?_)))
  rintro (⟨⟨x, rfl⟩, hmore⟩ | ⟨hk, hmore⟩)
  · exact hmore
  · exact fun hnone => hmore ((Log.firstHeaders_completed hk s.log s.scan.passNumber).symm.trans hnone)

/-- The completion of the last first header word completes a start that waits for nothing else (R165 step 3). -/
theorem State.logCarried_of_last_header {x : HeaderWord} (hb : s.ports.busy = some (.logWrite (.firstHeader x) a d))
    (hp : s.phase = .loading) (hw : s.loader.words.length = imageLength) (hr : s.loader.reads = [])
    (hh : s.log.firstHeaders = [x]) : s.logCarried = (s.logWriteEnded (.firstHeader x) a d).enterRunning := by
  rw [State.logCarried_of_busy hb]
  exact State.tryEnterRunning_of_ready hp hw hr (congrArg List.tail hh)

theorem State.pimRead_logWriteEnded_same (hm : Memory.wf s.pim = true) : (s.logWriteEnded k a d).pimRead a = d :=
  State.pimRead_pimWrite_same a d hm

theorem State.sameMemoryBut_logWriteEnded (s : State) (k : LogWrite) (a d : Word) : s.sameMemoryBut (s.logWriteEnded k a d) a :=
  fun _ hx => State.pimRead_pimWrite_of_ne s d hx

theorem State.sameBerths_logWriteEnded (s : State) (k : LogWrite) (a d : Word) : s.sameBerths (s.logWriteEnded k a d) :=
  ⟨rfl, rfl, rfl, rfl, rfl, rfl⟩

/-! ## The bounds of the ring and the staging list (R154, R156, R158) -/

/-- The bounds are a matter of the log and of the access in progress at the memory port. -/
structure SameLog (s t : State) : Prop where
  log : t.log = s.log
  busy : t.ports.busy = s.ports.busy

theorem SameLog.logSound (h : SameLog s t) (hs : s.logSound) : t.logSound := by
  unfold State.logSound
  rw [h.log, h.busy]
  exact hs

/-- A log within the bounds that stages a record where one was staged keeps them. -/
theorem State.logSound_setLog (hs : s.logSound) (hl : l.sound) (hne : s.log.staging ≠ [] → l.staging ≠ []) :
    (s.setLog l).logSound :=
  ⟨hl, fun i a d hb => hne (hs.2 i a d hb)⟩

/-- While no record word is being written the bounds are the log's alone. -/
theorem State.logSound_of_no_record (hl : s.log.sound) (hb : ∀ i a d, s.ports.busy ≠ some (.logWrite (.recordWord i) a d)) :
    s.logSound :=
  ⟨hl, fun i a d h => absurd h (hb i a d)⟩

theorem State.logSound_portFree (hs : s.logSound) : s.portFree.logSound := State.logSound_of_no_record hs.1 nofun

theorem SameLog.discardWrite (s : State) : SameLog s s.discardWrite := by
  unfold State.discardWrite
  split <;> exact ⟨rfl, rfl⟩

theorem SameLog.releaseReset (s : State) : SameLog s s.releaseReset := by
  unfold State.releaseReset
  split <;> exact ⟨rfl, rfl⟩

theorem SameLog.reload (s : State) : SameLog s s.reload := by
  unfold State.reload
  split <;> exact ⟨rfl, rfl⟩

theorem SameLog.stationWrote (s : State) (a : Word) (w : Option Word) : SameLog s (s.stationWrote a w) :=
  ⟨State.stationWrote_field State.log (fun _ _ => rfl) s a w,
    State.stationWrote_field (fun u => u.ports.busy) (fun _ _ => rfl) s a w⟩

theorem SameLog.readArrives (s : State) (read : Option Word) : SameLog s (s.readArrives read) := by
  unfold State.readArrives
  split <;> exact ⟨rfl, rfl⟩

theorem SameLog.carriageReport (s : State) (w : OwnWrite) : SameLog s (s.carriageReport w) :=
  ⟨State.carriageReport_field State.log (fun _ _ _ => rfl) s w,
    State.carriageReport_field (fun u => u.ports.busy) (fun _ _ _ => rfl) s w⟩

theorem SameLog.removalReports (s : State) (gone : List OwnWrite) : SameLog s (s.removalReports gone) :=
  ⟨State.removalReports_field State.log (fun _ _ => rfl) gone s,
    State.removalReports_field (fun u => u.ports.busy) (fun _ _ => rfl) gone s⟩

theorem SameLog.takeOverToggle (s : State) (x : StartRead) (toggle : Bool) : SameLog s (s.takeOverToggle x toggle) := by
  cases x <;> exact ⟨rfl, rfl⟩

/-- Of the effects of an event a record handed to the Log Unit alone changes the ring or the staging list (R156). -/
theorem State.logSound_kept : Kept State.logSound where
  berth := fun _ _ _ _ _ _ _ h => h
  sup := fun _ _ _ h => h
  budget := fun _ _ _ h => h
  holds := fun _ _ h => h
  seqWrite := fun _ _ _ _ h => h
  tripWrite := fun _ _ h => h
  queueRsp := fun _ _ h => h
  record := fun _ _ _ _ _ _ h => State.logSound_setLog h (Log.sound_stage _ h.1) (Log.stage_staging_ne_nil _)
  statusChanged := fun _ h => h
  grantedChanged := fun _ h => h
  enters := fun _ _ _ h => h
  toggle := fun _ _ _ h => h
  loadStep := fun _ _ _ h => h
  stopStep := fun _ _ h => h
  loadSettle := fun _ _ h => h
  stopSettle := fun _ _ h => h
  stopChannels := fun _ _ h => h
  queueGroupRsp := fun _ _ _ h => h
  groupTaken := fun _ _ _ h => h
  passWrite := fun _ _ _ h => h

theorem State.logSound_setCapacity (hs : s.logSound) (c : Nat) : (s.setCapacity c).logSound := by
  unfold State.setCapacity
  split
  · exact hs
  · exact hs

/-- An accepted CONSUMER value frees room in the ring (R157); the Scan Engine hands over records alone. -/
theorem State.logSound_keptByScan : KeptByScan State.logSound :=
  State.logSound_kept.moves.byScan
    (consumer := fun _ v ha h =>
      State.logSound_setLog h (Log.sound_setConsumer _ h.1 ha) (Log.setConsumer_staging_ne_nil v _))
    (discard := fun s h => (SameLog.discardWrite s).logSound h)
    (block := fun _ _ _ h => h)
    (latest := fun _ _ _ h => h)
    (scan := fun _ _ h => h)
    (capacity := fun _ c h => State.logSound_setCapacity h c)

theorem State.logSound_tryEnterRunning (hs : s.logSound) : s.tryEnterRunning.logSound := by
  unfold State.tryEnterRunning
  split
  · exact hs
  · exact hs

theorem State.logSound_startReadDone (hs : s.logSound) : s.startReadDone.logSound := by
  unfold State.startReadDone
  split
  · have hfree : s.readEnded.logSound := State.logSound_of_no_record hs.1 nofun
    exact State.logSound_tryEnterRunning ((SameLog.takeOverToggle _ _ _).logSound hfree)
  · exact hs

/-- The Port Arbiter grants the Log Unit a record word only while a record is staged (R156). -/
theorem State.staged_of_choose {first : Bool} {i : Nat} (h : s.choose first = some (.log (.recordWord i))) :
    s.log.staging ≠ [] := by
  have own : s.chooseOwn first = some (.log (.recordWord i)) → s.log.staging ≠ [] := by
    intro h
    unfold State.chooseOwn at h
    split at h <;> cases h
    rename_i hk
    exact Log.staging_ne_nil_of_next hk
  have host : s.chooseHost first = some (.log (.recordWord i)) → s.log.staging ≠ [] := by
    intro h
    unfold State.chooseHost at h
    split at h
    · split at h
      · cases h
      · exact own h
    · exact own h
  unfold State.choose at h
  split at h
  · split at h
    · cases h
    · exact host h
  · exact host h

/-- A grant keeps the bounds, to the Log Unit's record words where a record is staged. -/
theorem State.logSound_grantTo {g : Grantee} (hs : s.logSound)
    (hg : ∀ i, g = .log (.recordWord i) → s.log.staging ≠ []) (station : Option Word) : (s.grantTo g station).logSound := by
  cases g with
  | host x =>
    cases x with
    | write b w => exact State.logSound_of_no_record hs.1 nofun
    | read b =>
      have hwrote : (if s.stationWord b then s.stationWrote b station else s).logSound := by
        split
        · exact (SameLog.stationWrote s b station).logSound hs
        · exact hs
      exact hwrote
  | own w => exact State.logSound_of_no_record hs.1 nofun
  | loader x =>
    cases x with
    | startupWrite => exact hs
    | read x => exact State.logSound_of_no_record hs.1 nofun
  | scan p => exact State.logSound_of_no_record hs.1 nofun
  | log k =>
    refine ⟨Log.sound_granted k hs.1, fun i b w hb => ?_⟩
    have hk : k = .recordWord i := by
      cases hb
      rfl
    exact (Log.granted_staging s.log k).symm ▸ hg i (congrArg _ hk)

theorem State.logSound_portGrant (hs : s.logSound) (read station : Option Word) (first : Bool) :
    (s.portGrant read station first).logSound := by
  have harrived := (SameLog.readArrives s read).logSound hs
  unfold State.portGrant
  dsimp only
  split
  · exact harrived
  · split
    · rename_i g hg
      exact State.logSound_grantTo harrived (fun i hi => State.staged_of_choose (hg.trans (congrArg some hi))) station
    · exact harrived

theorem State.logSound_ownCarried (hs : s.logSound) : s.ownCarried.logSound := by
  unfold State.ownCarried
  split
  · exact (SameLog.carriageReport _ _).logSound (State.logSound_portFree hs)
  · exact hs

theorem State.logSound_hostCarried (hs : s.logSound) : s.hostCarried.logSound := by
  unfold State.hostCarried
  split
  · exact (SameLog.removalReports _ _).logSound (State.logSound_of_no_record hs.1 nofun)
  · exact hs

/-- A Log Unit write's completion finds a record staged where it wrote one's last word (R156). -/
theorem State.logSound_logCarried (hs : s.logSound) : s.logCarried.logSound := by
  by_cases hb : ∃ k a d, s.ports.busy = some (.logWrite k a d)
  · obtain ⟨k, a, d, hb⟩ := hb
    rw [State.logCarried_of_busy hb]
    refine State.logSound_tryEnterRunning (State.logSound_of_no_record ?_ nofun)
    refine Log.sound_completed k _ hs.1 ?_
    rintro i rfl
    exact hs.2 i a d hb
  · rw [State.logCarried_of_not_busy fun k a d h => hb ⟨k, a, d, h⟩]
    exact hs

theorem State.logSound_assertMaint (hs : s.logSound) : s.assertMaint.logSound := by
  unfold State.assertMaint
  dsimp only
  split
  · exact hs
  · exact hs

theorem State.logSound_releaseMaint (hs : s.logSound) : s.releaseMaint.logSound := by
  unfold State.releaseMaint
  dsimp only
  split
  · exact hs
  · exact hs

theorem State.logSound_keptByCommand : KeptByCommand State.logSound :=
  { State.logSound_keptByScan with
    releaseReset := fun s h => (SameLog.releaseReset s).logSound h
    startReadDone := fun _ h => State.logSound_startReadDone h
    portGrant := fun _ read station first h => State.logSound_portGrant h read station first
    ownCarried := fun _ h => State.logSound_ownCarried h
    hostCarried := fun _ h => State.logSound_hostCarried h
    logCarried := fun _ h => State.logSound_logCarried h
    station := fun s a w h => (SameLog.stationWrote s a w).logSound h
    portFree := fun _ h => State.logSound_portFree h
    owed := fun _ _ _ h => h
    reload := fun s h => (SameLog.reload s).logSound h
    tickFalls := fun _ h => h
    tickStep := fun _ _ _ h => h
    tickSettle := fun _ _ h => h
    assertMaint := fun _ h => State.logSound_assertMaint h
    releaseMaint := fun _ h => State.logSound_releaseMaint h }

/-- With no log the bounds hold (R154, R162). -/
theorem Log.sound_blank : Log.blank.sound := ⟨Nat.zero_le _, .inl ⟨rfl, rfl⟩⟩

/-- The RESTART record finds room in a log of 16 records or more (R154, R161). -/
theorem Log.sound_begun {k : Tables} (h : k.windowsSound) : (Log.begun k).sound := by
  obtain ⟨hcapacity, -⟩ := h
  unfold within at hcapacity
  simp only [Bool.and_eq_true, decide_eq_true_eq] at hcapacity
  have hpos : 0 < k.logCapacity := by omega
  have hring : (Log.begun k).ringCount = 0 :=
    (Log.ringCount_eq (l := Log.begun k) hpos hpos).trans (if_pos (Nat.le_refl 0))
  refine ⟨show 1 ≤ stagingCapacity by decide, .inr ⟨hpos, hpos, ?_⟩⟩
  rw [hring]
  show 0 + 1 ≤ k.logCapacity - 1
  omega

/-- A good image begins the log with the RESTART record staged (R154, R165 step 1). -/
theorem State.logSound_install {ws : List Word} (h : lateChecks ws = .none) (s : State) : (s.install ws).logSound := by
  obtain ⟨hwindows, -, -, -, hgroups, -⟩ := lateChecks_eq_none h
  exact ⟨Log.sound_begun (windowsSound_tablesOf hwindows hgroups), fun _ _ _ _ => List.cons_ne_nil _ _⟩

/-- Every step keeps the bounds: a reset leaves no log, and an image word none or one that begins. -/
theorem State.logSound_keptByStep : KeptByStep State.logSound where
  toKeptByCommand := State.logSound_keptByCommand
  queue := fun _ _ h => h
  assertReset := fun _ _ _ => State.logSound_of_no_record Log.sound_blank nofun
  imageWord := fun _ w h =>
    imageWord_of State.logSound w (fun _ _ h => h) (fun _ _ _ _ h => h) (fun s _ _ hok _ => State.logSound_install hok s) h

end Sys2Proof.Machine

open Sys2Proof Sys2Proof.Machine

/-- Settles O7, by the property that every step keeps. -/
theorem logRingStaysBounded : Obligations.LogRingStaysBounded := fun _ _ hs ht => State.logSound_keptByStep.step hs ht

/-- Settles O17, line by line. -/
theorem attentionLineFollowsLog : Obligations.AttentionLineFollowsLog := fun _ =>
  ⟨State.attn_iff_of_running, State.attn_of_blocked, fun h => State.attn_of_no_log (.inl h),
    fun h => State.attn_of_no_log (.inr h), State.ready_iff, State.wait_iff⟩

/-- Settles O41, by the accepted range. -/
theorem consumerIsJudged : Obligations.ConsumerIsJudged := by
  intro s v hs
  simp only [exec_consumerWrite, Host.Outcome.next.injEq]
  refine ⟨fun hv hrange => ?_, fun hout => State.consumerWrite_refused hs (mt Log.acceptsConsumer_iff.mp hout)⟩
  have haccepted := State.consumerWrite_accepted (a := s.tables.logAddress HeaderWord.consumer.offset) hs
    (Log.acceptsConsumer_iff.mpr ⟨hv, hrange⟩)
  refine ⟨fun heq => ?_, fun hne => ?_⟩
  · rw [haccepted, Log.setConsumer_self heq]
    rfl
  · rw [haccepted, Log.setConsumer_of_ne hne]
    rfl

/-- Settles O47: the write's end, with or without the entry to RUNNING, and the log's own account of a record and of freed room. -/
theorem logWriteAdvancesTheRing : Obligations.LogWriteAdvancesTheRing := by
  intro s k a d hm hb
  rw [exec_logWriteComplete]
  refine ⟨fun hwaits => ?ended, ?started, Log.stage_cases, Log.roomFreed_cases⟩
  case ended =>
    rw [State.logCarried_of_not_ready hb hwaits]
    refine ⟨_, rfl, rfl, State.pimRead_logWriteEnded_same hm, s.sameMemoryBut_logWriteEnded k a d, rfl,
      s.sameBerths_logWriteEnded k a d, rfl, rfl, ?_, ?_, ?_, ?_, ?_⟩
    · rintro i rfl hi
      exact if_pos hi
    · rintro rfl
      rfl
    · rintro x rfl
      rfl
    · rintro x rfl
      rfl
    · rintro r rest rfl hst
      exact ⟨fun hr hd => Log.recordDone_of_overflow hst hr hd, fun hother => Log.recordDone_of_other hst hother⟩
  case started =>
    rintro x hp hw hr rfl hlast
    rw [State.logCarried_of_last_header hb hp hw hr hlast]
    refine ⟨_, rfl, rfl, rfl, State.pimRead_logWriteEnded_same (k := .firstHeader x) hm,
      s.sameMemoryBut_logWriteEnded (.firstHeader x) a d, rfl, s.sameBerths_logWriteEnded (.firstHeader x) a d,
      rfl, rfl, rfl, rfl, rfl, rfl, rfl, rfl, ?_⟩
    show ({ s.log with firstHeaders := s.log.firstHeaders.tail, statusPending := true } : Log) = _
    rw [hlast]
    rfl

end

section
/-! The configuration image and start-up (11): the tables in RUNNING (R160, R165), RESET (R141, R162), the image's words and their
checks (R160, R161, R164, R165), the entry to RUNNING (R165 step 3), and host writes outside RUNNING (R162, R164). -/

namespace Sys2Proof.Machine

variable {s t : State} {ws : List Word} {w : Word} {a d : Word} {landed : Bool}

/-! ## The tables in RUNNING (R160, R165) -/

/-- Every command but RESET_ASSERT leaves a part in RUNNING there, with its tables. -/
theorem exec_tables_of_running {c : Instr} (hp : s.phase = .running) (hc : ∀ l, c ≠ .resetAssert l)
    (ht : exec c s = .next t) : t.tables = s.tables ∧ t.phase = .running := by
  have kept : KeptByCommand (State.imageMeets fun p _ k => k = s.tables ∧ p = .running) :=
    State.imageMeets_keptByCommand (fun _ _ h => absurd h.2 (by decide)) fun _ _ _ h => absurd h.2 (by decide)
  refine kept.exec c (fun l h => absurd h (hc l)) (fun w _ => ?_) ⟨rfl, hp⟩ ht
  rw [State.imageWord_of_installed (.inl hp)]
  exact ⟨rfl, hp⟩

/-! ## RESET (R141, R162) -/

/-- No berth's line is on while RESET is held (R19, R76). -/
theorem State.berth_lines_off_of_resetHeld (h : s.phase = .resetHeld) (b : BerthId) : s.perm b = false ∧ s.trip b = false := by
  have hp : s.phase ≠ .running := by rw [h]; decide
  refine ⟨Bool.eq_false_iff.mpr fun hon => ?_, Bool.eq_false_iff.mpr fun hon => ?_⟩
  · obtain ⟨hrun, -, -⟩ := State.perm_iff.mp hon
    exact hp hrun
  · obtain ⟨hrun, -, -⟩ := State.trip_iff.mp hon
    exact hp hrun

theorem State.ready_eq_false_of_not_running (h : s.phase ≠ .running) : s.ready = false :=
  Bool.eq_false_iff.mpr fun hr => h (State.ready_iff.mp hr)

/-- A write of the part that landed as the reset found it in progress is the one change of the PIM (R141, log 10). -/
theorem State.landed_write (hm : Memory.wf s.pim = true) (h : t.pim = (s.pimWrite a d).pim) :
    t.pimRead a = d ∧ s.sameMemoryBut t a :=
  ⟨(State.sameMemory_of_pim h a).trans (State.pimRead_pimWrite_same a d hm),
    fun x hx => (State.sameMemory_of_pim h x).trans (State.pimRead_pimWrite_of_ne s d hx)⟩

theorem State.pimAtReset_of_ownWrite {e : OwnWrite} (h : s.ports.busy = some (.ownWrite e)) :
    s.pimAtReset true = (s.pimWrite e.address e.data).pim := by
  simp [State.pimAtReset, h]

theorem State.pimAtReset_of_logWrite {k : LogWrite} (h : s.ports.busy = some (.logWrite k a d)) :
    s.pimAtReset true = (s.pimWrite a d).pim := by
  simp [State.pimAtReset, h]

/-- With no write of the part in progress that landed, a reset does not touch the PIM (R141, R162). -/
theorem State.pimAtReset_of_nothing_landed
    (h : landed = false ∨ ((∀ e, s.ports.busy ≠ some (.ownWrite e)) ∧ ∀ k a d, s.ports.busy ≠ some (.logWrite k a d))) :
    s.pimAtReset landed = s.pim := by
  unfold State.pimAtReset
  split
  case h_1 e hb =>
    obtain rfl := h.resolve_right fun hno => hno.1 e hb
    rfl
  case h_2 k a d hb =>
    obtain rfl := h.resolve_right fun hno => hno.2 k a d hb
    rfl
  all_goals rfl

theorem State.releaseReset_of_resetHeld (h : s.phase = .resetHeld) :
    s.releaseReset =
      { s with phase := .loading, loader := { Loader.blank with startupWaiting := true, firstWaiting := true } } :=
  if_pos h

/-! ## The check due with a word (R161) -/

/-- With any word but words 1 and 2 and the last no check is due. -/
theorem checkDue_of_no_check (h1 : ws.length ≠ 2) (h2 : ws.length ≠ 3) (h3 : ws.length ≠ imageLength) : checkDue ws = .none := by
  unfold checkDue
  rw [if_neg h1, if_neg h2, if_neg h3]

/-- Marker and version are checked with word 1. -/
theorem checkDue_marker (m v : Word) : checkDue [m, v] = if m ≠ 0xA5F0 ∨ v ≠ 1 then .badMarker else .none := rfl

/-- The length is checked with word 2. -/
theorem checkDue_length (m v l : Word) : checkDue [m, v, l] = if l ≠ 258 then .badLength else .none := by
  have hl : imageAt [m, v, l] 2 ≠ imageLength ↔ l ≠ 258 := by
    rw [ne_eq, ne_eq, ← BitVec.toNat_inj]
    rfl
  show (if imageAt [m, v, l] 2 ≠ imageLength then ErrorCode.badLength else .none) = _
  exact ite_congr (propext hl) (fun _ => rfl) fun _ => rfl

/-- All later checks are made with the last word. -/
theorem checkDue_last (h : ws.length = imageLength) : checkDue ws = lateChecks ws := by
  simp [checkDue, h, imageLength]

/-! ## What an image word leaves (R160, R161, R164, R165) -/

/-- A word short of the last is stored while no check fails with it. -/
theorem State.imageWord_of_passed (hp : s.phase = .loading) (hl : s.loader.words.length < 257)
    (hok : checkDue (s.loader.words ++ [w]) = .none) :
    s.imageWord w = { s with loader := { s.loader with words := s.loader.words ++ [w] } } := by
  have hshort : (s.loader.words ++ [w]).length ≠ imageLength := by
    rw [List.length_append]
    exact Nat.ne_of_lt (Nat.succ_lt_succ hl)
  unfold State.imageWord
  rw [if_pos ⟨hp, Nat.lt_succ_of_lt hl⟩]
  dsimp only
  rw [if_neg (not_not_intro hok), if_neg hshort]
  rfl

/-- A failing check enters BLOCKED with its code. -/
theorem State.imageWord_of_failed {e : ErrorCode} (hp : s.phase = .loading) (hl : s.loader.words.length < imageLength)
    (hdue : checkDue (s.loader.words ++ [w]) = e) (he : e ≠ .none) :
    s.imageWord w = s.enterBlocked (s.loader.words ++ [w]) e := by
  unfold State.imageWord
  rw [if_pos ⟨hp, hl⟩]
  dsimp only
  rw [hdue, if_pos he]

/-- The last word of an image that passes every late check installs it. -/
theorem State.imageWord_of_complete (hp : s.phase = .loading) (hl : s.loader.words.length = 257)
    (hok : lateChecks (s.loader.words ++ [w]) = .none) : s.imageWord w = s.install (s.loader.words ++ [w]) := by
  have hlen : (s.loader.words ++ [w]).length = imageLength := by
    rw [List.length_append, hl]
    rfl
  unfold State.imageWord
  rw [if_pos ⟨hp, hl ▸ Nat.lt_succ_self 257⟩]
  dsimp only
  rw [checkDue_last hlen, if_neg (not_not_intro hok), if_pos hlen]

/-- A failed load shows its code: ATTN is on, READY off, the start-up word is to be rewritten, and the PIM is untouched (R163, R164). -/
theorem State.enterBlocked_shows (s : State) (ws : List Word) (e : ErrorCode) :
    (s.enterBlocked ws e).phase = .blocked ∧ (s.enterBlocked ws e).loader.error = e
      ∧ (s.enterBlocked ws e).loader.startupWaiting = true ∧ (s.enterBlocked ws e).attn = true
      ∧ (s.enterBlocked ws e).ready = false ∧ s.sameMemory (s.enterBlocked ws e) :=
  ⟨rfl, rfl, rfl, State.attn_of_blocked rfl, State.ready_eq_false_of_not_running nofun, fun _ => rfl⟩

/-! ## Installation (R22, R165 step 1) -/

theorem length_berthsUpTo {n : Nat} (h : n ≤ 8) : (berthsUpTo n).length = n := by
  have hall : ∀ k : Fin 9, (berthsUpTo k).length = k := by decide
  exact hall ⟨n, Nat.lt_succ_of_le h⟩

/-- The start-up reads are one for each of B0 to B(N−1) and one for each group entry in use (R165 step 2). -/
theorem length_startReads {k : Tables} (h : k.n ≤ 8) :
    (startReads k).length = k.n + (GroupId.all.filter fun g => (k.window? .group g.toNat).isSome).length := by
  rw [startReads, List.length_append, List.length_map, List.length_map, length_berthsUpTo h]

/-- An accepted image has at most eight berths (R161). -/
theorem n_tablesOf_le (h : lateChecks ws = .none) : (tablesOf ws).n ≤ 8 := by
  obtain ⟨-, hberths, -, hthresholds, -, htimers⟩ := lateChecks_eq_none h
  obtain ⟨hn, -⟩ := berthsSound_tablesOf hberths hthresholds htimers
  simp only [within, Bool.and_eq_true, decide_eq_true_eq] at hn
  exact hn.2

/-- The record of a configured berth starts with its default mode (R22). -/
theorem builtBerth_of_lt {k : Tables} {b : BerthId} (h : b.toNat < k.n) :
    builtBerth k b = { Berth.blank with mode := (k.statics.get b).defaultMode } :=
  if_pos h

/-! ## Entry to RUNNING (R165 step 3) -/

/-- A toggle taken over touches records, group toggles and the Own Write Queue alone (R22, R113). -/
theorem State.takeOverToggle_field {α : Type} (f : State → α) (hberth : ∀ (u : State) b r, f (u.setBerth b r) = f u)
    (hgroup : ∀ (u : State) g x, f (u.setGroupTaken g x) = f u) (hqueue : ∀ (u : State) q, f (u.setOwq q) = f u)
    (s : State) (r : StartRead) (x : Bool) : f (s.takeOverToggle r x) = f s := by
  cases r with
  | req b => exact (hqueue _ _).trans (hberth _ _ _)
  | groupReq g => exact (hqueue _ _).trans (hgroup _ _ _)

/-- The last start-up read, completing after the header writes, enters RUNNING from a state with the tables and the MAINT line
as they were. -/
theorem State.startReadDone_of_last {r : StartRead} (hp : s.phase = .loading) (hw : s.loader.words.length = imageLength)
    (hb : s.ports.busy = some (.startRead r)) (hr : s.loader.reads = [r]) (hh : s.log.firstHeaders = []) :
    ∃ u : State, s.startReadDone = u.enterRunning ∧ u.tables = s.tables ∧ u.maintPin = s.maintPin := by
  rw [State.startReadDone_of_busy hb]
  generalize (s.pimRead (s.tables.startReadAddress r)).getLsbD 15 = x
  have field {α : Type} (f : State → α) (hberth : ∀ (u : State) b k, f (u.setBerth b k) = f u)
      (hgroup : ∀ (u : State) g x, f (u.setGroupTaken g x) = f u) (hqueue : ∀ (u : State) q, f (u.setOwq q) = f u) :=
    State.takeOverToggle_field f hberth hgroup hqueue s.readEnded r x
  have hphase := field State.phase (fun _ _ _ => rfl) (fun _ _ _ => rfl) fun _ _ => rfl
  have hloader := field State.loader (fun _ _ _ => rfl) (fun _ _ _ => rfl) fun _ _ => rfl
  have hlog := field State.log (fun _ _ _ => rfl) (fun _ _ _ => rfl) fun _ _ => rfl
  refine ⟨_, State.tryEnterRunning_of_ready (hphase.trans hp) ?_ ?_ ?_,
    field State.tables (fun _ _ _ => rfl) (fun _ _ _ => rfl) fun _ _ => rfl,
    field State.maintPin (fun _ _ _ => rfl) (fun _ _ _ => rfl) fun _ _ => rfl⟩
  · rw [hloader]
    exact hw
  · rw [hloader]
    exact congrArg List.tail hr
  · rw [hlog]
    exact hh

/-! ## Host writes outside RUNNING (R162, R164) -/

/-- Outside RUNNING every host write arrives at the host port as such, whatever word it names (log 3). -/
theorem exec_hostWrite_of_not_running {c : Instr} (hc : c.isHostWrite = true) (hp : s.phase ≠ .running) :
    ∃ k a d, exec c s = .next (s.hostWrites k a d) := by
  rcases exec_hostWrite_cases hc s with ⟨b, code, q, e⟩ | ⟨g, code, q, e⟩ | ⟨b, x, d, e⟩ | ⟨k, a, d, e⟩
  · rw [e, State.writesReq, State.berthWrites, if_neg fun h => hp h.1]
    exact ⟨_, _, _, rfl⟩
  · rw [e, State.writesGroup, if_neg fun h => hp h.1]
    exact ⟨_, _, _, rfl⟩
  · rw [e, State.writesCommand, State.berthWrites, if_neg fun h => hp h.1]
    exact ⟨_, _, _, rfl⟩
  · exact ⟨k, a, d, e⟩

/-- LOADING and BLOCKED discard a host write. -/
theorem State.hostWrites_of_discarding (hh : s.ports.host = none) (hp : s.phase = .loading ∨ s.phase = .blocked)
    (k : WordClass) (a d : Word) : s.hostWrites k a d = s.discardWrite := by
  unfold State.hostWrites
  rw [if_neg (by simp [hh])]
  rcases hp with hp | hp
  · rw [hp]
  · rw [hp]

/-- In LOADING and BLOCKED every host write is one that is discarded. -/
theorem exec_hostWrite_discarded {c : Instr} (hc : c.isHostWrite = true) (hh : s.ports.host = none)
    (hp : s.phase = .loading ∨ s.phase = .blocked) : exec c s = .next s.discardWrite := by
  have hout : s.phase ≠ .running := by
    intro hr
    simp [hr] at hp
  obtain ⟨k, a, d, e⟩ := exec_hostWrite_of_not_running hc hout
  rw [e, State.hostWrites_of_discarding hh hp]

/-- While RESET is held a host write leaves no trace. -/
theorem State.hostWrites_of_resetHeld (hp : s.phase = .resetHeld) (k : WordClass) (a d : Word) : s.hostWrites k a d = s := by
  unfold State.hostWrites
  split
  · rfl
  · rw [hp]

/-- The first write discarded sets the mark and has the start-up word rewritten. -/
theorem State.discardWrite_of_first (h : s.loader.discarded = false) :
    s.discardWrite = { s with loader := { s.loader with discarded := true, startupWaiting := true } } :=
  if_neg (by simp [h])

/-- A later one changes nothing. -/
theorem State.discardWrite_of_later (h : s.loader.discarded = true) : s.discardWrite = s := if_pos h

end Sys2Proof.Machine

open Sys2Proof Sys2Proof.Machine

/-- Settles O3, by the property of the phase and the tables that every command but RESET_ASSERT keeps. -/
theorem tablesStayFixedWhileRunning : Obligations.TablesStayFixedWhileRunning := by
  intro c s hp hc
  obtain ⟨t, ht⟩ := exec_answers_next c s
  exact ⟨t, ht, exec_tables_of_running hp hc ht⟩

/-- Settles O18, by the access that the reset finds at the memory port. -/
theorem resetDiscardsAndReleaseLoads : Obligations.ResetDiscardsAndReleaseLoads := by
  intro s landed
  rw [exec_resetAssert, exec_resetRelease]
  refine ⟨fun hm => ⟨_, rfl, rfl, State.berth_lines_off_of_resetHeld rfl, State.ready_eq_false_of_not_running nofun,
    State.attn_of_no_log (.inr rfl), rfl, ?own, ?log, fun h => ?none⟩, fun hp => ?released⟩
  case own =>
    rintro e hb rfl
    exact State.landed_write hm (State.pimAtReset_of_ownWrite hb)
  case log =>
    rintro k a d hb rfl
    exact State.landed_write hm (State.pimAtReset_of_logWrite hb)
  case none => exact State.sameMemory_of_pim (State.pimAtReset_of_nothing_landed h)
  case released =>
    rw [State.releaseReset_of_resetHeld hp]
    rfl

/-- Settles O19, by the check due with the word. -/
theorem imageWordIsStoredOrBlocks : Obligations.ImageWordIsStoredOrBlocks := by
  intro s w hp hl
  rw [exec_imageWordRead]
  have hlt : s.loader.words.length < imageLength := Nat.lt_succ_of_lt hl
  refine ⟨fun h1 h2 => ?unchecked, ?markerPasses, ?markerFails, ?lengthPasses, ?lengthFails⟩
  case unchecked =>
    rw [State.imageWord_of_passed hp hl]
    refine checkDue_of_no_check ?_ ?_ ?_
    all_goals
      simp only [List.length_append, List.length_singleton, imageLength]
      omega
  case markerPasses =>
    rintro m hw rfl rfl
    rw [State.imageWord_of_passed hp hl (by rw [hw]; exact checkDue_marker 0xA5F0 1), hw]
    rfl
  case markerFails =>
    intro m hw hbad
    have hdue : checkDue (s.loader.words ++ [w]) = .badMarker := by
      rw [hw]
      exact (checkDue_marker m w).trans (if_pos hbad)
    rw [State.imageWord_of_failed hp hlt hdue (by decide)]
    exact ⟨_, rfl, s.enterBlocked_shows _ _⟩
  case lengthPasses =>
    rintro m v hw rfl
    rw [State.imageWord_of_passed hp hl (by rw [hw]; exact checkDue_length m v 258), hw]
    rfl
  case lengthFails =>
    intro m v hw hbad
    have hdue : checkDue (s.loader.words ++ [w]) = .badLength := by
      rw [hw]
      exact (checkDue_length m v w).trans (if_pos hbad)
    rw [State.imageWord_of_failed hp hlt hdue (by decide)]
    exact ⟨_, rfl, s.enterBlocked_shows _ _⟩

/-- Settles O20, by the late checks. -/
theorem lastImageWordInstallsOrBlocks : Obligations.LastImageWordInstallsOrBlocks := by
  intro s w hp hl
  rw [exec_imageWordRead]
  refine ⟨fun hok => ?installed, fun hbad => ?blocked⟩
  case installed =>
    rw [State.imageWord_of_complete hp hl hok]
    refine ⟨_, rfl, hp, rfl, fun b hb => ?_, rfl, rfl, rfl, rfl, rfl, length_startReads (n_tablesOf_le hok), fun _ => rfl, rfl⟩
    rw [State.berth_install]
    exact builtBerth_of_lt hb
  case blocked =>
    have hlen : (s.loader.words ++ [w]).length = imageLength := by
      rw [List.length_append, hl]
      rfl
    rw [State.imageWord_of_failed hp (hl ▸ Nat.lt_succ_self 257) (checkDue_last hlen) hbad]
    obtain ⟨hphase, herror, hwaiting, hattn, -, hmemory⟩ :=
      s.enterBlocked_shows (s.loader.words ++ [w]) (lateChecks (s.loader.words ++ [w]))
    exact ⟨_, rfl, hphase, herror, hwaiting, hattn, rfl, rfl, hmemory⟩

/-- Settles O22: with the read ended nothing keeps the part from RUNNING. -/
theorem lastStartupReadEntersRunning : Obligations.LastStartupReadEntersRunning := by
  intro s r station hp hw hb hr hh
  obtain ⟨u, e, htables, hpin⟩ := State.startReadDone_of_last hp hw hb hr hh
  rw [exec_startupReqRead, e, ← htables, ← hpin]
  exact ⟨_, rfl, rfl, State.ready_iff.mpr rfl, rfl, rfl, rfl, rfl, rfl, rfl, rfl, rfl⟩

/-- Settles O43, by the phase in which the write arrives at the host port. -/
theorem writesOutsideRunningAreDiscarded : Obligations.WritesOutsideRunningAreDiscarded := by
  intro c s hc hh
  refine ⟨fun hp hfirst => ?_, fun hp hlater => ?_, fun hp => ?_⟩
  · rw [exec_hostWrite_discarded hc hh hp, State.discardWrite_of_first hfirst]
  · rw [exec_hostWrite_discarded hc hh hp, State.discardWrite_of_later hlater]
  · obtain ⟨k, a, d, e⟩ := exec_hostWrite_of_not_running hc (show s.phase ≠ .running by rw [hp]; decide)
    rw [e, State.hostWrites_of_resetHeld hp]

end

section
/-! Adoption (R61, R166, R167): the adopted berth keeps its default mode to the end of the event, in every row and through every trip. -/

namespace Sys2Proof.Machine

variable {b : BerthId} {s t u : State} {r : ScanResult}

/-- A request's end is no change of mode (R109). -/
theorem Berth.finalised_mode (x : Berth) (res : Result) : (x.finalised res).mode = x.mode := by
  unfold Berth.finalised
  split <;> rfl

/-- Between two states of one event the berth's mode stood and no claim was added. -/
structure KeepsMode (b : BerthId) (s t : State) : Prop where
  mode : (t.berth b).mode = (s.berth b).mode
  claims : ∀ c ∈ t.budget.claims, c ∈ s.budget.claims

namespace KeepsMode

theorem refl (b : BerthId) (s : State) : KeepsMode b s s := ⟨rfl, fun _ h => h⟩

theorem trans (h1 : KeepsMode b s t) (h2 : KeepsMode b t u) : KeepsMode b s u :=
  ⟨h2.mode.trans h1.mode, fun c hc => h1.claims c (h2.claims c hc)⟩

/-- A record rewritten in its mode, with the claims as they stand. -/
theorem of_berth {x : Berth} (hb : t.berth b = x) (hx : x.mode = (s.berth b).mode) (hc : t.budget.claims = s.budget.claims) :
    KeepsMode b s t :=
  ⟨(congrArg Berth.mode hb).trans hx, fun _ h => hc ▸ h⟩

theorem setSup (b : BerthId) (s : State) (x : Supervision) : KeepsMode b s (s.setSup b x) := of_berth rfl rfl rfl

theorem enter (b : BerthId) (s : State) (st : BState) : KeepsMode b s (s.enter b st) := of_berth (berth_enter st) rfl rfl

theorem takeBase (b : BerthId) (s : State) : KeepsMode b s (s.takeBase b) := of_berth (takeBase_berth s b) rfl rfl

theorem returnBase (b : BerthId) (s : State) : KeepsMode b s (s.returnBase b) :=
  of_berth (State.berth_returnBase_same s b) rfl (State.returnBase_claims s b)

theorem toShore (b : BerthId) (s : State) : KeepsMode b s (s.toShore b) := by
  obtain ⟨hberth, -, -, -, -, -, -, hclaims⟩ := toShore_fields s b
  exact of_berth hberth rfl hclaims

theorem reportAdopted (b : BerthId) (s : State) (st : BState) : KeepsMode b s (s.reportAdopted b st) := of_berth rfl rfl rfl

theorem adoptCabled (b : BerthId) (s : State) (r : ScanResult) : KeepsMode b s (s.adoptCabled b r) := by
  unfold State.adoptCabled
  dsimp only
  refine (enter b s .cabled).trans (trans ?_ (reportAdopted b _ .cabled))
  split
  · split <;> exact of_berth rfl rfl rfl
  · split <;> exact of_berth rfl rfl rfl

theorem tripAction (b : BerthId) (s : State) (f : FaultSet) : KeepsMode b s (s.tripAction b f) :=
  ⟨(congrArg Berth.mode (preTrip s b f).berth).trans (Berth.finalised_mode _ _), (preTrip s b f).sub⟩

theorem repeatFault (b : BerthId) (s : State) (f : FaultSet) : KeepsMode b s (s.repeatFault b f) := by
  unfold State.repeatFault
  dsimp only
  split
  · exact refl b s
  · split <;> exact of_berth rfl rfl rfl

theorem recover (b : BerthId) (s : State) : KeepsMode b s (s.recover b) :=
  (setSup b s Supervision.blank).trans ((enter b _ _).trans (of_berth rfl rfl rfl))

theorem tryRecover (b : BerthId) (s : State) : KeepsMode b s (s.tryRecover b) := by
  unfold State.tryRecover
  split
  · exact recover b s
  · exact refl b s

/-- Supervision changes no mode, whether the berth is in LOCKOUT or not (R61, R68 to R81). -/
theorem supervise (b : BerthId) (s : State) (r : ScanResult) : KeepsMode b s (s.supervise b r) := by
  unfold State.supervise
  split
  · unfold State.superviseLockout
    have hreturned : KeepsMode b s (if r.shore = .open then s.returnBase b else s) := by
      split
      · exact returnBase b s
      · exact refl b s
    dsimp only
    exact hreturned.trans ((repeatFault b _ (conditionFlags .lockout r)).trans ((setSup b _ _).trans (tryRecover b _)))
  · unfold State.superviseLive
    dsimp only
    split
    · exact setSup b s _
    · exact (setSup b s _).trans (tripAction b _ _)

/-- No row of R166 changes the mode that adoption has set. -/
theorem adopt (b : BerthId) (u : State) (r : ScanResult) : KeepsMode b (withDefault u b) (u.adopt b r) := by
  rw [adopt_eq]
  split
  · exact (reportAdopted b _ _).trans (tripAction b _ _)
  split
  · exact (enter b _ _).trans (reportAdopted b _ _)
  split
  · exact adoptCabled b _ r
  split
  · exact (enter b _ _).trans ((takeBase b _).trans (reportAdopted b _ _))
  split
  · exact (toShore b _).trans ((takeBase b _).trans (reportAdopted b _ _))
  · refine (enter b _ .parallel).trans (trans ?_ ((takeBase b _).trans (reportAdopted b _ _)))
    exact of_berth rfl rfl rfl

/-- To the end of its event a berth without a claim keeps what mode it had (R91). -/
theorem mode_endEvent (h : KeepsMode b s t) (hn : s.noClaim b) : (t.endEvent.berth b).mode = (s.berth b).mode :=
  (congrArg Berth.mode (Apart.endEvent fun c hc => hn c (h.claims c hc)).berth).trans h.mode

end KeepsMode

/-- The first fresh result in ADOPTING leaves the berth in its default mode (R166). -/
theorem adoption_mode {station : Option Word} (hm : Memory.wf s.pim = true) (h : s.freshRead b station r)
    (hst : (s.berth b).state = .adopting) (hn : s.noClaim b) :
    ((s.scanReadDone station).berth b).mode = (s.static b).defaultMode := by
  obtain ⟨a, last, e, he⟩ := freshRead_eq hm h
  have hberth := handing_berth s a b station last r
  have htables := handing_tables s a b station last r
  have hclaims := handing_claims s a b station last r
  rw [he]
  generalize s.handing a b station last r = y at *
  rw [if_pos (by rw [hberth]; exact hst)]
  have hy : (withDefault y b).noClaim b := fun c hc => hn c (hclaims ▸ hc)
  refine (((KeepsMode.adopt b y r).trans (KeepsMode.supervise b _ r)).mode_endEvent hy).trans ?_
  rw [withDefault_berth, State.static, htables]
  rfl

end Sys2Proof.Machine

open Sys2Proof Sys2Proof.Machine

/-- Settles O51, by the rows of R166: the adoption trip, and the rows without a fault. -/
theorem adoptionFollowsBreakers : Obligations.AdoptionFollowsBreakers := by
  rintro s u b station r hm hfresh hrun hst hn hq rfl
  refine ⟨_, exec_scanReadComplete station s, adoption_mode hm hfresh hst hn, fun f hg hfault hf => ?_, fun h1 h2 h3 => ?_⟩
  · exact adoption_trips hm hfresh hrun hst hq hg hfault hf
  · exact adoption_rows hm hfresh hrun hst hn h1 h2 h3

end

section
/-! The state right after power-on (R162, log 5): blank, with nothing installed and nothing under way. -/

namespace Sys2Proof.Machine

theorem State.berth_reset (b : BerthId) : State.reset.berth b = Berth.blank := Eight.get_fill _ b

theorem State.chan_reset (b : BerthId) : State.reset.chan b = Channels.blank := Eight.get_fill _ b

/-- After power-on no image word has been read (R162). -/
theorem State.not_imageInstalled_reset : ¬ State.reset.imageInstalled := by
  rintro (h | ⟨-, h⟩)
  · cases h
  · cases h

/-- No berth stands in PARALLEL or UNPARALLEL after power-on. -/
theorem State.overlapBounded_reset : State.reset.overlapBounded := by
  intro b h
  rw [State.berth_reset] at h
  rcases h with h | h
  · cases h
  · cases h

/-- Every channel is IDLE after power-on. -/
theorem State.freezeFollowsMaint_reset : State.reset.freezeFollowsMaint := by
  intro b
  rw [State.chan_reset]
  exact ⟨nofun, nofun, nofun, rfl, rfl⟩

theorem State.togglesEqual_reset : State.reset.togglesEqual := by
  intro b
  rw [State.berth_reset]
  rfl

end Sys2Proof.Machine

open Sys2Proof Sys2Proof.Machine

/-- Settles O14, invariant by invariant. -/
theorem invariantsHoldAtReset : Obligations.InvariantsHoldAtReset :=
  ⟨rfl, ⟨List.nodup_nil, List.Pairwise.nil⟩, fun _ he => absurd he List.not_mem_nil, fun _ => ⟨rfl, rfl, nofun⟩,
    State.logSound_of_no_record Log.sound_blank nofun, State.overlapBounded_reset, State.freezeFollowsMaint_reset,
    fun _ => ⟨rfl, rfl, rfl, rfl, rfl, rfl⟩, State.togglesEqual_reset, State.staleFeederEmpty_of_fresh rfl,
    fun hi => absurd hi State.not_imageInstalled_reset⟩

end

section
/-! The queue of commands (log 3, log 4): each command is executed on the commands that wait behind it, and no command touches these. -/

namespace Sys2Proof.Machine

/-- A given queue of commands is waiting. -/
def State.waits (q : List Instr) (s : State) : Prop := s.pending = q

/-- No effect of an event touches the queue of commands. -/
theorem State.waits_kept (q : List Instr) : Kept (State.waits q) where
  berth := fun _ _ _ _ _ _ _ h => h
  sup := fun _ _ _ h => h
  budget := fun _ _ _ h => h
  holds := fun _ _ h => h
  seqWrite := fun _ _ _ _ h => h
  tripWrite := fun _ _ h => h
  queueRsp := fun _ _ h => h
  record := fun _ _ _ _ _ _ h => h
  statusChanged := fun _ h => h
  grantedChanged := fun _ h => h
  enters := fun _ _ _ h => h
  toggle := fun _ _ _ h => h
  loadStep := fun _ _ _ h => h
  stopStep := fun _ _ h => h
  loadSettle := fun _ _ h => h
  stopSettle := fun _ _ h => h
  stopChannels := fun _ _ h => h
  queueGroupRsp := fun _ _ _ h => h
  groupTaken := fun _ _ _ h => h
  passWrite := fun _ _ _ h => h

/-! ## The effects with cases -/

theorem State.pending_discardWrite (s : State) : s.discardWrite.pending = s.pending := by
  unfold State.discardWrite
  split <;> rfl

theorem State.pending_setCapacity (s : State) (c : Nat) : (s.setCapacity c).pending = s.pending := by
  unfold State.setCapacity
  split <;> rfl

theorem State.pending_releaseReset (s : State) : s.releaseReset.pending = s.pending := by
  unfold State.releaseReset
  split <;> rfl

theorem State.pending_reload (s : State) : s.reload.pending = s.pending := by
  unfold State.reload
  split <;> rfl

theorem State.pending_assertMaint (s : State) : s.assertMaint.pending = s.pending := by
  unfold State.assertMaint
  dsimp only
  split <;> rfl

theorem State.pending_releaseMaint (s : State) : s.releaseMaint.pending = s.pending := by
  unfold State.releaseMaint
  dsimp only
  split <;> rfl

/-- An image word stored, refused or completing the image leaves the queue of commands (R160, R164, R165). -/
theorem State.pending_imageWord (s : State) (w : Word) : (s.imageWord w).pending = s.pending :=
  imageWord_of (State.waits s.pending) w (fun _ _ h => h) (fun _ _ _ _ h => h) (fun _ _ _ _ h => h) rfl

/-! ## Every command -/

theorem State.waits_keptByScan (q : List Instr) : KeptByScan (State.waits q) :=
  (State.waits_kept q).moves.byScan (fun _ _ _ h => h) (fun s h => s.pending_discardWrite.trans h) (fun _ _ _ h => h)
    (fun _ _ _ h => h) (fun _ _ h => h) (fun s c h => (s.pending_setCapacity c).trans h)

theorem State.waits_keptByCommand (q : List Instr) : KeptByCommand (State.waits q) :=
  (State.waits_keptByScan q).byCommand
    (releaseReset := fun s h => s.pending_releaseReset.trans h)
    (loader := fun _ _ h => h)
    (toggles := fun _ _ _ h => h)
    (running := fun _ _ h => h)
    (pim := fun _ _ _ h => h)
    (ports := fun _ _ h => h)
    (owqTail := fun _ h => h)
    (owqRemove := fun _ _ h => h)
    (logGranted := fun _ _ h => h)
    (logCompleted := fun _ _ _ h => h)
    (owed := fun _ _ _ h => h)
    (reload := fun s h => s.pending_reload.trans h)
    (tickFalls := fun _ h => h)
    (tickStep := fun _ _ _ h => h)
    (tickSettle := fun _ _ h => h)
    (assertMaint := fun s h => s.pending_assertMaint.trans h)
    (releaseMaint := fun s h => s.pending_releaseMaint.trans h)

/-- The queue after a command is the queue before it, after RESET_ASSERT too, whose loss of state is the part's own (log 4). -/
theorem exec_pending {c : Instr} {s t : State} (ht : exec c s = .next t) : t.pending = s.pending :=
  (State.waits_keptByCommand s.pending).exec c (fun _ _ => rfl) (fun w _ => s.pending_imageWord w) rfl ht

end Sys2Proof.Machine

open Sys2Proof Sys2Proof.Machine

/-- Settles O2, by the property of the queue that every command keeps. -/
theorem everyCommandLeavesTheQueue : Obligations.EveryCommandLeavesTheQueue := by
  intro c s
  obtain ⟨t, ht⟩ := exec_answers_next c s
  exact ⟨t, ht, exec_pending ht⟩

/-- Settles O1, by the case of `step` in which a command waits. -/
theorem stepRunsFrontCommand : Obligations.StepRunsFrontCommand := by
  intro s c rest hq
  unfold step
  rw [hq]

end

section
/-! The overlap limit (02, sections 2.7 and 2.9; R38, R41, R42): a berth enters PARALLEL and UNPARALLEL only as its Step channel is loaded
with the overlap limit, which no tick raises and MAINT does not freeze, and every other move leaves both states. -/

namespace Sys2Proof.Machine

variable {s t u : State} {b : BerthId} {st st' : BState} {r : ScanResult}

/-! ## The bound -/

/-- The states that the overlap limit bounds (R38). -/
def BState.overlaps (st : BState) : Bool := decide (st = .parallel ∨ st = .unparallel)

/-- A Step channel counts an overlap limit (R38, R148). -/
structure Channel.CountsOverlap (limit : Nat) (c : Channel) : Prop where
  running : c.status = .running
  fixed : c.freezable = false
  base : c.base = .f
  count : c.count ≤ limit

theorem Channel.countsOverlap_loaded (limit : Nat) (m : Bool) : (Channel.loaded .overlap limit m).CountsOverlap limit :=
  ⟨rfl, rfl, rfl, Nat.le_refl _⟩

/-- A tick lowers a count (R150). -/
theorem Channel.CountsOverlap.tick {limit : Nat} {c : Channel} (h : c.CountsOverlap limit) (base : TickBase) :
    (c.tick base).CountsOverlap limit := by
  unfold Channel.tick
  split
  · exact ⟨h.running, h.fixed, h.base, Nat.le_trans (Nat.sub_le _ _) h.count⟩
  · exact h

/-- MAINT freezes no fixed deadline (R151). -/
theorem Channel.CountsOverlap.freeze {limit : Nat} {c : Channel} (h : c.CountsOverlap limit) : c.freeze.CountsOverlap limit := by
  rw [Channel.freeze, if_neg fun hc => Bool.false_ne_true (h.fixed.symm.trans hc.2)]
  exact h

/-- A channel that runs has nothing to resume (R152). -/
theorem Channel.CountsOverlap.resume {limit : Nat} {c : Channel} (h : c.CountsOverlap limit) : c.resume.CountsOverlap limit := by
  rw [Channel.resume, if_neg fun hc => ChanStatus.noConfusion (h.running.symm.trans hc)]
  exact h

theorem State.overlapBounded_iff :
    s.overlapBounded ↔
      ∀ b, (s.berth b).state.overlaps = true → (s.chan b).step.CountsOverlap (s.static b).overlapLimit := by
  constructor
  · intro h b hb
    obtain ⟨hrunning, hfixed, hbase, hcount⟩ := h b (of_decide_eq_true hb)
    exact ⟨hrunning, hfixed, hbase, hcount⟩
  · intro h b hb
    obtain ⟨hrunning, hfixed, hbase, hcount⟩ := h b (decide_eq_true hb)
    exact ⟨hrunning, hfixed, hbase, hcount⟩

/-! ## What keeps the bound -/

namespace State.overlapBounded

theorem counts (h : s.overlapBounded) (hb : (s.berth b).state.overlaps = true) :
    (s.chan b).step.CountsOverlap (s.static b).overlapLimit :=
  State.overlapBounded_iff.mp h b hb

/-- The tables as they were and each berth in its state, the Step channels may change in what keeps an overlap limit. -/
theorem of_steps (h : s.overlapBounded) (ht : t.tables = s.tables) (hs : ∀ b, (t.berth b).state = (s.berth b).state)
    (hc : ∀ b limit, (s.chan b).step.CountsOverlap limit → (t.chan b).step.CountsOverlap limit) : t.overlapBounded := by
  rw [State.overlapBounded_iff]
  intro b hb
  rw [hs b] at hb
  rw [State.static, ht]
  exact hc b _ (h.counts hb)

theorem of_sameStates (h : s.overlapBounded) (ht : SameStates s t) : t.overlapBounded :=
  h.of_steps ht.tables ht.state fun b _ hc => by rwa [ht.chan b]

/-- Where tables, records and channels are as they were, so is the bound. -/
theorem of_same (h : s.overlapBounded) (ht : t.tables = s.tables) (hb : t.berths = s.berths) (hc : t.chans = s.chans) :
    t.overlapBounded :=
  h.of_steps ht (fun b => by rw [State.berth, hb, State.berth]) fun b _ hcounts => by rwa [State.chan, hc]

/-- A berth that moves out of both states needs no bound, and the others keep theirs. -/
theorem of_moved (h : s.overlapBounded) (hm : Moved b st s t) (hst : st.overlaps = false) : t.overlapBounded := by
  rw [State.overlapBounded_iff]
  intro c hc
  by_cases hcb : c = b
  · rw [hcb, hm.state] at hc
    exact absurd (hst.symm.trans hc) Bool.false_ne_true
  · obtain ⟨hstate, hchan⟩ := hm.others c hcb
    rw [hstate] at hc
    rw [hchan, State.static, hm.tables]
    exact h.counts hc

/-- A berth enters a state with its overlap limit loaded (R38, R41, R50). -/
theorem enter_loadStep (h : s.overlapBounded) (b : BerthId) (st : BState) :
    ((s.enter b st).loadStep b .overlap).overlapBounded := by
  have hm : Moved b st s ((s.enter b st).loadStep b .overlap) := (Moved.enter b st s).loadStep _
  rw [State.overlapBounded_iff]
  intro c hc
  by_cases hcb : c = b
  · subst hcb
    rw [State.loadStep, State.chan_setChan_same]
    exact Channel.countsOverlap_loaded _ _
  · obtain ⟨hstate, hchan⟩ := hm.others c hcb
    rw [hstate] at hc
    rw [hchan, State.static, hm.tables]
    exact h.counts hc

/-- No calm effect moves a berth or changes a channel. -/
theorem calm : KeptCalm State.overlapBounded where
  berth := fun s _ _ h1 h2 h3 h4 h => h.of_sameStates ((SameStates.calm s).berth _ _ _ h1 h2 h3 h4 (SameStates.refl s))
  sup := fun _ _ _ h => h
  budget := fun _ _ _ h => h
  holds := fun _ _ h => h
  seqWrite := fun _ _ _ _ h => h
  tripWrite := fun _ _ h => h
  queueRsp := fun _ _ h => h
  record := fun _ _ _ _ _ _ h => h
  statusChanged := fun _ h => h
  grantedChanged := fun _ h => h

end State.overlapBounded

/-! ## The moves -/

/-- A trip request outside LOCKOUT ends in it, and in LOCKOUT nothing moves (R72, R77). -/
theorem Moved.tripRequest (f : FaultSet) (h : Moved b st s t) : Moved b .lockout s (t.tripRequest b f) := by
  unfold State.tripRequest
  split
  · next hl =>
    have hlocked : Moved b .lockout s t := ⟨h.tables, h.maint, hl, h.others⟩
    exact (Moved.calm b .lockout s).repeatFault _ _ hlocked
  · exact h.tripAction f

namespace State.overlapBounded

variable (h : s.overlapBounded)
include h

/-- A berth that moves from where it is leaves both states. -/
theorem leaves (hm : Moved b (s.berth b).state s s → Moved b st s t) (hst : st.overlaps = false) : t.overlapBounded :=
  h.of_moved (hm (Moved.stays (SameStates.refl s) rfl)) hst

/-- A transition that ends the request in progress, or none, and reports the state entered. -/
theorem reported (b : BerthId) (old : BState) (m : Mode) : (s.reportState b old m).overlapBounded := calm.reportState _ _ _ h

theorem finalReported (b : BerthId) (res : Result) (old : BState) (m : Mode) :
    ((s.finalise b res).reportState b old m).overlapBounded :=
  calm.reportState _ _ _ (calm.finalise _ _ h)

theorem enter (b : BerthId) (hst : st.overlaps = false) : (s.enter b st).overlapBounded := h.of_moved (Moved.enter b st s) hst

theorem toShore (b : BerthId) : (s.toShore b).overlapBounded := h.leaves (fun hm => hm.toShore) rfl

theorem toDisengaging (b : BerthId) : (s.toDisengaging b).overlapBounded := h.leaves (fun hm => hm.toDisengaging) rfl

theorem shoreOpened (b : BerthId) : (s.shoreOpened b).overlapBounded := h.leaves (fun hm => hm.shoreOpened) rfl

theorem shipconOpened (b : BerthId) : (s.shipconOpened b).overlapBounded := h.leaves (fun hm => hm.shipconOpened) rfl

theorem returnDone (b : BerthId) : (s.returnDone b).overlapBounded := h.leaves (fun hm => hm.returnDone) rfl

theorem tripAction (b : BerthId) (f : FaultSet) : (s.tripAction b f).overlapBounded := h.leaves (fun hm => hm.tripAction f) rfl

/-- A load of the Step channel of a berth in a state without an overlap limit. -/
theorem loadStep (b : BerthId) (d : Deadline) (hst : (s.berth b).state.overlaps = false) : (s.loadStep b d).overlapBounded :=
  h.leaves (fun hm => hm.loadStep d) hst

/-! ### Results -/

theorem followCable (b : BerthId) (r : ScanResult) : (s.followCable b r).overlapBounded := by
  unfold State.followCable
  dsimp only
  split
  · split
    · exact (h.enter b rfl).reported _ _ _
    · exact h
  · split
    · exact h
    · exact (h.enter b rfl).reported _ _ _
  · exact h

theorem connectReady (b : BerthId) : (s.connectReady b).overlapBounded :=
  (calm.seqWrite _ _ _ _ (h.leaves (fun hm => hm.toEnergizing) rfl)).reported _ _ _

theorem engagingResult (b : BerthId) (r : ScanResult) : (s.engagingResult b r).overlapBounded := by
  unfold State.engagingResult
  split
  · split
    · exact h.leaves (fun hm => hm.leaveEngaging _ _) rfl
    · split
      · exact h.connectReady b
      · exact h
  · split
    · exact (calm.cancelHolds b h).leaves (fun hm => hm.leaveManualEngaging _) rfl
    · exact h

theorem energizingResult (b : BerthId) (r : ScanResult) (hst : (s.berth b).state = .energizing) :
    (s.energizingResult b r).overlapBounded := by
  unfold State.energizingResult
  split
  · split
    · exact h.shoreOpened b
    · exact h
  · split
    · refine h.of_moved (b := b) (st := .energizing) ?_ rfl
      exact (Moved.calm b _ s).berth _ _ _ rfl rfl rfl rfl (Moved.stays (SameStates.refl s) hst).stopStep.loadSettle
    · split
      · exact (h.toDisengaging b).finalReported _ _ _ _
      · exact h

/-- A ship connection CLOSED leads to SHORE, or to PARALLEL under its overlap limit (R37, R38, R129). -/
theorem shipconClosed (b : BerthId) (r : ScanResult) : (s.shipconClosed b r).overlapBounded := by
  rw [shipconClosed_eq]
  have hstart : (s.startOf b).overlapBounded := by
    unfold State.startOf
    split
    · exact h
    · exact calm.cancelSync b h
  split
  · exact (hstart.toShore b).finalReported _ _ _ _
  · refine State.overlapBounded.reported ?_ _ _ _
    unfold autoWrite
    split
    · exact calm.seqWrite _ _ _ _ (hstart.enter_loadStep b .parallel)
    · exact hstart.enter_loadStep b .parallel

theorem issueClose (b : BerthId) (hst : (s.berth b).state.overlaps = false) : (s.issueClose b).overlapBounded := by
  refine calm.seqWrite _ _ _ _ (State.overlapBounded.loadStep ?_ b _ ?_)
  · exact calm.berth _ _ _ rfl rfl rfl rfl h
  · rwa [State.berth_setBerth_same]

theorem energizedResult (b : BerthId) (r : ScanResult) : (s.energizedResult b r).overlapBounded := by
  unfold State.energizedResult
  split
  · exact h.shoreOpened b
  · split
    · exact h.shipconClosed b r
    · split
      · exact h
      · exact calm.countSyncHold b r h

theorem syncingResult (b : BerthId) (r : ScanResult) (hst : (s.berth b).state = .syncing) :
    (s.syncingResult b r).overlapBounded := by
  have hcounted := calm.setSyncCount b (s.syncAfter b r) h
  unfold State.syncingResult State.countSyncing
  dsimp only
  split
  · exact h.shoreOpened b
  · split
    · exact h.shipconClosed b r
    · split
      · exact h
      · split
        · refine hcounted.issueClose b ?_
          rw [State.setSyncCount, State.berth_setBerth_same, hst]
          rfl
        · exact hcounted

theorem deadbusResult (b : BerthId) (r : ScanResult) (hst : (s.berth b).state = .deadbus) :
    (s.deadbusResult b r).overlapBounded := by
  unfold State.deadbusResult
  split
  · exact h.shoreOpened b
  · split
    · exact h.shipconClosed b r
    · split
      · exact h
      · split
        · exact h.issueClose b (by rw [hst]; rfl)
        · exact h

theorem parallelResult (b : BerthId) (r : ScanResult) : (s.parallelResult b r).overlapBounded := by
  unfold State.parallelResult
  split
  · exact h.shoreOpened b
  · split
    · exact h.shipconOpened b
    · split
      · exact (h.toShore b).finalReported _ _ _ _
      · exact h

theorem shoreGensClosed (b : BerthId) : (s.shoreGensClosed b).overlapBounded := by
  have hleft := calm.leaveShore b (h.enter_loadStep b .unparallel)
  unfold State.shoreGensClosed
  dsimp only
  refine State.overlapBounded.finalReported ?_ _ _ _ _
  split
  · exact calm.seqWrite _ _ _ _ (calm.seqWrite _ _ _ _ hleft)
  · exact hleft

theorem shoreResult (b : BerthId) (r : ScanResult) : (s.shoreResult b r).overlapBounded := by
  unfold State.shoreResult
  split
  · exact h.shoreOpened b
  · split
    · exact h.shipconOpened b
    · split
      · exact h.shoreGensClosed b
      · exact h

theorem resyncingResult (b : BerthId) (r : ScanResult) : (s.resyncingResult b r).overlapBounded := by
  unfold State.resyncingResult
  split
  · exact h.shoreOpened b
  · split
    · exact h.shipconOpened b
    · split
      · exact (calm.seqWrite _ _ _ _ (h.enter_loadStep b .unparallel)).reported _ _ _
      · exact h

theorem unparallelResult (b : BerthId) (r : ScanResult) : (s.unparallelResult b r).overlapBounded := by
  unfold State.unparallelResult
  split
  · exact h.shoreOpened b
  · split
    · exact h.returnDone b
    · split
      · exact h
      · split
        · exact (h.toShore b).reported _ _ _
        · exact h

theorem separatingResult (b : BerthId) (r : ScanResult) : (s.separatingResult b r).overlapBounded := by
  unfold State.separatingResult
  split
  · exact h.shoreOpened b
  · split
    · exact h.returnDone b
    · exact h

theorem disengagingResult (b : BerthId) (r : ScanResult) : (s.disengagingResult b r).overlapBounded := by
  unfold State.disengagingResult
  split
  · refine State.overlapBounded.finalReported (calm.returnBase b ?_) _ _ _ _
    exact h.of_moved (Moved.enter b .cabled s).stopStep rfl
  · exact h

/-- Every transition by a result keeps the bound (R23). -/
theorem sequence (b : BerthId) (r : ScanResult) : (s.sequence b r).overlapBounded := by
  unfold State.sequence
  split
  case h_1 => exact h
  case h_2 => exact h.followCable b r
  case h_3 => exact h.followCable b r
  case h_4 => exact h.engagingResult b r
  case h_5 hst => exact h.energizingResult b r hst
  case h_6 => exact h.energizedResult b r
  case h_7 hst => exact h.syncingResult b r hst
  case h_8 hst => exact h.deadbusResult b r hst
  case h_9 => exact h.parallelResult b r
  case h_10 => exact h.shoreResult b r
  case h_11 => exact h.resyncingResult b r
  case h_12 => exact h.unparallelResult b r
  case h_13 => exact h.separatingResult b r
  case h_14 => exact h.disengagingResult b r
  case h_15 => exact h

/-- Adoption enters PARALLEL with the overlap limit loaded, and no other state that it bounds (R166). -/
theorem adopt (b : BerthId) (r : ScanResult) : (s.adopt b r).overlapBounded := by
  have hmode := calm.berth s b { s.berth b with mode := (s.static b).defaultMode } rfl rfl rfl rfl h
  unfold State.adopt
  dsimp only
  split
  · exact (calm.reportAdopted b .lockout hmode).tripAction b _
  · split
    · exact calm.reportAdopted _ _ (hmode.enter b rfl)
    · split
      · have hcabled := hmode.enter (st := .cabled) b rfl
        unfold State.adoptCabled
        dsimp only
        refine calm.reportAdopted _ _ ?_
        split
        · refine calm.seqWrite _ _ _ _ ?_
          split
          · exact calm.seqWrite _ _ _ _ hcabled
          · exact hcabled
        · split
          · exact calm.seqWrite _ _ _ _ hcabled
          · exact hcabled
      · split
        · exact calm.reportAdopted _ _ (calm.takeBase _ (hmode.enter b rfl))
        · split
          · exact calm.reportAdopted _ _ (calm.takeBase _ (hmode.toShore b))
          · exact calm.reportAdopted _ _ (calm.takeBase _ (hmode.enter_loadStep b .parallel))

/-! ### Expiries, grants and requests -/

/-- An expiry of the Step channel in a state that the overlap limit bounds ends the state (R38, R42). -/
theorem stepExpired (b : BerthId) : ((s.stopStep b).stepExpired b).overlapBounded := by
  have hstop : Moved b (s.berth b).state s (s.stopStep b) := (Moved.stays (SameStates.refl s) rfl).stopStep
  have htrip : ((s.stopStep b).tripRequest b FaultSet.onlyBkr).overlapBounded := h.of_moved (hstop.tripRequest _) rfl
  have hstays : ∀ st : BState, (s.berth b).state = st → st.overlaps = false → (s.stopStep b).overlapBounded :=
    fun st hst ho => h.of_moved hstop (hst ▸ ho)
  unfold State.stepExpired
  dsimp only
  split
  case h_1 => exact h.of_moved (hstop.leaveEngaging _ _) rfl
  case h_2 hst =>
    split
    · exact hstays _ hst rfl
    · split
      · exact htrip
      · exact h.of_moved hstop.manualNoclose rfl
  case h_3 =>
    split
    · exact htrip
    · exact h.of_moved (hstop.transferGivenUp _) rfl
  case h_4 =>
    split
    · exact htrip
    · exact h.of_moved (hstop.transferGivenUp _) rfl
  case h_5 => exact (h.of_moved hstop.toSeparating rfl).finalReported _ _ _ _
  case h_6 => exact (h.of_moved hstop.toShore rfl).finalReported _ _ _ _
  case h_7 => exact htrip
  case h_8 => exact htrip
  case h_9 => exact htrip
  case h_10 hst => exact hstays _ hst rfl
  case h_11 hst => exact hstays _ hst rfl
  case h_12 hst => exact hstays _ hst rfl
  case h_13 hst => exact hstays _ hst rfl
  case h_14 hst => exact hstays _ hst rfl
  case h_15 hst => exact hstays _ hst rfl

theorem settleExpired (b : BerthId) : ((s.stopSettle b).settleExpired b).overlapBounded := by
  have hstop : Moved b (s.berth b).state s (s.stopSettle b) := (Moved.stays (SameStates.refl s) rfl).stopSettle
  have hbounded : (s.stopSettle b).overlapBounded := by
    refine h.of_steps rfl (fun _ => rfl) fun c limit hc => ?_
    by_cases hcb : c = b
    · subst hcb
      rwa [State.stopSettle, State.chan_setChan_same]
    · rwa [State.stopSettle, State.chan_setChan_of_ne _ _ hcb]
  unfold State.settleExpired
  split
  · dsimp only
    split
    · exact (h.of_moved hstop.toEnergized rfl).finalReported _ _ _ _
    · exact h.of_moved (hstop.tripRequest _) rfl
  · exact hbounded

theorem grantNotice (b : BerthId) : (s.grantNotice b).overlapBounded := by
  have henergizing : (s.toEnergizing b).overlapBounded := h.leaves (fun hm => hm.toEnergizing) rfl
  unfold State.grantNotice
  split
  · split
    · split
      · exact h.connectReady b
      · exact h
    · exact h
  · dsimp only
    refine State.overlapBounded.reported ?_ _ _ _
    split
    · exact calm.releaseHold _ henergizing
    · exact henergizing
  · exact h

theorem manualEngage (b : BerthId) (a d : Word) : (s.manualEngage b a d).overlapBounded := by
  unfold State.manualEngage
  split
  · exact (calm.placeClaim _ (calm.placeHold _ _ _ _ (h.enter b rfl))).reported _ _ _
  · exact calm.sink _ _ _ _ h

theorem ownConnect (b : BerthId) : (s.ownConnect b).1.overlapBounded := by
  have hengaging : Moved b .engaging s ((s.enter b .engaging).loadStep b .engage) := (Moved.enter b _ s).loadStep _
  unfold State.ownConnect
  dsimp only
  split
  · split
    · exact (calm.placeClaim _ (h.of_moved hengaging rfl)).reported _ _ _
    · refine State.overlapBounded.reported ?_ _ _ _
      exact h.of_moved ((Moved.calm b _ s).reportState _ _ _ hengaging).enters.stopStep rfl
  · exact h

theorem ownTransfer (b : BerthId) : (s.ownTransfer b).1.overlapBounded := by
  unfold State.ownTransfer
  dsimp only
  split
  · split
    · refine State.overlapBounded.reported ?_ _ _ _
      exact h.of_moved (((Moved.calm b .syncing s).setSyncCount _ _ (Moved.enter b _ s)).loadStep _) rfl
    · refine State.overlapBounded.reported (calm.seqWrite _ _ _ _ ?_) _ _ _
      exact h.of_moved ((Moved.enter b .deadbus s).loadStep _) rfl
  · exact h

theorem ownReturn (b : BerthId) : (s.ownReturn b).1.overlapBounded := by
  unfold State.ownReturn
  dsimp only
  split
  · split
    · refine State.overlapBounded.reported (calm.seqWrite _ _ _ _ (calm.leaveShore _ ?_)) _ _ _
      exact h.of_moved ((Moved.enter b .resyncing s).loadStep _) rfl
    · exact ((calm.leaveShore b h).leaves (fun hm => hm.toSeparating) rfl).reported _ _ _
  · exact h

theorem ownDisconnect (b : BerthId) : (s.ownDisconnect b).1.overlapBounded := by
  unfold State.ownDisconnect
  dsimp only
  split
  · exact (h.toDisengaging b).reported _ _ _
  · exact h

theorem abortAuto (b : BerthId) : (s.abortAuto b).1.overlapBounded := by
  have hgivenUp : (s.transferGivenUp b .aborted).overlapBounded := h.leaves (fun hm => hm.transferGivenUp _) rfl
  unfold State.abortAuto
  dsimp only
  split
  case h_1 => exact h.leaves (fun hm => hm.leaveEngaging _ _) rfl
  case h_2 => exact (h.toDisengaging b).finalReported _ _ _ _
  case h_3 => exact (h.toDisengaging b).finalReported _ _ _ _
  case h_4 =>
    split
    · exact h
    · exact hgivenUp
  case h_5 =>
    split
    · exact h
    · exact hgivenUp
  case h_6 => exact (h.leaves (fun hm => hm.toSeparating) rfl).finalReported _ _ _ _
  case h_7 => exact (h.toShore b).finalReported _ _ _ _
  case h_8 =>
    split
    · exact calm.abortLevel b h
    · exact h
  all_goals exact h

end State.overlapBounded

/-! ## Every step -/

namespace State.overlapBounded

/-- Every move of a berth keeps the bound. -/
theorem keptMoves : KeptMoves State.overlapBounded where
  toKeptCalm := calm
  toggle := fun s b x h => by
    have hsame : SameStates s (s.setBerth b { s.berth b with lastTaken := x, answered := x, phase := .final }) :=
      (SameStates.refl s).setBerth rfl
    exact h.of_sameStates hsame
  queueGroupRsp := fun _ _ _ h => h
  groupTaken := fun _ _ _ h => h
  passWrite := fun _ _ _ h => h
  tripAction := fun _ b f h => h.tripAction b f
  recover := fun s b h => by
    refine h.leaves (fun hm => hm.recover) ?_
    rcases recoveredState_cases (s.berth b).latest with ⟨hst, -⟩ | ⟨hst, -⟩
    all_goals rw [hst]; rfl
  sequence := fun _ b r h => h.sequence b r
  adopt := fun _ b r h => h.adopt b r
  stepExpired := fun _ b h => h.stepExpired b
  settleExpired := fun _ b h => h.settleExpired b
  grantNotice := fun _ b h => h.grantNotice b
  leaveManualEngaging := fun _ _ h => h.leaves (fun hm => hm.leaveManualEngaging _) rfl
  manualEngage := fun _ b a d h => h.manualEngage b a d
  ownConnect := fun _ b h => h.ownConnect b
  ownTransfer := fun _ b h => h.ownTransfer b
  ownReturn := fun _ b h => h.ownReturn b
  ownDisconnect := fun _ b h => h.ownDisconnect b
  abortAuto := fun _ b h => h.abortAuto b

theorem discardWrite (h : s.overlapBounded) : s.discardWrite.overlapBounded := by
  unfold State.discardWrite
  split
  · exact h
  · exact h

theorem setCapacity (h : s.overlapBounded) (c : Nat) : (s.setCapacity c).overlapBounded := by
  unfold State.setCapacity
  split
  · exact h
  · exact h

theorem releaseReset (h : s.overlapBounded) : s.releaseReset.overlapBounded := by
  unfold State.releaseReset
  split
  · exact h
  · exact h

theorem reload (h : s.overlapBounded) : s.reload.overlapBounded := by
  unfold State.reload
  split
  · exact h
  · exact h

/-- A Step channel that keeps an overlap limit keeps the bound (R150). -/
theorem tickStep (h : s.overlapBounded) (b : BerthId) (base : TickBase) :
    (s.setChan b { s.chan b with step := (s.chan b).step.tick base }).overlapBounded := by
  refine h.of_steps rfl (fun _ => rfl) fun c limit hc => ?_
  by_cases hcb : c = b
  · subst hcb
    rw [State.chan_setChan_same]
    exact hc.tick base
  · rwa [State.chan_setChan_of_ne _ _ hcb]

theorem tickSettle (h : s.overlapBounded) (b : BerthId) :
    (s.setChan b { s.chan b with settle := (s.chan b).settle.tick .f }).overlapBounded := by
  refine h.of_steps rfl (fun _ => rfl) fun c limit hc => ?_
  by_cases hcb : c = b
  · subst hcb
    rwa [State.chan_setChan_same]
  · rwa [State.chan_setChan_of_ne _ _ hcb]

/-- An edge of MAINT changes all Step channels alike (R151, R152). -/
theorem edge {f : Channel → Channel} (h : s.overlapBounded)
    (hf : ∀ (c : Channel) limit, c.CountsOverlap limit → (f c).CountsOverlap limit) (ht : t.tables = s.tables)
    (hb : t.berths = s.berths) (hc : t.chans = s.chans.map fun c => { c with step := f c.step }) : t.overlapBounded := by
  refine h.of_steps ht (fun b => by rw [State.berth, hb, State.berth]) fun b limit hcounts => ?_
  have hchan : t.chan b = { s.chan b with step := f (s.chan b).step } := by
    rw [State.chan, hc]
    exact Eight.get_map _ _ _
  rw [hchan]
  exact hf _ _ hcounts

theorem assertMaint (h : s.overlapBounded) : s.assertMaint.overlapBounded := by
  unfold State.assertMaint
  dsimp only
  split
  · exact h.edge (f := Channel.freeze) (fun _ _ hc => hc.freeze) rfl rfl rfl
  · exact h

theorem releaseMaint (h : s.overlapBounded) : s.releaseMaint.overlapBounded := by
  unfold State.releaseMaint
  dsimp only
  split
  · exact h.edge (f := Channel.resume) (fun _ _ hc => hc.resume) rfl rfl rfl
  · exact h

theorem keptByScan : KeptByScan State.overlapBounded :=
  keptMoves.byScan (fun _ _ _ h => h) (fun _ h => h.discardWrite) (fun _ _ _ h => h)
    (fun s _ _ h => h.of_sameStates ((SameStates.refl s).setBerth rfl)) (fun _ _ h => h) (fun _ c h => h.setCapacity c)

theorem keptByCommand : KeptByCommand State.overlapBounded :=
  keptByScan.byCommand
    (releaseReset := fun _ h => h.releaseReset)
    (loader := fun _ _ h => h)
    (toggles := fun s _ _ h => h.of_sameStates ((SameStates.refl s).setBerth rfl))
    (running := fun _ _ h => h)
    (pim := fun _ _ _ h => h)
    (ports := fun _ _ h => h)
    (owqTail := fun _ h => h)
    (owqRemove := fun _ _ h => h)
    (logGranted := fun _ _ h => h)
    (logCompleted := fun _ _ _ h => h)
    (owed := fun _ _ _ h => h)
    (reload := fun _ h => h.reload)
    (tickFalls := fun _ h => h)
    (tickStep := fun _ b base h => h.tickStep b base)
    (tickSettle := fun _ b h => h.tickSettle b)
    (assertMaint := fun _ h => h.assertMaint)
    (releaseMaint := fun _ h => h.releaseMaint)

/-- With every berth in ADOPTING there is nothing to bound: so after a reset, and as an image builds the records (R22, R162). -/
theorem of_adopting (h : ∀ b, (s.berth b).state = .adopting) : s.overlapBounded := by
  rw [State.overlapBounded_iff]
  intro b hb
  rw [h b] at hb
  exact absurd hb Bool.false_ne_true

theorem keptByStep : KeptByStep State.overlapBounded where
  toKeptByCommand := keptByCommand
  queue := fun _ _ h => h
  assertReset := fun _ _ _ => of_adopting fun b => congrArg Berth.state (Eight.get_fill Berth.blank b)
  imageWord := fun _ w h => imageWord_of State.overlapBounded w (fun _ _ h => h) (fun _ _ _ _ h => h)
    (fun s ws _ _ _ => of_adopting fun b => by
      rw [s.berth_install ws b, builtBerth]
      split
      · rfl
      · rfl) h

end State.overlapBounded

end Sys2Proof.Machine

open Sys2Proof Sys2Proof.Machine

/-- Settles O8, by the property that every step keeps: the moves into PARALLEL and UNPARALLEL load the overlap limit, the others leave
both states. -/
theorem overlapStaysBounded : Obligations.OverlapStaysBounded := fun _ _ hs ht => State.overlapBounded.keptByStep.step hs ht

end

section
/-! Requests that come to their owner (06, section 6.2; R107, R110): those that the berth's state or mode does not take (R25), and those that
start a course of the berth in AUTO and run on: TRANSFER (R34) and DISCONNECT (R44). -/

namespace Sys2Proof.Machine

variable {s u w : State} {b : BerthId} {q : ReqBits} {k : ReqCode} {op : BitVec 8} {res : Result} {old : BState} {m : Mode}

/-! ## To the owner -/

/-- A new request of a served berth that rows 1 to 5 of R107 leave to its owner. -/
structure State.ReachesOwner (s : State) (b : BerthId) (k : ReqCode) (q : ReqBits) : Prop where
  serves : s.serves b
  fresh : q.toggle ≠ (s.berth b).lastTaken
  code : k ≠ .none
  adopted : (s.berth b).state ≠ .adopting
  idle : (s.berth b).request = none ∨ k = .abort
  maint : s.timer.maint = false ∨ k.passesMaint = true

namespace State.ReachesOwner

variable (h : s.ReachesOwner b k q)
include h

theorem judged : (s.reqTaken b k.code q).judge b k.code q.operand = (s.reqTaken b k.code q).owner b k q.operand := by
  have hst : ((s.reqTaken b k.code q).berth b).state ≠ .adopting := by
    rw [State.state_reqTaken]
    exact h.adopted
  have hreq : ¬ (((s.reqTaken b k.code q).berth b).request.isSome = true ∧ k ≠ .abort) := by
    rintro ⟨hsome, hk⟩
    rw [State.request_reqTaken, h.idle.resolve_right hk] at hsome
    exact Bool.false_ne_true hsome
  have hmaint : ¬ ((s.reqTaken b k.code q).timer.maint = true ∧ k.passesMaint = false) := by
    rintro ⟨hm, hp⟩
    rcases h.maint with h0 | h0
    · exact Bool.false_ne_true (h0.symm.trans hm)
    · exact Bool.false_ne_true (hp.symm.trans h0)
  rw [State.judge_known h.code, if_neg hst, if_neg hreq, if_neg hmaint]

/-- An owner that ends the request without an effect leaves the answer alone (R107). -/
theorem answered (ho : (s.reqTaken b k.code q).owner b k q.operand = (s.reqTaken b k.code q, .final res)) :
    s.writesReq b k.code q = s.answeredOnly b q.toggle res (reqWord k.code q) :=
  State.writesReq_answeredOnly h.serves h.fresh (h.judged.trans ho)

/-- An owner's effects, the answer that it gives, and the end of the event (R106). -/
theorem ends {a : Answer} (ho : (s.reqTaken b k.code q).owner b k q.operand = (w, a)) :
    s.writesReq b k.code q = (w.answer b k.code q.toggle q.operand a).endEvent := by
  rw [State.writesReq_taken h.serves k.code q h.fresh, State.takeRequest_eq]
  show State.endEvent (State.answer ((s.reqTaken b k.code q).judge b _ _).1 _ _ _ _ ((s.reqTaken b k.code q).judge b _ _).2) = _
  rw [h.judged, ho]

end State.ReachesOwner

/-! ## Requests out of state or mode (R25, R110) -/

theorem State.ownConnect_refused (h : ¬ ((u.berth b).state = .cabled ∧ (u.berth b).mode = .auto)) :
    u.ownConnect b = (u, .final .refused) := if_neg h

theorem State.ownTransfer_refused (h : ¬ ((u.berth b).state = .energized ∧ (u.berth b).mode = .auto)) :
    u.ownTransfer b = (u, .final .refused) := if_neg h

theorem State.ownReturn_refused (h : ¬ ((u.berth b).state = .shore ∧ (u.berth b).mode = .auto)) :
    u.ownReturn b = (u, .final .refused) := if_neg h

theorem State.ownDisconnect_refused (h : ¬ ((u.berth b).state = .energized ∧ (u.berth b).mode = .auto)) :
    u.ownDisconnect b = (u, .final .refused) := if_neg h

theorem State.ownSetLevel_refused {n : Nat} (h : (u.berth b).state ≠ .shore) : u.ownSetLevel b n = (u, .final .refused) :=
  if_neg h

theorem State.ownRelease_refused (h : (u.berth b).state ≠ .lockout) : u.ownRelease b = (u, .final .refused) := if_neg h

theorem State.ownSetMode_busy (h : (u.berth b).state.takesMode = false) : u.ownSetMode b op = (u, .final .busy) :=
  if_neg (by rw [h]; exact Bool.false_ne_true)

/-- Every state but the five of R8 refuses SET_MODE. -/
theorem BState.takesMode_eq_false {st : BState} (h1 : st ≠ .vacant) (h2 : st ≠ .cabled) (h3 : st ≠ .energized) (h4 : st ≠ .shore)
    (h5 : st ≠ .lockout) : st.takesMode = false := by
  cases st
  case vacant => exact absurd rfl h1
  case cabled => exact absurd rfl h2
  case energized => exact absurd rfl h3
  case shore => exact absurd rfl h4
  case lockout => exact absurd rfl h5
  all_goals rfl

/-- The taking of a request leaves the state and the mode in which its owner finds the berth. -/
theorem State.not_found_reqTaken {st : BState} (code : BitVec 4) (h : ¬ ((s.berth b).state = st ∧ (s.berth b).mode = m)) :
    ¬ (((s.reqTaken b code q).berth b).state = st ∧ ((s.reqTaken b code q).berth b).mode = m) := by
  rwa [State.state_reqTaken, State.mode_reqTaken]

/-! ## A reported move and its answer (R24 step 6, R108) -/

/-- A record whose request runs on with no operand kept (R4, R108). -/
def Berth.runsOn (r : Berth) (k : ReqCode) (toggle : Bool) : Berth :=
  { r with request := some { code := k, toggle := toggle, operand := none }, phase := .pending, result := .none }

/-- A state reported and the request answered from the state `w` that its owner's effects leave: the record takes the answer, one RSP
write carries both, and the STATE record is staged. -/
def State.reportedAs (w : State) (b : BerthId) (old : BState) (m : Mode) (r : Berth) : State :=
  { w with
    berths := w.berths.set b r
    owq := placeWrite w.owq (w.rspEntry b r)
    log := w.log.stage (w.stateRecord b old m (w.berth b).state (w.berth b).mode) }

/-- The RSP write of the report is replaced in place by that of the answer (R139). -/
theorem State.reportedAs_eq (w : State) (b : BerthId) (old : BState) (m : Mode) (r : Berth) :
    ((w.reportState b old m).setBerth b r).queueRsp b = w.reportedAs b old m r := by
  have hrecord : ((w.reportState b old m).setBerth b r).berth b = r := State.berth_setBerth_same _ _ _
  rw [State.queueRsp, hrecord, State.reportedAs, ← rsp_twice w b (w.berth b) r w.owq]
  rfl

theorem State.reportState_answer_pending (hk : k ≠ .setLevel) (w : State) (b : BerthId) (old : BState) (m : Mode) (toggle : Bool)
    (op : BitVec 8) :
    (w.reportState b old m).answer b k.code toggle op .pending = w.reportedAs b old m ((w.berth b).runsOn k toggle) := by
  have hoperand : heldOperand k.code op = none := by
    cases k
    case setLevel => exact absurd rfl hk
    all_goals rfl
  rw [← State.reportedAs_eq, State.answer, ReqCode.ofCode?_code, hoperand]
  rfl

theorem State.reportState_answer_final (w : State) (b : BerthId) (old : BState) (m : Mode) (code : BitVec 4) (toggle : Bool)
    (op : BitVec 8) (res : Result) :
    (w.reportState b old m).answer b code toggle op (.final res) = w.reportedAs b old m ((w.berth b).concluded res) :=
  State.reportedAs_eq w b old m ((w.berth b).concluded res)

/-- With the event's marks clear the report and the answer end the event (R91, R103). -/
theorem State.reportedAs_ends (h : w.begun) (r : Berth) : (w.reportedAs b old m r).endEvent = w.reportedAs b old m r :=
  (State.endEvent_of_quiet (s := w.reportedAs b old m r) h.1 h.2).trans (clearMarks_quiet (w.reportedAs b old m r) h.1 h.2)

/-- A request whose owner reports a move and lets it run on, with the marks clear. -/
theorem State.ReachesOwner.runs (h : s.ReachesOwner b k q) (hk : k ≠ .setLevel)
    (ho : (s.reqTaken b k.code q).owner b k q.operand = (w.reportState b old m, .pending)) (hw : w.begun) :
    s.writesReq b k.code q = w.reportedAs b old m ((w.berth b).runsOn k q.toggle) := by
  rw [h.ends ho, State.reportState_answer_pending hk, State.reportedAs_ends hw]

/-! ## TRANSFER (R34) -/

/-- A move that reads no operand: the record and the channels replaced, SEQ writes placed, and nothing else. -/
def State.movedAs (u : State) (b : BerthId) (r : Berth) (c : Channels) (ws : List (CmdWord × Word)) : State :=
  { u with berths := u.berths.set b r, chans := u.chans.set b c, owq := placeAll u.owq (u.seqEntries b ws) }

theorem State.berth_movedAs (u : State) (b : BerthId) (r : Berth) (c : Channels) (ws : List (CmdWord × Word)) :
    (u.movedAs b r c ws).berth b = r := Eight.get_set_same _ _ _

/-- A move of a taken request, reported and answered, told from the state in which the write arrived. -/
theorem State.movedAs_reportedAs (s : State) (b : BerthId) (code : BitVec 4) (q : ReqBits) (r r' : Berth) (c : Channels)
    (ws : List (CmdWord × Word)) (old : BState) (m : Mode) :
    ((s.reqTaken b code q).movedAs b r c ws).reportedAs b old m r' =
      { s.passedWrite (s.tables.reqAddress b) (reqWord code q) with
        berths := s.berths.set b r'
        chans := s.chans.set b c
        owq := placeWrite (placeAll s.owq (s.seqEntries b ws)) (s.rspEntry b r')
        log := s.log.stage (s.stateRecord b old m r.state r.mode) } := by
  have hberths : ((s.reqTaken b code q).movedAs b r c ws).berths.set b r' = s.berths.set b r' := by
    show (Eight.set (Eight.set (Eight.set s.berths b _) b r) b r') = _
    rw [Eight.set_set, Eight.set_set]
  rw [State.reportedAs, hberths, State.berth_movedAs]
  rfl

/-- TRANSFER by a closed transition starts SYNCING under its limit (R34, R35). -/
theorem State.ownTransfer_closed (hst : (u.berth b).state = .energized) (hm : (u.berth b).mode = .auto)
    (hkind : (u.static b).transferKind = .closedTransition) :
    u.ownTransfer b =
      ((u.movedAs b { (u.berth b).entered .syncing with syncCount := 0 }
        { u.chan b with step := Channel.loaded .sync (u.static b).syncLimit u.timer.maint } []).reportState b .energized .auto,
        .pending) := by
  have hmoved : ((u.enter b .syncing).setSyncCount b 0).loadStep b .sync =
      u.movedAs b { (u.berth b).entered .syncing with syncCount := 0 }
        { u.chan b with step := Channel.loaded .sync (u.static b).syncLimit u.timer.maint } [] := by
    rw [State.setSyncCount, berth_enter]
    show State.loadStep { u with berths := Eight.set (Eight.set u.berths b _) b _ } b .sync = _
    rw [Eight.set_set]
    rfl
  rw [State.ownTransfer, if_pos ⟨hst, hm⟩, hkind, ← hmoved, hm]

/-- TRANSFER by an open transition starts DEADBUS under its limit, with GEN_RELEASE=RELEASE queued (R34, R36). -/
theorem State.ownTransfer_open (hst : (u.berth b).state = .energized) (hm : (u.berth b).mode = .auto)
    (hkind : (u.static b).transferKind = .openTransition) :
    u.ownTransfer b =
      ((u.movedAs b ((u.berth b).entered .deadbus)
        { u.chan b with step := Channel.loaded .deadBus (u.static b).deadBusLimit u.timer.maint }
        [(.genRelease, genRelease)]).reportState b .energized .auto, .pending) := by
  rw [State.ownTransfer, if_pos ⟨hst, hm⟩, hkind, hm]
  rfl

/-! ## DISCONNECT (R44) -/

theorem State.toDisengaging_eq (u : State) (b : BerthId) :
    u.toDisengaging b = u.movedAs b ((u.berth b).entered .disengaging)
      { step := Channel.loaded .confirm (u.static b).breakerConfirm u.timer.maint, settle := Channel.idle }
      [(.shoreBkr, cmdOpen)] := by
  have hchan : ((u.enter b .disengaging).stopChannels b).chan b = Channels.blank := State.chan_setChan_same _ _ _
  rw [State.toDisengaging, State.loadStep, hchan]
  show State.seqWrite { u with berths := _, chans := Eight.set (Eight.set u.chans b _) b _ } b .shoreBkr cmdOpen = _
  rw [Eight.set_set]
  rfl

/-- DISCONNECT starts DISENGAGING under breaker confirm, with SHORE_BKR=OPEN queued (R44). -/
theorem State.ownDisconnect_starts (hst : (u.berth b).state = .energized) (hm : (u.berth b).mode = .auto) :
    u.ownDisconnect b =
      ((u.movedAs b ((u.berth b).entered .disengaging)
        { step := Channel.loaded .confirm (u.static b).breakerConfirm u.timer.maint, settle := Channel.idle }
        [(.shoreBkr, cmdOpen)]).reportState b .energized .auto, .pending) := by
  rw [State.ownDisconnect, if_pos ⟨hst, hm⟩, State.toDisengaging_eq, hm]

end Sys2Proof.Machine

open Sys2Proof Sys2Proof.Machine

/-- Settles O24, owner by owner. -/
theorem requestsOutOfStateAreRefused : Obligations.RequestsOutOfStateAreRefused := by
  intro s b q hs ht hst hr
  have reaches : ∀ {k : ReqCode}, k ≠ .none → (s.timer.maint = false ∨ k.passesMaint = true) → s.ReachesOwner b k q :=
    fun hk hm => ⟨hs, ht, hk, hst, .inl hr, hm⟩
  have stays : ∀ {st : BState} (code : BitVec 4), (s.berth b).state ≠ st → ((s.reqTaken b code q).berth b).state ≠ st :=
    fun code h => by rwa [State.state_reqTaken]
  refine ⟨fun hm h => ?_, fun hm h => ?_, fun hm h => ?_, fun hm h => ?_, fun hm h1 h2 h3 h4 h5 => ?_, fun h => ?_⟩
  · exact congrArg _ ((reaches (k := .connect) (by decide) (.inl hm)).answered
      (State.ownConnect_refused (State.not_found_reqTaken _ h)))
  · exact congrArg _ ((reaches (k := .transfer) (by decide) (.inl hm)).answered
      (State.ownTransfer_refused (State.not_found_reqTaken _ h)))
  · exact congrArg _ ((reaches (k := .return) (by decide) (.inl hm)).answered
      (State.ownReturn_refused (State.not_found_reqTaken _ h)))
  · exact congrArg _ ((reaches (k := .setLevel) (by decide) (.inl hm)).answered (State.ownSetLevel_refused (stays _ h)))
  · exact congrArg _ ((reaches (k := .setMode) (by decide) (.inl hm)).answered (State.ownSetMode_busy
      (BState.takesMode_eq_false (stays _ h1) (stays _ h2) (stays _ h3) (stays _ h4) (stays _ h5))))
  · exact congrArg _ ((reaches (k := .release) (by decide) (.inr rfl)).answered (State.ownRelease_refused (stays _ h)))

/-- Settles O26, by the transfer kind and by row 5 of R107. -/
theorem transferStartsByKind : Obligations.TransferStartsByKind := by
  intro s b q hs ht hst hmode hr
  have hne : (s.berth b).state ≠ .adopting := by rw [hst]; decide
  have hst' := (s.state_reqTaken b ReqCode.transfer.code q).trans hst
  have hmode' := (s.mode_reqTaken b ReqCode.transfer.code q).trans hmode
  have hrecord := s.berth_reqTaken b ReqCode.transfer.code q
  rw [exec_reqTransfer]
  refine ⟨fun hm hkind => congrArg _ ?_, fun hm hkind => congrArg _ ?_, fun hm => congrArg _ ?_⟩
  · have h : s.ReachesOwner b .transfer q := ⟨hs, ht, by decide, hne, .inl hr, .inl hm⟩
    rw [h.runs (by decide) (State.ownTransfer_closed hst' hmode' hkind) ⟨rfl, rfl⟩, State.movedAs_reportedAs,
      State.berth_movedAs, hrecord, ← hm, ← hmode]
    rfl
  · have h : s.ReachesOwner b .transfer q := ⟨hs, ht, by decide, hne, .inl hr, .inl hm⟩
    rw [h.runs (by decide) (State.ownTransfer_open hst' hmode' hkind) ⟨rfl, rfl⟩, State.movedAs_reportedAs,
      State.berth_movedAs, hrecord, ← hm, ← hmode]
    rfl
  · refine State.writesReq_answeredOnly hs ht (State.judge_of_maint (by decide) ?_ ?_ hm rfl)
    · rwa [State.state_reqTaken]
    · rwa [State.request_reqTaken]

/-- Settles O28: the start in ENERGIZED in AUTO, the owner's refusal elsewhere, and rows 3 and 4 of R107; DISENGAGING asserts no PERMn. -/
theorem disconnectStartsOrIsRefused : Obligations.DisconnectStartsOrIsRefused := by
  intro s b q hs ht
  rw [exec_reqDisconnect]
  refine ⟨fun hst hmode hr => congrArg _ ?_, fun t _ hdis => ?_, fun hne hr h => congrArg _ ?_, fun h => congrArg _ ?_⟩
  · have h : s.ReachesOwner b .disconnect q := ⟨hs, ht, by decide, by rw [hst]; decide, .inl hr, .inr rfl⟩
    rw [h.runs (by decide) (State.ownDisconnect_starts ((s.state_reqTaken b _ q).trans hst) ((s.mode_reqTaken b _ q).trans hmode))
      ⟨rfl, rfl⟩, State.movedAs_reportedAs, State.berth_movedAs, s.berth_reqTaken b _ q, ← hmode]
    rfl
  · exact State.perm_eq_false_of_not_permits (by rw [hdis]; rfl)
  · have hreach : s.ReachesOwner b .disconnect q := ⟨hs, ht, by decide, hne, .inl hr, .inr rfl⟩
    refine hreach.answered (State.ownDisconnect_refused (State.not_found_reqTaken _ ?_))
    rintro ⟨hst, hmode⟩
    rcases h with h | h
    · exact h hst
    · exact absurd (hmode.symm.trans h) (by decide)
  · by_cases hst : (s.berth b).state = .adopting
    · exact State.writesReq_answeredOnly hs ht
        (State.judge_of_adopting (k := .disconnect) (by decide) ((s.state_reqTaken b _ q).trans hst))
    · refine State.writesReq_answeredOnly hs ht (State.judge_of_request (k := .disconnect) (by decide) ?_ ?_ (by decide))
      · rwa [State.state_reqTaken]
      · rw [State.request_reqTaken]
        exact h.resolve_left hst

end

section
/-! CONNECT in CABLED in AUTO (02, section 2.3; 05, section 5.2; R28, R29, R88, R90): a claim above Ccfg is refused at entry, any other is
placed, and the service pass that ends the event leaves it waiting or grants it. -/

namespace Sys2Proof.Machine

variable {s t u w : State} {b : BerthId} {q : ReqBits} {c : Claim} {r : ScanResult}

/-! ## A claim above Ccfg (R88) -/

/-- A berth back in CABLED from ENGAGING, its entry to ENGAGING reported. -/
def State.turnedBack (u : State) (b : BerthId) : State :=
  { u with
    berths := u.berths.set b ((u.berth b).entered .cabled)
    chans := u.chans.set b { u.chan b with step := Channel.idle }
    owq := placeWrite u.owq (u.rspEntry b ((u.berth b).entered .engaging))
    log := u.log.stage (u.stateRecord b .cabled .auto .engaging (u.berth b).mode) }

theorem State.ownConnect_above (hst : (u.berth b).state = .cabled) (hm : (u.berth b).mode = .auto)
    (hc : u.tables.ccfg < (u.static b).baseCredits) :
    u.ownConnect b = ((u.turnedBack b).reportState b .engaging .auto, .final .nobudget) := by
  have hentered : ((u.enter b .engaging).loadStep b .engage).berth b = (u.berth b).entered .engaging := berth_enter _
  have hturned : ((((u.enter b .engaging).loadStep b .engage).reportState b .cabled .auto).enter b .cabled).stopStep b =
      u.turnedBack b := by
    have hreported : (((u.enter b .engaging).loadStep b .engage).reportState b .cabled .auto).berth b =
        (u.berth b).entered .engaging := hentered
    have hloaded : ((u.enter b .engaging).loadStep b .engage).chan b =
        { u.chan b with step := Channel.loaded .engage (u.static b).engageLimit u.timer.maint } := State.chan_setChan_same _ _ _
    have hchan : ((((u.enter b .engaging).loadStep b .engage).reportState b .cabled .auto).enter b .cabled).chan b = _ := hloaded
    rw [State.stopStep, hchan, State.enter, hreported, State.reportState_eq, hentered]
    show ({ u with
      berths := Eight.set (Eight.set u.berths b _) b _, chans := Eight.set (Eight.set u.chans b _) b _, owq := _, log := _ } :
        State) = _
    rw [Eight.set_set, Eight.set_set]
    rfl
  rw [State.ownConnect, if_pos ⟨hst, hm⟩, hm, if_neg (Nat.not_le_of_lt hc), hturned]

/-- The outcome of a CONNECT that is turned back, told from the state in which the write arrived. -/
theorem State.turnedBack_reportedAs (s : State) (b : BerthId) (code : BitVec 4) (q : ReqBits) (x : Berth) :
    ((s.reqTaken b code q).turnedBack b).reportedAs b .engaging .auto x =
      { s.passedWrite (s.tables.reqAddress b) (reqWord code q) with
        berths := s.berths.set b x
        chans := s.chans.set b { s.chan b with step := Channel.idle }
        owq := placeWrite s.owq (s.rspEntry b x)
        log := (s.log.stage (s.stateRecord b .cabled .auto .engaging (s.berth b).mode)).stage
          (s.stateRecord b .engaging .auto .cabled (s.berth b).mode) } := by
  have hberths : ((s.reqTaken b code q).turnedBack b).berths.set b x = s.berths.set b x := by
    show (Eight.set (Eight.set (Eight.set s.berths b _) b _) b x) = _
    rw [Eight.set_set, Eight.set_set]
  have hberth : ((s.reqTaken b code q).turnedBack b).berth b = ((s.reqTaken b code q).berth b).entered .cabled :=
    Eight.get_set_same _ _ _
  have howq : placeWrite ((s.reqTaken b code q).turnedBack b).owq (s.rspEntry b x) = placeWrite s.owq (s.rspEntry b x) :=
    rsp_twice s b _ x s.owq
  have hlog : ((s.reqTaken b code q).turnedBack b).log =
      s.log.stage (s.stateRecord b .cabled .auto .engaging (s.berth b).mode) := by
    rw [State.turnedBack, State.berth_reqTaken]
    rfl
  rw [State.reportedAs, hberths, hberth, hlog, State.berth_reqTaken, ← howq]
  rfl

/-! ## The claim (R28, R88) -/

/-- The record of a berth whose CONNECT runs on (R28, R106). -/
def Berth.connectAsked (x : Berth) (q : ReqBits) : Berth := (x.entered .engaging).answeredPending q.toggle .connect none

/-- A CONNECT whose claim is placed, up to the service pass that ends its event (R28, R88, R91). -/
def State.connectClaimed (s : State) (b : BerthId) (q : ReqBits) : State :=
  { s.passedWrite (s.tables.reqAddress b) (reqWord ReqCode.connect.code q) with
    berths := s.berths.set b ((s.berth b).connectAsked q)
    chans := s.chans.set b { s.chan b with step := loadedChannel true .s (s.static b).engageLimit s.timer.maint }
    owq := placeWrite s.owq (s.rspEntry b ((s.berth b).connectAsked q))
    log := s.log.stage (s.stateRecord b .cabled .auto .engaging (s.berth b).mode)
    budget := { s.budget with claims := s.budget.claims ++ [s.engageClaim b], serviceDue := true, testDue := false } }

theorem State.ownConnect_claims (hst : (u.berth b).state = .cabled) (hm : (u.berth b).mode = .auto)
    (hc : (u.static b).baseCredits ≤ u.tables.ccfg) :
    u.ownConnect b =
      (((u.movedAs b ((u.berth b).entered .engaging)
        { u.chan b with step := Channel.loaded .engage (u.static b).engageLimit u.timer.maint } []).placeClaim
          (u.engageClaim b)).reportState b .cabled .auto, .pending) := by
  rw [State.ownConnect, if_pos ⟨hst, hm⟩, hm, if_pos hc]
  rfl

/-- The claim's place in the queue and the report do not meet. -/
theorem State.placeClaim_reportedAs (u : State) (b : BerthId) (old : BState) (m : Mode) (x : Berth) (c : Claim) :
    (u.placeClaim c).reportedAs b old m x = (u.reportedAs b old m x).placeClaim c := rfl

/-- A new CONNECT of a served berth in CABLED in AUTO within Ccfg, with no request in progress, no claim, and MAINT released. -/
structure State.Connects (s : State) (b : BerthId) (q : ReqBits) : Prop where
  reaches : s.ReachesOwner b .connect q
  cabled : (s.berth b).state = .cabled
  auto : (s.berth b).mode = .auto
  maint : s.timer.maint = false
  within : (s.static b).baseCredits ≤ s.tables.ccfg
  noClaim : s.noClaim b

theorem State.berth_connectClaimed (s : State) (b : BerthId) (q : ReqBits) :
    (s.connectClaimed b q).berth b = (s.berth b).connectAsked q :=
  Eight.get_set_same _ _ _

theorem State.step_connectClaimed (s : State) (b : BerthId) (q : ReqBits) :
    ((s.connectClaimed b q).chan b).step = loadedChannel true .s (s.static b).engageLimit s.timer.maint :=
  congrArg Channels.step (Eight.get_set_same _ _ _)

/-- G counts no waiting claim (R86). -/
theorem State.granted_connectClaimed (s : State) (b : BerthId) (q : ReqBits) : (s.connectClaimed b q).granted = s.granted := by
  have hsum : (s.connectClaimed b q).granted + s.held b = s.granted + s.held b :=
    State.granted_of (x := (s.berth b).connectAsked q) rfl rfl
  exact Nat.add_right_cancel hsum

/-- Whether the claim fits is a matter of C − G (R87). -/
theorem State.fits_connectClaimed (s : State) (b : BerthId) (q : ReqBits) :
    (s.connectClaimed b q).fits (s.engageClaim b) = true ↔
      ((s.static b).baseCredits : Int) ≤ (s.budget.capacity : Int) - s.granted := by
  rw [← s.granted_connectClaimed b q]
  exact decide_eq_true_iff

/-! ## The grant in AUTO (R29, R90) -/

/-- A granted ENGAGE claim up to its notice: out of the queue, its base grant taken (R90). -/
def State.engageTaken (w : State) (c : Claim) : State :=
  (w.setBudget { w.budget with claims := dropClaim w.budget.claims c.berth }).takeBase c.berth

theorem State.berth_engageTaken (w : State) (c : Claim) :
    (w.engageTaken c).berth c.berth = { w.berth c.berth with baseGrant := (w.static c.berth).baseCredits } := by
  rw [State.engageTaken, takeBase_berth]
  rfl

theorem State.noClaim_engageTaken (w : State) (c : Claim) : (w.engageTaken c).noClaim c.berth :=
  fun _ hx => of_decide_eq_true (List.mem_filter.mp hx).2

section Notice

variable (hst : (w.berth c.berth).state = .engaging) (hm : (w.berth c.berth).mode = .auto)
include hst hm

/-- With the ship not ready the berth holds its grant in ENGAGING (R29). -/
theorem State.grantEngage_holds_grant (hr : ∀ r, (w.berth c.berth).latest = some r → r.ready = false) :
    w.grantEngage c = w.engageTaken c := by
  have hberth := w.berth_engageTaken c
  show (w.engageTaken c).grantNotice c.berth = _
  simp only [State.grantNotice, hberth, hst, hm]
  cases hl : (w.berth c.berth).latest with
  | none => rfl
  | some r => simp [hr r hl]

/-- With the ship ready the berth goes on (R29). -/
theorem State.grantEngage_goes_on (hl : (w.berth c.berth).latest = some r) (hr : r.ready = true) :
    w.grantEngage c = (w.engageTaken c).connectReady c.berth := by
  have hberth := w.berth_engageTaken c
  show (w.engageTaken c).grantNotice c.berth = _
  simp only [State.grantNotice, hberth, hst, hm, hl, hr, if_true]

end Notice

/-- ENERGIZING with SHORE_BKR=CLOSE queued (R29). -/
theorem State.connectReady_eq (u : State) (b : BerthId) :
    u.connectReady b =
      (u.movedAs b ((u.berth b).entered .energizing)
        { u.chan b with step := Channel.loaded .confirm (u.static b).breakerConfirm u.timer.maint }
        [(.shoreBkr, cmdClose)]).reportState b .engaging (u.berth b).mode := rfl

theorem State.noClaim_connectReady (hn : u.noClaim b) : (u.connectReady b).noClaim b := hn

/-! ## The outcomes -/

namespace State.Connects

variable (h : s.Connects b q)
include h

/-- A CONNECT whose claim is placed is `connectClaimed` before its service pass. -/
theorem claims : s.writesReq b ReqCode.connect.code q = (s.connectClaimed b q).endEvent := by
  have howned := State.ownConnect_claims (u := s.reqTaken b ReqCode.connect.code q) (b := b)
    ((s.state_reqTaken b _ q).trans h.cabled) ((s.mode_reqTaken b _ q).trans h.auto) h.within
  rw [h.reaches.ends howned, State.reportState_answer_pending (by decide)]
  have hclaimed : ∀ (v : State) (x : Berth) (l : Channels) (c : Claim),
      ((v.movedAs b x l []).placeClaim c).berth b = x := fun _ _ _ _ => Eight.get_set_same _ _ _
  rw [hclaimed, State.placeClaim_reportedAs, State.movedAs_reportedAs, s.berth_reqTaken b ReqCode.connect.code q]
  rfl

/-- What the claims that stood before the berth's own leave of it. -/
theorem apart : Apart b (s.connectClaimed b q) ((s.connectClaimed b q).serviceWalk s.budget.claims) :=
  Apart.serviceWalk h.noClaim

/-- A claim that waits leaves the berth in ENGAGING under its engage limit (R28). -/
theorem waits (ht : Tested ((s.connectClaimed b q).serviceWalk s.budget.claims) t) :
    t.berth b = (s.berth b).connectAsked q ∧ s.engageClaim b ∈ t.budget.claims
      ∧ (t.chan b).step = loadedChannel true .s (s.static b).engageLimit false := by
  refine ⟨?_, ?_, ?_⟩
  · rw [State.berth, ht.berths]
    exact h.apart.berth.trans (s.berth_connectClaimed b q)
  · have hmine : s.engageClaim b ∈ (s.connectClaimed b q).budget.claims.filter fun c => decide (c.berth = b) := by
      simp [State.connectClaimed, State.engageClaim]
    rw [← h.apart.claims] at hmine
    rw [ht.claims]
    exact (List.mem_filter.mp hmine).1
  · rw [State.chan, ht.chans, ← h.maint, ← s.step_connectClaimed b q]
    exact congrArg Channels.step h.apart.chan

/-- The service pass up to the berth's own claim, which comes last. -/
theorem found {v : State} (hv : v = (s.connectClaimed b q).serviceWalk s.budget.claims) :
    v.berth b = (s.berth b).connectAsked q ∧ v.static b = s.static b ∧ v.timer.maint = false
      ∧ (v.chan b).step = loadedChannel true .s (s.static b).engageLimit false := by
  subst hv
  refine ⟨h.apart.berth.trans (s.berth_connectClaimed b q), ?_, h.apart.maint.trans h.maint, ?_⟩
  · exact congrArg (fun k : Tables => k.statics.get b) h.apart.tables
  · rw [h.apart.chan, ← h.maint]
    exact s.step_connectClaimed b q

/-- A claim that is granted with the ship not ready leaves the berth in ENGAGING with its grant (R29, R90). -/
theorem holds_grant (hr : ∀ r, (s.berth b).latest = some r → r.ready = false)
    (ht : Tested (((s.connectClaimed b q).serviceWalk s.budget.claims).grantEngage (s.engageClaim b)) t) :
    t.berth b = { (s.berth b).connectAsked q with baseGrant := (s.static b).baseCredits } ∧ t.noClaim b
      ∧ (t.chan b).step = loadedChannel true .s (s.static b).engageLimit false := by
  generalize hv : (s.connectClaimed b q).serviceWalk s.budget.claims = v at ht
  obtain ⟨hberth, hstatic, -, hstep⟩ := h.found hv.symm
  have hgrant : v.grantEngage (s.engageClaim b) = v.engageTaken (s.engageClaim b) :=
    State.grantEngage_holds_grant (congrArg Berth.state hberth) ((congrArg Berth.mode hberth).trans h.auto)
      fun r hl => hr r ((congrArg Berth.latest hberth).symm.trans hl)
  rw [hgrant] at ht
  refine ⟨?_, ?_, ?_⟩
  · rw [State.berth, ht.berths, ← hstatic, ← hberth]
    exact v.berth_engageTaken (s.engageClaim b)
  · unfold State.noClaim
    rw [ht.claims]
    exact v.noClaim_engageTaken (s.engageClaim b)
  · rw [State.chan, ht.chans]
    exact hstep

/-- A claim that is granted with the ship ready brings the berth to ENERGIZING under breaker confirm, with SHORE_BKR=CLOSE queued between
its two RSP writes (R29, R90). -/
theorem goes_on (hl : (s.berth b).latest = some r) (hr : r.ready = true)
    (ht : Tested (((s.connectClaimed b q).serviceWalk s.budget.claims).grantEngage (s.engageClaim b)) t) :
    t.berth b =
        { ((s.berth b).entered .energizing).answeredPending q.toggle .connect none with
          baseGrant := (s.static b).baseCredits }
      ∧ t.noClaim b ∧ (t.chan b).step = loadedChannel false .f (s.static b).breakerConfirm false
      ∧ (s.budget.claims = [] →
        t.owq = placeWrite (placeWrite (placeWrite s.owq (s.rspEntry b ((s.berth b).connectAsked q)))
          (s.seqEntry b .shoreBkr cmdClose)) (s.rspEntry b (t.berth b))) := by
  generalize hv : (s.connectClaimed b q).serviceWalk s.budget.claims = v at ht
  obtain ⟨hberth, hstatic, hmaint, -⟩ := h.found hv.symm
  have hgrant : v.grantEngage (s.engageClaim b) = (v.engageTaken (s.engageClaim b)).connectReady b :=
    State.grantEngage_goes_on (congrArg Berth.state hberth) ((congrArg Berth.mode hberth).trans h.auto)
      ((congrArg Berth.latest hberth).trans hl) hr
  have htaken := v.berth_engageTaken (s.engageClaim b)
  have hown : t.berth b = ((v.engageTaken (s.engageClaim b)).berth b).entered .energizing := by
    rw [State.berth, ht.berths, hgrant]
    exact Eight.get_set_same _ _ _
  have hown' : t.berth b = { ((s.berth b).entered .energizing).answeredPending q.toggle .connect none with
      baseGrant := (s.static b).baseCredits } := by
    rw [hown]
    refine (congrArg (Berth.entered · .energizing) htaken).trans ?_
    show Berth.entered { v.berth b with baseGrant := (v.static b).baseCredits } .energizing = _
    rw [hberth, hstatic]
    rfl
  refine ⟨hown', ?_, ?_, fun hc => ?_⟩
  · unfold State.noClaim
    rw [ht.claims, hgrant]
    exact State.noClaim_connectReady (v.noClaim_engageTaken (s.engageClaim b))
  · rw [State.chan, ht.chans, hgrant]
    refine (congrArg Channels.step (Eight.get_set_same _ _ _)).trans ?_
    show loadedChannel false .f (v.static b).breakerConfirm v.timer.maint = _
    rw [hmaint, hstatic]
  · have htables : v.tables = s.tables := by
      rw [← hv]
      exact h.apart.tables
    have howq : v.owq = placeWrite s.owq (s.rspEntry b ((s.berth b).connectAsked q)) := by
      rw [← hv, hc]
      rfl
    have hrsp : ∀ x, v.rspEntry b x = s.rspEntry b x := fun x => rspEntry_congr htables b x
    have hseq : v.seqEntry b .shoreBkr cmdClose = s.seqEntry b .shoreBkr cmdClose := seqEntry_congr htables b _ _
    rw [hown, ht.owq, hgrant, State.connectReady_eq, State.reportState_eq, State.berth_movedAs, ← hrsp, ← hrsp, ← hseq]
    show placeWrite (placeWrite v.owq _) _ = _
    rw [howq, hrsp]
    rfl

/-- A CONNECT within Ccfg: its claim waits or is granted; alone in the queue, by C − G (R87, R89). -/
theorem ends_event (ht : t = (s.connectClaimed b q).endEvent) :
    ((t.berth b = (s.berth b).connectAsked q ∧ s.engageClaim b ∈ t.budget.claims
          ∧ (t.chan b).step = loadedChannel true .s (s.static b).engageLimit false)
        ∨ (t.berth b = { (s.berth b).connectAsked q with baseGrant := (s.static b).baseCredits } ∧ t.noClaim b
          ∧ (∀ r, (s.berth b).latest = some r → r.ready = false)
          ∧ (t.chan b).step = loadedChannel true .s (s.static b).engageLimit false)
        ∨ (t.berth b =
            { ((s.berth b).entered .energizing).answeredPending q.toggle .connect none with
              baseGrant := (s.static b).baseCredits }
          ∧ t.noClaim b ∧ (∃ r, (s.berth b).latest = some r ∧ r.ready = true)
          ∧ (t.chan b).step = loadedChannel false .f (s.static b).breakerConfirm false
          ∧ (s.budget.claims = [] →
            t.owq = placeWrite (placeWrite (placeWrite s.owq (s.rspEntry b ((s.berth b).connectAsked q)))
              (s.seqEntry b .shoreBkr cmdClose)) (s.rspEntry b (t.berth b)))))
      ∧ (s.budget.claims = [] →
        (t.noClaim b ↔ ((s.static b).baseCredits : Int) ≤ (s.budget.capacity : Int) - s.granted)) := by
  have hfit := s.fits_connectClaimed b q
  rcases serviceWalk_append_engage (c := s.engageClaim b) rfl s.budget.claims (s.connectClaimed b q) with
    ⟨hpass, hwaits⟩ | ⟨hpass, hfits⟩
  · have htested : Tested _ t := ht ▸ endEvent_of_pass (s := s.connectClaimed b q) hpass
    obtain ⟨hberth, hclaim, hstep⟩ := h.waits htested
    refine ⟨.inl ⟨hberth, hclaim, hstep⟩, fun hc => ?_⟩
    rw [← hfit]
    exact iff_of_false (fun hnone => hnone _ hclaim rfl) (hwaits hc)
  · have htested : Tested _ t := ht ▸ endEvent_of_pass (s := s.connectClaimed b q) hpass
    have hgranted : t.noClaim b → s.budget.claims = [] →
        (t.noClaim b ↔ ((s.static b).baseCredits : Int) ≤ (s.budget.capacity : Int) - s.granted) := fun hnone hc => by
      rw [hc] at hfits
      exact iff_of_true hnone (hfit.mp hfits)
    by_cases hready : ∃ r, (s.berth b).latest = some r ∧ r.ready = true
    · obtain ⟨r, hl, hr⟩ := hready
      obtain ⟨hberth, hnone, hstep, howq⟩ := h.goes_on hl hr htested
      exact ⟨.inr (.inr ⟨hberth, hnone, ⟨r, hl, hr⟩, hstep, howq⟩), hgranted hnone⟩
    · have hnot : ∀ r, (s.berth b).latest = some r → r.ready = false := fun r hl =>
        Bool.eq_false_iff.mpr fun hr => hready ⟨r, hl, hr⟩
      obtain ⟨hberth, hnone, hstep⟩ := h.holds_grant hnot htested
      exact ⟨.inr (.inl ⟨hberth, hnone, hnot, hstep⟩), hgranted hnone⟩

end State.Connects

end Sys2Proof.Machine

open Sys2Proof Sys2Proof.Machine

/-- Settles O25: above Ccfg the berth is turned back; within it the claim is placed, and the service pass that ends the event decides. -/
theorem connectEntersEngaging : Obligations.ConnectEntersEngaging := by
  intro s b q hs ht hm hst hmode hr
  have hreach : s.ReachesOwner b .connect q := ⟨hs, ht, by decide, by rw [hst]; decide, .inl hr, .inl hm⟩
  rw [exec_reqConnect]
  refine ⟨fun habove => congrArg _ ?_, fun hwithin hn => ?_⟩
  · have howned := State.ownConnect_above (u := s.reqTaken b ReqCode.connect.code q) (b := b)
      ((s.state_reqTaken b _ q).trans hst) ((s.mode_reqTaken b _ q).trans hmode) habove
    have hberth : ((s.reqTaken b ReqCode.connect.code q).turnedBack b).berth b = _ := Eight.get_set_same _ _ _
    rw [hreach.ends howned, State.reportState_answer_final, State.reportedAs_ends ⟨rfl, rfl⟩, State.turnedBack_reportedAs,
      hberth, s.berth_reqTaken b _ q, ← hmode]
    rfl
  · have h : s.Connects b q := ⟨hreach, hst, hmode, hm, hwithin, hn⟩
    have hmemory := State.writesReq_sameMemory hs ht ReqCode.connect.code
    obtain ⟨houtcome, hgranted⟩ := h.ends_event rfl
    rw [h.claims] at hmemory ⊢
    exact ⟨_, rfl, (State.endEvent_rest _).ports, hmemory, houtcome, hgranted⟩

end

section
/-! RETURN in SHORE in AUTO (05, section 5.2; R39, R40): the level falls to 0, the berth's claim is withdrawn, and the return begins by the
transfer kind. -/

namespace Sys2Proof.Machine

variable {s u y t : State} {b : BerthId} {q : ReqBits} {old : BState} {m : Mode} {r : Berth} {c : Channels}
  {ws : List (CmdWord × Word)}

/-! ## The end of a claimless berth's move -/

/-- A state within an event of `s`'s, its report still to come: the berth has no claim, its channels are `c`, and the commands `ws` are
queued. -/
structure State.Departed (s y : State) (b : BerthId) (c : Channels) (ws : List (CmdWord × Word)) : Prop where
  noClaim : y.noClaim b
  claims : ∀ x ∈ y.budget.claims, x ∈ s.budget.claims
  chan : y.chan b = c
  tables : y.tables = s.tables
  owq : y.owq = placeAll s.owq (s.seqEntries b ws)

/-- The report and the answer of a berth with no claim stand at the end of the event, and where no other claim waits so does the Own
Write Queue (R91, R103). -/
theorem State.Departed.ends (h : s.Departed y b c ws) (ht : t = (y.reportedAs b old m r).endEvent) :
    t.berth b = r ∧ t.chan b = c ∧ t.noClaim b ∧ (b ∈ t.budget.stack → b ∈ y.budget.stack)
      ∧ (s.budget.claims = [] → t.owq = placeWrite (placeAll s.owq (s.seqEntries b ws)) (s.rspEntry b (t.berth b))) := by
  have hnone : (y.reportedAs b old m r).noClaim b := h.noClaim
  have hapart : Apart b (y.reportedAs b old m r) t := ht ▸ Apart.endEvent hnone
  have hberth : t.berth b = r := hapart.berth.trans (Eight.get_set_same _ _ _)
  refine ⟨hberth, hapart.chan.trans h.chan, hapart.noClaim hnone, hapart.stack, fun hc => ?_⟩
  have hnil : (y.reportedAs b old m r).budget.claims = [] :=
    List.eq_nil_iff_forall_not_mem.mpr fun x hx => List.not_mem_nil (hc ▸ h.claims x hx)
  rw [hberth, ← h.owq, ← rspEntry_congr h.tables, ht]
  exact (State.endEvent_shows hnil).1

/-! ## The two ways back (R39, R40) -/

/-- A RETURN by a closed transition, its level at 0 and its commands queued. -/
def State.resyncing (u : State) (b : BerthId) : State :=
  (((u.enter b .resyncing).loadStep b .sync).leaveShore b).seqWrite b .genRelease genHold

theorem State.ownReturn_closed (hst : (u.berth b).state = .shore) (hm : (u.berth b).mode = .auto)
    (hkind : (u.static b).transferKind = .closedTransition) :
    u.ownReturn b = ((u.resyncing b).reportState b .shore .auto, .pending) := by
  rw [State.ownReturn, if_pos ⟨hst, hm⟩, hkind, hm]
  rfl

theorem State.ownReturn_open (hst : (u.berth b).state = .shore) (hm : (u.berth b).mode = .auto)
    (hkind : (u.static b).transferKind = .openTransition) :
    u.ownReturn b = (((u.leaveShore b).toSeparating b).reportState b .shore .auto, .pending) := by
  rw [State.ownReturn, if_pos ⟨hst, hm⟩, hkind, hm]

theorem LeftShore.held_departed {v : State} (h : LeftShore u v b .shore) :
    u.Departed (v.seqWrite b .genRelease genHold) b (u.chan b) [u.chargeZero, (.genRelease, genHold)] where
  noClaim := h.noClaim fun hne => absurd rfl hne
  claims := h.sub
  chan := h.chan
  tables := h.tables
  owq := by
    show placeWrite v.owq (v.seqEntry b .genRelease genHold) = _
    rw [h.owq, seqEntry_congr h.tables]
    rfl

theorem LeftShore.toSeparating_departed {v : State} (h : LeftShore u v b .shore) (ht : v.timer = u.timer) :
    u.Departed (v.toSeparating b) b
      { u.chan b with step := Channel.loaded .confirm (u.static b).breakerConfirm u.timer.maint }
      [u.chargeZero, (.shipconBkr, cmdOpen), (.genRelease, genHold)] where
  noClaim := h.noClaim fun hne => absurd rfl hne
  claims := h.sub
  chan := by
    have hstatic : v.static b = u.static b := congrArg (fun k : Tables => k.statics.get b) h.tables
    refine (Eight.get_set_same _ _ _).trans ?_
    show ({ v.chan b with step := Channel.loaded .confirm (v.static b).breakerConfirm v.timer.maint } : Channels) = _
    rw [h.chan, hstatic, ht]
  tables := h.tables
  owq := by
    show placeWrite (placeWrite v.owq (v.seqEntry b .shipconBkr cmdOpen)) (v.seqEntry b .genRelease genHold) = _
    rw [h.owq, seqEntry_congr h.tables, seqEntry_congr h.tables]
    rfl

theorem LeftShore.berth_toSeparating {v : State} (h : LeftShore u v b .shore) :
    (v.toSeparating b).berth b = ((u.berth b).leftShore .shore).entered .separating := by
  rw [← h.berth]
  exact berth_enter _

theorem State.resyncing_departed (u : State) (b : BerthId) :
    u.Departed (u.resyncing b) b { u.chan b with step := Channel.loaded .sync (u.static b).syncLimit u.timer.maint }
      [u.chargeZero, (.genRelease, genHold)] := by
  have hleft := leaveShore_fields ((u.enter b .resyncing).loadStep b .sync) b
  have hheld := hleft.held_departed
  exact { hheld with chan := hheld.chan.trans (Eight.get_set_same _ _ _) }

theorem State.separating_departed (u : State) (b : BerthId) :
    u.Departed ((u.leaveShore b).toSeparating b) b
      { u.chan b with step := Channel.loaded .confirm (u.static b).breakerConfirm u.timer.maint }
      [u.chargeZero, (.shipconBkr, cmdOpen), (.genRelease, genHold)] :=
  have htimer : (u.leaveShore b).timer = u.timer := by simp [State.leaveShore]
  (leaveShore_fields u b).toSeparating_departed htimer

theorem State.not_stacked_separating (u : State) (b : BerthId) : b ∉ ((u.leaveShore b).toSeparating b).budget.stack :=
  (leaveShore_fields u b).stack rfl

@[simp] theorem State.leaveShore_ports (u : State) (b : BerthId) : (u.leaveShore b).ports = u.ports := by simp [State.leaveShore]

theorem State.toSeparating_ports (u : State) (b : BerthId) : (u.toSeparating b).ports = u.ports := rfl

theorem State.berth_resyncing (u : State) (b : BerthId) :
    (u.resyncing b).berth b = ((u.berth b).entered .resyncing).leftShore .shore := by
  have hberth := (leaveShore_fields ((u.enter b .resyncing).loadStep b .sync) b).berth
  rw [State.resyncing]
  exact hberth.trans (congrArg (Berth.leftShore · .shore) (berth_enter _))

theorem State.not_stacked_resyncing (u : State) (b : BerthId) : b ∉ (u.resyncing b).budget.stack :=
  (leaveShore_fields ((u.enter b .resyncing).loadStep b .sync) b).stack rfl

/-- A RETURN that runs on from a departure of the taken request (R106, R108). -/
theorem State.ReachesOwner.departs (h : s.ReachesOwner b .return q)
    (ho : (s.reqTaken b ReqCode.return.code q).owner b .return q.operand = (y.reportState b .shore .auto, .pending))
    (hd : (s.reqTaken b ReqCode.return.code q).Departed y b c ws) (hstack : b ∉ y.budget.stack)
    (hports : y.ports = (s.reqTaken b ReqCode.return.code q).ports) (ht : t = s.writesReq b ReqCode.return.code q) :
    t.berth b = (y.berth b).runsOn .return q.toggle ∧ t.chan b = c ∧ b ∉ t.budget.stack ∧ s.sameMemory t
      ∧ t.ports = { s.ports with host := some (.write (s.tables.reqAddress b) (reqWord 3 q)) }
      ∧ (s.budget.claims = [] → t.owq = placeWrite (placeAll s.owq (s.seqEntries b ws)) (s.rspEntry b (t.berth b))) := by
  have hends := (h.ends ho).trans (congrArg State.endEvent (State.reportState_answer_pending (by decide) y b .shore .auto q.toggle _))
  obtain ⟨hberth, hchan, -, hin, howq⟩ := hd.ends (ht.trans hends)
  have hmemory := State.writesReq_sameMemory h.serves h.fresh ReqCode.return.code
  refine ⟨hberth, hchan, fun hb => hstack (hin hb), ht ▸ hmemory, ?_, howq⟩
  rw [ht, hends, (State.endEvent_rest _).ports]
  exact hports

end Sys2Proof.Machine

open Sys2Proof Sys2Proof.Machine

/-- Settles O27, by the transfer kind. -/
theorem returnStartsByKind : Obligations.ReturnStartsByKind := by
  intro s b q hs ht hm hst hmode hr hn
  have hreach : s.ReachesOwner b .return q := ⟨hs, ht, by decide, by rw [hst]; decide, .inl hr, .inl hm⟩
  have hst' := (s.state_reqTaken b ReqCode.return.code q).trans hst
  have hmode' := (s.mode_reqTaken b ReqCode.return.code q).trans hmode
  rw [exec_reqReturn]
  refine ⟨fun hkind => ?_, fun hkind => ?_⟩
  · obtain ⟨hberth, hchan, hrest⟩ := hreach.departs (State.ownReturn_closed hst' hmode' hkind)
      (State.resyncing_departed _ b) (State.not_stacked_resyncing _ b) (State.leaveShore_ports _ b) rfl
    refine ⟨_, rfl, ?_, ?_, hrest⟩
    · rw [hberth, State.berth_resyncing, s.berth_reqTaken b _ q]
      rfl
    · rw [hchan]
      show ({ s.chan b with step := loadedChannel true .s (s.static b).syncLimit s.timer.maint } : Channels) = _
      rw [hm]
  · obtain ⟨hberth, hchan, hrest⟩ := hreach.departs (State.ownReturn_open hst' hmode' hkind)
      (State.separating_departed _ b) (State.not_stacked_separating _ b)
      ((State.toSeparating_ports _ b).trans (State.leaveShore_ports _ b)) rfl
    refine ⟨_, rfl, ?_, ?_, hrest⟩
    · rw [hberth, (leaveShore_fields _ b).berth_toSeparating, s.berth_reqTaken b _ q]
      rfl
    · rw [hchan]
      show ({ s.chan b with step := loadedChannel false .f (s.static b).breakerConfirm s.timer.maint } : Channels) = _
      rw [hm]

end

section
/-! ABORT in AUTO (05, section 5.2; R46, R47): refused where nothing can be given up; elsewhere the request in progress ends ABORTED and the
berth takes the way back of its state. -/

namespace Sys2Proof.Machine

variable {s t u v w y : State} {b : BerthId} {q : ReqBits} {old : BState} {m : Mode} {r : Berth} {c : Channels}
  {ws : List (CmdWord × Word)} {res : Result}

/-! ## The end of a request that RSP answers no longer (R109) -/

/-- A request's end shows in its record and in the log where RSP answers another request. -/
theorem State.finalise_of_answered (hp : (y.berth b).phase = .final) (res : Result) :
    y.finalise b res =
      { y with
        berths := y.berths.set b { y.berth b with request := none }
        log := y.log.stageAll (y.finalRecords b res) } := by
  cases hr : (y.berth b).request with
  | none =>
    have hsame : y.berths.set b { y.berth b with request := none } = y.berths := by
      rw [← hr]
      exact Eight.set_get_self _ _
    rw [State.finalise_of_none res hr, hsame, State.finalRecords, hr]
    rfl
  | some rq =>
    rw [State.finalise_of_final res hr hp, State.finalRecords, hr, hp]
    rfl

/-- A move, the end of the request under the answer of another, its report and that answer, told from the state in which the write
arrived. -/
theorem State.movedAs_finalise_reportedAs (s : State) (code : BitVec 4) (q : ReqBits) (r' : Berth) (hp : r.phase = .final)
    (hr : r.request = (s.berth b).request) :
    (((s.reqTaken b code q).movedAs b r c ws).finalise b res).reportedAs b old m r' =
      { s.passedWrite (s.tables.reqAddress b) (reqWord code q) with
        berths := s.berths.set b r'
        chans := s.chans.set b c
        owq := placeWrite (placeAll s.owq (s.seqEntries b ws)) (s.rspEntry b r')
        log := (s.log.stageAll ((s.reqTaken b code q).finalRecords b res)).stage (s.stateRecord b old m r.state r.mode) } := by
  have hmoved : ((s.reqTaken b code q).movedAs b r c ws).berth b = r := State.berth_movedAs _ _ _ _ _
  have hrecords : ((s.reqTaken b code q).movedAs b r c ws).finalRecords b res = (s.reqTaken b code q).finalRecords b res := by
    rw [State.finalRecords, hmoved, hp, hr, State.finalRecords, State.request_reqTaken, State.berth_reqTaken]
    rfl
  rw [State.finalise_of_answered (by rw [hmoved]; exact hp), hrecords, hmoved]
  have hberths :
      (((s.reqTaken b code q).movedAs b r c ws).berths.set b { r with request := none }).set b r' = s.berths.set b r' := by
    show (Eight.set (Eight.set (Eight.set (Eight.set s.berths b _) b r) b _) b r') = _
    rw [Eight.set_set, Eight.set_set, Eight.set_set]
  have hberth : (((s.reqTaken b code q).movedAs b r c ws).berths.set b { r with request := none }).get b =
      { r with request := none } := Eight.get_set_same _ _ _
  rw [State.reportedAs, hberths, State.berth, hberth]
  rfl

/-! ## The moves (R35, R36, R47) -/

theorem State.toSeparating_eq (u : State) (b : BerthId) :
    u.toSeparating b = u.movedAs b ((u.berth b).entered .separating)
      { u.chan b with step := Channel.loaded .confirm (u.static b).breakerConfirm u.timer.maint }
      [(.shipconBkr, cmdOpen), (.genRelease, genHold)] := rfl

/-- A transfer given up before its close is issued: back to ENERGIZED, from DEADBUS with GEN_RELEASE=HOLD queued (R35, R36). -/
def State.gaveUpTransfer (u : State) (b : BerthId) : State :=
  u.movedAs b ((u.berth b).entered .energized) { u.chan b with step := Channel.idle }
    (if (u.berth b).state = .deadbus then [(.genRelease, genHold)] else [])

theorem State.transferGivenUp_eq (u : State) (b : BerthId) (res : Result) :
    u.transferGivenUp b res = ((u.gaveUpTransfer b).finalise b res).reportState b (u.berth b).state (u.berth b).mode := by
  have hmoved : (if (u.berth b).state = .deadbus then (u.toEnergized b).seqWrite b .genRelease genHold else u.toEnergized b) =
      u.gaveUpTransfer b := by
    unfold State.gaveUpTransfer
    split
    · rfl
    · rfl
  rw [← hmoved]
  rfl

/-! ## ABORT in AUTO by the state found (R47) -/

/-- Where ABORT finds nothing to give up (R46, R47). -/
def State.abortRefused (u : State) (b : BerthId) : Prop :=
  (u.berth b).state = .vacant ∨ (u.berth b).state = .cabled ∨ (u.berth b).state = .unparallel
    ∨ (u.berth b).state = .separating ∨ (u.berth b).state = .disengaging ∨ (u.berth b).state = .lockout
    ∨ ((u.berth b).state = .syncing ∨ (u.berth b).state = .deadbus) ∧ (u.berth b).closeIssued = true
    ∨ (u.berth b).state = .shore ∧ u.noClaim b

theorem State.abortAuto_refused (h : u.abortRefused b) : u.abortAuto b = (u, .final .refused) := by
  rw [State.abortAuto]
  rcases h with h | h | h | h | h | h | ⟨h | h, hc⟩ | ⟨h, hn⟩
  case inr.inr.inr.inr.inr.inr.inr =>
    rw [h, State.levelClaimWaits_of_noClaim hn]
    rfl
  case inr.inr.inr.inr.inr.inr.inl.inl | inr.inr.inr.inr.inr.inr.inl.inr =>
    rw [h, hc]
    rfl
  all_goals rw [h]

theorem State.abortAuto_engaging (hst : (u.berth b).state = .engaging) :
    u.abortAuto b =
      (((((u.enter b .cabled).stopStep b).giveUpGrant b).finalise b .aborted).reportState b .engaging (u.berth b).mode,
        .final .done) := by
  rw [State.abortAuto, hst]
  rfl

theorem State.abortAuto_closed (hst : (u.berth b).state = .energizing ∨ (u.berth b).state = .energized) :
    u.abortAuto b =
      ((((u.movedAs b ((u.berth b).entered .disengaging)
        { step := Channel.loaded .confirm (u.static b).breakerConfirm u.timer.maint, settle := Channel.idle }
        [(.shoreBkr, cmdOpen)]).finalise b .aborted).reportState b (u.berth b).state (u.berth b).mode), .final .done) := by
  rw [State.abortAuto, ← State.toDisengaging_eq]
  rcases hst with h | h
  · rw [h]
  · rw [h]

theorem State.abortAuto_transfer (hst : (u.berth b).state = .syncing ∨ (u.berth b).state = .deadbus)
    (hc : (u.berth b).closeIssued = false) :
    u.abortAuto b =
      (((u.gaveUpTransfer b).finalise b .aborted).reportState b (u.berth b).state (u.berth b).mode, .final .done) := by
  rw [State.abortAuto, ← State.transferGivenUp_eq]
  rcases hst with h | h
  · rw [h, hc]
    rfl
  · rw [h, hc]
    rfl

theorem State.abortAuto_parallel (hst : (u.berth b).state = .parallel) :
    u.abortAuto b =
      (((u.movedAs b ((u.berth b).entered .separating)
        { u.chan b with step := Channel.loaded .confirm (u.static b).breakerConfirm u.timer.maint }
        [(.shipconBkr, cmdOpen), (.genRelease, genHold)]).finalise b .aborted).reportState b .parallel (u.berth b).mode,
        .final .done) := by
  rw [State.abortAuto, hst, ← State.toSeparating_eq]

theorem State.abortAuto_resyncing (hst : (u.berth b).state = .resyncing) :
    u.abortAuto b = (((u.toShore b).finalise b .aborted).reportState b .resyncing (u.berth b).mode, .final .done) := by
  rw [State.abortAuto, hst]

theorem State.abortAuto_level (hst : (u.berth b).state = .shore) (hw : u.levelClaimWaits b = true) :
    u.abortAuto b = (u.abortLevel b, .final .done) := by
  rw [State.abortAuto, hst, hw]
  rfl

/-- A berth out of ENGAGING with its claim withdrawn or its grant returned (R31, R47). -/
theorem State.berth_gaveUpGrant (u : State) (b : BerthId) (st : BState) :
    (((u.enter b st).stopStep b).giveUpGrant b).berth b = { (u.berth b).entered st with baseGrant := 0 } := by
  rw [State.giveUpGrant, State.berth_returnBase_same, State.berth_withdrawClaim]
  exact congrArg (fun x : Berth => { x with baseGrant := 0 }) (berth_enter _)

theorem State.chan_gaveUpGrant (u : State) (b : BerthId) (st : BState) :
    (((u.enter b st).stopStep b).giveUpGrant b).chan b = { u.chan b with step := Channel.idle } := by
  rw [State.giveUpGrant, State.chan_returnBase, State.chan_withdrawClaim]
  exact Eight.get_set_same _ _ _

/-! ## Judgement -/

/-- A new ABORT of a served berth in AUTO outside ADOPTING. -/
structure State.AbortsAuto (s : State) (b : BerthId) (q : ReqBits) : Prop where
  serves : s.serves b
  fresh : q.toggle ≠ (s.berth b).lastTaken
  auto : (s.berth b).mode = .auto
  adopted : (s.berth b).state ≠ .adopting

namespace State.AbortsAuto

variable (h : s.AbortsAuto b q)
include h

/-- ABORT comes to its owner, whatever request is in progress and whatever MAINT (R46, R107, R110). -/
theorem reaches : s.ReachesOwner b .abort q := ⟨h.serves, h.fresh, by decide, h.adopted, .inr rfl, .inr rfl⟩

theorem owner : (s.abortTaken b q).owner b .abort q.operand = (s.abortTaken b q).abortAuto b := by
  have hmode : ((s.abortTaken b q).berth b).mode = .auto := (s.mode_reqTaken b _ q).trans h.auto
  rw [State.owner, State.ownAbort, hmode]

/-! ## The outcomes -/

/-- A move that ends the request in progress, with the event's marks clear. -/
theorem moves (ho : (s.abortTaken b q).abortAuto b =
      ((((s.abortTaken b q).movedAs b r c ws).finalise b .aborted).reportState b old m, .final .done))
    (hp : r.phase = .final) (hr : r.request = (s.berth b).request) (ht : t = s.writesReq b ReqCode.abort.code q) :
    t.berth b = { r.concluded .done with request := none } ∧ t.chan b = c ∧ s.sameMemory t
      ∧ t.owq = placeWrite (placeAll s.owq (s.seqEntries b ws)) (s.rspEntry b (t.berth b))
      ∧ t.log = (s.log.stageAll ((s.abortTaken b q).finalRecords b .aborted)).stage (s.stateRecord b old m r.state r.mode) := by
  have hmemory := State.writesReq_sameMemory h.serves h.fresh ReqCode.abort.code
  rw [← ht] at hmemory
  have hended : (((s.abortTaken b q).movedAs b r c ws).finalise b .aborted).berth b = { r with request := none } := by
    rw [State.berth_finalise_same, State.berth_movedAs, Berth.finalised_of_final hp]
  have hbegun : (((s.abortTaken b q).movedAs b r c ws).finalise b .aborted).begun := by
    rw [State.begun, State.finalise_budget]
    exact ⟨rfl, rfl⟩
  rw [h.reaches.ends (h.owner.trans ho), State.reportState_answer_final, State.reportedAs_ends hbegun, hended,
    State.movedAs_finalise_reportedAs s _ q _ hp hr] at ht
  have hberth : t.berth b = { r.concluded .done with request := none } := ht ▸ Eight.get_set_same _ _ _
  refine ⟨hberth, ht ▸ Eight.get_set_same _ _ _, hmemory, ?_, ?_⟩
  · rw [hberth, ht]
    rfl
  · rw [ht]

/-- A way back whose event may end with a service pass, the berth having no claim (R91). -/
theorem ends (ho : (s.abortTaken b q).abortAuto b = ((y.finalise b .aborted).reportState b old m, .final .done))
    (hp : (y.berth b).phase = .final) (hn : y.noClaim b) (ht : t = s.writesReq b ReqCode.abort.code q) :
    t.berth b = { (y.berth b).concluded .done with request := none } ∧ t.chan b = y.chan b ∧ t.noClaim b ∧ s.sameMemory t
      ∧ (y.budget.claims = [] → t.owq = placeWrite y.owq (y.rspEntry b (t.berth b))) := by
  have hmemory := State.writesReq_sameMemory h.serves h.fresh ReqCode.abort.code
  rw [← ht] at hmemory
  rw [h.reaches.ends (h.owner.trans ho)] at ht
  have hend := State.answer_final_ends (v := (y.finalise b .aborted).reportState b old m) (b := b)
    (finalise_noClaim (c := b) .aborted hn) ReqCode.abort.code q.toggle q.operand .done
  rw [← ht] at hend
  have hfinal := State.finalise_of_answered hp .aborted
  refine ⟨?_, ?_, hend.noClaim, hmemory, fun hc => ?_⟩
  · rw [hend.berth]
    show Berth.concluded ((y.finalise b .aborted).berth b) .done = _
    rw [State.berth_finalise_same, Berth.finalised_of_final hp]
    rfl
  · exact hend.chan.trans (State.chan_finalise y b .aborted b)
  · have hnil : ((y.finalise b .aborted).reportState b old m).budget.claims = [] :=
      (congrArg Budget.claims (State.finalise_budget y b .aborted)).trans hc
    rw [hend.owq hnil, State.reportState_eq, hfinal]
    exact rsp_twice y b _ _ y.owq

theorem refused (hr : s.abortRefused b) :
    s.writesReq b ReqCode.abort.code q = s.answeredOnly b q.toggle .refused (reqWord ReqCode.abort.code q) := by
  refine h.reaches.answered (h.owner.trans (State.abortAuto_refused ?_))
  rw [State.abortRefused, State.berth_reqTaken]
  exact hr

/-- In ENGAGING the claim or the grant is given up and the berth goes back to CABLED. -/
theorem engaging (hst : (s.berth b).state = .engaging) (ht : t = s.writesReq b ReqCode.abort.code q) :
    t.berth b = { ((s.berth b).entered .cabled).answeredFinal q.toggle .done with request := none, baseGrant := 0 }
      ∧ (t.chan b).step = Channel.idle ∧ t.noClaim b ∧ s.sameMemory t := by
  have hberth := (s.abortTaken b q).berth_gaveUpGrant b .cabled
  obtain ⟨hend, hchan, hn, hmemory, -⟩ := h.ends
    (State.abortAuto_engaging ((s.state_reqTaken b _ q).trans hst)) (by rw [hberth, s.berth_reqTaken]; rfl)
    (giveUp_noClaim _ b).1 ht
  refine ⟨?_, ?_, hn, hmemory⟩
  · rw [hend, hberth, s.berth_reqTaken]
    rfl
  · rw [hchan, State.chan_gaveUpGrant]

/-- From RESYNCING the berth goes back to SHORE at level 0. -/
theorem resyncing (hst : (s.berth b).state = .resyncing) (hn : s.noClaim b) (ht : t = s.writesReq b ReqCode.abort.code q) :
    t.berth b =
        { ((s.berth b).entered .shore).answeredFinal q.toggle .done with
          request := none, level := 0, residency := 0, idle := 0 }
      ∧ (t.chan b).step = Channel.idle ∧ s.sameMemory t
      ∧ (s.budget.claims = [] →
        t.owq = placeAll s.owq
          (s.seqEntries b [s.chargeZero, (.genRelease, genRelease)] ++ [s.rspEntry b (t.berth b)])) := by
  have hmode : ((s.abortTaken b q).berth b).mode = .auto := (s.mode_reqTaken b _ q).trans h.auto
  obtain ⟨hberth, hchan, htables, -, -, howq, -, hclaims⟩ := toShore_fields (s.abortTaken b q) b
  have hnone : ((s.abortTaken b q).toShore b).noClaim b := by
    unfold State.noClaim
    rw [hclaims]
    exact hn
  obtain ⟨hend, hchan', -, hmemory, howq'⟩ := h.ends
    (State.abortAuto_resyncing ((s.state_reqTaken b _ q).trans hst)) (by rw [hberth, s.berth_reqTaken]; rfl) hnone ht
  refine ⟨?_, ?_, hmemory, fun hc => ?_⟩
  · rw [hend, hberth, s.berth_reqTaken]
    rfl
  · rw [hchan', hchan]
  · rw [howq' (hclaims.trans hc), howq, hmode, rspEntry_congr htables, placeAll_append]
    rfl

/-- In SHORE a LEVEL claim is withdrawn and its SET_LEVEL ends (R92). -/
theorem level (hst : (s.berth b).state = .shore) (hw : s.levelClaimWaits b = true)
    (ht : t = s.writesReq b ReqCode.abort.code q) :
    t.berth b = { (s.berth b).answeredFinal q.toggle .done with request := none }
      ∧ t.noClaim b ∧ t.chan b = s.chan b ∧ s.sameMemory t := by
  have hmemory := State.writesReq_sameMemory h.serves h.fresh ReqCode.abort.code
  rw [← ht] at hmemory
  have habort := State.abortLevel_aborted (u := s.abortTaken b q) (b := b) (by rw [s.berth_reqTaken])
  rw [h.reaches.ends (h.owner.trans (State.abortAuto_level ((s.state_reqTaken b _ q).trans hst) hw))] at ht
  have hend := State.answer_final_ends habort.noClaim ReqCode.abort.code q.toggle q.operand .done
  rw [← ht] at hend
  refine ⟨?_, hend.noClaim, ?_, hmemory⟩
  · rw [hend.berth, habort.berth, s.berth_reqTaken]
    rfl
  · rw [hend.chan, State.chan, habort.chans]
    rfl

end State.AbortsAuto

end Sys2Proof.Machine

open Sys2Proof Sys2Proof.Machine

/-- Settles O32, by the state and the marks found. -/
theorem abortInAutoByState : Obligations.AbortInAutoByState := by
  intro s b q hs ht hm
  have hfound := s.berth_reqTaken b ReqCode.abort.code q
  have taken : ∀ {st : BState}, (s.berth b).state = st → ((s.abortTaken b q).berth b).state = st :=
    fun hst => (s.state_reqTaken b _ q).trans hst
  have hmode : ((s.abortTaken b q).berth b).mode = .auto := (s.mode_reqTaken b _ q).trans hm
  have aborts : (s.berth b).state ≠ .adopting → s.AbortsAuto b q := fun hst => ⟨hs, ht, hm, hst⟩
  rw [exec_reqAbort]
  refine ⟨fun hr => congrArg _ ((aborts fun hst => ?_).refused hr), fun hst => ?_, fun hst => ?_, fun hst hc => ?_,
    fun hst => ?_, fun hst hn => ?_, fun n k hst hclaim hone => ?_⟩
  · rw [hst] at hr
    simp at hr
  · exact ⟨_, rfl, (aborts (by rw [hst]; decide)).engaging hst rfl⟩
  · have h := aborts (by rcases hst with hst | hst <;> rw [hst] <;> decide)
    obtain ⟨hberth, hchan, hmemory, howq, -⟩ := h.moves (State.abortAuto_closed (hst.imp taken taken))
      (by rw [hfound]; rfl) (by rw [hfound]; rfl) rfl
    refine ⟨_, rfl, ?_, hchan, State.perm_eq_false_of_not_permits ?_, hmemory, howq⟩
    · rw [hberth, hfound]
      rfl
    · rw [hberth]
      rfl
  · have h := aborts (by rcases hst with hst | hst <;> rw [hst] <;> decide)
    obtain ⟨hberth, hchan, hmemory, howq, hlog⟩ := h.moves
      (State.abortAuto_transfer (hst.imp taken taken) (by rw [hfound]; exact hc))
      (by rw [hfound]; rfl) (by rw [hfound]; rfl) rfl
    refine ⟨_, rfl, ?_, congrArg Channels.step hchan, hmemory, fun hd => ?_, fun rq hrq => ?_⟩
    · rw [hberth, hfound]
      rfl
    · rw [howq, if_pos (taken hd)]
      rfl
    · have hrecords : (s.abortTaken b q).finalRecords b .aborted = [s.finalRecord b rq .aborted] := by
        rw [State.finalRecords, hfound, hrq]
        rfl
      rw [hlog, hrecords, hfound, ← hm]
      rfl
  · have h := aborts (by rw [hst]; decide)
    obtain ⟨hberth, hchan, hmemory, howq, -⟩ := h.moves (State.abortAuto_parallel (taken hst))
      (by rw [hfound]; rfl) (by rw [hfound]; rfl) rfl
    refine ⟨_, rfl, ?_, congrArg Channels.step hchan, hmemory, howq⟩
    rw [hberth, hfound]
    rfl
  · exact ⟨_, rfl, (aborts (by rw [hst]; decide)).resyncing hst hn rfl⟩
  · have hw : s.levelClaimWaits b = true := State.levelClaimWaits_of_level hclaim rfl nofun hone
    exact ⟨_, rfl, (aborts (by rw [hst]; decide)).level hst hw rfl⟩

end

section
/-! Expiries of the Step and Settle channels (02, section 2.10; R30, R33, R35, R36, R38, R39, R41, R48, R121, R131, R150): the event of an
expiry acts by the state and marks found. -/

namespace Sys2Proof.Machine

variable {s t u v w y : State} {b : BerthId} {old : BState} {m : Mode} {r : Berth} {c : Channels}
  {ws : List (CmdWord × Word)} {res : Result} {f : FaultSet}

/-! ## A request's end and its report (R24 steps 5 and 6) -/

/-- The return of the base grant and the end of the request do not meet. -/
theorem Berth.finalised_returned (r : Berth) (res : Result) :
    Berth.finalised { r with baseGrant := 0 } res = { r.finalised res with baseGrant := 0 } := by
  unfold Berth.finalised
  dsimp only
  split
  · rfl
  · rfl
  · rfl

theorem Berth.state_finalised (r : Berth) (res : Result) : (r.finalised res).state = r.state := by
  unfold Berth.finalised
  split
  · rfl
  · rfl
  · rfl

/-- The end of the event leaves a claimless berth its move, its request's end and no claim (R91). -/
theorem State.finalReported_ends (hn : y.noClaim b) (ht : t = ((y.finalise b res).reportState b old m).endEvent) :
    t.berth b = (y.berth b).finalised res ∧ t.chan b = y.chan b ∧ t.noClaim b := by
  have hnone : ((y.finalise b res).reportState b old m).noClaim b := finalise_noClaim (c := b) res hn
  have hapart : Apart b ((y.finalise b res).reportState b old m) t := ht ▸ Apart.endEvent hnone
  exact ⟨hapart.berth.trans (State.berth_finalise_same y b res), hapart.chan.trans (State.chan_finalise y b res b),
    hapart.noClaim hnone⟩

/-- Two states whose lines differ by the berths alone (R19, R76). -/
structure SameLines (s t : State) : Prop where
  phase : t.phase = s.phase
  tables : t.tables = s.tables

theorem SameLines.perm_eq (h : SameLines s t) (hp : s.phase = .running) (hst : (t.berth b).state.permits = true) :
    t.perm b = s.configured b := by
  have hrunning : t.phase = .running := h.phase.trans hp
  have hpermits : (t.berths.get b).state.permits = true := hst
  rw [State.perm, State.configured, hrunning, h.tables, hpermits]
  exact Bool.and_true _

/-- The end of a request and the report of its move, with the event's marks clear. -/
theorem State.finalReported_quiet (hy : y.begun) (ht : t = ((y.finalise b res).reportState b old m).endEvent) :
    t.berth b = (y.berth b).finalised res ∧ t.chan b = y.chan b ∧ t.owq = placeWrite y.owq (y.rspEntry b (t.berth b))
      ∧ SameLines y t := by
  have hbudget : ((y.finalise b res).reportState b old m).budget = y.budget := State.finalise_budget y b res
  rw [State.endEvent_of_quiet (by rw [hbudget]; exact hy.1) (by rw [hbudget]; exact hy.2)] at ht
  have hberth : t.berth b = (y.berth b).finalised res := ht ▸ State.berth_finalise_same y b res
  have howq := State.finalise_queueRsp_owq y b res
  rw [← hberth] at howq
  refine ⟨hberth, ?_, ?_, ⟨?_, ?_⟩⟩
  · rw [ht, State.chan_clearMarks]
    exact State.chan_finalise y b res b
  · rw [← howq, ht]
    rfl
  · rw [ht]
    exact State.finalise_phase y b res
  · rw [ht]
    exact State.finalise_tables y b res

/-- The same of a move with its record, channels and commands. -/
theorem State.movedAs_finalReported (hw : w.begun)
    (ht : t = (((w.movedAs b r c ws).finalise b res).reportState b old m).endEvent) :
    t.berth b = r.finalised res ∧ t.chan b = c
      ∧ t.owq = placeWrite (placeAll w.owq (w.seqEntries b ws)) (w.rspEntry b (t.berth b))
      ∧ SameLines w t := by
  have hmoved : (w.movedAs b r c ws).berth b = r := State.berth_movedAs _ _ _ _ _
  have hchans : (w.movedAs b r c ws).chan b = c := Eight.get_set_same _ _ _
  obtain ⟨hberth, hchan, howq, hlines⟩ := State.finalReported_quiet (y := w.movedAs b r c ws) hw ht
  exact ⟨hberth.trans (congrArg (Berth.finalised · res) hmoved), hchan.trans hchans, howq, hlines.phase, hlines.tables⟩

/-! ## A Step expiry by the state found (the table of section 2.10) -/

theorem State.stepExpired_engaging (hst : (w.berth b).state = .engaging) :
    w.stepExpired b =
      ((((w.enter b .cabled).stopStep b).giveUpGrant b).finalise b .timeout).reportState b .engaging (w.berth b).mode := by
  rw [State.stepExpired, hst]
  rfl

theorem State.stepExpired_syncing (hst : (w.berth b).state = .syncing) (hc : (w.berth b).closeIssued = false) :
    w.stepExpired b = ((w.gaveUpTransfer b).finalise b .nosync).reportState b (w.berth b).state (w.berth b).mode := by
  rw [State.stepExpired, ← State.transferGivenUp_eq, hst, hc]
  rfl

theorem State.stepExpired_deadbus (hst : (w.berth b).state = .deadbus) (hc : (w.berth b).closeIssued = false) :
    w.stepExpired b = ((w.gaveUpTransfer b).finalise b .timeout).reportState b (w.berth b).state (w.berth b).mode := by
  rw [State.stepExpired, ← State.transferGivenUp_eq, hst, hc]
  rfl

theorem State.stepExpired_parallel (hst : (w.berth b).state = .parallel) :
    w.stepExpired b =
      ((w.movedAs b ((w.berth b).entered .separating)
        { w.chan b with step := Channel.loaded .confirm (w.static b).breakerConfirm w.timer.maint }
        [(.shipconBkr, cmdOpen), (.genRelease, genHold)]).finalise b .overlap).reportState b .parallel (w.berth b).mode := by
  rw [State.stepExpired, hst, ← State.toSeparating_eq]

theorem State.stepExpired_resyncing (hst : (w.berth b).state = .resyncing) :
    w.stepExpired b = ((w.toShore b).finalise b .timeout).reportState b (w.berth b).state (w.berth b).mode := by
  rw [State.stepExpired, hst]

theorem State.stepExpired_noclose (hst : (w.berth b).state = .energizing) (hs : (w.berth b).settling = false)
    (hm : (w.berth b).mode = .manual) : w.stepExpired b = w.manualNoclose b := by
  rw [State.stepExpired, hst, hs, hm]
  rfl

/-- Where the expiry of the Step channel is a breaker fault (R48). -/
def State.expiryTrips (w : State) (b : BerthId) : Prop :=
  (w.berth b).state = .unparallel ∨ (w.berth b).state = .separating ∨ (w.berth b).state = .disengaging
    ∨ ((w.berth b).state = .syncing ∨ (w.berth b).state = .deadbus) ∧ (w.berth b).closeIssued = true
    ∨ (w.berth b).state = .energizing ∧ (w.berth b).settling = false ∧ (w.berth b).mode = .auto

theorem State.tripRequest_of_live (hst : (w.berth b).state ≠ .lockout) : w.tripRequest b f = w.tripAction b f := if_neg hst

theorem State.stepExpired_trips (h : w.expiryTrips b) : w.stepExpired b = w.tripAction b FaultSet.onlyBkr := by
  have hlive : (w.berth b).state ≠ .lockout := by
    rcases h with h | h | h | ⟨h | h, -⟩ | ⟨h, -, -⟩
    all_goals
      rw [h]
      decide
  rw [← State.tripRequest_of_live hlive, State.stepExpired]
  rcases h with h | h | h | ⟨h | h, hc⟩ | ⟨h, hs, hm⟩
  · rw [h]
  · rw [h]
  · rw [h]
  · rw [h, hc]
    rfl
  · rw [h, hc]
    rfl
  · rw [h, hs, hm]
    rfl

/-! ## A shore breaker that has not closed in MANUAL (R121) -/

/-- The MANUAL_NOCLOSE record of a berth (R121). -/
def State.nocloseRecord (w : State) (b : BerthId) : Record :=
  { type := .manualNoclose, berth := some b, qualifier := 0, detailA := 0, detailB := 0, stamp := w.scan.passNumber }

theorem State.manualNoclose_leaves (hst : (w.berth b).state = .energizing) (hn : w.noClaim b) :
    w.movesTo (w.manualNoclose b).endEvent b { (w.berth b).entered .cabled with baseGrant := 0 }
      { w.chan b with step := Channel.idle } [(.shoreBkr, cmdOpen)] [w.moveRecord b .cabled, w.nocloseRecord b] := by
  have hx : w.manualNoclose b = ((((((w.enter b .cabled).stopStep b).returnBase b).seqWrite b .shoreBkr cmdOpen).reportState b
      .energizing (w.berth b).mode).record .manualNoclose (some b) 0 0 0) := rfl
  have hberth : (((w.enter b .cabled).stopStep b).returnBase b).berth b = { (w.berth b).entered .cabled with baseGrant := 0 } :=
    (State.berth_returnBase_same _ b).trans (congrArg (fun x : Berth => { x with baseGrant := 0 }) (berth_enter _))
  have hchan : (((w.enter b .cabled).stopStep b).returnBase b).chan b = { w.chan b with step := Channel.idle } :=
    (State.chan_returnBase _ b b).trans (Eight.get_set_same _ _ _)
  have htables : (((w.enter b .cabled).stopStep b).returnBase b).tables = w.tables := State.returnBase_tables _ b
  have hscan : (((w.enter b .cabled).stopStep b).returnBase b).scan = w.scan := State.returnBase_scan _ b
  have hholds : (((w.enter b .cabled).stopStep b).returnBase b).holds = w.holds := State.returnBase_holds _ b
  have howq : (((w.enter b .cabled).stopStep b).returnBase b).owq = w.owq := State.returnBase_owq _ b
  have hlog : w.log.Alike (((w.enter b .cabled).stopStep b).returnBase b).log :=
    State.returnBase_log ((w.enter b .cabled).stopStep b) b
  have hclaims : (((w.enter b .cabled).stopStep b).returnBase b).budget.claims = w.budget.claims := State.returnBase_claims _ b
  rw [hx]
  generalize ((w.enter b .cabled).stopStep b).returnBase b = x at hberth hchan htables hscan hholds howq hlog hclaims ⊢
  have hmove : x.stateRecord b .energizing (w.berth b).mode (x.berth b).state (x.berth b).mode = w.moveRecord b .cabled := by
    rw [State.stateRecord, hscan, hberth, State.moveRecord, hst]
    rfl
  generalize hy : (x.seqWrite b .shoreBkr cmdOpen).reportState b .energizing (w.berth b).mode = y
  have hyclaims : y.budget.claims = w.budget.claims := by
    rw [← hclaims, ← hy]
    rfl
  have hyberth : y.berth b = { (w.berth b).entered .cabled with baseGrant := 0 } := by
    rw [← hberth, ← hy]
    rfl
  have hychan : y.chan b = { w.chan b with step := Channel.idle } := by
    rw [← hchan, ← hy]
    rfl
  have hyholds : y.holds = w.holds := by
    rw [← hholds, ← hy]
    rfl
  have hyscan : y.scan = w.scan := by
    rw [← hscan, ← hy]
    rfl
  have hyowq : y.owq = placeAll w.owq (w.seqEntries b [(.shoreBkr, cmdOpen)] ++
      [w.rspEntry b { (w.berth b).entered .cabled with baseGrant := 0 }]) := by
    rw [← howq, ← hberth, ← rspEntry_congr htables, State.seqEntries, List.map_singleton, ← seqEntry_congr htables, ← hy]
    rfl
  have hylog : (w.log.stage (w.moveRecord b .cabled)).Alike y.log := by
    rw [← hmove, ← hy]
    exact hlog.stage _
  have hnoclose : y.nocloseRecord b = w.nocloseRecord b := by rw [State.nocloseRecord, hyscan, State.nocloseRecord]
  refine State.leaves_endEvent (fun d hd => hn d (hyclaims ▸ hd)) (fun d hd => hyclaims ▸ hd) hyberth hychan hyholds hyowq ?_
  show Log.Alike _ (y.log.stage (y.nocloseRecord b))
  rw [hnoclose]
  exact hylog.stage _

/-! ## The event of a Step expiry (R150) -/

/-- The state in which a Step expiry acts: the tick has reached the channel, which is IDLE. -/
def State.stepStopped (s : State) (b : BerthId) : State := (s.setOwed b (s.owed b).stepTaken).clearMarks.stopStep b

theorem State.begun_stepStopped (s : State) (b : BerthId) : (s.stepStopped b).begun := ⟨rfl, rfl⟩

theorem State.step_stepStopped (s : State) (b : BerthId) : ((s.stepStopped b).chan b).step = Channel.idle :=
  congrArg Channels.step (Eight.get_set_same _ _ _)

/-- A Step channel whose last count the tick under way brings to 0. -/
theorem State.stepExpiry_expires (hrun : (s.chan b).step.status = .running) (hcount : (s.chan b).step.count = 1)
    (howed : (s.owed b).step (s.chan b).step.base = true) :
    s.stepExpiry b = ((s.stepStopped b).stepExpired b).endEvent := by
  have hexpires : s.stepExpires b = true := by
    rw [State.stepExpires, hrun, hcount, howed]
    rfl
  rw [State.stepExpiry, if_pos hexpires]
  rfl

/-- A trip in an expiry's event is a trip of the state in which the expiry came. -/
theorem State.tripped_stepStopped (h : (s.stepStopped b).tripped t b f) : s.tripped t b f := h

/-! ## A Settle expiry (R33) -/

/-- The state in which a Settle expiry acts. -/
def State.settleStopped (s : State) (b : BerthId) : State := (s.setOwed b { s.owed b with settle := false }).clearMarks.stopSettle b

theorem State.begun_settleStopped (s : State) (b : BerthId) : (s.settleStopped b).begun := ⟨rfl, rfl⟩

theorem State.chan_settleStopped (s : State) (b : BerthId) :
    (s.settleStopped b).chan b = { s.chan b with settle := Channel.idle } := Eight.get_set_same _ _ _

theorem State.tripped_settleStopped (h : (s.settleStopped b).tripped t b f) : s.tripped t b f := h

theorem State.settleExpiry_expires (hrun : (s.chan b).settle.status = .running) (hbase : (s.chan b).settle.base = .f)
    (hcount : (s.chan b).settle.count = 1) (howed : (s.owed b).settle = true) :
    s.settleExpiry b = ((s.settleStopped b).settleExpired b).endEvent := by
  have hexpires : s.settleExpires b = true := by
    rw [State.settleExpires, Channel.ticks, hrun, hbase, hcount, howed]
    rfl
  rw [State.settleExpiry, if_pos hexpires]
  rfl

/-- The settle check finds nothing within the thresholds (R33). -/
theorem State.settleFlags_isEmpty (w : State) (b : BerthId) (v : Nat) :
    (w.settleFlags b v).isEmpty = true ↔ w.threshold (w.static b).uvIndex ≤ v ∧ v ≤ w.threshold (w.static b).ovIndex := by
  have hempty : (w.settleFlags b v).isEmpty = (!w.underVoltage b v && !w.overVoltage b v) := by
    simp [State.settleFlags, FaultSet.isEmpty, FaultSet.empty]
  simp [hempty, State.underVoltage, State.overVoltage]

/-- Within the thresholds the settle check ends the course in ENERGIZED (R33). -/
theorem State.settleExpired_within {x : ScanResult} (hst : (w.berth b).state = .energizing) (hl : (w.berth b).latest = some x)
    (hf : (w.settleFlags b x.vShore).isEmpty = true) :
    w.settleExpired b =
      ((w.movedAs b ((w.berth b).entered .energized) { w.chan b with step := Channel.idle } []).finalise b .done).reportState b
        .energizing (w.berth b).mode := by
  simp only [State.settleExpired, hst, hl, hf, if_true]
  rfl

/-- Outside them it trips (R33). -/
theorem State.settleExpired_trips {x : ScanResult} (hst : (w.berth b).state = .energizing) (hl : (w.berth b).latest = some x)
    (hf : (w.settleFlags b x.vShore).isEmpty = false) : w.settleExpired b = w.tripAction b (w.settleFlags b x.vShore) := by
  rw [← State.tripRequest_of_live (by rw [hst]; decide)]
  simp only [State.settleExpired, hst, hl, hf]
  rfl

end Sys2Proof.Machine

open Sys2Proof Sys2Proof.Machine

/-- Settles O55, by the state and the marks found. -/
theorem stepExpiryActsByState : Obligations.StepExpiryActsByState := by
  intro s b hphase hrun hcount howed
  have hbegun := s.begun_stepStopped b
  have hstep := s.step_stepStopped b
  rw [exec_stepExpiry, State.stepExpiry_expires hrun hcount howed]
  refine ⟨fun hst => ⟨_, rfl, ?_⟩, fun hst hc => ⟨_, rfl, ?_⟩, fun hst hc => ⟨_, rfl, ?_⟩, fun hst => ⟨_, rfl, ?_⟩,
    fun hst hn => ⟨_, rfl, ?_⟩, fun hst hs hm hn => ⟨_, rfl, ?_⟩, fun h => ⟨_, rfl, ?_⟩⟩
  · obtain ⟨hberth, hchan, hn⟩ := State.finalReported_ends (giveUp_noClaim _ b).1
      (congrArg State.endEvent (State.stepExpired_engaging (w := s.stepStopped b) hst))
    refine ⟨?_, ?_, hn⟩
    · rw [hberth, State.berth_gaveUpGrant, Berth.finalised_returned]
      rfl
    · rw [hchan, State.chan_gaveUpGrant]
  · obtain ⟨hberth, hchan, -⟩ := State.movedAs_finalReported hbegun
      (congrArg State.endEvent (State.stepExpired_syncing (w := s.stepStopped b) hst hc))
    exact ⟨hberth, congrArg Channels.step hchan⟩
  · obtain ⟨hberth, hchan, howq, -⟩ := State.movedAs_finalReported hbegun
      (congrArg State.endEvent (State.stepExpired_deadbus (w := s.stepStopped b) hst hc))
    refine ⟨hberth, congrArg Channels.step hchan, ?_⟩
    have hheld : ((s.stepStopped b).berth b).state = .deadbus := hst
    rw [howq, if_pos hheld]
    rfl
  · obtain ⟨hberth, hchan, howq, -⟩ := State.movedAs_finalReported hbegun
      (congrArg State.endEvent (State.stepExpired_parallel (w := s.stepStopped b) hst))
    exact ⟨hberth, congrArg Channels.step hchan, howq⟩
  · rw [State.stepExpired_resyncing (w := s.stepStopped b) hst]
    obtain ⟨hberth, hchan, hrest⟩ := toShore_finalised (w := s.stepStopped b) hn .timeout
    refine ⟨hberth, congrArg Channels.step hchan, fun hm hc => ?_⟩
    obtain ⟨-, howq, hstaged⟩ := hrest fun c hmem => absurd (hc ▸ hmem) List.not_mem_nil
    refine ⟨?_, hstaged⟩
    rw [howq, hberth]
    exact congrArg (fun m => placeAll s.owq (s.seqEntries b (s.chargeZero :: autoOnly m [(.genRelease, genRelease)]) ++ _)) hm
  · rw [State.stepExpired_noclose (w := s.stepStopped b) hst hs hm]
    obtain ⟨hberth, hchan, hrest⟩ := State.manualNoclose_leaves (w := s.stepStopped b) hst hn
    refine ⟨hberth, congrArg Channels.step hchan, State.trip_eq_false_of_not_lockout (by rw [hberth]; exact nofun), fun hc => ?_⟩
    obtain ⟨-, howq, hstaged⟩ := hrest fun c hmem => absurd (hc ▸ hmem) List.not_mem_nil
    refine ⟨?_, hstaged⟩
    rw [howq, hberth]
    rfl
  · rw [State.stepExpired_trips (w := s.stepStopped b) h]
    exact State.tripped_stepStopped (tripAction_tripped hphase)

/-- Settles O56: the settle check of the latest result, with and without flags. -/
theorem settleExpiryChecksVoltage : Obligations.SettleExpiryChecksVoltage := by
  intro s b r hphase hrun hbase hcount howed hst hl
  have hbegun := s.begun_settleStopped b
  rw [exec_settleExpiry, State.settleExpiry_expires hrun hbase hcount howed]
  refine ⟨fun huv hov => ⟨_, rfl, ?_⟩, fun f hf hflags => ⟨_, rfl, ?_⟩⟩
  · have hnone := ((s.settleStopped b).settleFlags_isEmpty b r.vShore).mpr ⟨huv, hov⟩
    obtain ⟨hberth, hchan, howq, hrest⟩ := State.movedAs_finalReported hbegun
      (congrArg State.endEvent (State.settleExpired_within (w := s.settleStopped b) hst hl hnone))
    have hstate : (((s.settleStopped b).settleExpired b).endEvent.berth b).state = .energized := by
      rw [hberth, Berth.state_finalised]
      rfl
    refine ⟨hberth, ?_, ?_, howq⟩
    · rw [hchan, s.chan_settleStopped b]
      rfl
    · exact hrest.perm_eq hphase (by rw [hstate]; rfl)
  · have hfound : (s.settleStopped b).settleFlags b r.vShore = f := hf.symm
    have hany : ((s.settleStopped b).settleFlags b r.vShore).isEmpty = false := by
      rw [hfound, FaultSet.isEmpty]
      rcases hflags with h | h
      · simp [h]
      · simp [h]
    rw [State.settleExpired_trips (w := s.settleStopped b) hst hl hany, hfound]
    exact State.tripped_settleStopped (tripAction_tripped (w := s.settleStopped b) hphase)

end

section
/-! One berth's effects (R91; the frame of 02 to 06). `KeptBy b P` names what an event of berth `b` is built from, with the conditions that
confine each effect to that berth: its own record, supervision, channels, block and held writes, and claims that are its own. A property
that these keep is kept by every operation on the berth, up to the event and the grants that end it. -/

namespace Sys2Proof.Machine

/-- `P` is kept by every primitive effect of an event of berth `b`. -/
structure KeptBy (b : BerthId) (P : State → Prop) : Prop where
  berth : ∀ {s r}, P s → P (s.setBerth b r)
  sup : ∀ {s u}, P s → P (s.setSup b u)
  chan : ∀ {s k}, P s → P (s.setChan b k)
  block : ∀ {s k}, P s → P (s.setBlock b k)
  budget : ∀ {s u}, P s → (∀ c ∈ u.claims, c.berth = b ∨ c ∈ s.budget.claims) → P (s.setBudget u)
  queues : ∀ {s q l p}, P s → P { s with owq := q, log := l, ports := p }
  dropHold : ∀ {s e}, P s → e ∈ s.holdsOf b → P (s.setHolds (Machine.dropHold s.holds e.address))
  cancelHolds : ∀ {s}, P s → P (s.cancelHolds b)
  placeHold : ∀ {s w d reason}, P s → P (s.placeHold b w d reason)

/-- The entry of a berth for a reason is the berth's (R117). -/
theorem State.mem_holdsOf_of_holdFor {s : State} {b : BerthId} {reason : HoldReason} {e : Hold}
    (h : s.holdFor b reason = some e) : e ∈ s.holdsOf b := by
  have hfound : e.berth = b ∧ e.reason = reason := by simpa using List.find?_some h
  exact List.mem_filter.mpr ⟨List.mem_of_find?_eq_some h, decide_eq_true hfound.1⟩

namespace KeptBy

variable {P : State → Prop} {s : State} {b : BerthId} {st old : BState} {m : Mode} {res : Result} {r : ScanResult} {c : Claim}
  {n : Nat} {f : FaultSet} {a d : Word} {e : Hold}

section Effects

variable (h : KeptBy b P) (hs : P s)
include h hs

/-! ## Queues, records and reports -/

theorem seqWrite {x w} : P (s.seqWrite x w d) := h.queues hs
theorem tripWrite : P (s.tripWrite b) := h.queues hs
theorem queueRsp : P (s.queueRsp b) := h.queues hs
theorem record {t x q y z} : P (s.record t x q y z) := h.queues hs
theorem statusChanged : P s.statusChanged := h.queues hs
theorem grantedChanged : P s.grantedChanged := h.queues hs
theorem passWrite : P (s.passWrite a d) := h.queues hs
theorem sink {reason x} : P (s.sink reason x a d) := h.record hs
theorem reportState : P (s.reportState b old m) := h.record (h.queueRsp hs)
theorem reportAdopted : P (s.reportAdopted b st) := h.queueRsp (h.record hs)
theorem tripRecord {again} : P (s.tripRecord b again old f) := h.record hs

theorem enter : P (s.enter b st) := h.berth hs
theorem setSyncCount : P (s.setSyncCount b n) := h.berth hs
theorem loadStep {k} : P (s.loadStep b k) := h.chan hs
theorem stopStep : P (s.stopStep b) := h.chan hs
theorem loadSettle : P (s.loadSettle b) := h.chan hs
theorem stopSettle : P (s.stopSettle b) := h.chan hs
theorem stopChannels : P (s.stopChannels b) := h.chan hs

theorem finalise : P (s.finalise b res) := by
  unfold State.finalise
  split
  · exact hs
  · split
    · exact h.queueRsp (h.berth hs)
    · exact h.record (h.berth hs)

/-! ## Budget -/

theorem sameClaims {u : Budget} (hu : u.claims = s.budget.claims) : P (s.setBudget u) :=
  h.budget hs fun _ hx => .inr (hu ▸ hx)

theorem needService : P s.needService := h.sameClaims hs rfl
theorem needTest : P s.needTest := h.sameClaims hs rfl
theorem clearMarks : P s.clearMarks := h.sameClaims hs rfl

theorem placeClaim (hc : c.berth = b) : P (s.placeClaim c) :=
  h.needService (h.budget hs fun x hx => by
    rcases List.mem_append.mp hx with hx | hx
    · exact .inr hx
    · exact .inl (List.mem_singleton.mp hx ▸ hc))

theorem dropClaim : P (s.setBudget { s.budget with claims := Machine.dropClaim s.budget.claims b }) :=
  h.budget hs fun _ hx => .inr (List.mem_filter.mp hx).1

theorem withdrawClaim : P (s.withdrawClaim b) := by
  unfold State.withdrawClaim
  split
  · exact hs
  · exact h.needService (h.dropClaim hs)

theorem takeBase : P (s.takeBase b) := h.needTest (h.grantedChanged (h.berth hs))

theorem returnBase : P (s.returnBase b) := by
  unfold State.returnBase
  split
  · exact hs
  · exact h.needTest (h.needService (h.grantedChanged (h.berth hs)))

theorem giveUpGrant : P (s.giveUpGrant b) := h.returnBase (h.withdrawClaim hs)

theorem changeLevel : P (s.changeLevel b n) := by
  unfold State.changeLevel
  have hlevel : P (s.setBerth b { s.berth b with level := n, residency := 0, idle := 0 }) := h.berth hs
  refine h.needTest (h.sameClaims (h.seqWrite ?_) rfl)
  split
  · refine h.needService ?_
    split
    · exact hlevel
    · exact h.grantedChanged hlevel
  · split
    · exact hlevel
    · exact h.grantedChanged hlevel

theorem leaveShore : P (s.leaveShore b) := h.withdrawClaim (h.changeLevel hs)

theorem leaveIfShore : P (s.leaveIfShore b old) := by
  unfold State.leaveIfShore
  split
  · exact h.leaveShore hs
  · exact hs

theorem recomputeClaim : P (s.recomputeClaim b) := by
  unfold State.recomputeClaim
  split
  · exact hs
  · split
    · exact hs
    · dsimp only
      split
      · refine h.budget hs fun x hx => ?_
        obtain ⟨y, hy, rfl⟩ := List.mem_map.mp hx
        split
        · next hb => exact .inl hb
        · exact .inr hy
      · exact h.finalise (h.withdrawClaim hs)

theorem stepDown {t q} : P (s.stepDown b t q) := h.recomputeClaim (h.record (h.queueRsp (h.changeLevel hs)))

theorem countShore : P (s.countShore b r) := by
  unfold State.countShore
  dsimp only
  generalize (if r.load < (s.levelEntry (s.berth b).level).activity then min 255 ((s.berth b).idle + 1) else 0) = idle
  split
  · exact h.stepDown (h.berth hs)
  · exact h.berth hs

theorem overcommitTest : P s.overcommitTest := by
  unfold State.overcommitTest
  have hset : ∀ x, P (s.setBudget { s.budget with overcommit := x }) := fun _ => h.sameClaims hs rfl
  split
  · split
    · exact h.record (h.statusChanged (hset _))
    · exact hs
  · split
    · exact h.record (h.statusChanged (hset _))
    · exact hs

/-! ## Hold Queue -/

theorem endHold {t} (he : e ∈ s.holdsOf b) : P (s.endHold t e) := h.record (h.dropHold hs he)
theorem releaseHold (he : e ∈ s.holdsOf b) : P (s.releaseHold e) := h.seqWrite (h.dropHold hs he)

/-! ## Supervision -/

theorem enterLockout : P (s.enterLockout b f) := h.sup (h.setSyncCount (h.enter hs))

theorem tripAction : P (s.tripAction b f) :=
  h.queueRsp (h.tripRecord (h.finalise (h.enterLockout (h.stopChannels (h.cancelHolds (h.withdrawClaim (h.changeLevel
    (h.seqWrite (h.tripWrite hs)))))))))

theorem repeatFault : P (s.repeatFault b f) := by
  unfold State.repeatFault
  dsimp only
  split
  · exact hs
  · split
    · exact h.sup hs
    · exact h.tripRecord (h.tripWrite (h.sup hs))

theorem tripRequest : P (s.tripRequest b f) := by
  unfold State.tripRequest
  split
  · exact h.repeatFault hs
  · exact h.tripAction hs

theorem recover : P (s.recover b) := h.queueRsp (h.record (h.enter (h.sup hs)))

theorem tryRecover : P (s.tryRecover b) := by
  unfold State.tryRecover
  split
  · exact h.recover hs
  · exact hs

theorem superviseLockout : P (s.superviseLockout b r) := by
  unfold State.superviseLockout
  refine h.tryRecover (h.sup (h.repeatFault ?_))
  split
  · exact h.returnBase hs
  · exact hs

theorem superviseLive : P (s.superviseLive b r) := by
  unfold State.superviseLive
  dsimp only
  split
  · exact h.sup hs
  · exact h.tripAction (h.sup hs)

theorem supervise : P (s.supervise b r) := by
  unfold State.supervise
  split
  · exact h.superviseLockout hs
  · exact h.superviseLive hs

/-! ## Transitions shared by several events -/

theorem toDisengaging : P (s.toDisengaging b) := h.seqWrite (h.loadStep (h.stopChannels (h.enter hs)))
theorem toEnergizing : P (s.toEnergizing b) := h.loadStep (h.enter hs)
theorem toSeparating : P (s.toSeparating b) := h.seqWrite (h.seqWrite (h.loadStep (h.enter hs)))
theorem toEnergized : P (s.toEnergized b) := h.stopStep (h.enter hs)

theorem toShore : P (s.toShore b) := by
  unfold State.toShore
  have hlevel : P (((s.enter b .shore).stopStep b).shoreLevelZero b) := h.changeLevel (h.stopStep (h.enter hs))
  dsimp only
  split
  · exact h.seqWrite hlevel
  · exact hlevel

theorem connectReady : P (s.connectReady b) := h.reportState (h.seqWrite (h.toEnergizing hs))

theorem leaveEngaging : P (s.leaveEngaging b st res) := h.reportState (h.finalise (h.giveUpGrant (h.stopStep (h.enter hs))))

theorem leaveManualEngaging : P (s.leaveManualEngaging b st) := h.reportState (h.giveUpGrant (h.enter hs))

theorem transferGivenUp : P (s.transferGivenUp b res) := by
  unfold State.transferGivenUp
  dsimp only
  refine h.reportState (h.finalise ?_)
  split
  · exact h.seqWrite (h.toEnergized hs)
  · exact h.toEnergized hs

/-! ## Results (R23) -/

theorem followCable : P (s.followCable b r) := by
  unfold State.followCable
  dsimp only
  split
  · split
    · exact h.reportState (h.enter hs)
    · exact hs
  · split
    · exact hs
    · exact h.reportState (h.enter hs)
  · exact hs

theorem engagingResult : P (s.engagingResult b r) := by
  unfold State.engagingResult
  split
  · split
    · exact h.leaveEngaging hs
    · split
      · exact h.connectReady hs
      · exact hs
  · split
    · exact h.leaveManualEngaging (h.cancelHolds hs)
    · exact hs

theorem shoreOpened : P (s.shoreOpened b) := by
  unfold State.shoreOpened
  split
  · exact h.reportState (h.finalise (h.seqWrite (h.seqWrite (h.seqWrite (h.returnBase (h.leaveIfShore (h.stopChannels
      (h.enter hs))))))))
  · exact h.reportState (h.finalise (h.returnBase (h.leaveIfShore (h.stopChannels (h.enter (h.cancelHolds hs))))))

theorem shipconClosed : P (s.shipconClosed b r) := by
  unfold State.shipconClosed
  dsimp only
  cases (s.berth b).mode
  case auto =>
    dsimp only
    split
    · exact h.reportState (h.finalise (h.toShore hs))
    · exact h.reportState (h.seqWrite (h.loadStep (h.enter hs)))
  case manual =>
    dsimp only
    split
    · exact h.reportState (h.finalise (h.toShore (h.cancelHolds hs)))
    · exact h.reportState (h.loadStep (h.enter (h.cancelHolds hs)))

theorem shipconOpened : P (s.shipconOpened b) := by
  unfold State.shipconOpened
  dsimp only
  refine h.reportState (h.finalise ?_)
  split
  · exact h.seqWrite (h.seqWrite (h.leaveIfShore (h.toEnergized hs)))
  · exact h.leaveIfShore (h.toEnergized hs)

theorem issueClose : P (s.issueClose b) := h.seqWrite (h.loadStep (h.berth hs))

theorem countSyncing : P (s.countSyncing b r) := by
  unfold State.countSyncing
  dsimp only
  split
  · exact h.issueClose (h.setSyncCount hs)
  · exact h.setSyncCount hs

theorem energizingResult : P (s.energizingResult b r) := by
  unfold State.energizingResult
  split
  · split
    · exact h.shoreOpened hs
    · exact hs
  · split
    · exact h.berth (h.loadSettle (h.stopStep hs))
    · split
      · exact h.reportState (h.finalise (h.toDisengaging hs))
      · exact hs

theorem countSyncHold : P (s.countSyncHold b r) := by
  unfold State.countSyncHold
  split
  · exact hs
  · next e he =>
    have hmine : e ∈ s.holdsOf b := State.mem_holdsOf_of_holdFor he
    dsimp only
    split
    · exact h.releaseHold (h.setSyncCount hs) hmine
    · exact h.setSyncCount hs

theorem energizedResult : P (s.energizedResult b r) := by
  unfold State.energizedResult
  split
  · exact h.shoreOpened hs
  · split
    · exact h.shipconClosed hs
    · split
      · exact hs
      · exact h.countSyncHold hs

theorem syncingResult : P (s.syncingResult b r) := by
  unfold State.syncingResult
  split
  · exact h.shoreOpened hs
  · split
    · exact h.shipconClosed hs
    · split
      · exact hs
      · exact h.countSyncing hs

theorem deadbusResult : P (s.deadbusResult b r) := by
  unfold State.deadbusResult
  split
  · exact h.shoreOpened hs
  · split
    · exact h.shipconClosed hs
    · split
      · exact hs
      · split
        · exact h.issueClose hs
        · exact hs

theorem parallelResult : P (s.parallelResult b r) := by
  unfold State.parallelResult
  split
  · exact h.shoreOpened hs
  · split
    · exact h.shipconOpened hs
    · split
      · exact h.reportState (h.finalise (h.toShore hs))
      · exact hs

theorem shoreGensClosed : P (s.shoreGensClosed b) := by
  unfold State.shoreGensClosed
  dsimp only
  refine h.reportState (h.finalise ?_)
  split
  · exact h.seqWrite (h.seqWrite (h.leaveShore (h.loadStep (h.enter hs))))
  · exact h.leaveShore (h.loadStep (h.enter hs))

theorem shoreResult : P (s.shoreResult b r) := by
  unfold State.shoreResult
  split
  · exact h.shoreOpened hs
  · split
    · exact h.shipconOpened hs
    · split
      · exact h.shoreGensClosed hs
      · exact hs

theorem resyncingResult : P (s.resyncingResult b r) := by
  unfold State.resyncingResult
  split
  · exact h.shoreOpened hs
  · split
    · exact h.shipconOpened hs
    · split
      · exact h.reportState (h.seqWrite (h.loadStep (h.enter hs)))
      · exact hs

theorem returnDone : P (s.returnDone b) := h.reportState (h.finalise (h.toEnergized hs))

theorem unparallelResult : P (s.unparallelResult b r) := by
  unfold State.unparallelResult
  split
  · exact h.shoreOpened hs
  · split
    · exact h.returnDone hs
    · split
      · exact hs
      · split
        · exact h.reportState (h.toShore hs)
        · exact hs

theorem separatingResult : P (s.separatingResult b r) := by
  unfold State.separatingResult
  split
  · exact h.shoreOpened hs
  · split
    · exact h.returnDone hs
    · exact hs

theorem disengagingResult : P (s.disengagingResult b r) := by
  unfold State.disengagingResult
  split
  · exact h.reportState (h.finalise (h.returnBase (h.stopStep (h.enter hs))))
  · exact hs

theorem sequence : P (s.sequence b r) := by
  unfold State.sequence
  split
  · exact hs
  · exact h.followCable hs
  · exact h.followCable hs
  · exact h.engagingResult hs
  · exact h.energizingResult hs
  · exact h.energizedResult hs
  · exact h.syncingResult hs
  · exact h.deadbusResult hs
  · exact h.parallelResult hs
  · exact h.shoreResult hs
  · exact h.resyncingResult hs
  · exact h.unparallelResult hs
  · exact h.separatingResult hs
  · exact h.disengagingResult hs
  · exact hs

theorem adoptCabled : P (s.adoptCabled b r) := by
  unfold State.adoptCabled
  have hentered : P (s.enter b .cabled) := h.enter hs
  dsimp only
  refine h.reportAdopted ?_
  split
  · refine h.seqWrite ?_
    split
    · exact h.seqWrite hentered
    · exact hentered
  · split
    · exact h.seqWrite hentered
    · exact hentered

theorem adopt : P (s.adopt b r) := by
  unfold State.adopt
  have hmode : P (s.setBerth b { s.berth b with mode := (s.static b).defaultMode }) := h.berth hs
  dsimp only
  split
  · exact h.tripAction (h.reportAdopted hmode)
  · split
    · exact h.reportAdopted (h.enter hmode)
    · split
      · exact h.adoptCabled hmode
      · split
        · exact h.reportAdopted (h.takeBase (h.enter hmode))
        · split
          · exact h.reportAdopted (h.takeBase (h.toShore hmode))
          · exact h.reportAdopted (h.takeBase (h.loadStep (h.enter hmode)))

theorem deliverBerth : P (s.deliverBerth b r) := by
  unfold State.deliverBerth
  have hlatest : P (s.setBerth b { s.berth b with latest := some r }) := h.berth hs
  dsimp only
  split
  · exact h.supervise (h.adopt hlatest)
  · split
    · exact h.countShore (h.sequence (h.supervise hlatest))
    · exact h.sequence (h.supervise hlatest)

theorem judgeBerth {ws} : P (s.judgeBerth b ws) := by
  unfold State.judgeBerth
  dsimp only
  split
  · exact h.block hs
  · exact h.block hs
  · exact h.deliverBerth (h.block hs)
  · split
    · exact h.tripRequest (h.block hs)
    · exact h.block hs

/-! ## Expiries (section 2.10, R126) -/

theorem manualNoclose : P (s.manualNoclose b) := h.record (h.reportState (h.seqWrite (h.returnBase (h.stopStep (h.enter hs)))))

theorem stepExpired : P (s.stepExpired b) := by
  unfold State.stepExpired
  dsimp only
  split
  case h_1 => exact h.leaveEngaging hs
  case h_2 =>
    split
    · exact hs
    · split
      · exact h.tripRequest hs
      · exact h.manualNoclose hs
  case h_3 | h_4 =>
    split
    · exact h.tripRequest hs
    · exact h.transferGivenUp hs
  case h_5 => exact h.reportState (h.finalise (h.toSeparating hs))
  case h_6 => exact h.reportState (h.finalise (h.toShore hs))
  case h_7 | h_8 | h_9 => exact h.tripRequest hs
  all_goals exact hs

theorem settleExpired : P (s.settleExpired b) := by
  unfold State.settleExpired
  split
  · dsimp only
    split
    · exact h.reportState (h.finalise (h.toEnergized hs))
    · exact h.tripRequest hs
  · exact hs

theorem expireHold (he : e ∈ s.holdsOf b) : P (s.expireHold e) := by
  have hberth : e.berth = b := of_decide_eq_true (List.mem_filter.mp he).2
  unfold State.expireHold
  dsimp only
  split
  · rw [hberth]
    exact h.leaveManualEngaging (h.endHold hs he)
  · exact h.endHold hs he

/-! ## Grants (R90, R96) -/

theorem grantNotice : P (s.grantNotice b) := by
  unfold State.grantNotice
  split
  · split
    · split
      · exact h.connectReady hs
      · exact hs
    · exact hs
  · dsimp only
    refine h.reportState ?_
    split
    · next e he => exact h.releaseHold (h.toEnergizing hs) (State.mem_holdsOf_of_holdFor he)
    · exact h.toEnergizing hs
  · exact hs

/-! ## Requests (R110) -/

theorem ownConnect : P (s.ownConnect b).1 := by
  unfold State.ownConnect
  dsimp only
  have hloaded : P ((s.enter b .engaging).loadStep b .engage) := h.loadStep (h.enter hs)
  split
  · split
    · exact h.reportState (h.placeClaim hloaded rfl)
    · exact h.reportState (h.stopStep (h.enter (h.reportState hloaded)))
  · exact hs

theorem ownTransfer : P (s.ownTransfer b).1 := by
  unfold State.ownTransfer
  dsimp only
  split
  · split
    · exact h.reportState (h.loadStep (h.setSyncCount (h.enter hs)))
    · exact h.reportState (h.seqWrite (h.loadStep (h.enter hs)))
  · exact hs

theorem ownReturn : P (s.ownReturn b).1 := by
  unfold State.ownReturn
  dsimp only
  split
  · split
    · exact h.reportState (h.seqWrite (h.leaveShore (h.loadStep (h.enter hs))))
    · exact h.reportState (h.toSeparating (h.leaveShore hs))
  · exact hs

theorem ownDisconnect : P (s.ownDisconnect b).1 := by
  unfold State.ownDisconnect
  dsimp only
  split
  · exact h.reportState (h.toDisengaging hs)
  · exact hs

theorem ownSetLevel : P (s.ownSetLevel b n).1 := by
  unfold State.ownSetLevel
  dsimp only
  split
  · split
    · exact hs
    · split
      · exact hs
      · split
        · exact h.changeLevel hs
        · split
          · exact hs
          · split
            · exact hs
            · exact h.placeClaim hs rfl
  · exact hs

theorem changeMode : P (s.changeMode b m) := by
  unfold State.changeMode
  have hmode : P (s.setBerth b { s.berth b with mode := m }) := h.berth hs
  dsimp only
  refine h.reportState ?_
  split
  · split
    · refine h.seqWrite ?_
      split
      · exact h.withdrawClaim (h.cancelHolds hmode)
      · exact h.cancelHolds hmode
    · split
      · exact h.withdrawClaim (h.cancelHolds hmode)
      · exact h.cancelHolds hmode
  · exact hmode

theorem ownSetMode {op} : P (s.ownSetMode b op).1 := by
  unfold State.ownSetMode
  split
  · split
    · exact hs
    · split
      · exact hs
      · exact h.changeMode hs
  · exact hs

theorem ownRelease : P (s.ownRelease b).1 := by
  unfold State.ownRelease
  split
  · exact h.tryRecover (h.sup hs)
  · exact hs

theorem abortLevel : P (s.abortLevel b) := h.finalise (h.withdrawClaim hs)

theorem abortAuto : P (s.abortAuto b).1 := by
  unfold State.abortAuto
  dsimp only
  split
  case h_1 => exact h.leaveEngaging hs
  case h_2 | h_3 => exact h.reportState (h.finalise (h.toDisengaging hs))
  case h_4 | h_5 =>
    split
    · exact hs
    · exact h.transferGivenUp hs
  case h_6 => exact h.reportState (h.finalise (h.toSeparating hs))
  case h_7 => exact h.reportState (h.finalise (h.toShore hs))
  case h_8 =>
    split
    · exact h.abortLevel hs
    · exact hs
  all_goals exact hs

theorem abortManual : P (s.abortManual b).1 := by
  unfold State.abortManual
  dsimp only
  split
  · exact h.leaveManualEngaging (h.cancelHolds hs)
  · split
    · exact h.abortLevel (h.cancelHolds hs)
    · exact h.cancelHolds hs
  · exact h.cancelHolds hs

theorem ownAbort : P (s.ownAbort b).1 := by
  unfold State.ownAbort
  split
  · exact h.abortAuto hs
  · exact h.abortManual hs

theorem owner {k op} : P (s.owner b k op).1 := by
  unfold State.owner
  split
  · exact hs
  · exact h.ownConnect hs
  · exact h.ownTransfer hs
  · exact h.ownReturn hs
  · exact h.ownDisconnect hs
  · exact h.ownSetLevel hs
  · exact h.ownSetMode hs
  · exact h.ownRelease hs
  · exact h.ownAbort hs

theorem judge {code op} : P (s.judge b code op).1 := by
  unfold State.judge
  split
  · exact hs
  · split
    · exact hs
    · split
      · exact hs
      · split
        · exact hs
        · split
          · exact hs
          · exact h.owner hs

theorem answer {code toggle op x} : P (s.answer b code toggle op x) := by
  unfold State.answer
  split
  · exact h.queueRsp (h.berth hs)
  · exact h.queueRsp (h.berth hs)

theorem takeRequest {code toggle op} : P (s.takeRequest b code toggle op) := h.answer (h.judge (h.berth hs))

theorem examineReq {w} : P (s.examineReq b w) := by
  unfold State.examineReq
  split
  · exact hs
  · exact h.takeRequest hs

/-! ## The Manual Guard (R118 to R125) -/

theorem manualEngage : P (s.manualEngage b a d) := by
  unfold State.manualEngage
  split
  · exact h.reportState (h.placeClaim (h.placeHold (h.enter hs)) rfl)
  · exact h.sink hs

theorem manualShipcon : P (s.manualShipcon b a d) := by
  unfold State.manualShipcon
  split
  · split
    · exact h.passWrite hs
    · exact h.setSyncCount (h.placeHold hs)
  · exact h.sink hs

theorem cancelByHost (he : e ∈ s.holdsOf b) : P (s.cancelByHost b e) := by
  unfold State.cancelByHost
  dsimp only
  split
  · exact h.leaveManualEngaging (h.endHold hs he)
  · exact h.endHold hs he

/-- A write to a breaker word, the entry that stands at its address being the berth's own. -/
theorem guardBreaker {w} (hown : ∀ e, s.holdAt a = some e → e.berth = b) (hsup : P (s.supersede a d)) :
    P (s.guardBreaker b w a d) := by
  unfold State.guardBreaker
  split
  · split
    · next e he =>
      have hmine : e ∈ s.holdsOf b := List.mem_filter.mpr ⟨List.mem_of_find?_eq_some he, decide_eq_true (hown e he)⟩
      exact h.passWrite (h.cancelByHost hs hmine)
    · exact h.passWrite hs
  · split
    · split
      · exact hsup
      · split
        · exact h.manualEngage hs
        · exact h.manualShipcon hs
    · exact h.sink hs

end Effects

/-! ## The end of an event (R91) -/

theorem grantEngage (h : KeptBy c.berth P) (hs : P s) : P (s.grantEngage c) := h.grantNotice (h.takeBase (h.dropClaim hs))

theorem grantLevel (h : KeptBy c.berth P) (hs : P s) : P (s.grantLevel c n) :=
  h.finalise (h.queueRsp (h.changeLevel (h.dropClaim hs)))

theorem serviceWalk {l : List Claim} (h : ∀ c ∈ l, KeptBy c.berth P) (hs : P s) : P (s.serviceWalk l) := by
  induction l generalizing s with
  | nil => exact hs
  | cons c rest ih =>
    have hc : KeptBy c.berth P := h c (List.mem_cons_self ..)
    have hrest : ∀ x ∈ rest, KeptBy x.berth P := fun x hx => h x (List.mem_cons_of_mem _ hx)
    unfold State.serviceWalk
    split
    · split
      · exact ih hrest (hc.grantEngage hs)
      · exact hs
    · split
      · exact ih hrest (hc.grantLevel hs)
      · exact ih hrest hs

/-- The end of an event keeps what the effects on each berth with a claim keep. -/
theorem endEvent (hb : KeptBy b P) (h : ∀ c ∈ s.budget.claims, KeptBy c.berth P) (hs : P s) : P s.endEvent := by
  have hpass : P (if s.budget.serviceDue then s.servicePass else s) := by
    split
    · exact serviceWalk h hs
    · exact hs
  unfold State.endEvent
  dsimp only
  generalize (if s.budget.serviceDue then s.servicePass else s) = u at hpass ⊢
  refine hb.clearMarks ?_
  split
  · exact hb.overcommitTest hpass
  · exact hpass

/-- An event of the berth keeps what its effects and the grants that end it keep. -/
theorem event {g : State → State} (hb : KeptBy b P) (h : ∀ t, P t → ∀ c ∈ t.budget.claims, KeptBy c.berth P)
    (hg : P (g s.clearMarks)) : P (s.event g) :=
  hb.endEvent (h _ hg) hg

end KeptBy

end Sys2Proof.Machine
end

section
/-! A berth left alone (02 to 06): `Spared x` and `SparedBy b x` say that the events of other berths leave berth `x` as it is; every
effect of another berth keeps them, so the commands of that berth, the read of its block and a group request without `x` do. -/

namespace Sys2Proof.Machine

/-! ## What is left alone -/

/-- Berth `x` is left alone between two states, and has no claim waiting. -/
structure Spared (x : BerthId) (s t : State) : Prop where
  berth : t.berth x = s.berth x
  sup : t.sup x = s.sup x
  chan : t.chan x = s.chan x
  block : t.block x = s.block x
  noClaim : t.noClaim x

/-- Berth `x` is left alone by an event of berth `b`: its held writes too, `b`'s own being the ones at `b`'s breaker words; only `b` has
claims, and no group request is taken. -/
structure SparedBy (b x : BerthId) (s t : State) : Prop extends Spared x s t where
  held : t.holdsOf x = s.holdsOf x
  placed : t.holdsPlaced b
  mine : ∀ c ∈ t.budget.claims, c.berth = b
  groupTaken : t.groupTaken = s.groupTaken

variable {s t : State} {b x : BerthId} {a d : Word}

/-- What is done to another berth spares this one. -/
theorem Spared.keptBy (hx : x ≠ b) : KeptBy b (Spared x s) where
  berth h := { h with berth := (State.berth_setBerth_of_ne _ _ hx).trans h.berth }
  sup h := { h with sup := (State.sup_setSup_of_ne _ _ hx).trans h.sup }
  chan h := { h with chan := (State.chan_setChan_of_ne _ _ hx).trans h.chan }
  block h := { h with block := (Eight.get_set_of_ne _ _ hx).trans h.block }
  budget h hu :=
    { h with noClaim := fun c hc hb => (hu c hc).elim (fun e => hx (hb.symm.trans e)) fun hm => h.noClaim c hm hb }
  queues h := { h with }
  dropHold h _ := { h with }
  cancelHolds h :=
    { berth := (State.berth_cancelHolds _ b x).trans h.berth
      sup := (State.sup_cancelHolds _ b x).trans h.sup
      chan := (State.chan_cancelHolds _ b x).trans h.chan
      block := (congrArg (fun k : Eight BlockScan => k.get x) (State.cancelHolds_blocks _ b)).trans h.block
      noClaim := fun c hc => h.noClaim c (State.cancelHolds_budget _ b ▸ hc) }
  placeHold h := { h with }

namespace State.holdsPlaced

variable (h : t.holdsPlaced b)
include h

/-- Entries that leave the queue leave the others where they were placed. -/
theorem filter {p : Hold → Bool} {u : State} (hu : u.holds = t.holds.filter p) (ht : u.tables = t.tables) : u.holdsPlaced b := by
  intro e he
  rw [hu] at he
  rw [ht]
  exact h e (List.mem_filter.mp he).1

/-- An entry of another berth stands at none of this berth's addresses. -/
theorem address_ne {e f : Hold} (he : e ∈ t.holdsOf b) (hf : f ∈ t.holds) (hb : f.berth ≠ b) : f.address ≠ e.address := by
  obtain ⟨hmem, hmine⟩ := List.mem_filter.mp he
  intro heq
  refine hb ((h f hf).mpr ?_)
  rw [heq]
  exact (h e hmem).mp (of_decide_eq_true hmine)

/-- An entry at one of the berth's breaker words is the berth's. -/
theorem berth_of_address {e : Hold} {w : BreakerWord} (he : e ∈ t.holds) (ha : e.address = t.tables.cmdAddress b w.cmd) :
    e.berth = b := by
  refine (h e he).mpr ?_
  cases w
  case shoreBkr => exact .inl ha
  case shipconBkr => exact .inr ha

end State.holdsPlaced

/-- A tick leaves an entry at its address (R126). -/
theorem Hold.tick_address (e : Hold) : e.tick.address = e.address := by
  unfold Hold.tick
  split
  · rfl
  · rfl

/-- The entries of a berth that a filter of the queue passes over. -/
theorem filter_holdsOf {l : List Hold} {p : Hold → Bool} (h : ∀ e ∈ l, e.berth = x → p e = true) :
    (l.filter p).filter (fun e => decide (e.berth = x)) = l.filter fun e => decide (e.berth = x) := by
  rw [List.filter_filter]
  refine List.filter_congr fun e he => ?_
  by_cases hb : e.berth = x
  · rw [h e he hb, Bool.and_true]
  · rw [decide_eq_false hb, Bool.false_and]

/-- An entry of another berth at the tail. -/
theorem append_holdsOf {l : List Hold} {e : Hold} (h : e.berth ≠ x) :
    (l ++ [e]).filter (fun f => decide (f.berth = x)) = l.filter fun f => decide (f.berth = x) := by
  rw [List.filter_append, List.filter_cons, decide_eq_false h, if_neg Bool.false_ne_true, List.filter_nil, List.append_nil]

/-- A replacement of entries that passes over those of a berth and moves none to it. -/
theorem map_holdsOf {l : List Hold} {g : Hold → Hold} (hb : ∀ e ∈ l, (g e).berth = e.berth) (h : ∀ e ∈ l, e.berth = x → g e = e) :
    (l.map g).filter (fun e => decide (e.berth = x)) = l.filter fun e => decide (e.berth = x) := by
  induction l with
  | nil => rfl
  | cons e rest ih =>
    have hrest := ih (fun f hf => hb f (List.mem_cons_of_mem _ hf)) fun f hf => h f (List.mem_cons_of_mem _ hf)
    rw [List.map_cons, List.filter_cons, List.filter_cons, hb e (List.mem_cons_self ..), hrest]
    split
    · next hmine => rw [h e (List.mem_cons_self ..) (of_decide_eq_true hmine)]
    · rfl

theorem SparedBy.refl (hc : s.budget.claims = []) (hp : s.holdsPlaced b) : SparedBy b x s s where
  berth := rfl
  sup := rfl
  chan := rfl
  block := rfl
  noClaim := fun _ hm => absurd (hc ▸ hm) List.not_mem_nil
  held := rfl
  placed := hp
  mine := fun _ hm => absurd (hc ▸ hm) List.not_mem_nil
  groupTaken := rfl

/-- What is done to a berth spares every other. -/
theorem SparedBy.keptBy (hx : x ≠ b) : KeptBy b (SparedBy b x s) where
  berth h := { h with toSpared := (Spared.keptBy hx).berth h.toSpared }
  sup h := { h with toSpared := (Spared.keptBy hx).sup h.toSpared }
  chan h := { h with toSpared := (Spared.keptBy hx).chan h.toSpared }
  block h := { h with toSpared := (Spared.keptBy hx).block h.toSpared }
  budget h hu :=
    { h with
      toSpared := (Spared.keptBy hx).budget h.toSpared hu
      mine := fun c hc => (hu c hc).elim id (h.mine c) }
  queues h := { h with }
  dropHold h he :=
    { h with
      held := (filter_holdsOf fun f hf hb =>
        decide_eq_true (h.placed.address_ne he hf fun e => hx (hb.symm.trans e))).trans h.held
      placed := h.placed.filter rfl rfl }
  cancelHolds := fun {t} h =>
    { toSpared := (Spared.keptBy hx).cancelHolds h.toSpared
      held := by
        rw [State.holdsOf, State.cancelHolds_holds]
        refine (filter_holdsOf fun f hf hb => List.all_eq_true.mpr fun e he => decide_eq_true ?_).trans h.held
        exact (h.placed.address_ne he hf fun e => hx (hb.symm.trans e)).symm
      placed := h.placed.filter (t.cancelHolds_holds b) (t.cancelHolds_tables b)
      mine := fun c hc => h.mine c (t.cancelHolds_budget b ▸ hc)
      groupTaken := (t.cancelHolds_groupTaken b).trans h.groupTaken }
  placeHold := fun {t w d reason} h =>
    { h with
      held := by
        rw [State.holdsOf, State.placeHold]
        exact (append_holdsOf (Ne.symm hx)).trans h.held
      placed := fun e he => by
        rcases List.mem_append.mp he with he | he
        · exact h.placed e he
        · rw [List.mem_singleton.mp he]
          refine iff_of_true rfl ?_
          cases w
          case shoreBkr => exact .inl rfl
          case shipconBkr => exact .inr rfl }

/-! ## Host writes to a berth's words -/

namespace SparedBy

/-- A host write in RUNNING is no access while the port is busy, and otherwise its event (R133). -/
theorem berthWrites {k : WordClass} (hp : s.phase = .running) (h : SparedBy b x s s)
    (hg : SparedBy b x s (s.event fun t => t.decideWrite k a d)) : SparedBy b x s (s.berthWrites b k a d) := by
  unfold State.berthWrites
  split
  · exact h
  · unfold State.hostWrites
    split
    · exact h
    · rw [hp]
      exact hg

variable (hx : x ≠ b)
include hx

/-- An event of the berth, its grants being the berth's. -/
theorem event {g : State → State} (h : SparedBy b x s (g t.clearMarks)) : SparedBy b x s (t.event g) :=
  (SparedBy.keptBy hx).event (fun _ hu c hc => (hu.mine c hc).symm ▸ SparedBy.keptBy hx) h

/-- A CLOSE written over the berth's held CLOSE (R124). -/
theorem supersede {w : BreakerWord} (h : SparedBy b x s t) : SparedBy b x s (t.supersede (t.tables.cmdAddress b w.cmd) d) :=
  { h with
    held := by
      refine (map_holdsOf (fun e _ => ?_) fun e he hb => ?_).trans h.held
      · split
        · rfl
        · rfl
      · exact if_neg fun ha => hx (hb.symm.trans (h.placed.berth_of_address he ha))
    placed := fun e he => by
      obtain ⟨f, hf, rfl⟩ := List.mem_map.mp he
      split
      · exact h.placed f hf
      · exact h.placed f hf }

theorem guardBreaker {w : BreakerWord} (h : SparedBy b x s t) :
    SparedBy b x s (t.guardBreaker b w (t.tables.cmdAddress b w.cmd) d) := by
  refine (SparedBy.keptBy hx).guardBreaker h (fun e he => ?_) (h.supersede hx)
  have haddress : e.address = t.tables.cmdAddress b w.cmd := by simpa using List.find?_some he
  exact h.placed.berth_of_address (List.mem_of_find?_eq_some he) haddress

theorem commandWrite {w : CmdWord} (h : SparedBy b x s t) :
    SparedBy b x s (t.commandWrite b w (t.tables.cmdAddress b w) d) := by
  unfold State.commandWrite
  split
  · exact (SparedBy.keptBy hx).sink h
  · exact (SparedBy.keptBy hx).sink h
  · exact (SparedBy.keptBy hx).passWrite h
  · exact h.guardBreaker (w := .shoreBkr) hx
  · exact h.guardBreaker (w := .shipconBkr) hx

theorem writesReq {code : BitVec 4} {q : ReqBits} (hp : s.phase = .running) (h : SparedBy b x s s) :
    SparedBy b x s (s.writesReq b code q) :=
  h.berthWrites hp (event hx ((SparedBy.keptBy hx).examineReq ((SparedBy.keptBy hx).passWrite
    ((SparedBy.keptBy hx).clearMarks h))))

theorem writesCommand {w : CmdWord} (hp : s.phase = .running) (h : SparedBy b x s s) : SparedBy b x s (s.writesCommand b w d) :=
  h.berthWrites hp (event hx (((SparedBy.keptBy hx).clearMarks h).commandWrite hx))

/-! ## Expiries -/

theorem reachStep {base : TickBase} (h : SparedBy b x s t) : SparedBy b x s (t.reachStep b base) := by
  unfold State.reachStep
  split
  · exact { (SparedBy.keptBy hx).chan h with }
  · exact h

theorem stepExpiry (h : SparedBy b x s s) : SparedBy b x s (s.stepExpiry b) := by
  unfold State.stepExpiry
  split
  · have howed : SparedBy b x s (s.setOwed b (s.owed b).stepTaken) := { h with }
    exact event hx ((SparedBy.keptBy hx).stepExpired ((SparedBy.keptBy hx).stopStep ((SparedBy.keptBy hx).clearMarks howed)))
  · exact (h.reachStep hx).reachStep hx

theorem settleExpiry (h : SparedBy b x s s) : SparedBy b x s (s.settleExpiry b) := by
  unfold State.settleExpiry
  split
  · have howed : SparedBy b x s (s.setOwed b { s.owed b with settle := false }) := { h with }
    exact event hx ((SparedBy.keptBy hx).settleExpired ((SparedBy.keptBy hx).stopSettle ((SparedBy.keptBy hx).clearMarks howed)))
  · unfold State.reachSettle
    split
    · exact { (SparedBy.keptBy hx).chan h with }
    · exact h

/-- Only the berth's held writes are counted down (R126). -/
theorem tickHolds (h : SparedBy b x s t) : SparedBy b x s (t.setHolds (Machine.tickHolds t.holds b)) :=
  { h with
    held := by
      refine (map_holdsOf (fun e _ => ?_) fun e _ hb => ?_).trans h.held
      · split
        · exact e.tick_berth
        · rfl
      · exact if_neg fun hmine => hx (hb.symm.trans hmine)
    placed := fun e he => by
      obtain ⟨f, hf, rfl⟩ := List.mem_map.mp he
      split
      · rw [f.tick_berth, f.tick_address]
        exact h.placed f hf
      · exact h.placed f hf }

theorem holdExpiry (h : SparedBy b x s s) : SparedBy b x s (s.holdExpiry b) := by
  have howed : SparedBy b x s (s.setOwed b { s.owed b with hold := false }) := { h with }
  unfold State.holdExpiry
  split
  · next e he =>
    have hlast : s.lastHold b = some e := by
      rw [State.holdExpires] at he
      split at he
      · exact he
      · exact absurd he nofun
    have hmine : e.berth = b ∧ e.count ≤ 1 := by simpa using List.find?_some hlast
    have hmem : e ∈ s.holdsOf b := List.mem_filter.mpr ⟨List.mem_of_find?_eq_some hlast, decide_eq_true hmine.1⟩
    exact event hx ((SparedBy.keptBy hx).expireHold ((SparedBy.keptBy hx).clearMarks howed) hmem)
  · unfold State.reachHolds
    split
    · split
      · exact howed
      · split
        · exact h
        · exact { h.tickHolds hx with }
    · exact h

/-! ## The read of a berth's block (R54) -/

theorem scanReadDone {station : Option Word} {ws : List Word} (h : SparedBy b x s s)
    (hpass : s.scan.pass = some { block := .berth b, words := ws }) : SparedBy b x s (s.scanReadDone station) := by
  unfold State.scanReadDone
  rw [hpass]
  split
  · next a p _ heq =>
    obtain rfl := Option.some.inj heq
    have hread : SparedBy b x s (s.stationWrote a station).portFree := by
      cases station
      case none => exact { h with }
      case some => exact { h with }
    dsimp only
    generalize (s.stationWrote a station).portFree = u at hread
    unfold State.scanWord
    dsimp only
    split
    · exact { hread with }
    · have hjudged : SparedBy b x s (u.event fun t => t.judgeBlock (.berth b) (ws ++ [u.pimRead a])) :=
        event hx ((SparedBy.keptBy hx).judgeBerth ((SparedBy.keptBy hx).clearMarks hread))
      unfold State.passOn
      split
      · exact { hjudged with }
      · exact { hjudged with }
  · exact h

end SparedBy

/-- A command of a berth is a write to its REQ word or to a COMMAND word of its, or one of its expiries. -/
theorem exec_berth_cases {c : Instr} (h : c.berth? = some b) (s : State) :
    (∃ code q, exec c s = .next (s.writesReq b code q)) ∨ (∃ w d, exec c s = .next (s.writesCommand b w d))
      ∨ exec c s = .next (s.stepExpiry b) ∨ exec c s = .next (s.settleExpiry b) ∨ exec c s = .next (s.holdExpiry b) := by
  cases c
  case reqConnect => cases h; exact .inl ⟨_, _, exec_reqConnect _ _ s⟩
  case reqTransfer => cases h; exact .inl ⟨_, _, exec_reqTransfer _ _ s⟩
  case reqReturn => cases h; exact .inl ⟨_, _, exec_reqReturn _ _ s⟩
  case reqDisconnect => cases h; exact .inl ⟨_, _, exec_reqDisconnect _ _ s⟩
  case reqSetLevel => cases h; exact .inl ⟨_, _, exec_reqSetLevel _ _ s⟩
  case reqSetMode => cases h; exact .inl ⟨_, _, exec_reqSetMode _ _ s⟩
  case reqRelease => cases h; exact .inl ⟨_, _, exec_reqRelease _ _ s⟩
  case reqAbort => cases h; exact .inl ⟨_, _, exec_reqAbort _ _ s⟩
  case reqNone => cases h; exact .inl ⟨_, _, exec_reqNone _ _ s⟩
  case reqInvalidCode => cases h; exact .inl ⟨_, _, exec_reqInvalidCode _ _ _ s⟩
  case shoreBkrClose => cases h; exact .inr (.inl ⟨_, _, exec_shoreBkrClose _ s⟩)
  case shipconBkrClose => cases h; exact .inr (.inl ⟨_, _, exec_shipconBkrClose _ s⟩)
  case bkrWriteOpen => cases h; exact .inr (.inl ⟨_, _, exec_bkrWriteOpen _ _ s⟩)
  case bkrWriteNone => cases h; exact .inr (.inl ⟨_, _, exec_bkrWriteNone _ _ s⟩)
  case bkrWriteInvalidValue => cases h; exact .inr (.inl ⟨_, _, exec_bkrWriteInvalidValue _ _ _ s⟩)
  case genReleaseWrite => cases h; exact .inr (.inl ⟨_, _, exec_genReleaseWrite _ _ s⟩)
  case stepExpiry => cases h; exact .inr (.inr (.inl (exec_stepExpiry _ s)))
  case settleExpiry => cases h; exact .inr (.inr (.inr (.inl (exec_settleExpiry _ s))))
  case holdExpiry => cases h; exact .inr (.inr (.inr (.inr (exec_holdExpiry _ s))))
  all_goals exact absurd h nofun

/-! ## A group request (R115) -/

namespace Spared

/-- An event of a berth spares another, whichever berths its grants are for. -/
theorem event (hx : x ≠ b) {g : State → State} (h : Spared x s (g t.clearMarks)) : Spared x s (t.event g) :=
  (Spared.keptBy hx).event (fun _ hu c hc => Spared.keptBy (hu.noClaim c hc).symm) h

theorem fanOne {n : GroupCount} {e : GroupEntry} {code : BitVec 4} {op : BitVec 8} (hx : x ≠ b) (h : Spared x s t) :
    Spared x s (t.fanOne n e b code op).1 := by
  unfold State.fanOne
  split
  · exact h
  · have hturn : Spared x s (t.event fun u => u.takeRequest b code (!(u.berth b).lastTaken) op) :=
      event hx ((Spared.keptBy hx).takeRequest ((Spared.keptBy hx).clearMarks h))
    dsimp only
    split
    · exact hturn
    · exact hturn

/-- The members' turns spare a berth that is no member. -/
theorem fanOut {e : GroupEntry} {code : BitVec 4} {op : BitVec 8} (hx : e.members.getLsbD x.toNat = false) (l : List BerthId)
    (n : GroupCount) (h : Spared x s t) : Spared x s (t.fanOut n e code op l).1 := by
  induction l generalizing t n with
  | nil => exact h
  | cons b rest ih =>
    unfold State.fanOut
    split
    · next hb =>
      have hne : x ≠ b := fun heq => Bool.false_ne_true (hx.symm.trans (heq ▸ hb))
      exact ih _ (h.fanOne hne)
    · exact ih _ h

theorem examineGroup {g : GroupId} {w : Word} (hx : (t.tables.groups.get g).members.getLsbD x.toNat = false) (h : Spared x s t) :
    Spared x s (t.examineGroup g w) := by
  have htaken : Spared x s (t.setGroupTaken g (toggleOf w)) := { h with }
  unfold State.examineGroup
  split
  · exact h
  · unfold State.takeGroup
    dsimp only
    split
    · exact { htaken.fanOut hx BerthId.all _ with }
    · exact { htaken with }

/-- A berth that is no member is spared by a write to the group's word. -/
theorem writesGroup {g : GroupId} {code : BitVec 4} {q : ReqBits} (hp : s.phase = .running) (hc : s.budget.claims = [])
    (hx : (s.tables.groups.get g).members.getLsbD x.toNat = false) : Spared x s (s.writesGroup g code q) := by
  have h : Spared x s s := ⟨rfl, rfl, rfl, rfl, fun c hm => absurd (hc ▸ hm) List.not_mem_nil⟩
  obtain ⟨b, hb⟩ : ∃ b : BerthId, x ≠ b := by
    by_cases h0 : x = .b0
    · exact ⟨.b1, by rw [h0]; decide⟩
    · exact ⟨.b0, h0⟩
  unfold State.writesGroup
  split
  · exact h
  · unfold State.hostWrites
    split
    · exact h
    · rw [hp]
      have hpassed : Spared x s (s.clearMarks.passWrite (s.tables.groupReqAddress g) (reqWord code q)) :=
        (Spared.keptBy hb).passWrite ((Spared.keptBy hb).clearMarks h)
      exact event hb (hpassed.examineGroup hx)

end Spared

end Sys2Proof.Machine

open Sys2Proof Sys2Proof.Machine

/-- Settles O60: a berth's event spares every other berth, and the turns of a group's members every berth that is no member. -/
theorem otherBerthsAreLeftAlone : Obligations.OtherBerthsAreLeftAlone := by
  intro s c hp hc
  refine ⟨fun b x hx hplaced h => ?_, fun g x q hx h => ?_⟩
  · have hself : SparedBy b x s s := SparedBy.refl hc hplaced
    obtain ⟨t, ht, hspared⟩ : ∃ t, exec c s = .next t ∧ SparedBy b x s t := by
      rcases h with hb | ⟨station, ws, rfl, hpass⟩
      · rcases exec_berth_cases hb s with ⟨code, q, e⟩ | ⟨w, d, e⟩ | e | e | e
        · exact ⟨_, e, hself.writesReq hx hp⟩
        · exact ⟨_, e, hself.writesCommand hx hp⟩
        · exact ⟨_, e, hself.stepExpiry hx⟩
        · exact ⟨_, e, hself.settleExpiry hx⟩
        · exact ⟨_, e, hself.holdExpiry hx⟩
      · exact ⟨_, exec_scanReadComplete station s, hself.scanReadDone hx hpass⟩
    exact ⟨t, ht, ⟨hspared.berth, hspared.sup, hspared.chan, hspared.block, hspared.held⟩, hspared.groupTaken⟩
  · obtain ⟨code, hexec⟩ : ∃ code, exec c s = .next (s.writesGroup g code q) := by
      rcases h with ⟨k, hk⟩ | ⟨code, rfl⟩
      · exact ⟨_, (exec_groupCommands hk s).1⟩
      · exact ⟨code, exec_groupInvalid g code q s⟩
    have hspared := Spared.writesGroup (code := code) (q := q) hp hc hx
    exact ⟨_, hexec, hspared.berth, hspared.sup, hspared.chan, hspared.block⟩

end
